-- ==== Sys2Proof/Word.lean ====
section
/-!
DEFINITION. The two word types of the model: the byte of the bus and the sixteen-position mask of a strip.
-/

namespace Sys2Proof

/-- One byte on the bus, in a frame's body or in a payload (R166, R188). -/
abbrev Byte := BitVec 8

/-- A set of dot positions of one strip: bit p stands for dot position p (R1, R188). -/
abbrev Mask := BitVec 16

end Sys2Proof
end

