-- ==== Sys2Proof/Syntax.lean ====
section
/-!
DEFINITION. The commands of the block: one constructor of `Instr` for each row of spec/opcode_table.json.

A message row carries the frame's sequence and its payload bytes; the command is the event of the last byte of a
frame of that kind, good in its CRC, from source 0 and addressed to this unit (R172, R175; log 7).
-/

namespace Sys2Proof

/-- What begins a full reset (R187): power-on, or RESETN low for a time in microseconds. -/
inductive ResetCause where
  | powerOn
  | resetnLow (micros : Nat)
deriving DecidableEq, Repr

/-- The commands. The mnemonic of each constructor in the table is given by LAWS.json. -/
inductive Instr where
  /-- R185. -/
  | query (seq : Byte) (payload : List Byte)
  /-- R180. -/
  | configure (seq : Byte) (payload : List Byte)
  /-- R186, an addressed RESTART. -/
  | restart (seq : Byte) (payload : List Byte)
  /-- R22. -/
  | draw (seq : Byte) (payload : List Byte)
  /-- R33, a CANCEL that is not the all form. -/
  | cancel (seq : Byte) (payload : List Byte)
  /-- R35, a CANCEL with tag 0. -/
  | cancelAll (seq : Byte) (payload : List Byte)
  /-- R123. -/
  | resume (seq : Byte) (payload : List Byte)
  /-- R45, a SET VIEWPORT whose operation is not UNDEFINE. -/
  | setViewportDefine (seq : Byte) (payload : List Byte)
  /-- R46, a SET VIEWPORT whose operation is UNDEFINE. -/
  | setViewportUndefine (seq : Byte) (payload : List Byte)
  /-- R49. -/
  | getViewport (seq : Byte) (payload : List Byte)
  /-- R70. -/
  | setFont (seq : Byte) (payload : List Byte)
  /-- R72. -/
  | dropFont (seq : Byte) (payload : List Byte)
  /-- R73. -/
  | loadGlyph (seq : Byte) (payload : List Byte)
  /-- R76. -/
  | dropGlyph (seq : Byte) (payload : List Byte)
  /-- R16. -/
  | readImage (seq : Byte) (payload : List Byte)
  /-- R17. -/
  | listDeadDots (seq : Byte) (payload : List Byte)
  /-- R18. -/
  | forgetDeadDot (seq : Byte) (payload : List Byte)
  /-- R148, a SET ZONE whose operation is not UNDEFINE. -/
  | setZoneDefine (seq : Byte) (payload : List Byte)
  /-- R148, a SET ZONE whose operation is UNDEFINE. -/
  | setZoneUndefine (seq : Byte) (payload : List Byte)
  /-- R161. -/
  | collect (seq : Byte) (payload : List Byte)
  /-- R160. -/
  | subscribe (seq : Byte) (payload : List Byte)
  /-- R175, a frame of a kind that is not one of the eighteen messages. -/
  | unknownKind (seq : Byte) (kind : Byte) (payload : List Byte)
  /-- R173, a broadcast RESTART. -/
  | broadcastRestart (seq : Byte) (payload : List Byte)
  /-- R36, R173, a broadcast CANCEL. -/
  | broadcastCancel (seq : Byte) (payload : List Byte)
  /-- R171, a gap of more than 3 character times. -/
  | receiverGapTimeout
  /-- R167, R176. -/
  | replyStart
  /-- R167. -/
  | replyEnd
  /-- R187. -/
  | fullResetEntry (cause : ResetCause)
  /-- R187, with the strap levels read in the event (R165). -/
  | fullResetExit (addressStraps : BitVec 5) (rateStraps : BitVec 2)
  /-- R119: the overcurrent input rises; `level` is what the input is left at (log 2). -/
  | overcurrent (level : Bool)
  /-- R117. -/
  | rechargeStep
  /-- R113: bit p of `sense` is current sense input p, high when that coil drew current. -/
  | pulseEnd (sense : Mask)
  /-- R114. -/
  | gapEnd
  /-- R91: the generator's next event (log 6). -/
  | stripExamination
  /-- R128. -/
  | sweepExpiry
  /-- R141: bit i is set when beam i of that axis was broken in the scan. -/
  | scanEnd (xBroken : BitVec 48) (yBroken : BitVec 24)
  /-- R171: a character, its eight data bits and its stop bit (R166). -/
  | characterReceived (data : Byte) (stop : Bool)
  /-- R172: a frame with this unescaped body, its two CRC bytes included, completes. -/
  | frameDropped (body : List Byte)
deriving DecidableEq, Repr

end Sys2Proof
end

