-- ==== Sys2Proof/Decode.lean ====
section
/-!
DEFINITION. The command that a word spells by the bits of spec/opcode_table.json. No row of this block's table gives
bits ("fields" is empty in all 38), so no word spells a command. What the bytes of a frame spell is decoded by the
bus link (Machine/Link.lean), as R168 to R175 state.
-/

namespace Sys2Proof

/-- No row of the table gives bits, so every word spells no command. -/
def decodeTableWord (_nbits _w : Nat) : Option Instr := none

end Sys2Proof
end

