-- ==== Sys2Proof/Config.lean ====
section
/-!
DEFINITION. The numbers the manual fixes for the part, and the two that a board fixes (log 1, log 16).
-/

namespace Sys2Proof.Config

/-- Most host requests in the queue (R19). -/
def hostPool : Nat := 12
/-- Most echo requests in the queue (R19, R24). -/
def echoPool : Nat := 2
/-- Most operations in the ring (R95). -/
def ringSize : Nat := 32
/-- Most entries of the dead-dot table (R9). -/
def deadSize : Nat := 24
/-- Most entries of the report queue (R154). -/
def reportSize : Nat := 32
/-- Most report entries carried by one COLLECT reply (R162). -/
def collectMax : Nat := 8
/-- Most glyphs stored (R67). -/
def glyphMax : Nat := 320
/-- Column patterns of the glyph pool (R67). -/
def poolColumns : Nat := 2048
/-- Highest charge level (R116). -/
def chargeMax : Nat := 64
/-- Highest pass-over count (R108, R109). -/
def passOverMax : Nat := 4
/-- Voided scans in a row that set quiet pending (R143). -/
def voidedMax : Nat := 8
/-- Largest press and release count (R137). -/
def confirmMax : Nat := 8
/-- Largest scan count since the last report (R138). -/
def scanCountMax : Nat := 50
/-- Largest broken count of a beam (R144). -/
def brokenMax : Nat := 5000
/-- Where the operations-generated count stops (R20, R27). -/
def generatedMax : Nat := 65535
/-- Largest text cursor coordinate (R48). -/
def cursorMax : Int := 32767
/-- Viewports, fonts and zones held (R42, R66, R147). -/
def viewportCount : Nat := 8
def fontCount : Nat := 8
def zoneCount : Nat := 16
/-- Beams the two axes can have (R140). -/
def xBeamMax : Nat := 48
def yBeamMax : Nat := 24
/-- Longest payload of a frame (R168, R189). -/
def payloadMax : Nat := 200

/-- Family code in QUERY (R185). -/
def familyCode : Nat := 0x0240
/-- Silicon revision in QUERY: the revision the manual describes (R185). DEDUCED, log 16. -/
def siliconRevision : Nat := 3

/-- The address straps of `State.reset`: DESIGN CHOICE, log 1 (unsafe: the straps are the board's). -/
def resetAddressStraps : BitVec 5 := 1
/-- The bit-rate straps of `State.reset`: DESIGN CHOICE, log 1. -/
def resetRateStraps : BitVec 2 := 0

/-- START byte of a frame (R168, R189). -/
def startByte : Byte := 0xE7
/-- ESC byte of the escaped body (R169). -/
def escByte : Byte := 0xE8
/-- What an escaped byte is exclusive-ored with (R169). -/
def escMask : Byte := 0x20
/-- Destination of a broadcast frame (R172). -/
def broadcastAddress : Byte := 31

end Sys2Proof.Config
end

