-- ==== Sys2Proof/Machine/State.lean ====
section
/-!
DEFINITION. The state of the unit, block by block, and its value right after a full reset (R187). All of it is plain
data. INVENTORY.md lists each piece with the rule that names it.
-/

namespace Sys2Proof.Machine

/-! ### Dots, strips, masks (chapter 1) -/

/-- One of the three values of an image dot (R2). -/
inductive DotValue where
  | on
  | off
  | unknown
deriving DecidableEq, Repr

/-- A strip: the sixteen dots of one column within one strip row (R1). -/
structure Strip where
  col : Nat
  row : Nat
deriving DecidableEq, Repr

/-- What the image holds of one strip: its ON positions and its OFF positions; a position in neither is UNKNOWN (R2). -/
structure StripImage where
  on : Mask
  off : Mask
deriving DecidableEq, Repr

/-- The dot image (R2): the strips that have a known dot, in sweep order. A strip not listed is all UNKNOWN. -/
abbrev Image := List (Strip × StripImage)

/-- Which kind of operation found a dot dead (R8). -/
inductive SenseSource where
  | request
  | sweep
deriving DecidableEq, Repr

/-- An entry of the dead-dot table, in panel coordinates (R9). -/
structure DeadDot where
  x : Nat
  y : Nat
  source : SenseSource
deriving DecidableEq, Repr

/-! ### Ink, items and requests (chapters 2 and 3) -/

/-- What is wanted of one dot (R50). -/
inductive Action where
  | leave
  | set
  | clear
  | invert
deriving DecidableEq, Repr

/-- An ink rule: the ink action and the ground action (R50). -/
structure InkRule where
  ink : Action
  ground : Action
deriving DecidableEq, Repr

/-- The rule recorded in a request: a pair, or VIEWPORT, the viewport's default (R20). -/
inductive RuleChoice where
  | viewport
  | explicit (rule : InkRule)
deriving DecidableEq, Repr

/-- A rectangle in panel coordinates: left column, top row, size (R42, R147). -/
structure Rect where
  x : Nat
  y : Nat
  w : Nat
  h : Nat
deriving DecidableEq, Repr

/-- Style of a BOX item (R55). -/
inductive BoxStyle where
  | filled
  | outline
deriving DecidableEq, Repr

/-- One drawing item; coordinates are item coordinates (R52 to R57, R78, R85, R86). -/
inductive Item where
  | dot (x y : Int)
  | line (x0 y0 x1 y1 : Int)
  | box (x y : Int) (w h : Nat) (style : BoxStyle)
  | text (font : Nat) (start : Option (Int × Int)) (codes : List Nat)
  | image (x y : Int) (w h : Nat) (data : List Byte)
  | clear
  | cursor (x y : Int)
  | newline (rows : Nat)
deriving DecidableEq, Repr

/-- Who raised a request (R19). -/
inductive Origin where
  | host
  | echo
deriving DecidableEq, Repr

/-- State of a request (R20). -/
inductive ReqState where
  | queued
  | rastering
  | draining
deriving DecidableEq, Repr

/-- How a request left (R32). -/
inductive LeaveOutcome where
  | done
  | cancelled
  | failed
deriving DecidableEq, Repr

/-- Where generation of a request stands within the current item (R20, R83, R89, R90). -/
inductive Place where
  /-- The item has not been started. -/
  | itemStart
  /-- A graphic item: the next strip to examine. -/
  | strip (next : Strip)
  /-- A TEXT item: the index of the code whose glyph start comes next. -/
  | glyphStart (code : Nat)
  /-- Within a cell: the code's index, the cell's top-left dot in viewport coordinates, whether the text wrapped
  before it, and the next strip to examine. -/
  | cell (code : Nat) (x y : Int) (wrapped : Bool) (next : Strip)
deriving DecidableEq, Repr

/-- A request's progress: the index of the current item, and the place within it (R20). -/
structure Progress where
  item : Nat
  place : Place
deriving DecidableEq, Repr

/-- The progress of a request as it joins: its first item, at its start (R20, R26). -/
def Progress.start : Progress := ⟨0, .itemStart⟩

/-- The record of a request (R20), its fields in the order of R20's table. -/
structure Request where
  tag : Nat
  origin : Origin
  viewport : Nat
  rule : RuleChoice
  force : Bool
  items : List Item
  state : ReqState
  progress : Progress
  outstanding : Nat
  generated : Nat
  itemsDone : Nat
  cancelMark : Bool
  clipped : Bool
  missingGlyph : Bool
  dotsStruck : Bool
deriving DecidableEq, Repr

/-- The request queue, oldest first, with the tag counter (R19, R21). -/
structure RequestQueue where
  requests : List Request
  tagCounter : Nat
deriving DecidableEq, Repr

/-- A viewport's record (R42). -/
structure Viewport where
  defined : Bool
  rect : Rect
  rule : InkRule
  wrap : Bool
  cx : Int
  cy : Int
deriving DecidableEq, Repr

/-! ### Glyph store (chapter 4) -/

/-- A font's record (R66). -/
structure Font where
  defined : Bool
  height : Nat
  spacing : Nat
  lineGap : Nat
  defaultCode : Option Nat
deriving DecidableEq, Repr

/-- One column pattern: bit j is the dot in glyph row j, for heights up to 32 (R67). -/
abbrev Pattern := BitVec 32

/-- A stored glyph, keyed by font and code; its width is the number of its column patterns (R67). -/
structure Glyph where
  font : Nat
  code : Nat
  columns : List Pattern
deriving DecidableEq, Repr

/-- Font table, glyph table and the count of free columns (R66, R67). -/
structure GlyphStore where
  fonts : List Font
  glyphs : List Glyph
  freeColumns : Nat
deriving DecidableEq, Repr

/-! ### Strip generator and operation ring (chapter 5) -/

/-- The values read at an item's start (R87, R88). -/
structure ItemValues where
  rect : Rect
  rule : InkRule
  wrap : Bool
  force : Bool
deriving DecidableEq, Repr

/-- The latched glyph: its column patterns with its font's height, spacing and line gap (R77). -/
structure Latch where
  columns : List Pattern
  height : Nat
  spacing : Nat
  lineGap : Nat
deriving DecidableEq, Repr

/-- The strip generator's state (R87). Its current item and place are the progress of the current request "seen from the
generator's side": they are stored once, in that request's record (`State.progress` reads them). -/
structure Generator where
  current : Option Nat
  values : Option ItemValues
  latch : Option Latch
  waiting : Option Strip
deriving DecidableEq, Repr

/-- The masks of a strip-operation and the strip they name (R95, R131). -/
structure StripOp where
  strip : Strip
  setMask : Mask
  clearMask : Mask
deriving DecidableEq, Repr

/-- An operation in the ring, with the tag of its request (R95). -/
structure RingOp where
  tag : Nat
  op : StripOp
deriving DecidableEq, Repr

/-! ### Pulse driver and charge budget (chapter 6) -/

/-- Driver state (R106). -/
inductive DriverState where
  | idle
  | waitCharge
  | pulse
  | gap
  | held
deriving DecidableEq, Repr

/-- Phase of an operation (R106). -/
inductive Phase where
  | set
  | clear
deriving DecidableEq, Repr

/-- The phase record of one phase of the operation in hand (R106). -/
inductive PhaseStatus where
  | notRun
  | notBegun
  | pulsing
  | completed
deriving DecidableEq, Repr

/-- Where the operation in hand came from: a ring operation's tag, or the sweep marker (R106). -/
inductive HandSource where
  | ring (tag : Nat)
  | sweep
deriving DecidableEq, Repr

/-- The operation in the driver's hand (R106). -/
structure Hand where
  source : HandSource
  op : StripOp
  phase : Phase
  setStatus : PhaseStatus
  clearStatus : PhaseStatus
deriving DecidableEq, Repr

/-- The pulse driver (R106). A latched value is `none` when there is none (R125). -/
structure Driver where
  state : DriverState
  hand : Option Hand
  pulseLength : Option Nat
  phaseGap : Option Nat
  passOver : Nat
deriving DecidableEq, Repr

/-- The charge budget: its level, and the period after which the recharge step now due falls (R116, R117). -/
structure Charge where
  level : Nat
  due : Nat
deriving DecidableEq, Repr

/-! ### Re-assertion sweep (chapter 7) -/

/-- Cursor, slot and timer (R127). The timer is `none` when STOPPED; RUNNING, it holds the interval after which the
expiry now due falls. -/
structure Sweep where
  cursor : Strip
  slot : Option StripOp
  timer : Option Nat
deriving DecidableEq, Repr

/-! ### Touch scanner, contact and zones (chapter 8) -/

/-- The running scan: the scan period read at its start, and whether a pulse was in progress in it (R141, R142). -/
structure Scan where
  period : Nat
  sawPulse : Bool
deriving DecidableEq, Repr

/-- Scanner state (R141, R143). Quiet pending is set exactly in QUIET_WAIT and QUIET. -/
inductive Scanner where
  | off
  | scanning (scan : Scan)
  | quietWait
  | quiet (scan : Scan)
deriving DecidableEq, Repr

/-- A beam's broken count and its membership of the blocked set (R144). -/
structure Beam where
  broken : Nat
  blocked : Bool
deriving DecidableEq, Repr

/-- Echo mode of a zone (R147). -/
inductive EchoMode where
  | none
  | press
  | hold
deriving DecidableEq, Repr

/-- The contact (R138, R139, R149). Zone 0 means no zone; it has no captured rectangle. -/
structure Contact where
  number : Nat
  x : Nat
  y : Nat
  sinceReport : Nat
  zone : Nat
  captured : Option Rect
  echoMode : EchoMode
  releaseEchoDue : Bool
deriving DecidableEq, Repr

/-- The contact state with what it holds (R136, R137). -/
inductive ContactState where
  | none
  | arming (x y count : Nat)
  | down (contact : Contact)
  | releasing (contact : Contact) (count : Nat)
deriving DecidableEq, Repr

/-- The touch scanner (R136 to R145). All 48 x beams and 24 y beams have a place, whatever the beam settings. -/
structure Touch where
  scanner : Scanner
  voided : Nat
  xBeams : List Beam
  yBeams : List Beam
  contact : ContactState
  contactCounter : Nat
deriving DecidableEq, Repr

/-- A zone (R147). -/
structure Zone where
  defined : Bool
  rect : Rect
  echo : EchoMode
deriving DecidableEq, Repr

/-! ### Reports (chapter 9) -/

/-- Report class (R154). -/
inductive ReportClass where
  | completion
  | touch
  | beam
  | dot
  | driver
deriving DecidableEq, Repr

/-- Axis of a beam (R140). -/
inductive Axis where
  | x
  | y
deriving DecidableEq, Repr

/-- A report's record (R155). -/
inductive Report where
  | completion (tag : Nat) (outcome : LeaveOutcome) (generated itemsDone : Nat)
      (clipped missingGlyph dotsStruck : Bool)
  | press (contact x y zone : Nat) (echo : Bool)
  | move (contact x y zone : Nat) (inside : Bool)
  | release (contact x y zone : Nat) (inside echo : Bool)
  | beam (axis : Axis) (number : Nat) (blocked : Bool)
  | dot (x y : Nat) (source : SenseSource) (recorded : Bool)
  | driver (strip : Strip) (phase : Phase)
deriving DecidableEq, Repr

/-- An entry of the report queue (R154). -/
structure Entry where
  number : Nat
  report : Report
  sent : Bool
deriving DecidableEq, Repr

/-- The report queue (R154, R156, R158, R159, R160). Bit c - 1 of the subscription stands for class code c (R188). -/
structure ReportQueue where
  entries : List Entry
  counter : Nat
  lost : Bool
  subscription : BitVec 5
  coalesce : Option Nat
deriving DecidableEq, Repr

/-! ### Bus link (chapter 10) -/

/-- The receiver (R171): the unescaped body bytes taken so far and the CRC register (R170). -/
inductive Receiver where
  | hunt
  | body (bytes : List Byte) (crc : BitVec 16)
  | escape (bytes : List Byte) (crc : BitVec 16)
deriving DecidableEq, Repr

/-- The transmitter (R167): the reply body, and whether a restart takes effect when it has gone (R177). -/
inductive Transmitter where
  | idle
  | turnaround (reply : List Byte) (restartAfter : Bool)
  | sending (reply : List Byte) (restartAfter : Bool)
deriving DecidableEq, Repr

/-- The bus link: straps as read, receiver, transmitter and reply cache (R165, R167, R171, R174). -/
structure Link where
  addressStraps : BitVec 5
  rateStraps : BitVec 2
  rx : Receiver
  tx : Transmitter
  cache : Option (Byte × List Byte)
deriving DecidableEq, Repr

/-! ### Settings (chapter 11) -/

/-- The nineteen settings, in the order of their ids (R179). -/
structure Settings where
  columns : Nat
  stripRows : Nat
  pulseLength : Nat
  phaseGap : Nat
  rechargePeriod : Nat
  sweepInterval : Nat
  touchEnable : Nat
  xBeams : Nat
  yBeams : Nat
  xOrigin : Nat
  xPitch : Nat
  yOrigin : Nat
  yPitch : Nat
  scanPeriod : Nat
  pressConfirm : Nat
  releaseConfirm : Nat
  moveThreshold : Nat
  moveInterval : Nat
  blockedLimit : Nat
deriving DecidableEq, Repr

/-! ### The whole unit -/

/-- The unit. `pending` is the block's queue of commands waiting, oldest first. -/
structure State where
  inReset : Bool
  ocin : Bool
  settings : Settings
  link : Link
  image : Image
  dead : List DeadDot
  queue : RequestQueue
  viewports : List Viewport
  store : GlyphStore
  gen : Generator
  ring : List RingOp
  driver : Driver
  charge : Charge
  sweep : Sweep
  touch : Touch
  zones : List Zone
  reports : ReportQueue
  pending : List Instr
deriving DecidableEq, Repr

/-- Why a command could stop the unit with a fault: for no reason. The manual names no behaviour that stops the unit;
every command has an effect (log 14). Safe: no command is stopped. -/
inductive Fault
deriving DecidableEq, Repr

/-- Why a command could be refused by the model. -/
inductive Refusal where
  /-- Raised only by an arm of `exec` whose command has no meaning yet; no arm raises it. Safe: the model says nothing
  of such a command. -/
  | notModelled (mnemonic : String)
deriving DecidableEq, Repr

/-! ### After a full reset -/

/-- The settings' defaults (R179). -/
def Settings.default : Settings where
  columns := 96
  stripRows := 2
  pulseLength := 500
  phaseGap := 200
  rechargePeriod := 100
  sweepInterval := 0
  touchEnable := 0
  xBeams := 24
  yBeams := 8
  xOrigin := 2
  xPitch := 4
  yOrigin := 2
  yPitch := 4
  scanPeriod := 10
  pressConfirm := 2
  releaseConfirm := 3
  moveThreshold := 2
  moveInterval := 5
  blockedLimit := 500

/-- The named rule PRINT (R50). -/
def InkRule.print : InkRule := ⟨.set, .clear⟩

/-- An undefined viewport's record (R42). -/
def Viewport.undefined : Viewport := ⟨false, ⟨0, 0, 0, 0⟩, ⟨.leave, .leave⟩, false, 0, 0⟩

/-- Viewport 0 over a whole panel of the given shape, as a full reset and a geometry change leave it (R43). -/
def Viewport.wholePanel (columns stripRows : Nat) : Viewport :=
  ⟨true, ⟨0, 0, columns, 16 * stripRows⟩, .print, true, 0, 0⟩

/-- The viewport table of a full reset or a geometry change (R43). -/
def freshViewports (columns stripRows : Nat) : List Viewport :=
  .wholePanel columns stripRows :: List.replicate (Config.viewportCount - 1) .undefined

/-- An undefined font's record (R66). -/
def Font.undefined : Font := ⟨false, 0, 0, 0, none⟩

/-- An undefined zone (R147). -/
def Zone.undefined : Zone := ⟨false, ⟨0, 0, 0, 0⟩, .none⟩

/-- The generator when it is free: no request, no waiting strip, empty latch (R87). That it holds no item values either is
the model's choice (DESIGN CHOICE, log 20); it has no current item and no place, as it has no request. -/
def Generator.free : Generator := ⟨none, none, none, none⟩

/-- A beam with count 0 and not blocked (R145). -/
def Beam.clear : Beam := ⟨0, false⟩

/-- The state every block takes at the end of a full reset, with the straps read there (R165, R187). The overcurrent
input is a pin and keeps its level (log 2). -/
def State.afterFullReset (addressStraps : BitVec 5) (rateStraps : BitVec 2) (ocin : Bool) (pending : List Instr) :
    State where
  inReset := false
  ocin := ocin
  settings := .default
  link := ⟨addressStraps, rateStraps, .hunt, .idle, none⟩
  image := []
  dead := []
  queue := ⟨[], 1⟩
  viewports := freshViewports 96 2
  store := ⟨List.replicate Config.fontCount .undefined, [], Config.poolColumns⟩
  gen := .free
  ring := []
  driver := ⟨.idle, none, none, none, 0⟩
  charge := ⟨0, 100⟩
  sweep := ⟨⟨0, 0⟩, none, none⟩
  touch := ⟨.off, 0, List.replicate Config.xBeamMax .clear, List.replicate Config.yBeamMax .clear, .none, 0⟩
  zones := List.replicate Config.zoneCount .undefined
  reports := ⟨[], 1, false, BitVec.allOnes 5, none⟩
  pending := pending

/-- The unit right after a full reset on a board strapped as log 1 says, with no command waiting. -/
def State.reset : State := .afterFullReset Config.resetAddressStraps Config.resetRateStraps false []

end Sys2Proof.Machine
end

