-- ==== Sys2Proof/Machine/Ops.lean ====
section
/-!
DEFINITION. Operations shared by the families: bytes, strips and masks, the dot image, the report queue's offers, and
the records of the request queue.
-/

namespace Sys2Proof.Machine

/-! ### Bytes (R188) -/

/-- A number below 256 as a byte. -/
def byte (n : Nat) : Byte := BitVec.ofNat 8 n

/-- A yes/no field: 1 for yes (R188). -/
def boolByte (b : Bool) : Byte := if b then 1 else 0

/-- A field of two bytes, low byte first (R188). -/
def le16 (lo hi : Byte) : Nat := lo.toNat + 256 * hi.toNat

/-- A two-byte field as it is sent, low byte first (R188). -/
def le16Bytes (n : Nat) : List Byte := [byte n, byte (n / 256)]

/-- A signed two-byte field in two's complement (R188). -/
def signed16 (lo hi : Byte) : Int := if le16 lo hi < 32768 then le16 lo hi else (le16 lo hi : Int) - 65536

/-- A signed value as a two-byte field in two's complement (R188). -/
def signed16Bytes (i : Int) : List Byte := le16Bytes (i % 65536).toNat

/-- `ceil (h / 8)`: the bytes of one column of height h (R56, R73). -/
def columnBytes (h : Nat) : Nat := (h + 7) / 8

/-! ### Strips and masks (R1) -/

/-- The mask of the positions that satisfy `f`. -/
def maskOf (f : Nat → Bool) : Mask := BitVec.ofFnLE fun i : Fin 16 => f i

/-- The number of positions in a mask: the charge a phase needs (R111). -/
def maskCount (m : Mask) : Nat := ((List.range 16).filter m.getLsbD).length

/-- The row of a strip's dot position in the panel (R1). -/
def Strip.rowOf (t : Strip) (p : Nat) : Nat := 16 * t.row + p

/-- The strip that holds dot (x, y) (R1). -/
def stripOf (x y : Nat) : Strip := ⟨x, y / 16⟩

/-- The strip lies inside a panel of the given shape (R1). -/
def Strip.inside (t : Strip) (columns stripRows : Nat) : Bool := t.col < columns && t.row < stripRows

/-- Strict sweep order: by column, then by strip row (R127). It is also the strip order of R89. -/
def Strip.before (a b : Strip) : Bool := a.col < b.col || (a.col == b.col && a.row < b.row)

/-- Every strip of the panel in sweep order (R89, R127). -/
def panelStrips (columns stripRows : Nat) : List Strip :=
  (List.range columns).flatMap fun c => (List.range stripRows).map fun k => ⟨c, k⟩

/-- The strip after `t` in sweep order, coming round at the end of the panel (R127). -/
def nextInSweep (columns stripRows : Nat) (t : Strip) : Strip :=
  if t.row + 1 < stripRows then ⟨t.col, t.row + 1⟩
  else if t.col + 1 < columns then ⟨t.col + 1, 0⟩
  else ⟨0, 0⟩

/-- The rectangle holds panel dot (x, y) (R42, R139). -/
def Rect.holds (r : Rect) (x y : Nat) : Bool := r.x ≤ x && x < r.x + r.w && r.y ≤ y && y < r.y + r.h

/-- The rectangle lies inside a panel of the given shape and holds a dot (R42, R147). -/
def Rect.inPanel (r : Rect) (columns stripRows : Nat) : Bool :=
  1 ≤ r.w && 1 ≤ r.h && r.x + r.w ≤ columns && r.y + r.h ≤ 16 * stripRows

/-! ### The dot image (R2 to R7) -/

/-- A strip with no known dot. -/
def StripImage.unknown : StripImage := ⟨0, 0⟩

/-- The value of a strip's dot (R2). -/
def StripImage.dot (v : StripImage) (p : Nat) : DotValue :=
  if v.on.getLsbD p then .on else if v.off.getLsbD p then .off else .unknown

/-- The known mask of a strip (R16). -/
def StripImage.known (v : StripImage) : Mask := v.on ||| v.off

/-- The image of one strip: an unlisted strip is all UNKNOWN. -/
def imageGet : Image → Strip → StripImage
  | [], _ => .unknown
  | (k, v) :: rest, t => if k = t then v else imageGet rest t

/-- The image with one strip's value put in its place in sweep order, not listed when all UNKNOWN. -/
def imageSet : Image → Strip → StripImage → Image
  | [], t, v => if v = .unknown then [] else [(t, v)]
  | (k, w) :: rest, t, v =>
    if k = t then (if v = .unknown then rest else (t, v) :: rest)
    else if t.before k then (if v = .unknown then (k, w) :: rest else (t, v) :: (k, w) :: rest)
    else (k, w) :: imageSet rest t v

/-- The canonical form of the image: strips strictly rising in sweep order, none all UNKNOWN. -/
def imageWf (im : Image) : Bool :=
  decide (im.Pairwise fun a b => a.1.before b.1 = true) && im.all fun e => e.2 != .unknown

/-- The value of panel dot (x, y) (R1, R2). -/
def imageDot (im : Image) (x y : Nat) : DotValue := (imageGet im (stripOf x y)).dot (y % 16)

/-- Commit: set-mask dots become ON, clear-mask dots OFF, the others keep their values (R3). -/
def StripImage.commit (v : StripImage) (setMask clearMask : Mask) : StripImage :=
  ⟨(v.on &&& ~~~clearMask) ||| setMask, (v.off &&& ~~~setMask) ||| clearMask⟩

/-- The dots of a mask become UNKNOWN (R5, R6). -/
def StripImage.lose (v : StripImage) (m : Mask) : StripImage := ⟨v.on &&& ~~~m, v.off &&& ~~~m⟩

/-- Commit of an operation to the image (R3). -/
def commitOp (im : Image) (op : StripOp) : Image :=
  imageSet im op.strip ((imageGet im op.strip).commit op.setMask op.clearMask)

/-- The dots of a mask of one strip become UNKNOWN (R5, R6, R10). -/
def loseDots (im : Image) (t : Strip) (m : Mask) : Image := imageSet im t ((imageGet im t).lose m)

/-- The operation names the position: it is in its set mask or its clear mask (R5). -/
def StripOp.named (op : StripOp) : Mask := op.setMask ||| op.clearMask

/-- Every dot named by an operation of the list becomes UNKNOWN (R5). -/
def loseOps (im : Image) (ops : List RingOp) : Image :=
  ops.foldl (fun im o => loseDots im o.op.strip o.op.named) im

/-- The dot is recorded in the dead-dot table (R9). -/
def recorded (dead : List DeadDot) (x y : Nat) : Bool := dead.any fun d => d.x == x && d.y == y

/-! ### Numbers that pass over those in use (R21, R156) -/

/-- The number after `n`: upward, from 65535 to 1. -/
def nextNumber (n : Nat) : Nat := if 65535 ≤ n then 1 else n + 1

/-- The first number from `n` on, of the next `fuel`, that is not in use. -/
def firstFree (used : List Nat) : Nat → Nat → Nat
  | 0, n => n
  | fuel + 1, n => if used.contains n then firstFree used fuel (nextNumber n) else n

/-- The number the counter gives while the numbers of `used` are taken: one more try than there are numbers. -/
def freeNumber (used : List Nat) (counter : Nat) : Nat := firstFree used (used.length + 1) counter

/-! ### The report queue (R154 to R159) -/

/-- The class of a report (R155). -/
def Report.cls : Report → ReportClass
  | .completion .. => .completion
  | .press .. | .move .. | .release .. => .touch
  | .beam .. => .beam
  | .dot .. => .dot
  | .driver .. => .driver

/-- The code of a class (R188). -/
def ReportClass.code : ReportClass → Nat
  | .completion => 1
  | .touch => 2
  | .beam => 3
  | .dot => 4
  | .driver => 5

/-- The report is a MOVE. -/
def Report.isMove : Report → Bool
  | .move .. => true
  | _ => false

/-- The class is in the subscription (R160). -/
def ReportQueue.subscribed (q : ReportQueue) (c : ReportClass) : Bool := q.subscription.getLsbD (c.code - 1)

/-- The numbers of the entries in the queue. -/
def ReportQueue.numbers (q : ReportQueue) : List Nat := q.entries.map (·.number)

/-- The report joins at the newest end with the counter's next free number, unsent (R156); a MOVE takes the coalescing
reference (R158). -/
def ReportQueue.join (q : ReportQueue) (r : Report) : ReportQueue :=
  let n := freeNumber q.numbers q.counter
  { q with
    entries := q.entries ++ [⟨n, r, false⟩]
    counter := nextNumber n
    coalesce := if r.isMove then some n else q.coalesce }

/-- The entry that a MOVE offered now replaces: the one the coalescing reference names (R158). -/
def ReportQueue.replaced (q : ReportQueue) (r : Report) : Option Nat :=
  if r.isMove then q.coalesce.filter fun n => q.numbers.contains n else none

/-- A report is offered: tests for subscription, coalescing, room, in that order (R157). -/
def ReportQueue.offer (q : ReportQueue) (r : Report) : ReportQueue :=
  if !q.subscribed r.cls then q
  else
    match q.replaced r with
    | some n => { q with entries := q.entries.filter fun e => e.number != n }.join r
    | none => if q.entries.length < Config.reportSize then q.join r else { q with lost := true }

/-- A report is offered to the unit's report queue (R157). -/
def State.offer (s : State) (r : Report) : State := { s with reports := s.reports.offer r }

/-- The coalescing reference is cleared, as when a contact ends (R158). -/
def State.clearCoalesce (s : State) : State := { s with reports := { s.reports with coalesce := none } }

/-! ### Requests (R19 to R31) -/

/-- The request with a tag. -/
def State.request (s : State) (tag : Nat) : Option Request := s.queue.requests.find? fun r => r.tag == tag

/-- The record of the request with a tag is changed. -/
def State.changeRequest (s : State) (tag : Nat) (f : Request → Request) : State :=
  { s with queue := { s.queue with requests := s.queue.requests.map fun r => if r.tag == tag then f r else r } }

/-- The place of the request with a tag is changed (R83, R87). -/
def State.setPlace (s : State) (tag : Nat) (p : Place) : State :=
  s.changeRequest tag fun r => { r with progress := { r.progress with place := p } }

/-- The generator's current item and place: the progress of the request it works on, none when it is free (R87). -/
def State.progress (s : State) : Option Progress := (s.gen.current.bind s.request).map (·.progress)

/-- The requests of one origin (R19). -/
def State.pool (s : State) (o : Origin) : List Request := s.queue.requests.filter fun r => r.origin == o

/-- A request joins at the newest end with the next free tag (R19, R20, R21). -/
def State.joinRequest (s : State) (origin : Origin) (viewport : Nat) (rule : RuleChoice) (force : Bool)
    (items : List Item) : State :=
  let tag := freeNumber (s.queue.requests.map (·.tag)) s.queue.tagCounter
  { s with
    queue :=
      ⟨s.queue.requests ++
          [⟨tag, origin, viewport, rule, force, items, .queued, .start, 0, 0, 0, false, false, false, false⟩],
        nextNumber tag⟩ }

/-- The tag the next request to join takes (R21). -/
def State.nextTag (s : State) : Nat := freeNumber (s.queue.requests.map (·.tag)) s.queue.tagCounter

/-- The COMPLETION report of a request that leaves (R32). The fail cause follows from the outcome. -/
def Request.completion (r : Request) (o : LeaveOutcome) : Report :=
  .completion r.tag o r.generated r.itemsDone r.clipped r.missingGlyph r.dotsStruck

/-- A request leaves with an outcome; a host request offers its COMPLETION report (R31). -/
def State.leave (s : State) (r : Request) (o : LeaveOutcome) : State :=
  let s := { s with queue := { s.queue with requests := s.queue.requests.filter fun q => q.tag != r.tag } }
  if r.origin = .host then s.offer (r.completion o) else s

/-- One of a request's operations has completed or been struck away: its outstanding count falls by 1, and a DRAINING
request that comes to 0 leaves, CANCELLED if marked, DONE otherwise (R29, R30). -/
def State.settleOne (s : State) (tag : Nat) : State :=
  match s.request tag with
  | none => s
  | some r =>
    let r' := { r with outstanding := r.outstanding - 1 }
    let s := s.changeRequest tag fun r => { r with outstanding := r.outstanding - 1 }
    if r.state = .draining ∧ r'.outstanding = 0 then
      s.leave r' (if r.cancelMark then .cancelled else .done)
    else s

/-! ### The generator arbiter (R25) -/

/-- The request the arbiter takes: the oldest QUEUED echo, otherwise the oldest QUEUED host request. -/
def State.arbiterChoice (s : State) : Option Request :=
  match s.queue.requests.find? fun r => r.state == .queued && r.origin == .echo with
  | some r => some r
  | none => s.queue.requests.find? fun r => r.state == .queued

/-- The generator arbiter: when the generator is free and the driver is not HELD, it makes its choice RASTERING, its
progress at the start of its first item (R25, R26). -/
def State.generatorArbiter (s : State) : State :=
  if s.gen.current.isSome ∨ s.driver.state = .held then s
  else
    match s.arbiterChoice with
    | none => s
    | some r =>
      { s.changeRequest r.tag fun r => { r with state := .rastering, progress := .start } with
        gen := { Generator.free with current := some r.tag } }

/-- Generation of the current request stops and the generator is free: the waiting strip is cleared, a cell in progress
is abandoned without its cursor update, the latch is emptied (R84, R100, R102). The request's record keeps its progress
where it stands (R33). -/
def State.freeGenerator (s : State) : State := { s with gen := .free }

/-! ### Viewports (R42, R48) -/

/-- A viewport's record. -/
def State.viewport (s : State) (id : Nat) : Viewport := s.viewports.getD id .undefined

/-- A viewport's record is replaced. -/
def State.setViewport (s : State) (id : Nat) (v : Viewport) : State := { s with viewports := s.viewports.set id v }

/-- A cursor coordinate increased, left at 32767 when it would pass it (R48). -/
def raiseCursor (c : Int) (by' : Nat) : Int := min (c + by') Config.cursorMax

/-! ### Messages -/

/-- Result codes of a reply (R189). -/
inductive Result where
  | ok
  | unknownKind
  | badLength
  | badField
  | queueFull
  | busy
  | held
  | noRoom
  | notFound
  | tooLate
  | inUse
  | notHeld
deriving DecidableEq, Repr

/-- The code of a result (R189). -/
def Result.code : Result → Byte
  | .ok => 0
  | .unknownKind => 1
  | .badLength => 2
  | .badField => 3
  | .queueFull => 4
  | .busy => 5
  | .held => 6
  | .noRoom => 7
  | .notFound => 8
  | .tooLate => 9
  | .inUse => 10
  | .notHeld => 11

/-- A reply's payload: its result code, and its fields when it has any (R189, R190). -/
abbrev Reply := List Byte

/-- OK with the fields of an OK reply. -/
def okReply (fields : List Byte) : Reply := Result.ok.code :: fields

/-- A result sent as its code alone (R190). -/
def plainReply (r : Result) : Reply := [r.code]

/-- BAD_FIELD with the index byte of the failing field (R190). -/
def badFieldReply (index : Nat) : Reply := [Result.badField.code, byte index]

/-- The index of the first check that fails, of those in list order (R44, R70, R148). -/
def firstFailing : List (Nat × Bool) → Option Nat
  | [] => none
  | (i, ok) :: rest => if ok then firstFailing rest else some i

end Sys2Proof.Machine
end

