-- ==== Sys2Proof/Machine/Operands.lean ====
section
/-!
DEFINITION. What the payload bytes of a message mean: message kinds and their lengths (R190), codes (R188), the walk
over a DRAW's header and items (R61 to R63, R191), and the pairs of a CONFIGURE (R180).
-/

namespace Sys2Proof.Machine

/-- The eighteen message kinds (R190). -/
inductive MsgKind where
  | query
  | configure
  | restart
  | draw
  | cancel
  | resume
  | setViewport
  | getViewport
  | setFont
  | dropFont
  | loadGlyph
  | dropGlyph
  | readImage
  | listDeadDots
  | forgetDeadDot
  | setZone
  | collect
  | subscribe
deriving DecidableEq, Repr

/-- The kind's code (R190). -/
def MsgKind.code : MsgKind → Byte
  | .query => 0x01
  | .configure => 0x02
  | .restart => 0x03
  | .draw => 0x10
  | .cancel => 0x11
  | .resume => 0x12
  | .setViewport => 0x20
  | .getViewport => 0x21
  | .setFont => 0x28
  | .dropFont => 0x29
  | .loadGlyph => 0x2A
  | .dropGlyph => 0x2B
  | .readImage => 0x30
  | .listDeadDots => 0x31
  | .forgetDeadDot => 0x32
  | .setZone => 0x40
  | .collect => 0x48
  | .subscribe => 0x49

/-- Every message kind. -/
def MsgKind.all : List MsgKind :=
  [.query, .configure, .restart, .draw, .cancel, .resume, .setViewport, .getViewport, .setFont, .dropFont, .loadGlyph,
    .dropGlyph, .readImage, .listDeadDots, .forgetDeadDot, .setZone, .collect, .subscribe]

/-- The message kind of a kind byte (R175). -/
def msgKindOf (b : Byte) : Option MsgKind := MsgKind.all.find? fun k => k.code == b

/-- The payload lengths the link accepts for a kind (R190). -/
def MsgKind.accepts : MsgKind → Nat → Bool
  | .query, n | .restart, n | .resume, n | .listDeadDots, n => n == 0
  | .configure, n => 3 ≤ n && n ≤ 57 && n % 3 == 0
  | .draw, n => 6 ≤ n && n ≤ 200
  | .cancel, n | .dropGlyph, n | .forgetDeadDot, n | .collect, n => n == 2
  | .setViewport, n => n == 14
  | .getViewport, n | .dropFont, n | .subscribe, n => n == 1
  | .setFont, n => n == 6
  | .loadGlyph, n => 3 ≤ n && n ≤ 200
  | .readImage, n => n == 3
  | .setZone, n => n == 7

/-- Payload byte `i` (a payload of an accepted length has it). -/
def field (p : List Byte) (i : Nat) : Byte := p.getD i 0

/-- Payload byte `i` as a number. -/
def fieldNat (p : List Byte) (i : Nat) : Nat := (field p i).toNat

/-- The two-byte field at byte `i`. -/
def field16 (p : List Byte) (i : Nat) : Nat := le16 (field p i) (field p (i + 1))

/-- The signed two-byte field at byte `i`. -/
def fieldSigned (p : List Byte) (i : Nat) : Int := signed16 (field p i) (field p (i + 1))

/-- The action of a code (R188). -/
def actionOf (n : Nat) : Option Action :=
  match n with
  | 0 => some .leave
  | 1 => some .set
  | 2 => some .clear
  | 3 => some .invert
  | _ => none

/-- The code of an action (R188). -/
def Action.code : Action → Nat
  | .leave => 0
  | .set => 1
  | .clear => 2
  | .invert => 3

/-- The echo mode of a code (R188). -/
def echoModeOf (n : Nat) : Option EchoMode :=
  match n with
  | 0 => some .none
  | 1 => some .press
  | 2 => some .hold
  | _ => none

/-- The ink rule carried by two action bytes. -/
def inkRuleOf (ink ground : Nat) : Option InkRule :=
  match actionOf ink, actionOf ground with
  | some a, some b => some ⟨a, b⟩
  | _, _ => none

/-! ### Items (R63, R191) -/

/-- A BOX's fields (R55, R63). -/
def boxItem (f : List Byte) : Option Item :=
  let w := field16 f 4
  let h := field16 f 6
  if 1 ≤ w ∧ w ≤ 4096 ∧ 1 ≤ h ∧ h ≤ 4096 then
    match fieldNat f 8 with
    | 0 => some (.box (fieldSigned f 0) (fieldSigned f 2) w h .filled)
    | 1 => some (.box (fieldSigned f 0) (fieldSigned f 2) w h .outline)
    | _ => none
  else none

/-- A TEXT's fields: the codes follow the flag, or the start position when the flag is 1 (R63, R191). -/
def textItem (f : List Byte) : Option Item :=
  let start : Option (Option (Int × Int) × List Byte) :=
    match fieldNat f 1 with
    | 0 => some (none, f.drop 2)
    | 1 => if 6 ≤ f.length then some (some (fieldSigned f 2, fieldSigned f 4), f.drop 6) else none
    | _ => none
  match start with
  | none => none
  | some (pos, codes) =>
    if fieldNat f 0 ≤ 7 ∧ 1 ≤ codes.length ∧ codes.length ≤ 64 then
      some (.text (fieldNat f 0) pos (codes.map (·.toNat)))
    else none

/-- An IMAGE's fields: its data is w columns of `ceil (h / 8)` bytes (R56, R63). -/
def imageItem (f : List Byte) : Option Item :=
  let w := fieldNat f 4
  let h := fieldNat f 5
  if 1 ≤ w ∧ w ≤ 240 ∧ 1 ≤ h ∧ h ≤ 64 ∧ f.length = 6 + w * columnBytes h then
    some (.image (fieldSigned f 0) (fieldSigned f 2) w h (f.drop 6))
  else none

/-- The item of a kind code and its field bytes: `none` where check 3, 4 or 5 of R62 fails. -/
def itemOf (kind : Nat) (f : List Byte) : Option Item :=
  match kind with
  | 1 => if f.length = 4 then some (.dot (fieldSigned f 0) (fieldSigned f 2)) else none
  | 2 =>
    if f.length = 8 then some (.line (fieldSigned f 0) (fieldSigned f 2) (fieldSigned f 4) (fieldSigned f 6)) else none
  | 3 => if f.length = 9 then boxItem f else none
  | 4 => if 2 ≤ f.length then textItem f else none
  | 5 => if 6 ≤ f.length then imageItem f else none
  | 6 => if f.length = 0 then some .clear else none
  | 7 => if f.length = 4 then some (.cursor (fieldSigned f 0) (fieldSigned f 2)) else none
  | 8 => if f.length = 1 ∧ 1 ≤ fieldNat f 0 ∧ fieldNat f 0 ≤ 64 then some (.newline (fieldNat f 0)) else none
  | _ => none

/-- The walk over the items of a DRAW from item index `i`, `n` of them to come; the first failure gives the reply
(R62). -/
def walkItems : Nat → Nat → List Byte → Except Reply (List Item)
  | 0, _, [] => .ok []
  | 0, _, _ :: _ => .error (plainReply .badLength)
  | n + 1, i, kind :: len :: rest =>
    if rest.length < len.toNat then .error (plainReply .badLength)
    else
      match itemOf kind.toNat (rest.take len.toNat) with
      | none => .error (badFieldReply i)
      | some item =>
        match walkItems n (i + 1) (rest.drop len.toNat) with
        | .error e => .error e
        | .ok items => .ok (item :: items)
  | _ + 1, _, _ => .error (plainReply .badLength)

/-- The contents of a DRAW that has passed its form checks (R61, R62). -/
structure DrawForm where
  viewport : Nat
  rule : RuleChoice
  force : Bool
  items : List Item
deriving DecidableEq, Repr

/-- The rule choice of a DRAW header: with the source VIEWPORT both action bytes are ignored (R61). -/
def ruleChoiceOf (source ink ground : Nat) : Option RuleChoice :=
  match source with
  | 0 => some .viewport
  | 1 => (inkRuleOf ink ground).map .explicit
  | _ => none

/-- The form checks of a DRAW against the viewport table (R61, R62). -/
def parseDraw (viewports : List Viewport) (p : List Byte) : Except Reply DrawForm :=
  let vp := fieldNat p 0
  if vp ≤ 7 ∧ (viewports.getD vp .undefined).defined = true then
    match ruleChoiceOf (fieldNat p 1) (fieldNat p 2) (fieldNat p 3) with
    | none => .error (badFieldReply 0xFF)
    | some rule =>
      if fieldNat p 4 ≤ 1 ∧ 1 ≤ fieldNat p 5 ∧ fieldNat p 5 ≤ 16 then
        match walkItems (fieldNat p 5) 0 (p.drop 6) with
        | .error e => .error e
        | .ok items => .ok ⟨vp, rule, fieldNat p 4 == 1, items⟩
      else .error (badFieldReply 0xFF)
  else .error (badFieldReply 0xFF)

/-! ### Settings pairs (R179, R180) -/

/-- The pairs of a CONFIGURE: id and two-byte value (R190). -/
def configPairs : List Byte → List (Nat × Nat)
  | id :: lo :: hi :: rest => (id.toNat, le16 lo hi) :: configPairs rest
  | _ => []

/-- The value lies in the range of the setting with that id; an unknown id has none (R179, R180). -/
def settingInRange (id v : Nat) : Bool :=
  match id with
  | 1 => 8 ≤ v && v ≤ 240
  | 2 => 1 ≤ v && v ≤ 4
  | 3 => 100 ≤ v && v ≤ 2000 && v % 50 == 0
  | 4 => v ≤ 1000
  | 5 => 20 ≤ v && v ≤ 1000
  | 6 => v == 0 || (20 ≤ v && v ≤ 5000)
  | 7 => v ≤ 1
  | 8 => 8 ≤ v && v ≤ 48
  | 9 => 4 ≤ v && v ≤ 24
  | 10 => v ≤ 239
  | 11 => 1 ≤ v && v ≤ 16
  | 12 => v ≤ 63
  | 13 => 1 ≤ v && v ≤ 16
  | 14 => 5 ≤ v && v ≤ 100
  | 15 => 1 ≤ v && v ≤ 8
  | 16 => 1 ≤ v && v ≤ 8
  | 17 => 1 ≤ v && v ≤ 8
  | 18 => 1 ≤ v && v ≤ 50
  | 19 => 50 ≤ v && v ≤ 5000
  | _ => false

/-- The index of the first pair that fails check 1 of R180. -/
def firstBadPair : Nat → List (Nat × Nat) → Option Nat
  | _, [] => none
  | i, (id, v) :: rest => if settingInRange id v then firstBadPair (i + 1) rest else some i

/-- The setting with an id is given a value (R179). -/
def Settings.put (c : Settings) (id v : Nat) : Settings :=
  match id with
  | 1 => { c with columns := v }
  | 2 => { c with stripRows := v }
  | 3 => { c with pulseLength := v }
  | 4 => { c with phaseGap := v }
  | 5 => { c with rechargePeriod := v }
  | 6 => { c with sweepInterval := v }
  | 7 => { c with touchEnable := v }
  | 8 => { c with xBeams := v }
  | 9 => { c with yBeams := v }
  | 10 => { c with xOrigin := v }
  | 11 => { c with xPitch := v }
  | 12 => { c with yOrigin := v }
  | 13 => { c with yPitch := v }
  | 14 => { c with scanPeriod := v }
  | 15 => { c with pressConfirm := v }
  | 16 => { c with releaseConfirm := v }
  | 17 => { c with moveThreshold := v }
  | 18 => { c with moveInterval := v }
  | 19 => { c with blockedLimit := v }
  | _ => c

/-- The settings as a message's pairs leave them: a later pair for the same id stands (R180). -/
def Settings.putAll (c : Settings) (pairs : List (Nat × Nat)) : Settings :=
  pairs.foldl (fun c p => c.put p.1 p.2) c

/-- The cross-field check: every beam centre lies inside the panel (R181). -/
def Settings.beamsInside (c : Settings) : Bool :=
  c.xOrigin + (c.xBeams - 1) * c.xPitch ≤ c.columns - 1 &&
    c.yOrigin + (c.yBeams - 1) * c.yPitch ≤ 16 * c.stripRows - 1

/-- The six beam settings differ (R140). -/
def Settings.beamsDiffer (a b : Settings) : Bool :=
  a.xBeams != b.xBeams || a.yBeams != b.yBeams || a.xOrigin != b.xOrigin || a.xPitch != b.xPitch ||
    a.yOrigin != b.yOrigin || a.yPitch != b.yPitch

/-- The panel's shape differs: the message is a geometry change (R180). -/
def Settings.shapeDiffers (a b : Settings) : Bool := a.columns != b.columns || a.stripRows != b.stripRows

end Sys2Proof.Machine
end

