-- ==== Sys2Proof/Machine/Flags.lean ====
section
/-!
DEFINITION. Marks and lines computed from the state: quiet pending, a pulse in progress, the flags byte of a COMPLETION
report, and the output pins of the coils and of the emitters.
-/

namespace Sys2Proof.Machine

/-- Quiet pending: set in QUIET_WAIT and in QUIET alike, clear in every other scanner state (R143). -/
def State.quietPending (s : State) : Bool :=
  match s.touch.scanner with
  | .quietWait | .quiet _ => true
  | .off | .scanning _ => false

/-- A pulse in progress, as the touch scanner sees it (R107, R112). -/
def State.pulseInProgress (s : State) : Bool := s.driver.state == .pulse

/-- The flags byte of a COMPLETION report (R192). -/
def completionFlags (clipped missingGlyph dotsStruck : Bool) : Byte :=
  (if clipped then 1 else 0) ||| (if missingGlyph then 2 else 0) ||| (if dotsStruck then 4 else 0)

/-- The transmitter is SENDING: the receiver takes no character (R167). -/
def State.isSending (s : State) : Bool :=
  match s.link.tx with
  | .sending .. => true
  | _ => false

/-- The transmitter is in TURNAROUND (R176). -/
def State.inTurnaround (s : State) : Bool :=
  match s.link.tx with
  | .turnaround .. => true
  | _ => false

/-- The receiver takes characters: not while SENDING, not while in reset (R167, R187). -/
def State.listening (s : State) : Bool := !s.inReset && !s.isSending

/-- The unit's own address, when its straps give a number from 1 to 30 (R165). -/
def Link.ownAddress (l : Link) : Option Nat :=
  if 1 ≤ l.addressStraps.toNat ∧ l.addressStraps.toNat ≤ 30 then some l.addressStraps.toNat else none

/-- The bit rate the two straps select, BRS1 being bit 1 (R165). -/
def Link.bitRate (l : Link) : Nat :=
  match l.rateStraps.toNat with
  | 0 => 19200
  | 1 => 57600
  | 2 => 115200
  | _ => 230400

/-- Pin DE: high while a reply is being sent (R167, R187). -/
def State.deHigh (s : State) : Bool := !s.inReset && s.isSending

/-- The strip select and coil drive lines (R107). -/
structure CoilLines where
  select : Option Strip
  dset : Bool
  dclr : Bool
  dpos : Mask
deriving DecidableEq, Repr

/-- Released lines: no polarity enabled, no position driven (R107). -/
def CoilLines.released : CoilLines := ⟨none, false, false, 0⟩

/-- The mask of a phase of an operation. -/
def StripOp.mask (op : StripOp) : Phase → Mask
  | .set => op.setMask
  | .clear => op.clearMask

/-- The coil lines: driven in PULSE by the phase in hand, released in every other state and in reset (R107, R187). -/
def State.coilLines (s : State) : CoilLines :=
  match s.inReset, s.driver.state, s.driver.hand with
  | false, .pulse, some h => ⟨some h.op.strip, h.phase == .set, h.phase == .clear, h.op.mask h.phase⟩
  | _, _, _ => .released

/-- What the beam select lines name while a beam is lit: the axis (EAX) and the emitter number (EMS0 to EMS6) (R141).
The manual does not say which level of EAX stands for which axis, so the axis is kept by name. -/
structure BeamSelect where
  axis : Axis
  number : BitVec 7
deriving DecidableEq, Repr

/-- The emitters that a running scan lights, one at a time and in this order: every x beam, then every y beam. No emitter
is lit while the scanner is OFF, while it waits for a pulse to be over, and in reset (R141, R143, R187). When within the
scan each is lit is not modelled (log 18). -/
def State.emitterOrder (s : State) : List BeamSelect :=
  match s.inReset, s.touch.scanner with
  | false, .scanning _ | false, .quiet _ =>
    (List.range s.settings.xBeams).map (fun i => ⟨.x, BitVec.ofNat 7 i⟩) ++
      (List.range s.settings.yBeams).map fun i => ⟨.y, BitVec.ofNat 7 i⟩
  | _, _ => []

/-- A step that happens only while the unit is not in reset (R187). -/
def State.unlessReset (s : State) (f : State → State) : State := if s.inReset then s else f s

end Sys2Proof.Machine
end

