-- ==== Sys2Proof/Machine/Ink.lean ====
section
/-!
DEFINITION. Which dots an item claims and as what (R52 to R58, R81), the actions of an ink rule (R50, R51, R59), and the
masks formed from them against the image (R92, R93).
-/

namespace Sys2Proof.Machine

/-- The two classes of claimed dot (R52). -/
inductive DotClass where
  | ink
  | ground
deriving DecidableEq, Repr

/-- What an item or a cell claims, in panel coordinates; `none` where it claims nothing or the dot is clipped (R58). -/
abbrev Claim := Int → Int → Option DotClass

/-- The sign of a step from `a` toward `b`. -/
def stepSign (a b : Int) : Int := if a ≤ b then 1 else -1

/-- The i-th dot of the line from (x0, y0) to (x1, y1) (R54). -/
def lineDot (x0 y0 x1 y1 : Int) (i : Nat) : Int × Int :=
  let dx := (x1 - x0).natAbs
  let dy := (y1 - y0).natAbs
  let long := max dx dy
  let short := min dx dy
  let offset : Int := ((2 * i * short + long) / (2 * long) : Nat)
  if dy ≤ dx then (x0 + stepSign x0 x1 * i, y0 + stepSign y0 y1 * offset)
  else (x0 + stepSign x0 x1 * offset, y0 + stepSign y0 y1 * i)

/-- The larger of the two distances: the line has one dot for each i from 0 to this (R54). -/
def lineLength (x0 y0 x1 y1 : Int) : Nat := max (x1 - x0).natAbs (y1 - y0).natAbs

/-- (u, v) is a dot of the line: the long coordinate gives the only i that can name it (R54). -/
def onLine (x0 y0 x1 y1 u v : Int) : Bool :=
  let i := if (y1 - y0).natAbs ≤ (x1 - x0).natAbs then (u - x0).natAbs else (v - y0).natAbs
  decide (i ≤ lineLength x0 y0 x1 y1) && lineDot x0 y0 x1 y1 i == (u, v)

/-- The dot is covered by a box or bitmap of w by h at (x, y). -/
def covers (x y : Int) (w h : Nat) (u v : Int) : Bool := x ≤ u && u < x + w && y ≤ v && v < y + h

/-- The dot in bitmap column i and row j is 1: bit j mod 8 of byte floor (j / 8) of the column (R56, R188). -/
def bitmapDot (h : Nat) (data : List Byte) (i j : Nat) : Bool :=
  (data.getD (i * columnBytes h + j / 8) 0).getLsbD (j % 8)

/-- The class a graphic item gives the dot at item coordinate (u, v), before clipping (R52 to R57). Text items claim
cell by cell; CURSOR and NEWLINE claim nothing. -/
def Item.classAt (rect : Rect) (it : Item) (u v : Int) : Option DotClass :=
  match it with
  | .dot x y => if u = x ∧ v = y then some .ink else none
  | .line x0 y0 x1 y1 => if onLine x0 y0 x1 y1 u v then some .ink else none
  | .box x y w h style =>
    if covers x y w h u v then
      match style with
      | .filled => some .ink
      | .outline => if u = x ∨ u = x + w - 1 ∨ v = y ∨ v = y + h - 1 then some .ink else some .ground
    else none
  | .image x y w h data =>
    if covers x y w h u v then
      if bitmapDot h data (u - x).toNat (v - y).toNat then some .ink else some .ground
    else none
  | .clear => if covers 0 0 rect.w rect.h u v then some .ground else none
  | .text .. | .cursor .. | .newline _ => none

/-- The panel dot lies inside the rectangle. -/
def Rect.holdsInt (r : Rect) (x y : Int) : Bool := covers r.x r.y r.w r.h x y

/-- A dot outside the rectangle read at the item's start is clipped: it has no class (R58). -/
def clipTo (rect : Rect) (c : Claim) : Claim := fun x y => if rect.holdsInt x y then c x y else none

/-- What a graphic item claims on the panel: item coordinates count from the rectangle's top-left dot (R52, R58). -/
def itemClaim (rect : Rect) (it : Item) : Claim :=
  clipTo rect fun x y => it.classAt rect (x - rect.x) (y - rect.y)

/-- The corners of the smallest rectangle of item coordinates that holds what the item claims; none for the items that
never set the clipped flag (R57, R58). -/
def Item.corners : Item → Option ((Int × Int) × (Int × Int))
  | .dot x y => some ((x, y), (x, y))
  | .line x0 y0 x1 y1 => some ((min x0 x1, min y0 y1), (max x0 x1, max y0 y1))
  | .box x y w h _ => some ((x, y), (x + w - 1, y + h - 1))
  | .image x y w h _ => some ((x, y), (x + w - 1, y + h - 1))
  | .clear | .text .. | .cursor .. | .newline _ => none

/-- Some dot the graphic item would claim lies outside the rectangle: the clipping test of R58. The claimed dots reach
every side of the smallest rectangle around them, so the test is made on its corners
(`Obligations.ClippingTestFindsDotsOutside` states that it is the same). -/
def Item.isClipped (rect : Rect) (it : Item) : Bool :=
  match it.corners with
  | none => false
  | some (a, b) => !(covers 0 0 rect.w rect.h a.1 a.2 && covers 0 0 rect.w rect.h b.1 b.2)

/-! ### Glyph cells (R81) -/

/-- The columns of a cell: the glyph's width and the spacing columns. -/
def Latch.cellWidth (l : Latch) : Nat := l.columns.length + l.spacing

/-- The class a cell at (x, y) gives the dot at viewport coordinate (u, v) (R81). -/
def Latch.classAt (l : Latch) (x y u v : Int) : Option DotClass :=
  if covers x y l.cellWidth l.height u v then
    if (l.columns.getD (u - x).toNat 0).getLsbD (v - y).toNat then some .ink else some .ground
  else none

/-- What a cell claims on the panel (R81). -/
def cellClaim (rect : Rect) (l : Latch) (x y : Int) : Claim :=
  clipTo rect fun px py => l.classAt x y (px - rect.x) (py - rect.y)

/-- Some dot of the cell lies outside the rectangle (R81). -/
def Latch.isClipped (rect : Rect) (l : Latch) (x y : Int) : Bool :=
  !(covers 0 0 rect.w rect.h x y && covers 0 0 rect.w rect.h (x + l.cellWidth - 1) (y + l.height - 1))

/-! ### Strips of a claim (R89, R90) -/

/-- The class of a strip's dot position. -/
def claimAt (c : Claim) (t : Strip) (p : Nat) : Option DotClass := c t.col (t.rowOf p)

/-- The strip holds a claimed dot inside the rectangle, and so is examined (R89). -/
def stripClaimed (c : Claim) (t : Strip) : Bool := (List.range 16).any fun p => (claimAt c t p).isSome

/-- The first strip of a claim in strip order (R89). -/
def firstStrip (columns stripRows : Nat) (c : Claim) : Option Strip :=
  (panelStrips columns stripRows).find? (stripClaimed c)

/-- The strip of a claim that follows `t` in strip order (R89). -/
def stripAfter (columns stripRows : Nat) (c : Claim) (t : Strip) : Option Strip :=
  (panelStrips columns stripRows).find? fun u => t.before u && stripClaimed c u

/-! ### Actions and masks (R50, R59, R92, R93) -/

/-- The rule of a request's items: its explicit pair, or the viewport's default rule (R51). -/
def RuleChoice.resolve (c : RuleChoice) (viewportRule : InkRule) : InkRule :=
  match c with
  | .explicit r => r
  | .viewport => viewportRule

/-- The action of a class under a rule (R59). -/
def InkRule.actionFor (r : InkRule) : DotClass → Action
  | .ink => r.ink
  | .ground => r.ground

/-- The action places the dot in the set mask (R93). -/
def wantsSet (a : Action) (force : Bool) (v : DotValue) : Bool :=
  match a, v with
  | .set, .on => force
  | .set, _ => true
  | .invert, .off => true
  | _, _ => false

/-- The action places the dot in the clear mask (R93). -/
def wantsClear (a : Action) (force : Bool) (v : DotValue) : Bool :=
  match a, v with
  | .clear, .off => force
  | .clear, _ => true
  | .invert, .on => true
  | _, _ => false

/-- The action of a strip's position: none when it is clipped, not claimed, or recorded in the dead-dot table (R92). -/
def wantedAt (c : Claim) (rule : InkRule) (dead : List DeadDot) (t : Strip) (p : Nat) : Action :=
  if recorded dead t.col (t.rowOf p) then .leave
  else
    match claimAt c t p with
    | some k => rule.actionFor k
    | none => .leave

/-- The operation the examination of a strip forms, masks possibly empty (R92, R93). -/
def formOp (c : Claim) (rule : InkRule) (force : Bool) (dead : List DeadDot) (image : Image) (t : Strip) : StripOp where
  strip := t
  setMask := maskOf fun p => wantsSet (wantedAt c rule dead t p) force ((imageGet image t).dot p)
  clearMask := maskOf fun p => wantsClear (wantedAt c rule dead t p) force ((imageGet image t).dot p)

/-- Both masks are empty: the strip yields no operation (R94). -/
def StripOp.isEmpty (op : StripOp) : Bool := op.setMask == 0 && op.clearMask == 0

end Sys2Proof.Machine
end

