-- ==== Sys2Proof/Machine/Generator.lean ====
section
/-!
DEFINITION. The strip generator: starting an item, starting a glyph, examining a strip, appending to the ring, stalling,
and ending cells, items and requests (R77 to R98).
-/

namespace Sys2Proof.Machine

/-! ### Ends (R28, R82, R83, R98) -/

/-- Generation of the current request ends: with operations outstanding it becomes DRAINING, otherwise it leaves DONE;
the generator is free and the arbiter chooses again (R28, R98). -/
def State.endGeneration (s : State) (r : Request) : State :=
  let s := s.freeGenerator
  let s :=
    if r.outstanding = 0 then s.leave r .done
    else s.changeRequest r.tag fun q => { q with state := .draining }
  s.generatorArbiter

/-- The current item is finished: it is counted and the progress moves to the start of the next item, or generation
ends after the last (R27, R83, R88). After the last item the progress stands one past the list (log 20). -/
def State.finishItem (s : State) (tag : Nat) : State :=
  let s := s.changeRequest tag fun r =>
    { r with itemsDone := r.itemsDone + 1, progress := ⟨r.progress.item + 1, .itemStart⟩ }
  match s.request tag with
  | none => s
  | some r =>
    if r.progress.item < r.items.length then { s with gen := { Generator.free with current := some tag } }
    else s.endGeneration r

/-- The codes of a TEXT item are gone on with after code `i`: the next glyph start, or the item is finished
(R79, R82). -/
def State.nextCode (s : State) (tag : Nat) (codes i : Nat) : State :=
  if i + 1 < codes then
    { s.setPlace tag (.glyphStart (i + 1)) with gen := { s.gen with latch := none, waiting := none } }
  else s.finishItem tag

/-- The cursor a cell's end leaves: the wrap, if the text wrapped before the cell, then the advance (R82). -/
def cursorAfterCell (v : Viewport) (l : Latch) (wrapped : Bool) : Viewport :=
  let v := if wrapped then { v with cx := 0, cy := raiseCursor v.cy (l.height + l.lineGap) } else v
  { v with cx := raiseCursor v.cx l.cellWidth }

/-- A cell ends: the cursor moves, the latch is emptied, and the next code comes (R82). -/
def State.endCell (s : State) (r : Request) (codes i : Nat) (l : Latch) (wrapped : Bool) : State :=
  (s.setViewport r.viewport (cursorAfterCell (s.viewport r.viewport) l wrapped)).nextCode r.tag codes i

/-! ### Examining a strip (R91 to R97) -/

/-- The number of codes of the item, 0 for an item other than TEXT. -/
def Item.codeCount : Item → Nat
  | .text _ _ codes => codes.length
  | _ => 0

/-- What the item in progress claims at its place: the cell's claim in a TEXT item, the item's own otherwise (R92). -/
def Place.claim (place : Place) (latch : Option Latch) (v : ItemValues) (it : Item) : Claim :=
  match place, latch with
  | .cell _ x y _ _, some l => cellClaim v.rect l x y
  | _, _ => itemClaim v.rect it

/-- The place moves on from strip `t`: to the next strip of the claim, or the cell ends, or the item is finished
(R94, R96). The waiting strip is cleared. -/
def State.moveOn (s : State) (r : Request) (it : Item) (c : Claim) (t : Strip) : State :=
  let s := { s with gen := { s.gen with waiting := none } }
  match r.progress.place, s.gen.latch, stripAfter s.settings.columns s.settings.stripRows c t with
  | .cell i x y wr _, _, some u => s.setPlace r.tag (.cell i x y wr u)
  | .cell i _ _ wr _, some l, none => s.endCell r it.codeCount i l wr
  | .cell i _ _ _ _, none, none => s.nextCode r.tag it.codeCount i
  | _, _, some u => s.setPlace r.tag (.strip u)
  | _, _, none => s.finishItem r.tag

/-- An operation is appended to the ring for a request: it is committed, a sweep operation for the same strip is
emptied from the slot with the pass-over count, and the request's counts rise (R96, R99, R109). -/
def State.append (s : State) (tag : Nat) (op : StripOp) : State :=
  let slotGone := match s.sweep.slot with
    | some w => decide (w.strip = op.strip)
    | none => false
  { s.changeRequest tag fun r =>
      { r with generated := min (r.generated + 1) Config.generatedMax, outstanding := r.outstanding + 1 } with
    ring := s.ring ++ [⟨tag, op⟩]
    image := commitOp s.image op
    sweep := if slotGone then { s.sweep with slot := none } else s.sweep
    driver := if slotGone then { s.driver with passOver := 0 } else s.driver }

/-- The examination of strip `t` (R91): the masks are formed; an empty operation is passed (R94), one that is due is
appended when the ring has room (R96), and otherwise the strip becomes the waiting strip (R97). -/
def State.examine (s : State) (r : Request) (it : Item) (v : ItemValues) (t : Strip) : State :=
  let c := r.progress.place.claim s.gen.latch v it
  let op := formOp c v.rule v.force s.dead s.image t
  if op.isEmpty then s.moveOn r it c t
  else if s.ring.length < Config.ringSize then (s.append r.tag op).moveOn r it c t
  else { s with gen := { s.gen with waiting := some t } }

/-- The request, item and item values of the item in progress. -/
def State.inProgress (s : State) : Option (Request × Item × ItemValues) :=
  match s.gen.current.bind s.request, s.gen.values with
  | some r, some v => (r.items[r.progress.item]?).map fun it => (r, it, v)
  | _, _ => none

/-- Room has appeared in the ring: a stalled generator examines its waiting strip again (R97). -/
def State.reexamine (s : State) : State :=
  match s.gen.waiting, s.inProgress with
  | some t, some (r, it, v) => s.examine r it v t
  | _, _ => s

/-! ### Starting an item (R58, R78, R85, R86, R88) -/

/-- Every dot of the item would be left alone: the rule is LEAVE/LEAVE (R88). -/
def InkRule.leavesAll (r : InkRule) : Bool := r.ink == .leave && r.ground == .leave

/-- A graphic item starts: the clipping test, then its first strip, or it is finished when it has none or its rule is
LEAVE/LEAVE (R58, R88). -/
def State.startGraphic (s : State) (r : Request) (it : Item) (v : ItemValues) : State :=
  let s := s.changeRequest r.tag fun q => { q with clipped := q.clipped || it.isClipped v.rect }
  if v.rule.leavesAll then s.finishItem r.tag
  else
    match firstStrip s.settings.columns s.settings.stripRows (itemClaim v.rect it) with
    | none => s.finishItem r.tag
    | some t => s.setPlace r.tag (.strip t)

/-- A font's record (R66). -/
def GlyphStore.font (g : GlyphStore) (id : Nat) : Font := g.fonts.getD id .undefined

/-- A TEXT item starts: an undefined font finishes it with the missing-glyph flag; otherwise a start position replaces
the cursor and the first glyph start comes (R78). -/
def State.startText (s : State) (r : Request) (font : Nat) (start : Option (Int × Int)) : State :=
  if (s.store.font font).defined then
    let s := match start with
      | some (x, y) => s.setViewport r.viewport { s.viewport r.viewport with cx := x, cy := y }
      | none => s
    s.setPlace r.tag (.glyphStart 0)
  else (s.changeRequest r.tag fun q => { q with missingGlyph := true }).finishItem r.tag

/-- The generator starts the current item: it reads the item values, then begins or finishes the item (R47, R88). -/
def State.startItem (s : State) (r : Request) (it : Item) : State :=
  let vp := s.viewport r.viewport
  let v : ItemValues := ⟨vp.rect, r.rule.resolve vp.rule, vp.wrap, r.force⟩
  let s := { s with gen := { s.gen with values := some v } }
  match it with
  | .cursor x y => (s.setViewport r.viewport { vp with cx := x, cy := y }).finishItem r.tag
  | .newline rows => (s.setViewport r.viewport { vp with cx := 0, cy := raiseCursor vp.cy rows }).finishItem r.tag
  | .text font start _ => s.startText r font start
  | .dot .. | .line .. | .box .. | .image .. | .clear => s.startGraphic r it v

/-! ### Starting a glyph (R77, R79, R80, R81) -/

/-- The glyph stored under a key (R67). -/
def GlyphStore.glyph (g : GlyphStore) (font code : Nat) : Option Glyph :=
  g.glyphs.find? fun y => y.font == font && y.code == code

/-- The glyph chosen for a code: its own, otherwise the default code's, looked up once (R79). -/
def GlyphStore.choose (g : GlyphStore) (font code : Nat) : Option Glyph :=
  match g.glyph font code with
  | some y => some y
  | none =>
    if (g.font font).defined then (g.font font).defaultCode.bind fun d => g.glyph font d else none

/-- The text wraps before a glyph of that width: the three conditions of R80. -/
def wrapsBefore (v : ItemValues) (vp : Viewport) (width : Nat) : Bool :=
  v.wrap && decide (0 < vp.cx) && decide ((v.rect.w : Int) < vp.cx + width)

/-- The glyph start of code `i` (R79 to R82): the code is skipped with the missing-glyph flag, or its glyph is latched
and its cell placed, flagged when clipped, and begun or ended at once. -/
def State.startGlyph (s : State) (r : Request) (v : ItemValues) (font : Nat) (codes : List Nat) (i : Nat) : State :=
  match s.store.choose font (codes.getD i 0) with
  | none => (s.changeRequest r.tag fun q => { q with missingGlyph := true }).nextCode r.tag codes.length i
  | some g =>
    let f := s.store.font font
    let l : Latch := ⟨g.columns, f.height, f.spacing, f.lineGap⟩
    let vp := s.viewport r.viewport
    let wraps := wrapsBefore v vp g.columns.length
    let x : Int := if wraps then 0 else vp.cx
    let y : Int := if wraps then vp.cy + (l.height + l.lineGap : Nat) else vp.cy
    let s := s.changeRequest r.tag fun q => { q with clipped := q.clipped || l.isClipped v.rect x y }
    let first := if v.rule.leavesAll then none
      else firstStrip s.settings.columns s.settings.stripRows (cellClaim v.rect l x y)
    match first with
    | none => s.endCell r codes.length i l wraps
    | some t => { s.setPlace r.tag (.cell i x y wraps t) with gen := { s.gen with latch := some l } }

/-! ### The generator's next event (log 6) -/

/-- One event of the generator at its place: an item's start, a glyph start, or a strip's examination. A free or stalled
generator has none (R91, R97). -/
def State.generatorEvent (s : State) : State :=
  match s.gen.current.bind s.request, s.gen.waiting with
  | some r, none =>
    match r.items[r.progress.item]?, s.gen.values, r.progress.place with
    | some it, _, .itemStart => s.startItem r it
    | some (.text font _ codes), some v, .glyphStart i => s.startGlyph r v font codes i
    | some it, some v, .strip t => s.examine r it v t
    | some it, some v, .cell _ _ _ _ t => s.examine r it v t
    | _, _, _ => s
  | _, _ => s

end Sys2Proof.Machine
end

