-- ==== Sys2Proof/Machine/Glyphs.lean ====
section
/-!
DEFINITION. The messages of the glyph store: SET FONT, DROP FONT, LOAD GLYPH and DROP GLYPH (R70 to R76).
-/

namespace Sys2Proof.Machine

/-- The font holds a glyph. -/
def GlyphStore.holdsGlyph (g : GlyphStore) (font : Nat) : Bool := g.glyphs.any fun y => y.font == font

/-- The checks of SET FONT that answer BAD_FIELD, in the order of R70. -/
def setFontChecks (p : List Byte) : List (Nat × Bool) :=
  [(0, decide (fieldNat p 0 ≤ 7)), (1, decide (1 ≤ fieldNat p 1 ∧ fieldNat p 1 ≤ 32)),
    (2, decide (fieldNat p 2 ≤ 8)), (3, decide (fieldNat p 3 ≤ 16)), (4, decide (fieldNat p 4 ≤ 1))]

/-- The record a SET FONT carries (R71). -/
def carriedFont (p : List Byte) : Font :=
  ⟨true, fieldNat p 1, fieldNat p 2, fieldNat p 3, if fieldNat p 4 = 1 then some (fieldNat p 5) else none⟩

/-- SET FONT (R70, R71). -/
def setFontMessage (s : State) (p : List Byte) : State × Reply :=
  match firstFailing (setFontChecks p) with
  | some i => (s, badFieldReply i)
  | none =>
    let id := fieldNat p 0
    let old := s.store.font id
    if old.defined ∧ s.store.holdsGlyph id = true ∧ fieldNat p 1 ≠ old.height then (s, plainReply .inUse)
    else ({ s with store := { s.store with fonts := s.store.fonts.set id (carriedFont p) } }, okReply [])

/-- The columns a list of glyphs uses. -/
def usedColumns (gs : List Glyph) : Nat := (gs.map fun y => y.columns.length).sum

/-- The store after a font is dropped: its glyphs gone, their columns free, its record undefined (R72). -/
def GlyphStore.dropFont (g : GlyphStore) (id : Nat) : GlyphStore where
  fonts := g.fonts.set id .undefined
  glyphs := g.glyphs.filter fun y => y.font != id
  freeColumns := g.freeColumns + usedColumns (g.glyphs.filter fun y => y.font == id)

/-- DROP FONT (R72). -/
def dropFontMessage (s : State) (p : List Byte) : State × Reply :=
  let id := fieldNat p 0
  if 7 < id then (s, badFieldReply 0)
  else if (s.store.font id).defined = false then (s, plainReply .notFound)
  else ({ s with store := s.store.dropFont id }, okReply [])

/-- The pattern of one column of height `h` from its bytes, top dot first; places beyond the height name no dot
(R73, R188). -/
def patternOf (h : Nat) (bytes : List Byte) : Pattern :=
  BitVec.ofFnLE fun j : Fin 32 => decide (j.val < h) && (bytes.getD (j.val / 8) 0).getLsbD (j.val % 8)

/-- The column patterns carried by a LOAD GLYPH, left column first (R73). -/
def patternsOf (h width : Nat) (data : List Byte) : List Pattern :=
  (List.range width).map fun i => patternOf h ((data.drop (i * columnBytes h)).take (columnBytes h))

/-- The store with a glyph that joins or replaces the one under its key (R74, R75). -/
def GlyphStore.put (g : GlyphStore) (y : Glyph) : GlyphStore :=
  let rest := g.glyphs.filter fun z => !(z.font == y.font && z.code == y.code)
  let old := g.glyphs.filter fun z => z.font == y.font && z.code == y.code
  { g with glyphs := rest ++ [y], freeColumns := g.freeColumns + usedColumns old - y.columns.length }

/-- There is room for a glyph of that width under that key: the new-glyph rule, or the replacement rule with the old
glyph's columns counted as freed (R74, R75). -/
def GlyphStore.roomFor (g : GlyphStore) (font code width : Nat) : Bool :=
  match g.glyph font code with
  | none => decide (g.glyphs.length < Config.glyphMax) && decide (width ≤ g.freeColumns)
  | some old => decide (width ≤ g.freeColumns + old.columns.length)

/-- LOAD GLYPH (R73, R74, R75). -/
def loadGlyphMessage (s : State) (p : List Byte) : State × Reply :=
  let id := fieldNat p 0
  let code := fieldNat p 1
  let width := fieldNat p 2
  let h := (s.store.font id).height
  if 7 < id then (s, badFieldReply 0)
  else if (s.store.font id).defined = false then (s, plainReply .notFound)
  else if ¬(1 ≤ width ∧ width ≤ 32) then (s, badFieldReply 2)
  else if (p.drop 3).length ≠ width * columnBytes h then (s, badFieldReply 3)
  else if s.store.roomFor id code width = false then (s, plainReply .noRoom)
  else ({ s with store := s.store.put ⟨id, code, patternsOf h width (p.drop 3)⟩ }, okReply [])

/-- The store after one glyph is dropped (R76). -/
def GlyphStore.dropGlyph (g : GlyphStore) (font code : Nat) : GlyphStore :=
  { g with
    glyphs := g.glyphs.filter fun z => !(z.font == font && z.code == code)
    freeColumns := g.freeColumns + usedColumns (g.glyphs.filter fun z => z.font == font && z.code == code) }

/-- DROP GLYPH (R76). -/
def dropGlyphMessage (s : State) (p : List Byte) : State × Reply :=
  let id := fieldNat p 0
  let code := fieldNat p 1
  if 7 < id then (s, badFieldReply 0)
  else if (s.store.glyph id code).isNone then (s, plainReply .notFound)
  else ({ s with store := s.store.dropGlyph id code }, okReply [])

end Sys2Proof.Machine
end

