-- ==== Sys2Proof/Machine/Images.lean ====
section
/-!
DEFINITION. The messages of the image and of the dead-dot table: READ IMAGE, LIST DEAD DOTS, FORGET DEAD DOT (R15 to
R18).
-/

namespace Sys2Proof.Machine

/-- A strip mask in a reply: two bytes, bit p for position p (R188). -/
def maskBytes (m : Mask) : List Byte := le16Bytes m.toNat

/-- The known mask and the on mask of a strip (R16). -/
def stripFields (v : StripImage) : List Byte := maskBytes v.known ++ maskBytes v.on

/-- READ IMAGE (R16). -/
def readImageMessage (s : State) (p : List Byte) : State × Reply :=
  let k := fieldNat p 0
  let x0 := fieldNat p 1
  let n := fieldNat p 2
  let c := s.settings
  match firstFailing
      [(0, decide (k < c.stripRows)), (1, decide (x0 < c.columns)),
        (2, decide (1 ≤ n ∧ n ≤ 48 ∧ x0 + n ≤ c.columns))] with
  | some i => (s, badFieldReply i)
  | none =>
    (s, okReply ([byte k, byte x0, byte n] ++
      (List.range n).flatMap fun i => stripFields (imageGet s.image ⟨x0 + i, k⟩)))

/-- The code of a source (R188). -/
def SenseSource.code : SenseSource → Byte
  | .request => 0
  | .sweep => 1

/-- LIST DEAD DOTS (R17). -/
def listDeadDotsMessage (s : State) : State × Reply :=
  (s, okReply (byte s.dead.length :: s.dead.flatMap fun d => [byte d.x, byte d.y, d.source.code]))

/-- FORGET DEAD DOT (R18). -/
def forgetDeadDotMessage (s : State) (p : List Byte) : State × Reply :=
  let x := fieldNat p 0
  let y := fieldNat p 1
  if s.settings.columns ≤ x then (s, badFieldReply 0)
  else if 16 * s.settings.stripRows ≤ y then (s, badFieldReply 1)
  else if recorded s.dead x y then
    ({ s with dead := s.dead.filter fun d => !(d.x == x && d.y == y) }, okReply [])
  else (s, plainReply .notFound)

end Sys2Proof.Machine
end

