-- ==== Sys2Proof/Machine/Reports.lean ====
section
/-!
DEFINITION. The messages of the report queue: COLLECT and SUBSCRIBE, with the layout of report entries (R160 to R162,
R192).
-/

namespace Sys2Proof.Machine

/-- The code of an outcome (R188). -/
def LeaveOutcome.code : LeaveOutcome → Byte
  | .done => 0
  | .cancelled => 1
  | .failed => 2

/-- The code of the fail cause: DRIVER_HELD when the outcome is FAILED, otherwise NONE (R32, R188). -/
def LeaveOutcome.failCause : LeaveOutcome → Byte
  | .failed => 1
  | .done | .cancelled => 0

/-- The code of an axis (R188). -/
def Axis.code : Axis → Byte
  | .x => 0
  | .y => 1

/-- The code of a phase (R188). -/
def Phase.code : Phase → Byte
  | .set => 0
  | .clear => 1

/-- The 8-byte record of a report (R192). -/
def Report.record : Report → List Byte
  | .completion tag o generated items clipped missing struck =>
    le16Bytes tag ++ [o.code] ++ le16Bytes generated ++ [byte items, completionFlags clipped missing struck, o.failCause]
  | .press c x y z echo => [1, byte c, byte x, byte y, byte z, 0, boolByte echo, 0]
  | .move c x y z inside => [2, byte c, byte x, byte y, byte z, boolByte inside, 0, 0]
  | .release c x y z inside echo => [3, byte c, byte x, byte y, byte z, boolByte inside, boolByte echo, 0]
  | .beam a n blocked => [a.code, byte n, boolByte blocked, 0, 0, 0, 0, 0]
  | .dot x y source rec => [byte x, byte y, source.code, boolByte rec, 0, 0, 0, 0]
  | .driver t ph => [1, byte t.col, byte t.row, ph.code, 0, 0, 0, 0]

/-- The 11 bytes of an entry: number, class code, record (R192). -/
def Entry.bytes (e : Entry) : List Byte := le16Bytes e.number ++ [byte e.report.cls.code] ++ e.report.record

/-- The queue's entries after an acknowledgement: the named entry and all older ones are removed (R161). -/
def acknowledge (entries : List Entry) (n : Nat) : List Entry :=
  if n ≠ 0 ∧ (entries.map (·.number)).contains n = true then (entries.dropWhile fun e => e.number != n).drop 1
  else entries

/-- The report queue after a COLLECT: acknowledged entries removed, the oldest up to 8 marked sent, the lost mark
cleared, and the coalescing reference cleared when the entry it names was removed or carried (R158, R161, R162). -/
def ReportQueue.collect (q : ReportQueue) (n : Nat) : ReportQueue :=
  let left := acknowledge q.entries n
  let carried := left.take Config.collectMax
  let later := left.drop Config.collectMax
  { q with
    entries := (carried.map fun e => { e with sent := true }) ++ later
    lost := false
    coalesce := q.coalesce.filter fun m => (later.map (·.number)).contains m }

/-- COLLECT (R161, R162, R190). -/
def collectMessage (s : State) (p : List Byte) : State × Reply :=
  let left := acknowledge s.reports.entries (field16 p 0)
  let carried := left.take Config.collectMax
  ({ s with reports := s.reports.collect (field16 p 0) },
    okReply ([boolByte s.reports.lost, byte left.length, byte carried.length] ++ carried.flatMap Entry.bytes))

/-- SUBSCRIBE: a mask that names anything other than the five classes is refused (R160, R190). -/
def subscribeMessage (s : State) (p : List Byte) : State × Reply :=
  let m := field p 0
  if 32 ≤ m.toNat then (s, badFieldReply 0)
  else ({ s with reports := { s.reports with subscription := m.setWidth 5 } }, okReply [m])

end Sys2Proof.Machine
end

