-- ==== Sys2Proof/Machine/Requests.lean ====
section
/-!
DEFINITION. The messages of the request queue: DRAW and CANCEL with its all form (R22, R23, R33 to R36).
-/

namespace Sys2Proof.Machine

/-- DRAW: form checks, then the driver, then the host pool; accepted, the request joins, the generator arbiter chooses,
and the reply is OK with the tag (R22, R23). -/
def drawMessage (s : State) (p : List Byte) : State × Reply :=
  match parseDraw s.viewports p with
  | .error e => (s, e)
  | .ok d =>
    if s.driver.state = .held then (s, plainReply .held)
    else if Config.hostPool ≤ (s.pool .host).length then (s, plainReply .queueFull)
    else
      ((s.joinRequest .host d.viewport d.rule d.force d.items).generatorArbiter, okReply (le16Bytes s.nextTag))

/-- A host request is cancelled, by its state (R33, R100): QUEUED, it leaves CANCELLED; RASTERING, generation stops
and it becomes DRAINING with its cancel mark set, or leaves CANCELLED with nothing outstanding; DRAINING, nothing. The
arbiter's choice is left to the message. -/
def State.cancelOne (s : State) (r : Request) : State :=
  match r.state with
  | .queued => s.leave r .cancelled
  | .rastering =>
    if r.outstanding = 0 then s.freeGenerator.leave r .cancelled
    else s.freeGenerator.changeRequest r.tag fun q => { q with state := .draining, cancelMark := true }
  | .draining => s

/-- The host request with a tag. -/
def State.hostRequest (s : State) (tag : Nat) : Option Request :=
  s.queue.requests.find? fun r => r.tag == tag && r.origin == .host

/-- CANCEL with a tag from 1 to 65535 (R33). -/
def cancelTag (s : State) (tag : Nat) : State × Reply :=
  match s.hostRequest tag with
  | none => (s, plainReply .notFound)
  | some r =>
    if r.state = .draining then (s, plainReply .tooLate) else ((s.cancelOne r).generatorArbiter, okReply [])

/-- The all form of CANCEL (R35): every QUEUED or RASTERING host request is cancelled, oldest first; DRAINING ones are
counted as too late. -/
def cancelAllForm (s : State) : State × Reply :=
  let hosts := s.pool .host
  let reached := hosts.filter fun r => r.state != .draining
  ((reached.foldl State.cancelOne s).generatorArbiter,
    okReply [byte reached.length, byte (hosts.length - reached.length)])

/-- CANCEL: tag 0 is the all form (R33, R35). -/
def cancelMessage (s : State) (p : List Byte) : State × Reply :=
  if field16 p 0 = 0 then cancelAllForm s else cancelTag s (field16 p 0)

end Sys2Proof.Machine
end

