-- ==== Sys2Proof/Machine/Driver.lean ====
section
/-!
DEFINITION. The pulse driver: taking an operation, starting and ending phases, sense results and dead dots, entry to
HELD, and cutting short the operation in hand (R6, R8 to R12, R101, R102, R106 to R120).
-/

namespace Sys2Proof.Machine

/-! ### The hand (R106, R110) -/

/-- The record of a phase when its operation is taken: not run when its mask is empty, otherwise not begun (R110). -/
def takenStatus (m : Mask) : PhaseStatus := if m = 0 then .notRun else .notBegun

/-- The hand that a taken operation makes: SET is the phase in hand unless the set mask is empty (R110). -/
def handOf (source : HandSource) (op : StripOp) : Hand where
  source := source
  op := op
  phase := if op.setMask = 0 then .clear else .set
  setStatus := takenStatus op.setMask
  clearStatus := takenStatus op.clearMask

/-- The record of the phase in hand. -/
def Hand.status (h : Hand) : Phase → PhaseStatus
  | .set => h.setStatus
  | .clear => h.clearStatus

/-- The record of the phase in hand is changed. -/
def Hand.mark (h : Hand) (st : PhaseStatus) : Hand :=
  match h.phase with
  | .set => { h with setStatus := st }
  | .clear => { h with clearStatus := st }

/-- The charge the phase in hand needs: the dots of its mask (R111). -/
def Hand.need (h : Hand) : Nat := maskCount (h.op.mask h.phase)

/-- The operation in hand is a ring operation: it carries a tag (R106). -/
def Hand.isRing (h : Hand) : Bool :=
  match h.source with
  | .ring _ => true
  | .sweep => false

/-- The strip is named by an operation in the ring or by the operation in hand (R130). -/
def State.namesStrip (s : State) (t : Strip) : Bool :=
  (s.ring.any fun o => decide (o.op.strip = t)) ||
    match s.driver.hand with
    | some h => decide (h.op.strip = t)
    | none => false

/-- The driver with another state. -/
def State.driverState (s : State) (d : DriverState) : State := { s with driver := { s.driver with state := d } }

/-! ### Cutting short and entry to HELD (R6, R37, R102, R120) -/

/-- The dots a phase loses when its operation is cut short, by the table of R6. -/
def lostMask (isRing : Bool) (m : Mask) : PhaseStatus → Mask
  | .pulsing => m
  | .notBegun => if isRing then m else 0
  | .notRun | .completed => 0

/-- The dots of the operation in hand that become UNKNOWN when it is cut short (R6). -/
def Hand.lost (h : Hand) : Mask :=
  lostMask h.isRing h.op.setMask h.setStatus ||| lostMask h.isRing h.op.clearMask h.clearStatus

/-- The operation in hand is cut short: its dots are lost phase by phase and the hand empties (R6). -/
def State.cutShort (s : State) : State :=
  match s.driver.hand with
  | none => s
  | some h =>
    { s with image := loseDots s.image h.op.strip h.lost, driver := { s.driver with hand := none } }

/-- The ring is flushed: every dot it names becomes UNKNOWN, it is empty, the sweep slot is emptied with the pass-over
count, and generation stops (R5, R102, R103, R109). -/
def State.flush (s : State) : State :=
  { s with
    image := loseOps s.image s.ring
    ring := []
    sweep := { s.sweep with slot := none }
    driver := { s.driver with passOver := 0 }
    gen := .free }

/-- The RASTERING and the DRAINING requests leave FAILED, oldest first (R37). -/
def State.failRequests (s : State) : State :=
  (s.queue.requests.filter fun r => r.state != .queued).foldl (fun s r => s.leave r .failed) s

/-- A quiet scan waiting for the pulse to be over starts, reading the scan period (R143). -/
def State.pulseOver (s : State) : State :=
  match s.touch.scanner with
  | .quietWait => { s with touch := { s.touch with scanner := .quiet ⟨s.settings.scanPeriod, false⟩ } }
  | _ => s

/-- The driver enters HELD on an overcurrent, in the order of R120: the hand is cut short, the ring flushed, requests
failed, and the DRIVER report offered (R121). -/
def State.enterHeld (s : State) : State :=
  match s.driver.hand with
  | none => s
  | some h => ((s.cutShort.flush.driverState .held).failRequests.offer (.driver h.op.strip h.phase)).pulseOver

/-! ### Phases (R111, R112, R119) -/

/-- The scan in progress sees a pulse (R112, R142). -/
def State.notePulse (s : State) : State :=
  match s.touch.scanner with
  | .scanning sc => { s with touch := { s.touch with scanner := .scanning { sc with sawPulse := true } } }
  | .quiet sc => { s with touch := { s.touch with scanner := .quiet { sc with sawPulse := true } } }
  | .off | .quietWait => s

/-- A phase starts: charge is spent, pulse length and gap are latched, the scan sees the pulse; an overcurrent input
already high ends the pulse in this event (R112, R119). -/
def State.startPhase (s : State) (h : Hand) : State :=
  let s :=
    { s with
      charge := { s.charge with level := s.charge.level - h.need }
      driver :=
        { s.driver with
          state := .pulse
          hand := some (h.mark .pulsing)
          pulseLength := some s.settings.pulseLength
          phaseGap := some s.settings.phaseGap } }
  let s := s.notePulse
  if s.ocin then s.enterHeld else s

/-- The driver tries to start the phase in hand: PULSE when the charge meets its need and no quiet scan is demanded,
WAIT_CHARGE otherwise (R111, R118). -/
def State.tryPhase (s : State) : State :=
  match s.driver.hand with
  | none => s
  | some h =>
    if h.need ≤ s.charge.level ∧ s.quietPending = false then s.startPhase h else s.driverState .waitCharge

/-- A driver waiting in WAIT_CHARGE tries its phase again (R111, R118). -/
def State.retryPhase (s : State) : State := if s.driver.state = .waitCharge then s.tryPhase else s

/-! ### Taking an operation (R108, R109, R110) -/

/-- The ring head is taken, in the order of R110: it leaves the ring, a stalled generator examines its waiting strip,
and the first phase is tried. -/
def State.takeRing (s : State) (o : RingOp) (rest : List RingOp) (passOver : Nat) : State :=
  ({ s with
      ring := rest
      driver :=
        { s.driver with state := .waitCharge, hand := some (handOf (.ring o.tag) o.op), passOver := passOver } }).reexamine.tryPhase

/-- The sweep slot is taken (R109, R110). -/
def State.takeSweep (s : State) (op : StripOp) : State :=
  ({ s with
      sweep := { s.sweep with slot := none }
      driver := { s.driver with state := .waitCharge, hand := some (handOf .sweep op), passOver := 0 } }).tryPhase

/-- The driver arbiter: an IDLE driver takes from a ready source (R108). -/
def State.driverArbiter (s : State) : State :=
  if s.driver.state = .idle then
    match s.ring, s.sweep.slot with
    | [], none => s
    | o :: rest, none => s.takeRing o rest s.driver.passOver
    | [], some w => s.takeSweep w
    | o :: rest, some w =>
      if s.driver.passOver < Config.passOverMax then s.takeRing o rest (s.driver.passOver + 1) else s.takeSweep w
  else s

/-! ### Striking and dead dots (R8 to R12, R101) -/

/-- The operation without one dot position. -/
def StripOp.without (op : StripOp) (p : Nat) : StripOp :=
  { op with setMask := op.setMask &&& ~~~(BitVec.twoPow 16 p), clearMask := op.clearMask &&& ~~~(BitVec.twoPow 16 p) }

/-- The ring operation names dot position `p` of strip `t`. -/
def RingOp.names (o : RingOp) (t : Strip) (p : Nat) : Bool := decide (o.op.strip = t) && o.op.named.getLsbD p

/-- The ring after a strike: an operation that names the dot loses it, and goes when that leaves it empty (R101). -/
def struckRing (ring : List RingOp) (t : Strip) (p : Nat) : List RingOp :=
  ring.filterMap fun o =>
    if o.names t p then
      if (o.op.without p).isEmpty then none else some { o with op := o.op.without p }
    else some o

/-- The operations a strike removes, in ring order. -/
def struckAway (ring : List RingOp) (t : Strip) (p : Nat) : List RingOp :=
  ring.filter fun o => o.names t p && (o.op.without p).isEmpty

/-- The strike of a newly recorded dead dot (R12, R30, R101): the requests of the operations that lose it are flagged,
the requests of the operations removed follow the course of R30, and when room has appeared a stalled generator
examines its waiting strip (log 10). -/
def State.strike (s : State) (t : Strip) (p : Nat) : State :=
  let hit := (s.ring.filter fun o => o.names t p).map (·.tag)
  let gone := struckAway s.ring t p
  let s :=
    { s with
      ring := struckRing s.ring t p
      queue :=
        { s.queue with
          requests := s.queue.requests.map fun r => if hit.contains r.tag then { r with dotsStruck := true } else r } }
  let s := gone.foldl (fun s o => s.settleOne o.tag) s
  if gone.isEmpty then s else s.reexamine

/-- A dot found dead: recorded, UNKNOWN, reported and struck while the table has room (R10), else UNKNOWN and reported
(R11). The DOT report goes before the reports a strike causes. -/
def State.foundDead (s : State) (t : Strip) (source : SenseSource) (p : Nat) : State :=
  let image := loseDots s.image t (BitVec.twoPow 16 p)
  if s.dead.length < Config.deadSize then
    (({ s with image := image, dead := s.dead ++ [⟨t.col, t.rowOf p, source⟩] } : State).offer
      (.dot t.col (t.rowOf p) source true)).strike t p
  else ({ s with image := image } : State).offer (.dot t.col (t.rowOf p) source false)

/-- The positions of a phase's mask that drew no current, in increasing order (R8). -/
def deadPositions (m sense : Mask) : List Nat := (List.range 16).filter fun p => m.getLsbD p && !sense.getLsbD p

/-- The source a sense result carries (R8). -/
def Hand.senseSource (h : Hand) : SenseSource := if h.isRing then .request else .sweep

/-- A sense result is handled, dot by dot (R8). -/
def State.senseResult (s : State) (h : Hand) (sense : Mask) : State :=
  (deadPositions (h.op.mask h.phase) sense).foldl (fun s p => s.foundDead h.op.strip h.senseSource p) s

/-! ### The ends of gap and pulse (R113, R114, R115) -/

/-- The operation in hand completes: it leaves the hand, its request's count falls, and the arbiter chooses (R115). -/
def State.completeOp (s : State) (h : Hand) : State :=
  let s := { s with driver := { s.driver with state := .idle, hand := none } }
  let s := match h.source with
    | .ring tag => s.settleOne tag
    | .sweep => s
  s.driverArbiter

/-- The gap ends: a clear phase not begun is tried, otherwise the operation completes (R114). -/
def State.gapEnds (s : State) : State :=
  match s.driver.hand with
  | none => s
  | some h =>
    if h.clearStatus = .notBegun then
      ({ s with driver := { s.driver with hand := some { h with phase := .clear } } }).tryPhase
    else s.completeOp h

/-- The pulse ends at its full length: lines released, sense inputs read and handled, phase completed, GAP; a latched
gap of 0 ends in the same event (R113, R114). -/
def State.pulseEnds (s : State) (sense : Mask) : State :=
  match s.driver.hand with
  | none => s
  | some h =>
    let s := { s with driver := { s.driver with state := .gap, hand := some (h.mark .completed) } }
    let s := (s.pulseOver).senseResult h sense
    if s.driver.phaseGap = some 0 then s.gapEnds else s

/-- A recharge step: the level rises by 1 up to 64, the recharge period is read for the next, and a waiting phase may
start (R111, R117). -/
def State.recharge (s : State) : State :=
  ({ s with charge := ⟨min (s.charge.level + 1) Config.chargeMax, s.settings.rechargePeriod⟩ }).retryPhase

end Sys2Proof.Machine
end

