-- ==== Sys2Proof/Machine/Touch.lean ====
section
/-!
DEFINITION. The touch scanner: scans voided and quiet, blocked beams, scan outcomes, the contact, echoes, and the zone
table with SET ZONE (R136 to R152).
-/

namespace Sys2Proof.Machine

/-! ### Starting and stopping scans (R141, R143, R145, R151) -/

/-- A scan starts: the scan period is read, and a pulse already in progress is seen (R141, R142). -/
def State.newScan (s : State) : Scan := ⟨s.settings.scanPeriod, s.pulseInProgress⟩

/-- The touch block as it is when scanning is stopped or starts afresh: contact or candidate dropped without a report,
blocked set empty, counts 0, quiet pending clear; scanning starts when touch is enabled (R145, R151, R152). The
coalescing reference is cleared with the contact (R158). -/
def State.restartTouch (s : State) : State :=
  ({ s with
      touch :=
        { scanner := if s.settings.touchEnable = 1 then .scanning s.newScan else .off
          voided := 0
          xBeams := List.replicate Config.xBeamMax .clear
          yBeams := List.replicate Config.yBeamMax .clear
          contact := .none
          contactCounter := s.touch.contactCounter } }).clearCoalesce

/-! ### Blocked beams (R144) -/

/-- One beam after a non-voided scan, and whether it joined (BLOCKED, true) or left (CLEAR, false) the blocked set. -/
def beamStep (limit : Nat) (b : Beam) (broken : Bool) : Beam × Option Bool :=
  let count := if broken then min (b.broken + 1) Config.brokenMax else 0
  if !b.blocked && decide (limit ≤ count) then (⟨count, true⟩, some true)
  else if b.blocked && !broken then (⟨count, false⟩, some false)
  else (⟨count, b.blocked⟩, none)

/-- The beams of one axis after a non-voided scan; those beyond the axis's number of beams stay as they are. -/
def beamsStep (limit number : Nat) (beams : List Beam) (broken : Nat → Bool) : List Beam :=
  beams.mapIdx fun i b => if i < number then (beamStep limit b (broken i)).1 else b

/-- The BEAM reports of one axis, in increasing beam number (R144). -/
def beamReports (axis : Axis) (limit number : Nat) (beams : List Beam) (broken : Nat → Bool) : List Report :=
  (List.range number).filterMap fun i =>
    (beamStep limit (beams.getD i .clear) (broken i)).2.map fun blocked => .beam axis i blocked

/-! ### Scan outcomes (R146) -/

/-- The outcome of a non-voided scan. -/
inductive ScanOutcome where
  | clear
  | single (x y : Nat)
  | part
  | multiple
deriving DecidableEq, Repr

/-- The runs of broken beams from beam `i` on: first and last beam of each; `open'` is the first beam of a run that
reaches beam i. -/
def runsFrom : Nat → Option Nat → List Bool → List (Nat × Nat)
  | _, none, [] => []
  | i, some a, [] => [(a, i - 1)]
  | i, none, b :: rest => runsFrom (i + 1) (if b then some i else none) rest
  | i, some a, b :: rest => if b then runsFrom (i + 1) (some a) rest else (a, i - 1) :: runsFrom (i + 1) none rest

/-- The runs of an axis: broken beams that are not blocked, of the axis's number of beams (R146). -/
def axisRuns (number : Nat) (beams : List Beam) (broken : Nat → Bool) : List (Nat × Nat) :=
  runsFrom 0 none ((List.range number).map fun i => broken i && !(beams.getD i .clear).blocked)

/-- The floor of half the sum of the centres of a run's first and last beams (R140, R146). -/
def runCentre (origin pitch : Nat) (run : Nat × Nat) : Nat :=
  ((origin + run.1 * pitch) + (origin + run.2 * pitch)) / 2

/-- The outcome of the runs of the two axes (R146). -/
def outcomeOf (c : Settings) (xRuns yRuns : List (Nat × Nat)) : ScanOutcome :=
  match xRuns, yRuns with
  | [], [] => .clear
  | [a], [b] => .single (runCentre c.xOrigin c.xPitch a) (runCentre c.yOrigin c.yPitch b)
  | [_], [] | [], [_] => .part
  | _, _ => .multiple

/-! ### Echo (R24, R149, R150) -/

/-- An echo request joins: viewport 0, INVERT/LEAVE, no force, one filled BOX over the captured rectangle; the
generator arbiter chooses (R24, R25). -/
def State.joinEcho (s : State) (r : Rect) : State :=
  (s.joinRequest .echo 0 (.explicit ⟨.invert, .leave⟩) false [.box r.x r.y r.w r.h .filled]).generatorArbiter

/-- The echo at a press joins: by the captured echo mode, the driver and the echo pool (R149). -/
def State.pressEchoes (s : State) (mode : EchoMode) : Bool :=
  match mode with
  | .none => false
  | .press => decide (s.driver.state ≠ .held) && decide ((s.pool .echo).length < Config.echoPool)
  | .hold => decide (s.driver.state ≠ .held) && (s.pool .echo).isEmpty

/-! ### The contact (R136 to R139) -/

/-- The lowest-numbered defined zone that holds the position, with its id; none when no zone does (R139). -/
def hitTest (zones : List Zone) (x y : Nat) : Option (Nat × Zone) :=
  (zones.zipIdx.find? fun z => z.1.defined && z.1.rect.holds x y).map fun z => (z.2 + 1, z.1)

/-- Two positions differ by no more than the threshold on both axes (R136). -/
def within (threshold x y x' y' : Nat) : Bool :=
  (x - x') + (x' - x) ≤ threshold && (y - y') + (y' - y) ≤ threshold

/-- Two positions differ by at least the threshold on one axis (R138). -/
def movedBy (threshold x y x' y' : Nat) : Bool :=
  threshold ≤ (x - x') + (x' - x) || threshold ≤ (y - y') + (y' - y)

/-- The inside mark of a position (R139). -/
def Contact.insideMark (c : Contact) (x y : Nat) : Bool :=
  match c.captured with
  | some r => r.holds x y
  | none => false

/-- The contact state is changed. -/
def State.setContact (s : State) (c : ContactState) : State := { s with touch := { s.touch with contact := c } }

/-- PRESS: the contact is made at (x, y), in the order of R139. -/
def State.press (s : State) (x y : Nat) : State :=
  let n := s.touch.contactCounter
  let hit := hitTest s.zones x y
  let zone := (hit.map (·.1)).getD 0
  let captured := hit.map (·.2.rect)
  let mode := (hit.map (·.2.echo)).getD .none
  let echo := s.pressEchoes mode
  let due := echo && mode == .hold
  let s := { s with touch := { s.touch with contactCounter := (n + 1) % 256 } }
  let s := s.setContact (.down ⟨n, x, y, 0, zone, captured, mode, due⟩)
  let s := match echo, captured with
    | true, some r => s.joinEcho r
    | _, _ => s
  s.offer (.press n x y zone echo)

/-- The press test at candidate (x, y) with its count (R137). -/
def State.pressTest (s : State) (x y count : Nat) : State :=
  let count := min count Config.confirmMax
  if s.settings.pressConfirm ≤ count then s.press x y else s.setContact (.arming x y count)

/-- The contact ends with a RELEASE at its reported position; a release echo that is due joins unless the driver is
HELD (R137, R139, R150). The coalescing reference is cleared (R158). -/
def State.release (s : State) (c : Contact) : State :=
  let echo := c.releaseEchoDue && decide (s.driver.state ≠ .held) && decide ((s.pool .echo).length < Config.echoPool)
  let s := match echo, c.captured with
    | true, some r => s.joinEcho r
    | _, _ => s
  ((s.offer (.release c.number c.x c.y c.zone (c.insideMark c.x c.y) echo)).clearCoalesce).setContact .none

/-- The release test with its count (R137). -/
def State.releaseTest (s : State) (c : Contact) (count : Nat) : State :=
  let count := min count Config.confirmMax
  if s.settings.releaseConfirm ≤ count then s.release c else s.setContact (.releasing c count)

/-- The move check of a SINGLE scan in DOWN, or back to DOWN (R138). -/
def State.moveCheck (s : State) (c : Contact) (x y : Nat) : State :=
  if movedBy s.settings.moveThreshold x y c.x c.y ∧ s.settings.moveInterval ≤ c.sinceReport then
    (s.setContact (.down { c with x := x, y := y, sinceReport := 0 })).offer
      (.move c.number x y c.zone (c.insideMark x y))
  else s.setContact (.down c)

/-- The scan count since the last report is raised (R138). -/
def Contact.counted (c : Contact) : Contact := { c with sinceReport := min (c.sinceReport + 1) Config.scanCountMax }

/-- The contact moves by the outcome of a non-voided scan (R136). -/
def State.contactStep (s : State) (o : ScanOutcome) : State :=
  match s.touch.contact, o with
  | .none, .single x y => s.pressTest x y 1
  | .none, _ => s
  | .arming .., .clear => s.setContact .none
  | .arming cx cy n, .single x y =>
    if within s.settings.moveThreshold x y cx cy then s.pressTest cx cy (n + 1) else s.pressTest x y 1
  | .arming .., _ => s
  | .down c, .clear => s.releaseTest c.counted 1
  | .down c, .single x y => s.moveCheck c.counted x y
  | .down c, _ => s.setContact (.down c.counted)
  | .releasing c n, .clear => s.releaseTest c.counted (n + 1)
  | .releasing c _, .single x y => s.moveCheck c.counted x y
  | .releasing c n, _ => s.setContact (.releasing c.counted n)

/-! ### The end of a scan (R141 to R144) -/

/-- A scan that is not voided is evaluated: beams and BEAM reports, the outcome, the contact (R141 steps 2 to 4). -/
def State.evaluateScan (s : State) (xBroken : BitVec 48) (yBroken : BitVec 24) : State :=
  let c := s.settings
  let xs := beamsStep c.blockedLimit c.xBeams s.touch.xBeams xBroken.getLsbD
  let ys := beamsStep c.blockedLimit c.yBeams s.touch.yBeams yBroken.getLsbD
  let reports :=
    beamReports .x c.blockedLimit c.xBeams s.touch.xBeams xBroken.getLsbD ++
      beamReports .y c.blockedLimit c.yBeams s.touch.yBeams yBroken.getLsbD
  let s := { s with touch := { s.touch with xBeams := xs, yBeams := ys, voided := 0 } }
  let s := reports.foldl State.offer s
  s.contactStep (outcomeOf c (axisRuns c.xBeams xs xBroken.getLsbD) (axisRuns c.yBeams ys yBroken.getLsbD))

/-- The scanner state is changed. -/
def State.setScanner (s : State) (x : Scanner) : State := { s with touch := { s.touch with scanner := x } }

/-- A voided scan raises the count of voided scans; at 8 quiet pending is set, and the quiet scan starts now or when
the pulse in progress is over; otherwise the next scan starts (R142, R143). -/
def State.voidScan (s : State) : State :=
  let n := min (s.touch.voided + 1) Config.voidedMax
  let s := { s with touch := { s.touch with voided := n } }
  if n = Config.voidedMax then
    if s.pulseInProgress then s.setScanner .quietWait else s.setScanner (.quiet ⟨s.settings.scanPeriod, false⟩)
  else s.setScanner (.scanning s.newScan)

/-- The end of a scan (R141). The end of a quiet scan clears quiet pending, starts the next scan, and lets a waiting
phase start (R118, R143). -/
def State.scanEnds (s : State) (xBroken : BitVec 48) (yBroken : BitVec 24) : State :=
  match s.touch.scanner with
  | .off | .quietWait => s
  | .scanning sc =>
    if sc.sawPulse then s.voidScan
    else
      let s := s.evaluateScan xBroken yBroken
      s.setScanner (.scanning s.newScan)
  | .quiet _ =>
    let s := s.evaluateScan xBroken yBroken
    (s.setScanner (.scanning s.newScan)).retryPhase

/-! ### Zones (R147, R148) -/

/-- SET ZONE: the checks of R148 in order, then DEFINE or UNDEFINE. -/
def setZoneMessage (s : State) (p : List Byte) : State × Reply :=
  let id := fieldNat p 0
  let op := fieldNat p 1
  let r : Rect := ⟨fieldNat p 2, fieldNat p 3, fieldNat p 4, fieldNat p 5⟩
  let define := op == 1
  let c := s.settings
  let checks :=
    [(0, decide (1 ≤ id ∧ id ≤ 16)), (1, decide (op ≤ 1)),
      (2, !define || decide (r.x < c.columns)), (3, !define || decide (r.y < 16 * c.stripRows)),
      (4, !define || decide (1 ≤ r.w ∧ r.x + r.w ≤ c.columns)),
      (5, !define || decide (1 ≤ r.h ∧ r.y + r.h ≤ 16 * c.stripRows)),
      (6, !define || (echoModeOf (fieldNat p 6)).isSome)]
  match firstFailing checks with
  | some i => (s, badFieldReply i)
  | none =>
    if define then
      ({ s with zones := s.zones.set (id - 1) ⟨true, r, (echoModeOf (fieldNat p 6)).getD .none⟩ }, okReply [])
    else if (s.zones.getD (id - 1) .undefined).defined then
      ({ s with zones := s.zones.set (id - 1) .undefined }, okReply [])
    else (s, plainReply .notFound)

end Sys2Proof.Machine
end

