-- ==== Sys2Proof/Machine/Restarts.lean ====
section
/-!
DEFINITION. The restart, the entry to reset, and the end of a full reset (R39, R103, R124, R125, R164, R177, R178, R186,
R187).
-/

namespace Sys2Proof.Machine

/-- The report queue after a restart: emptied, numbering from 1, lost mark clear, subscription kept (R164). -/
def ReportQueue.restarted (q : ReportQueue) : ReportQueue := ⟨[], 1, false, q.subscription, none⟩

/-- The link after a restart: straps kept, receiver HUNT, transmitter IDLE, and the reply cache as given (R177,
R178). -/
def Link.restarted (l : Link) (cache : Option (Byte × List Byte)) : Link :=
  { l with rx := .hunt, tx := .idle, cache := cache }

/-- A restart takes effect (R186): the hand is cut short and the ring flushed (R103, R124), the request queue emptied
without reports (R39), the touch block restarted (R152), the report queue emptied (R164), the link left as R178
states. The pulse is ended before the new scan starts, so that scan has not seen it: R142 and R152 do not say which comes
first (DESIGN CHOICE, log 23). -/
def State.restart (s : State) (cache : Option (Byte × List Byte)) : State :=
  let s := (s.cutShort.flush).driverState .idle
  let s :=
    { s with
      queue := { s.queue with requests := [] }
      reports := s.reports.restarted
      link := s.link.restarted cache }
  s.restartTouch

/-- The unit enters reset (R187): lines released, the operation in hand lost with no sense result (R125), the frame
being received and the reply being sent discarded, no scan running. What the other blocks hold is of no account until
the end of the reset (log 9). -/
def State.enterReset (s : State) : State :=
  { s with
    inReset := true
    driver := { s.driver with state := .idle, hand := none }
    link := { s.link with rx := .hunt, tx := .idle }
    touch := { s.touch with scanner := .off } }

/-- The cause puts the unit in reset: power-on, or a low RESETN of at least 10 microseconds (R187). -/
def resetEffective : ResetCause → Bool
  | .powerOn => true
  | .resetnLow us => decide (10 ≤ us)

end Sys2Proof.Machine
end

