-- ==== Sys2Proof/Machine/Settings.lean ====
section
/-!
DEFINITION. CONFIGURE with the geometry change, QUERY, and RESUME (R180 to R185, R123).
-/

namespace Sys2Proof.Machine

/-- The work in flight is empty: no request in either pool, no operation in the ring, an empty hand (R182). -/
def State.workEmpty (s : State) : Bool := s.queue.requests.isEmpty && s.ring.isEmpty && s.driver.hand.isNone

/-- The effects of a geometry change on the blocks whose content depends on the shape, but for the scanner, for a state
that holds the new settings already (R184). -/
def State.geometryChange (s : State) : State :=
  { s with
    image := []
    dead := []
    viewports := freshViewports s.settings.columns s.settings.stripRows
    sweep := { s.sweep with cursor := ⟨0, 0⟩, slot := none }
    driver := { s.driver with passOver := 0 }
    zones := List.replicate Config.zoneCount .undefined }

/-- The scanner is affected by a change of settings: touch enable changes, or with touch enabled a beam setting or the
panel's shape does; a shape change also drops what a disabled scanner could hold (R151, R152). -/
def touchAffected (old new : Settings) : Bool :=
  old.touchEnable != new.touchEnable || old.shapeDiffers new || (new.touchEnable == 1 && old.beamsDiffer new)

/-- A stopped sweep timer starts when the interval is not 0 (R128). -/
def State.startSweepTimer (s : State) : State :=
  match s.sweep.timer with
  | none =>
    if s.settings.sweepInterval = 0 then s
    else { s with sweep := { s.sweep with timer := some s.settings.sweepInterval } }
  | some _ => s

/-- The settings take their new values in one event, with what that event does: the geometry change, the scanner, the
sweep timer, and, when the quiet block has been lifted, a waiting phase (R118, R128, R151, R183, R184; log 13). With the
overcurrent input high that phase makes the driver enter HELD in this event (R112, R119), and the hold's COMPLETION and
DRIVER reports are offered, although R183 says that an accepted CONFIGURE offers none: the model takes R183 to speak of
the CONFIGURE's own effects (DESIGN CHOICE, log 21). -/
def State.applySettings (s : State) (new : Settings) : State :=
  let old := s.settings
  let s := { s with settings := new }
  let s := if old.shapeDiffers new then s.geometryChange else s
  let wasQuiet := s.quietPending
  let s := if touchAffected old new then s.restartTouch else s
  let s := s.startSweepTimer
  if wasQuiet && !s.quietPending then s.retryPhase else s

/-- CONFIGURE (R180 to R183). -/
def configureMessage (s : State) (p : List Byte) : State × Reply :=
  let pairs := configPairs p
  let new := s.settings.putAll pairs
  match firstBadPair 0 pairs with
  | some i => (s, badFieldReply i)
  | none =>
    if new.beamsInside = false then (s, badFieldReply 0xFF)
    else if s.settings.shapeDiffers new = true ∧ s.workEmpty = false then (s, plainReply .busy)
    else (s.applySettings new, okReply [])

/-! ### QUERY (R185) -/

/-- The code of a driver state (R188). -/
def DriverState.code : DriverState → Byte
  | .idle => 0
  | .waitCharge => 1
  | .pulse => 2
  | .gap => 3
  | .held => 4

/-- The code of a contact state (R188). -/
def ContactState.code : ContactState → Byte
  | .none => 0
  | .arming .. => 1
  | .down _ => 2
  | .releasing .. => 3

/-- The 20-byte snapshot of QUERY (R185, R190). -/
def State.snapshot (s : State) : List Byte :=
  le16Bytes Config.familyCode ++
    [byte Config.siliconRevision, byte s.link.addressStraps.toNat, byte s.link.rateStraps.toNat,
      byte s.settings.columns, byte s.settings.stripRows, s.driver.state.code, byte s.charge.level,
      byte (s.pool .host).length, byte (s.pool .echo).length, byte s.ring.length, byte s.reports.entries.length,
      boolByte s.reports.lost, byte s.dead.length] ++
    le16Bytes s.store.freeColumns ++ le16Bytes s.store.glyphs.length ++ [s.touch.contact.code]

/-- QUERY (R185). -/
def queryMessage (s : State) : State × Reply := (s, okReply s.snapshot)

/-! ### RESUME (R123) -/

/-- RESUME: a HELD driver returns to IDLE, the generator arbiter chooses, and the driver's arbiter finds its sources
(R38, R108, R123). -/
def resumeMessage (s : State) : State × Reply :=
  if s.driver.state = .held then (((s.driverState .idle).generatorArbiter).driverArbiter, okReply [])
  else (s, plainReply .notHeld)

end Sys2Proof.Machine
end

