-- ==== Sys2Proof/Machine/Viewports.lean ====
section
/-!
DEFINITION. The messages of the viewport table: SET VIEWPORT and GET VIEWPORT (R44 to R46, R49).
-/

namespace Sys2Proof.Machine

/-- The checks of a SET VIEWPORT in the order of R44, each with its index; wrap's codes are log 24. -/
def setViewportChecks (c : Settings) (p : List Byte) : List (Nat × Bool) :=
  let id := fieldNat p 0
  let op := fieldNat p 1
  let define := op == 1
  let rect := define && id != 0
  let x := fieldNat p 2
  let y := fieldNat p 3
  let w := fieldNat p 4
  let h := fieldNat p 5
  [(0, decide (id ≤ 7)), (1, decide (op = 1 ∨ (op = 0 ∧ id ≠ 0))),
    (2, !rect || decide (x < c.columns)), (3, !rect || decide (y < 16 * c.stripRows)),
    (4, !rect || decide (1 ≤ w ∧ x + w ≤ c.columns)), (5, !rect || decide (1 ≤ h ∧ y + h ≤ 16 * c.stripRows)),
    (6, !define || decide (fieldNat p 6 ≤ 3)), (7, !define || decide (fieldNat p 7 ≤ 3)),
    (8, !define || decide (fieldNat p 8 ≤ 1)), (9, !define || decide (fieldNat p 9 ≤ 1))]

/-- The record a DEFINE leaves (R45). The cursor (cx, cy) is read as 16-bit two's complement: R42 makes it signed, and R188
names that form for drawing items alone (DEDUCED, log 19). Wrap is read as 0 for off and 1 for on, as a yes/no field is
coded: R42 and R44 give its values as off and on and R188 gives no code for them (DEDUCED, log 24). -/
def definedViewport (old : Viewport) (p : List Byte) : Viewport where
  defined := true
  rect := if fieldNat p 0 = 0 then old.rect else ⟨fieldNat p 2, fieldNat p 3, fieldNat p 4, fieldNat p 5⟩
  rule := (inkRuleOf (fieldNat p 6) (fieldNat p 7)).getD old.rule
  wrap := fieldNat p 8 == 1
  cx := if fieldNat p 9 = 1 then fieldSigned p 10 else if old.defined then old.cx else 0
  cy := if fieldNat p 9 = 1 then fieldSigned p 12 else if old.defined then old.cy else 0

/-- A request in the queue names the viewport, in either pool and in any state (R41). -/
def State.viewportInUse (s : State) (id : Nat) : Bool := s.queue.requests.any fun r => r.viewport == id

/-- An accepted DEFINE (R45). -/
def defineViewport (s : State) (p : List Byte) : State × Reply :=
  (s.setViewport (fieldNat p 0) (definedViewport (s.viewport (fieldNat p 0)) p), okReply [])

/-- An UNDEFINE that has passed its checks (R46). -/
def undefineViewport (s : State) (id : Nat) : State × Reply :=
  if (s.viewport id).defined = false then (s, plainReply .notFound)
  else if s.viewportInUse id then (s, plainReply .inUse)
  else (s.setViewport id .undefined, okReply [])

/-- SET VIEWPORT (R44, R45, R46). -/
def setViewportMessage (s : State) (p : List Byte) : State × Reply :=
  match firstFailing (setViewportChecks s.settings p) with
  | some i => (s, badFieldReply i)
  | none => if fieldNat p 1 = 1 then defineViewport s p else undefineViewport s (fieldNat p 0)

/-- The fields of a GET VIEWPORT reply (R49, R190). The cursor is sent as 16-bit two's complement, the form in which SET
VIEWPORT carries it (DEDUCED, log 19), and wrap as 0 for off and 1 for on (DEDUCED, log 24). -/
def viewportFields (id : Nat) (v : Viewport) : List Byte :=
  [byte id, boolByte v.defined, byte v.rect.x, byte v.rect.y, byte v.rect.w, byte v.rect.h, byte v.rule.ink.code,
    byte v.rule.ground.code, boolByte v.wrap] ++ signed16Bytes v.cx ++ signed16Bytes v.cy

/-- GET VIEWPORT (R49). -/
def getViewportMessage (s : State) (p : List Byte) : State × Reply :=
  if fieldNat p 0 ≤ 7 then (s, okReply (viewportFields (fieldNat p 0) (s.viewport (fieldNat p 0))))
  else (s, badFieldReply 0)

end Sys2Proof.Machine
end

