-- ==== Sys2Proof/Machine/Link.lean ====
section
/-!
DEFINITION. The bus link: CRC, escaping, frames, the receiver, the frame checks, broadcasts, the reply cache, and the
transmitter (R165 to R178, R189).
-/

namespace Sys2Proof.Machine

/-! ### CRC (R170) -/

/-- The register after one data bit: shifted, and exclusive-ored with 0x1021 when the bit shifted out differs from the
data bit. -/
def crcBit (r : BitVec 16) (d : Bool) : BitVec 16 := if r.msb != d then (r <<< 1) ^^^ 0x1021 else r <<< 1

/-- The register after one byte, its most significant bit first. -/
def crcByte (r : BitVec 16) (b : Byte) : BitVec 16 := [7, 6, 5, 4, 3, 2, 1, 0].foldl (fun r i => crcBit r (b.getLsbD i)) r

/-- The CRC of some bytes: from a register of all ones, not inverted. -/
def crc16 (bytes : List Byte) : BitVec 16 := bytes.foldl crcByte (BitVec.allOnes 16)

/-- The two CRC bytes, high byte first (R170, R189). -/
def crcBytes (c : BitVec 16) : List Byte := [c.extractLsb' 8 8, c.extractLsb' 0 8]

/-! ### Frames and escaping (R168, R169, R189) -/

/-- The body bytes before the CRC: destination, source, sequence, kind, payload length, payload. -/
def frameHead (dest src seq kind : Byte) (payload : List Byte) : List Byte :=
  [dest, src, seq, kind, byte payload.length] ++ payload

/-- A whole body: the head and its CRC (R189). -/
def frameBody (dest src seq kind : Byte) (payload : List Byte) : List Byte :=
  frameHead dest src seq kind payload ++ crcBytes (crc16 (frameHead dest src seq kind payload))

/-- The characters of one body byte: escaped when it is 0xE7 or 0xE8 (R169). -/
def escapeByte (b : Byte) : List Byte :=
  if b = Config.startByte ∨ b = Config.escByte then [Config.escByte, b ^^^ Config.escMask] else [b]

/-- The characters of a frame on the line: START and the escaped body (R167, R189). -/
def lineChars (body : List Byte) : List Byte := Config.startByte :: body.flatMap escapeByte

/-- The ten bit times of one character as they are sent, first to last: start bit low, data least significant bit
first, stop bit high (R166). -/
def charBits (b : Byte) : List Bool := false :: (List.range 8).map b.getLsbD ++ [true]

/-- What TXD carries, character by character, while a reply is being sent (R167). -/
def State.txLine (s : State) : List Byte :=
  match s.link.tx with
  | .sending reply _ => if s.inReset then [] else lineChars reply
  | _ => []

/-- The bits that TXD carries while a reply is being sent, first to last: its characters back to back, with no idle time
between them (R166, R167). -/
def State.txdBits (s : State) : List Bool := s.txLine.flatMap charBits

/-- The level of pin TXD `n` bit times after the reply's start: the reply's bits, and high where nothing is being sent, as
after a full reset and in IDLE (R166, R167). In TURNAROUND and in reset, where the manual does not name the level, it
rests high as well (DESIGN CHOICE, log 22). -/
def State.txdLevel (s : State) (n : Nat) : Bool := s.txdBits.getD n true

/-- What the unit drives onto the line: TXD while DE is high, nothing otherwise (R167). -/
def State.lineDriven (s : State) (n : Nat) : Option Bool := if s.deHigh then some (s.txdLevel n) else none

/-! ### Carrying out a message (R175) -/

/-- The owning block carries out a message whose length suits its kind, and gives the reply's payload (R175). RESTART
only answers: its effect waits for the reply's end (R177). -/
def ownerCarriesOut (k : MsgKind) (s : State) (p : List Byte) : State × Reply :=
  match k with
  | .query => queryMessage s
  | .configure => configureMessage s p
  | .restart => (s, okReply [])
  | .draw => drawMessage s p
  | .cancel => cancelMessage s p
  | .resume => resumeMessage s
  | .setViewport => setViewportMessage s p
  | .getViewport => getViewportMessage s p
  | .setFont => setFontMessage s p
  | .dropFont => dropFontMessage s p
  | .loadGlyph => loadGlyphMessage s p
  | .dropGlyph => dropGlyphMessage s p
  | .readImage => readImageMessage s p
  | .listDeadDots => listDeadDotsMessage s
  | .forgetDeadDot => forgetDeadDotMessage s p
  | .setZone => setZoneMessage s p
  | .collect => collectMessage s p
  | .subscribe => subscribeMessage s p

/-- A message is carried out: kind, then length, then owner (R175). -/
def carryOut (kind : Byte) (s : State) (p : List Byte) : State × Reply :=
  match msgKindOf kind with
  | none => (s, plainReply .unknownKind)
  | some k => if k.accepts p.length then ownerCarriesOut k s p else (s, plainReply .badLength)

/-- A frame whose carrying out leaves a restart pending: an addressed RESTART whose length suits it (R177). -/
def leavesRestart (kind : Byte) (p : List Byte) : Bool := msgKindOf kind == some .restart && p.isEmpty

/-! ### Addressed and broadcast frames (R172 to R176) -/

/-- The receiver is put in a state. -/
def State.setRx (s : State) (rx : Receiver) : State := { s with link := { s.link with rx := rx } }

/-- A reply is handed to the transmitter, which enters TURNAROUND (R175, R176). -/
def State.answer (s : State) (reply : List Byte) (restartAfter : Bool) : State :=
  { s with link := { s.link with tx := .turnaround reply restartAfter } }

/-- The body of a reply: to the host, from the own address, with the frame's sequence and its kind plus 0x80 (R175). -/
def replyBody (own : Nat) (seq kind : Byte) (reply : Reply) : List Byte := frameBody 0 (byte own) seq (kind + 0x80) reply

/-- A message is carried out and answered: its effects, the reply saved in the cache, the transmitter in TURNAROUND
(R174, R175). -/
def State.execute (s : State) (own : Nat) (seq kind : Byte) (p : List Byte) : State :=
  let (t, reply) := carryOut kind s p
  let body := replyBody own seq kind reply
  ({ t with link := { t.link with cache := some (seq, body) } }).answer body (leavesRestart kind p)

/-- An addressed frame that has passed the frame checks: dropped while in TURNAROUND (R176); answered from the cache
when its sequence is the cached one; otherwise carried out (R174). -/
def State.takeAddressed (s : State) (own : Nat) (seq kind : Byte) (p : List Byte) : State :=
  if s.inTurnaround then s
  else
    match s.link.cache with
    | some (q, body) => if q = seq then s.answer body false else s.execute own seq kind p
    | none => s.execute own seq kind p

/-- A broadcast frame that has passed the frame checks: RESTART, or CANCEL in its all form; nothing else is acted on
(R36, R173). -/
def State.takeBroadcast (s : State) (kind : Byte) (p : List Byte) : State :=
  match msgKindOf kind with
  | some .restart => if p.isEmpty then s.restart none else s
  | some .cancel => if p.length = 2 ∧ field16 p 0 = 0 then (cancelAllForm s).1 else s
  | _ => s

/-- A complete frame in the event of its last byte: the receiver is in HUNT, and the checks of CRC, source and
destination are made in that order (R171, R172). -/
def State.frameArrives (s : State) (crcGood : Bool) (dest src seq kind : Byte) (p : List Byte) : State :=
  let s := s.setRx .hunt
  if crcGood = false then s
  else if src ≠ 0 then s
  else if dest = Config.broadcastAddress then s.takeBroadcast kind p
  else
    match s.link.ownAddress with
    | some own => if dest.toNat = own then s.takeAddressed own seq kind p else s
    | none => s

/-- A complete body, with the CRC computed over it as its bytes arrived (R168, R172). -/
def State.bodyArrives (s : State) (body : List Byte) (crc : BitVec 16) : State :=
  s.frameArrives (body.drop (body.length - 2) == crcBytes crc) (field body 0) (field body 1) (field body 2)
    (field body 3) ((body.drop 5).take (body.length - 7))

/-! ### The receiver (R168, R169, R171) -/

/-- A body byte is taken: counted, entered into the CRC when it comes before the CRC bytes, and tested by R168. -/
def State.bodyByte (s : State) (bytes : List Byte) (crc : BitVec 16) (b : Byte) : State :=
  let bytes' := bytes ++ [b]
  match bytes'[4]? with
  | none => s.setRx (.body bytes' (crcByte crc b))
  | some len =>
    if Config.payloadMax < len.toNat then s.setRx .hunt
    else
      let crc' := if bytes.length < 5 + len.toNat then crcByte crc b else crc
      if bytes'.length = 7 + len.toNat then s.bodyArrives bytes' crc' else s.setRx (.body bytes' crc')

/-- A new frame begins: count 0, CRC register all ones (R171). -/
def State.newFrame (s : State) : State := s.setRx (.body [] (BitVec.allOnes 16))

/-- A character moves the receiver (R171); `none` is a framing error. -/
def State.receive (s : State) (c : Option Byte) : State :=
  match s.link.rx, c with
  | .hunt, some b => if b = Config.startByte then s.newFrame else s
  | .hunt, none => s
  | .body _ _, none | .escape _ _, none => s.setRx .hunt
  | .body bytes crc, some b =>
    if b = Config.startByte then s.newFrame
    else if b = Config.escByte then s.setRx (.escape bytes crc)
    else s.bodyByte bytes crc b
  | .escape bytes crc, some b =>
    if b = Config.startByte then s.newFrame else s.bodyByte bytes crc (b ^^^ Config.escMask)

/-! ### The frame-level commands (log 7) -/

/-- The last byte of a frame of the given kind and payload, good in its CRC, from the host and addressed to this unit.
It is not taken in reset or while SENDING (R167, R187); a payload over 200 bytes never completes (R168); a unit
without an own address takes it for another party's (R165). -/
def State.addressedFrame (s : State) (seq kind : Byte) (p : List Byte) : State :=
  if s.listening = false then s
  else
    match s.link.ownAddress with
    | some own =>
      if Config.payloadMax < p.length then s.setRx .hunt else s.frameArrives true (byte own) 0 seq kind p
    | none => s.setRx .hunt

/-- The last byte of a broadcast frame, good in its CRC and from the host (R173). -/
def State.broadcastFrame (s : State) (seq kind : Byte) (p : List Byte) : State :=
  if s.listening = false then s
  else if Config.payloadMax < p.length then s.setRx .hunt
  else s.frameArrives true Config.broadcastAddress 0 seq kind p

/-- The frame is dropped or ignored: bad CRC, nonzero source, another party's, a broadcast that is not acted on, or an
addressed frame while in TURNAROUND (R172, R173, R176). -/
def State.dropsFrame (s : State) (body : List Byte) : Bool :=
  let head := body.take (body.length - 2)
  let dest := field body 0
  let p := (body.drop 5).take (body.length - 7)
  let actedOn := match msgKindOf (field body 3) with
    | some .restart => p.isEmpty
    | some .cancel => decide (p.length = 2 ∧ field16 p 0 = 0)
    | _ => false
  body.drop (body.length - 2) != crcBytes (crc16 head) || field body 1 != 0 ||
    (if dest = Config.broadcastAddress then !actedOn
     else s.link.ownAddress != some dest.toNat || s.inTurnaround)

/-! ### The transmitter (R167, R176, R177) -/

/-- The reply's start time: DE rises, the transmitter is SENDING, and a partly received frame is discarded (R167). -/
def State.replyStarts (s : State) : State :=
  match s.link.tx with
  | .turnaround reply r => { s with link := { s.link with tx := .sending reply r, rx := .hunt } }
  | _ => s

/-- The last character of the reply has gone: DE falls, the transmitter is IDLE, the receiver in HUNT, and a pending
restart takes effect with the reply cache kept (R167, R177). -/
def State.replyEnds (s : State) : State :=
  match s.link.tx with
  | .sending _ r =>
    let s := { s with link := { s.link with tx := .idle, rx := .hunt } }
    if r then s.restart s.link.cache else s
  | _ => s

end Sys2Proof.Machine
end

