-- ==== Sys2Proof/Machine/Sweep.lean ====
section
/-!
DEFINITION. The re-assertion sweep: its expiries, the strips it skips, and the fill of its slot (R127 to R131).
-/

namespace Sys2Proof.Machine

/-- The strips of the panel in the order an expiry examines them: from the cursor in sweep order, coming round (R130). -/
def sweepOrder (columns stripRows : Nat) (cursor : Strip) : List Strip :=
  let all := panelStrips columns stripRows
  (all.filter fun t => !t.before cursor) ++ all.filter fun t => t.before cursor

/-- The strip is skipped: it is named by the ring or the hand, or it holds no known dot that is not recorded dead
(R130). -/
def State.sweepSkips (s : State) (t : Strip) : Bool :=
  s.namesStrip t ||
    !((List.range 16).any fun p => (imageGet s.image t).known.getLsbD p && !recorded s.dead t.col (t.rowOf p))

/-- The sweep operation for a strip: its ON positions to set, its OFF positions to clear (R131). -/
def sweepOp (im : Image) (t : Strip) : StripOp := ⟨t, (imageGet im t).on, (imageGet im t).off⟩

/-- The slot is filled for a strip, the cursor moves to the strip after it, and an IDLE driver takes the operation
(R130, R131). -/
def State.sweepFill (s : State) (t : Strip) : State :=
  ({ s with
      sweep :=
        { s.sweep with
          slot := some (sweepOp s.image t)
          cursor := nextInSweep s.settings.columns s.settings.stripRows t } }).driverArbiter

/-- An expiry that reads a nonzero interval: nothing while HELD or with the slot full, otherwise the first strip that
is not skipped fills the slot (R129, R130). -/
def State.sweepLooks (s : State) : State :=
  if s.driver.state = .held ∨ s.sweep.slot.isSome then s
  else
    match (sweepOrder s.settings.columns s.settings.stripRows s.sweep.cursor).find? fun t => !s.sweepSkips t with
    | none => s
    | some t => s.sweepFill t

/-- A sweep timer expiry: the interval is read; 0 stops the timer, otherwise the next expiry is due one interval later
and the sweep looks for work (R128). A stopped timer has no expiry. -/
def State.sweepExpires (s : State) : State :=
  match s.sweep.timer with
  | none => s
  | some _ =>
    if s.settings.sweepInterval = 0 then { s with sweep := { s.sweep with timer := none } }
    else ({ s with sweep := { s.sweep with timer := some s.settings.sweepInterval } }).sweepLooks

end Sys2Proof.Machine
end

