-- ==== Sys2Proof/Machine/Events.lean ====
section
/-!
DEFINITION. The commands that are events of the line, of the panel side, of time and of the reset. An event that cannot
come about in the present state, such as a pulse end without a pulse, changes nothing (log 5); in reset only the end of
the reset acts (R187).
-/

namespace Sys2Proof.Machine

/-- RECEIVER_GAP_TIMEOUT: a partial frame is dropped; in HUNT the gap is not timed (R171). -/
def execReceiverGapTimeout (s : State) : Host.Outcome State Fault Refusal :=
  .next (if s.listening then s.setRx .hunt else s)

/-- REPLY_START (R167, R176). -/
def execReplyStart (s : State) : Host.Outcome State Fault Refusal := .next (s.unlessReset State.replyStarts)

/-- REPLY_END (R167, R177). -/
def execReplyEnd (s : State) : Host.Outcome State Fault Refusal := .next (s.unlessReset State.replyEnds)

/-- FULL_RESET_ENTRY: a RESETN low for less than 10 microseconds is ignored (R187). -/
def execFullResetEntry (cause : ResetCause) (s : State) : Host.Outcome State Fault Refusal :=
  .next (if resetEffective cause then s.enterReset else s)

/-- FULL_RESET_EXIT: the straps are read and every block takes its full-reset state (R165, R187). -/
def execFullResetExit (addressStraps : BitVec 5) (rateStraps : BitVec 2) (s : State) :
    Host.Outcome State Fault Refusal :=
  .next (if s.inReset then .afterFullReset addressStraps rateStraps s.ocin s.pending else s)

/-- OVERCURRENT: the input's level is what the command leaves it at; the rise is acted on in PULSE alone (R119, R120;
log 2). -/
def execOvercurrent (level : Bool) (s : State) : Host.Outcome State Fault Refusal :=
  let t := { s with ocin := level }
  .next (if s.inReset = false ∧ s.driver.state = .pulse then t.enterHeld else t)

/-- RECHARGE_STEP (R117). -/
def execRechargeStep (s : State) : Host.Outcome State Fault Refusal := .next (s.unlessReset State.recharge)

/-- PULSE_END (R113). -/
def execPulseEnd (sense : Mask) (s : State) : Host.Outcome State Fault Refusal :=
  .next (s.unlessReset fun s => if s.driver.state = .pulse then s.pulseEnds sense else s)

/-- GAP_END (R114). -/
def execGapEnd (s : State) : Host.Outcome State Fault Refusal :=
  .next (s.unlessReset fun s => if s.driver.state = .gap then s.gapEnds else s)

/-- STRIP_EXAMINATION: the generator's next event, and then the driver's arbiter, which takes what an append has made
ready (R91, R108; log 6, log 12). -/
def execStripExamination (s : State) : Host.Outcome State Fault Refusal :=
  .next (s.unlessReset fun s => s.generatorEvent.driverArbiter)

/-- SWEEP_EXPIRY (R128). -/
def execSweepExpiry (s : State) : Host.Outcome State Fault Refusal := .next (s.unlessReset State.sweepExpires)

/-- SCAN_END (R141). -/
def execScanEnd (xBroken : BitVec 48) (yBroken : BitVec 24) (s : State) : Host.Outcome State Fault Refusal :=
  .next (s.unlessReset fun s => s.scanEnds xBroken yBroken)

/-- CHARACTER_RECEIVED: a low stop bit is a framing error (R166, R171). -/
def execCharacterReceived (data : Byte) (stop : Bool) (s : State) : Host.Outcome State Fault Refusal :=
  .next (if s.listening then s.receive (if stop then some data else none) else s)

/-- FRAME_DROPPED: a frame with this body completes and is dropped or ignored; the receiver enters HUNT (R171, R172). A
body that is not dropped in this state is not this event. -/
def execFrameDropped (body : List Byte) (s : State) : Host.Outcome State Fault Refusal :=
  .next (if s.listening && s.dropsFrame body then s.setRx .hunt else s)

end Sys2Proof.Machine
end

