-- ==== Sys2Proof/Machine/Messages.lean ====
section
/-!
DEFINITION. The commands that are frames from the host: one meaning for each message row and each broadcast row. Each
is the event of the frame's last byte (R172, R175; log 7); what the message does is its block's own definition, named
in `ownerCarriesOut`.
-/

namespace Sys2Proof.Machine

/-- QUERY (R174, R175, R185). -/
def execQuery (seq : Byte) (p : List Byte) (s : State) : Host.Outcome State Fault Refusal :=
  .next (s.addressedFrame seq MsgKind.query.code p)

/-- CONFIGURE (R180 to R184). -/
def execConfigure (seq : Byte) (p : List Byte) (s : State) : Host.Outcome State Fault Refusal :=
  .next (s.addressedFrame seq MsgKind.configure.code p)

/-- RESTART (R177, R186). -/
def execRestart (seq : Byte) (p : List Byte) (s : State) : Host.Outcome State Fault Refusal :=
  .next (s.addressedFrame seq MsgKind.restart.code p)

/-- DRAW (R22, R23). -/
def execDraw (seq : Byte) (p : List Byte) (s : State) : Host.Outcome State Fault Refusal :=
  .next (s.addressedFrame seq MsgKind.draw.code p)

/-- CANCEL (R33). -/
def execCancel (seq : Byte) (p : List Byte) (s : State) : Host.Outcome State Fault Refusal :=
  .next (s.addressedFrame seq MsgKind.cancel.code p)

/-- CANCEL_ALL (R35). -/
def execCancelAll (seq : Byte) (p : List Byte) (s : State) : Host.Outcome State Fault Refusal :=
  .next (s.addressedFrame seq MsgKind.cancel.code p)

/-- RESUME (R123). -/
def execResume (seq : Byte) (p : List Byte) (s : State) : Host.Outcome State Fault Refusal :=
  .next (s.addressedFrame seq MsgKind.resume.code p)

/-- SET_VIEWPORT_DEFINE (R44, R45). -/
def execSetViewportDefine (seq : Byte) (p : List Byte) (s : State) : Host.Outcome State Fault Refusal :=
  .next (s.addressedFrame seq MsgKind.setViewport.code p)

/-- SET_VIEWPORT_UNDEFINE (R44, R46). -/
def execSetViewportUndefine (seq : Byte) (p : List Byte) (s : State) : Host.Outcome State Fault Refusal :=
  .next (s.addressedFrame seq MsgKind.setViewport.code p)

/-- GET_VIEWPORT (R49). -/
def execGetViewport (seq : Byte) (p : List Byte) (s : State) : Host.Outcome State Fault Refusal :=
  .next (s.addressedFrame seq MsgKind.getViewport.code p)

/-- SET_FONT (R70, R71). -/
def execSetFont (seq : Byte) (p : List Byte) (s : State) : Host.Outcome State Fault Refusal :=
  .next (s.addressedFrame seq MsgKind.setFont.code p)

/-- DROP_FONT (R72). -/
def execDropFont (seq : Byte) (p : List Byte) (s : State) : Host.Outcome State Fault Refusal :=
  .next (s.addressedFrame seq MsgKind.dropFont.code p)

/-- LOAD_GLYPH (R73 to R75). -/
def execLoadGlyph (seq : Byte) (p : List Byte) (s : State) : Host.Outcome State Fault Refusal :=
  .next (s.addressedFrame seq MsgKind.loadGlyph.code p)

/-- DROP_GLYPH (R76). -/
def execDropGlyph (seq : Byte) (p : List Byte) (s : State) : Host.Outcome State Fault Refusal :=
  .next (s.addressedFrame seq MsgKind.dropGlyph.code p)

/-- READ_IMAGE (R16). -/
def execReadImage (seq : Byte) (p : List Byte) (s : State) : Host.Outcome State Fault Refusal :=
  .next (s.addressedFrame seq MsgKind.readImage.code p)

/-- LIST_DEAD_DOTS (R17). -/
def execListDeadDots (seq : Byte) (p : List Byte) (s : State) : Host.Outcome State Fault Refusal :=
  .next (s.addressedFrame seq MsgKind.listDeadDots.code p)

/-- FORGET_DEAD_DOT (R18). -/
def execForgetDeadDot (seq : Byte) (p : List Byte) (s : State) : Host.Outcome State Fault Refusal :=
  .next (s.addressedFrame seq MsgKind.forgetDeadDot.code p)

/-- SET_ZONE_DEFINE (R148). -/
def execSetZoneDefine (seq : Byte) (p : List Byte) (s : State) : Host.Outcome State Fault Refusal :=
  .next (s.addressedFrame seq MsgKind.setZone.code p)

/-- SET_ZONE_UNDEFINE (R148). -/
def execSetZoneUndefine (seq : Byte) (p : List Byte) (s : State) : Host.Outcome State Fault Refusal :=
  .next (s.addressedFrame seq MsgKind.setZone.code p)

/-- COLLECT (R161, R162). -/
def execCollect (seq : Byte) (p : List Byte) (s : State) : Host.Outcome State Fault Refusal :=
  .next (s.addressedFrame seq MsgKind.collect.code p)

/-- SUBSCRIBE (R160). -/
def execSubscribe (seq : Byte) (p : List Byte) (s : State) : Host.Outcome State Fault Refusal :=
  .next (s.addressedFrame seq MsgKind.subscribe.code p)

/-- UNKNOWN_KIND (R175). -/
def execUnknownKind (seq kind : Byte) (p : List Byte) (s : State) : Host.Outcome State Fault Refusal :=
  .next (s.addressedFrame seq kind p)

/-- BROADCAST_RESTART (R173, R177). -/
def execBroadcastRestart (seq : Byte) (p : List Byte) (s : State) : Host.Outcome State Fault Refusal :=
  .next (s.broadcastFrame seq MsgKind.restart.code p)

/-- BROADCAST_CANCEL (R36, R173). -/
def execBroadcastCancel (seq : Byte) (p : List Byte) (s : State) : Host.Outcome State Fault Refusal :=
  .next (s.broadcastFrame seq MsgKind.cancel.code p)

end Sys2Proof.Machine
end

