-- ==== Sys2Proof/Machine/Dispatch.lean ====
section
/-!
DEFINITION. The meaning of every command: its effect on everything but the queue of waiting commands.
-/

namespace Sys2Proof.Machine

def exec (i : Instr) (s : State) : Host.Outcome State Fault Refusal :=
  match i with
  | .query seq p => Sys2Proof.Machine.execQuery seq p s
  | .configure seq p => Sys2Proof.Machine.execConfigure seq p s
  | .restart seq p => Sys2Proof.Machine.execRestart seq p s
  | .draw seq p => Sys2Proof.Machine.execDraw seq p s
  | .cancel seq p => Sys2Proof.Machine.execCancel seq p s
  | .cancelAll seq p => Sys2Proof.Machine.execCancelAll seq p s
  | .resume seq p => Sys2Proof.Machine.execResume seq p s
  | .setViewportDefine seq p => Sys2Proof.Machine.execSetViewportDefine seq p s
  | .setViewportUndefine seq p => Sys2Proof.Machine.execSetViewportUndefine seq p s
  | .getViewport seq p => Sys2Proof.Machine.execGetViewport seq p s
  | .setFont seq p => Sys2Proof.Machine.execSetFont seq p s
  | .dropFont seq p => Sys2Proof.Machine.execDropFont seq p s
  | .loadGlyph seq p => Sys2Proof.Machine.execLoadGlyph seq p s
  | .dropGlyph seq p => Sys2Proof.Machine.execDropGlyph seq p s
  | .readImage seq p => Sys2Proof.Machine.execReadImage seq p s
  | .listDeadDots seq p => Sys2Proof.Machine.execListDeadDots seq p s
  | .forgetDeadDot seq p => Sys2Proof.Machine.execForgetDeadDot seq p s
  | .setZoneDefine seq p => Sys2Proof.Machine.execSetZoneDefine seq p s
  | .setZoneUndefine seq p => Sys2Proof.Machine.execSetZoneUndefine seq p s
  | .collect seq p => Sys2Proof.Machine.execCollect seq p s
  | .subscribe seq p => Sys2Proof.Machine.execSubscribe seq p s
  | .unknownKind seq kind p => Sys2Proof.Machine.execUnknownKind seq kind p s
  | .broadcastRestart seq p => Sys2Proof.Machine.execBroadcastRestart seq p s
  | .broadcastCancel seq p => Sys2Proof.Machine.execBroadcastCancel seq p s
  | .receiverGapTimeout => Sys2Proof.Machine.execReceiverGapTimeout s
  | .replyStart => Sys2Proof.Machine.execReplyStart s
  | .replyEnd => Sys2Proof.Machine.execReplyEnd s
  | .fullResetEntry cause => Sys2Proof.Machine.execFullResetEntry cause s
  | .fullResetExit ads brs => Sys2Proof.Machine.execFullResetExit ads brs s
  | .overcurrent level => Sys2Proof.Machine.execOvercurrent level s
  | .rechargeStep => Sys2Proof.Machine.execRechargeStep s
  | .pulseEnd sense => Sys2Proof.Machine.execPulseEnd sense s
  | .gapEnd => Sys2Proof.Machine.execGapEnd s
  | .stripExamination => Sys2Proof.Machine.execStripExamination s
  | .sweepExpiry => Sys2Proof.Machine.execSweepExpiry s
  | .scanEnd xb yb => Sys2Proof.Machine.execScanEnd xb yb s
  | .characterReceived data stop => Sys2Proof.Machine.execCharacterReceived data stop s
  | .frameDropped body => Sys2Proof.Machine.execFrameDropped body s

end Sys2Proof.Machine
end

