-- ==== Sys2Proof/Machine/Encode.lean ====
section
/-!
DEFINITION. How the host lays out a DRAW: items and header as bytes (R63, R188, R191), and which drawings a DRAW can
carry. The unit only reads this layout; the encoder is here so that reading can be stated against it.
-/

namespace Sys2Proof.Machine

/-- The kind code of an item (R191). -/
def Item.kindCode : Item → Byte
  | .dot .. => 1
  | .line .. => 2
  | .box .. => 3
  | .text .. => 4
  | .image .. => 5
  | .clear => 6
  | .cursor .. => 7
  | .newline _ => 8

/-- The code of a BOX's style (R188). -/
def BoxStyle.code : BoxStyle → Byte
  | .filled => 0
  | .outline => 1

/-- The field bytes of an item, in the order of the table of R191. -/
def Item.fieldBytes : Item → List Byte
  | .dot x y | .cursor x y => signed16Bytes x ++ signed16Bytes y
  | .line x0 y0 x1 y1 => signed16Bytes x0 ++ signed16Bytes y0 ++ signed16Bytes x1 ++ signed16Bytes y1
  | .box x y w h style => signed16Bytes x ++ signed16Bytes y ++ le16Bytes w ++ le16Bytes h ++ [style.code]
  | .text font none codes => [byte font, 0] ++ codes.map byte
  | .text font (some (x, y)) codes => [byte font, 1] ++ signed16Bytes x ++ signed16Bytes y ++ codes.map byte
  | .image x y w h data => signed16Bytes x ++ signed16Bytes y ++ [byte w, byte h] ++ data
  | .clear => []
  | .newline rows => [byte rows]

/-- An item as it is carried: kind, length, fields (R191). -/
def Item.encode (it : Item) : List Byte := it.kindCode :: byte it.fieldBytes.length :: it.fieldBytes

/-- The header's rule source and two actions (R61); a request that takes its viewport's rule carries zeros. -/
def RuleChoice.headerBytes : RuleChoice → List Byte
  | .viewport => [0, 0, 0]
  | .explicit r => [1, byte r.ink.code, byte r.ground.code]

/-- The payload of a DRAW (R191). -/
def DrawForm.encode (d : DrawForm) : List Byte :=
  byte d.viewport :: d.rule.headerBytes ++ [boolByte d.force, byte d.items.length] ++ d.items.flatMap Item.encode

/-- A coordinate that a signed field can carry (R188). -/
def coordinateFits (i : Int) : Bool := decide (-32768 ≤ i ∧ i ≤ 32767)

/-- The item's fields lie in their ranges (R63). -/
def Item.fits : Item → Bool
  | .dot x y | .cursor x y => coordinateFits x && coordinateFits y
  | .line x0 y0 x1 y1 => coordinateFits x0 && coordinateFits y0 && coordinateFits x1 && coordinateFits y1
  | .box x y w h _ =>
    coordinateFits x && coordinateFits y && decide (1 ≤ w ∧ w ≤ 4096 ∧ 1 ≤ h ∧ h ≤ 4096)
  | .text font start codes =>
    decide (font ≤ 7 ∧ 1 ≤ codes.length ∧ codes.length ≤ 64) && (codes.all fun c => decide (c < 256)) &&
      match start with
      | some (x, y) => coordinateFits x && coordinateFits y
      | none => true
  | .image x y w h data =>
    coordinateFits x && coordinateFits y &&
      decide (1 ≤ w ∧ w ≤ 240 ∧ 1 ≤ h ∧ h ≤ 64 ∧ data.length = w * columnBytes h)
  | .clear => true
  | .newline rows => decide (1 ≤ rows ∧ rows ≤ 64)

/-- What a DRAW can carry: a viewport id, 1 to 16 items in range, and a payload of at most 200 bytes (R61, R63, R168). -/
def DrawForm.fits (d : DrawForm) : Bool :=
  decide (d.viewport ≤ 7 ∧ 1 ≤ d.items.length ∧ d.items.length ≤ 16 ∧ d.encode.length ≤ 200) && d.items.all Item.fits

end Sys2Proof.Machine
end

