-- ==== Sys2Proof/WellFormed.lean ====
section
/-!
DEFINITION. Which commands a row of the table can carry: a frame's payload has at most 200 bytes (R168), and the
rows that share one message kind divide it between them by the payload. `exec` gives every command a meaning, the
ill-formed ones too (log 8).
-/

namespace Sys2Proof

/-- The codes of the eighteen message kinds (R190). -/
def messageCodes : List Byte :=
  [0x01, 0x02, 0x03, 0x10, 0x11, 0x12, 0x20, 0x21, 0x28, 0x29, 0x2A, 0x2B, 0x30, 0x31, 0x32, 0x40, 0x48, 0x49]

/-- A payload that a frame can carry (R168, R189). -/
def payloadFits (payload : List Byte) : Bool := payload.length ≤ Config.payloadMax

/-- A completed body: seven bytes and the payload its length byte gives (R168). -/
def bodyComplete (body : List Byte) : Bool :=
  match body[4]? with
  | some len => len.toNat ≤ Config.payloadMax && body.length == 7 + len.toNat
  | none => false

/-- The operation byte of a SET VIEWPORT or a SET ZONE is UNDEFINE (R188, R190). -/
def isUndefine (payload : List Byte) : Bool := payload[1]? == some 0

/-- The checks on a command. -/
def wellFormed : Instr → Bool
  | .query _ p | .configure _ p | .restart _ p | .draw _ p | .resume _ p | .getViewport _ p | .setFont _ p
  | .dropFont _ p | .loadGlyph _ p | .dropGlyph _ p | .readImage _ p | .listDeadDots _ p | .forgetDeadDot _ p
  | .collect _ p | .subscribe _ p => payloadFits p
  | .cancel _ p => payloadFits p && p != [0, 0]
  | .cancelAll _ p => p == [0, 0]
  | .setViewportDefine _ p | .setZoneDefine _ p => payloadFits p && !isUndefine p
  | .setViewportUndefine _ p | .setZoneUndefine _ p => payloadFits p && isUndefine p
  | .unknownKind _ k p => payloadFits p && !messageCodes.contains k
  | .broadcastRestart _ p => p == []
  | .broadcastCancel _ p => p == [0, 0]
  | .fullResetEntry (.resetnLow us) => 10 ≤ us
  | .frameDropped b => bodyComplete b
  | .fullResetEntry .powerOn | .receiverGapTimeout | .replyStart | .replyEnd | .fullResetExit _ _ | .overcurrent _
  | .rechargeStep | .pulseEnd _ | .gapEnd | .stripExamination | .sweepExpiry | .scanEnd _ _
  | .characterReceived _ _ => true

/-- A command that a row of the table can carry. -/
abbrev Instr.WellFormed (i : Instr) : Prop := wellFormed i = true

end Sys2Proof
end

