-- ==== Sys2Proof/Safety.lean ====
section
/-!
DEFINITION. What counts as a sound state of the unit: the facts the manual states of every moment, block by block, each
a decidable proposition, and what the model adds to them in log 20. `UnitSound` joins them; while the unit is in reset the blocks' contents are of no account
(R187), so the facts that the reset's beginning breaks are asked only outside reset.
-/

namespace Sys2Proof.Machine

/-! ### Settings (R179, R181) -/

/-- The value of the setting with an id. -/
def Settings.value (c : Settings) (id : Nat) : Nat :=
  match id with
  | 1 => c.columns
  | 2 => c.stripRows
  | 3 => c.pulseLength
  | 4 => c.phaseGap
  | 5 => c.rechargePeriod
  | 6 => c.sweepInterval
  | 7 => c.touchEnable
  | 8 => c.xBeams
  | 9 => c.yBeams
  | 10 => c.xOrigin
  | 11 => c.xPitch
  | 12 => c.yOrigin
  | 13 => c.yPitch
  | 14 => c.scanPeriod
  | 15 => c.pressConfirm
  | 16 => c.releaseConfirm
  | 17 => c.moveThreshold
  | 18 => c.moveInterval
  | 19 => c.blockedLimit
  | _ => 0

/-- Every setting lies in its range (R179) and every beam centre inside the panel (R140, R181). -/
abbrev SettingsSound (c : Settings) : Prop :=
  (∀ i ∈ List.range 19, settingInRange (i + 1) (c.value (i + 1)) = true) ∧ c.beamsInside = true

/-! ### Viewports and zones (R42, R26, R147) -/

/-- A viewport's record: defined, it lies inside the panel; undefined, it holds the undefined values (R42). -/
abbrev ViewportSound (c : Settings) (v : Viewport) : Prop :=
  if v.defined then v.rect.inPanel c.columns c.stripRows = true else v = .undefined

/-- A zone's record (R147). -/
abbrev ZoneSound (c : Settings) (z : Zone) : Prop :=
  if z.defined then z.rect.inPanel c.columns c.stripRows = true else z = .undefined

/-- The two tables, with viewport 0 always the whole panel (R42), and every request naming a defined viewport (R26). -/
abbrev PanelSound (s : State) : Prop :=
  SettingsSound s.settings ∧ s.viewports.length = Config.viewportCount ∧ s.zones.length = Config.zoneCount ∧
    (s.viewport 0).defined = true ∧
    (s.viewport 0).rect = ⟨0, 0, s.settings.columns, 16 * s.settings.stripRows⟩ ∧
    (∀ v ∈ s.viewports, ViewportSound s.settings v) ∧ (∀ z ∈ s.zones, ZoneSound s.settings z) ∧
    (∀ r ∈ s.queue.requests, (s.viewport r.viewport).defined = true)

/-! ### Glyph store (R67) -/

/-- Free columns and used columns sum to the pool; at most 320 glyphs, no two with one key, each in a defined font. -/
abbrev StoreSound (g : GlyphStore) : Prop :=
  g.fonts.length = Config.fontCount ∧ g.freeColumns + usedColumns g.glyphs = Config.poolColumns ∧
    g.glyphs.length ≤ Config.glyphMax ∧ (g.glyphs.map fun y => (y.font, y.code)).Nodup ∧
    ∀ y ∈ g.glyphs, (g.font y.font).defined = true ∧ 1 ≤ y.columns.length ∧ y.columns.length ≤ 32

/-! ### Reports (R154, R156, R158) -/

/-- A number that a counter can give. -/
abbrev InCount (n : Nat) : Prop := 1 ≤ n ∧ n ≤ 65535

/-- At most 32 entries, no two with one number; the coalescing reference names an unsent MOVE in the queue. -/
abbrev ReportsSound (q : ReportQueue) : Prop :=
  q.entries.length ≤ Config.reportSize ∧ q.numbers.Nodup ∧ (∀ n ∈ q.numbers, InCount n) ∧ InCount q.counter ∧
    ∀ n ∈ q.coalesce.toList, ∃ e ∈ q.entries, e.number = n ∧ e.report.isMove = true ∧ e.sent = false

/-! ### Image (R2) -/

/-- The image is in its canonical form and no dot is both ON and OFF. -/
abbrev ImageSound (im : Image) : Prop := imageWf im = true ∧ ∀ e ∈ im, e.2.on &&& e.2.off = 0

/-! ### Requests, generator, ring and hand (R19, R25, R29, R95, R106, R122) -/

/-- The tag of a ring operation in hand. -/
def State.handTag (s : State) : Option Nat :=
  match s.driver.hand with
  | some ⟨.ring tag, _, _, _, _⟩ => some tag
  | _ => none

/-- The number of a request's operations in the ring or in the hand: what its outstanding count counts (R20). -/
def State.inFlight (s : State) (tag : Nat) : Nat :=
  (s.ring.filter fun o => o.tag == tag).length + if s.handTag = some tag then 1 else 0

/-- The tag belongs to a request that is RASTERING or DRAINING. -/
def State.atWork (s : State) (tag : Nat) : Bool := s.queue.requests.any fun r => r.tag == tag && r.state != .queued

/-- The record carries 1 to 16 items (R20), and each TEXT item at least one code (R63). -/
def Request.itemsSound (r : Request) : Bool :=
  decide (1 ≤ r.items.length ∧ r.items.length ≤ 16) &&
    r.items.all fun it => match it with
      | .text _ _ codes => !codes.isEmpty
      | _ => true

/-- The request queue, the generator, the ring and the hand agree: pools and ring within bounds, tags distinct, the
RASTERING request is the generator's, each outstanding count is the number of the request's operations in the ring or
in the hand, each record's progress stands at the item after those it counts completed (R27; one past its list
after the last, log 20), in HELD only QUEUED requests are left, and a free generator has left none QUEUED while the driver
is not HELD (R25). -/
abbrev WorkSound (s : State) : Prop :=
  ((s.queue.requests.map (·.tag)).Nodup ∧ (∀ r ∈ s.queue.requests, InCount r.tag) ∧ InCount s.queue.tagCounter ∧
    (s.pool .host).length ≤ Config.hostPool ∧ (s.pool .echo).length ≤ Config.echoPool ∧
    ∀ r ∈ s.queue.requests, r.itemsSound = true) ∧
  ((s.queue.requests.filter fun r => r.state == .rastering).map (·.tag)) = s.gen.current.toList ∧
  (∀ r ∈ s.queue.requests, r.outstanding = s.inFlight r.tag) ∧
  (∀ r ∈ s.queue.requests, r.progress.item = r.itemsDone ∧ r.itemsDone ≤ r.items.length) ∧
  (∀ r ∈ s.queue.requests, r.state = .queued → r.outstanding = 0 ∧ r.generated = 0 ∧ r.progress = .start) ∧
  (∀ r ∈ s.queue.requests, r.state = .draining → 1 ≤ r.outstanding) ∧
  (∀ o ∈ s.ring, s.atWork o.tag = true) ∧ (∀ t ∈ s.handTag.toList, s.atWork t = true) ∧
  s.ring.length ≤ Config.ringSize ∧
  (s.driver.state = .idle ∨ s.driver.state = .held ↔ s.driver.hand = none) ∧
  (s.driver.state = .held → ∀ r ∈ s.queue.requests, r.state = .queued) ∧
  (s.gen.current = none → s.driver.state ≠ .held → ∀ r ∈ s.queue.requests, r.state ≠ .queued)

/-! ### Masks, phases, dead dots and the sweep slot (R9, R12, R95, R106, R132) -/

/-- Disjoint masks, at least one nonempty, for a strip inside the panel (R95). -/
abbrev OpSound (c : Settings) (op : StripOp) : Prop :=
  op.setMask &&& op.clearMask = 0 ∧ op.isEmpty = false ∧ op.strip.inside c.columns c.stripRows = true

/-- No position of the mask is recorded in the dead-dot table. -/
abbrev AllLive (dead : List DeadDot) (t : Strip) (m : Mask) : Prop :=
  ∀ p ∈ List.range 16, m.getLsbD p = true → recorded dead t.col (t.rowOf p) = false

/-- The dots of the phases that are pulsing or not begun. -/
def Hand.toCome (h : Hand) : Mask :=
  (if h.setStatus = .notBegun ∨ h.setStatus = .pulsing then h.op.setMask else 0) |||
    if h.clearStatus = .notBegun ∨ h.clearStatus = .pulsing then h.op.clearMask else 0

/-- What the record of the phase in hand says in a driver state (R106). -/
def DriverState.phaseStatus : DriverState → Option PhaseStatus
  | .waitCharge => some .notBegun
  | .pulse => some .pulsing
  | .gap => some .completed
  | .idle | .held => none

/-- The phase record of the hand agrees with its masks, with the phase in hand and with the driver state (R106,
R110). -/
abbrev HandSound (d : DriverState) (h : Hand) : Prop :=
  (h.setStatus = .notRun ↔ h.op.setMask = 0) ∧ (h.clearStatus = .notRun ↔ h.op.clearMask = 0) ∧
    d.phaseStatus = some (h.status h.phase) ∧
    (h.phase = .set → h.clearStatus = .notRun ∨ h.clearStatus = .notBegun) ∧
    (h.phase = .clear → h.setStatus = .notRun ∨ h.setStatus = .completed)

/-- The strip the generator examines next. -/
def Place.next : Place → Option Strip
  | .strip t | .cell _ _ _ _ t => some t
  | .itemStart | .glyphStart _ => none

/-- The place and what the generator holds fit the item (R83, R87): a graphic item's strip, or a TEXT item's code with its
latch. -/
def placeFits (g : Generator) (place : Place) (it : Item) : Bool :=
  match place, it with
  | .itemStart, _ => g.latch.isNone && g.waiting.isNone
  | .strip _, .dot .. | .strip _, .line .. | .strip _, .box .. | .strip _, .image .. | .strip _, .clear =>
    g.latch.isNone && g.values.isSome
  | .glyphStart i, .text _ _ codes => decide (i < codes.length) && g.latch.isNone && g.values.isSome && g.waiting.isNone
  | .cell i _ _ _ _, .text _ _ codes => decide (i < codes.length) && g.latch.isSome && g.values.isSome
  | _, _ => false

/-- The progress of the request with that tag names one of its items, and the generator fits it. -/
def State.itemFits (s : State) (tag : Nat) : Bool :=
  match s.request tag with
  | some r => (r.items[r.progress.item]?).any (placeFits s.gen r.progress.place)
  | none => false

/-- The strip the generator examines next, at the place of its current request (R87). -/
def State.nextStrip (s : State) : Option Strip := s.progress.bind fun p => p.place.next

/-- The generator's state fits the request it works on; a free generator holds nothing (R87, log 20). Its waiting strip is
the next strip of its place and stands only while the ring is full (R97). -/
abbrev GeneratorSound (s : State) : Prop :=
  (s.gen.current = none → s.gen = .free) ∧ (∀ tag ∈ s.gen.current.toList, s.itemFits tag = true) ∧
    (∀ t ∈ s.nextStrip.toList, t.inside s.settings.columns s.settings.stripRows = true) ∧
    ∀ t ∈ s.gen.waiting.toList, s.nextStrip = some t ∧ s.ring.length = Config.ringSize

/-- The dead-dot table names at most 24 dots, none twice, each inside the panel and UNKNOWN in the image (R9). -/
abbrev DeadSound (s : State) : Prop :=
  s.dead.length ≤ Config.deadSize ∧ (s.dead.map fun d => (d.x, d.y)).Nodup ∧
    ∀ d ∈ s.dead, d.x < s.settings.columns ∧ d.y < 16 * s.settings.stripRows ∧ imageDot s.image d.x d.y = .unknown

/-- A full sweep slot holds a faithful copy of the image for a strip that neither ring nor hand names (R131, R132). -/
abbrev SlotSound (s : State) : Prop :=
  (s.sweep.slot = none → s.driver.passOver = 0) ∧
    ∀ w ∈ s.sweep.slot.toList,
      OpSound s.settings w ∧ w = sweepOp s.image w.strip ∧ s.namesStrip w.strip = false ∧
        s.driver.state ≠ .idle ∧ s.driver.state ≠ .held

/-- The driver's side: operations are well formed and name no recorded dead dot, the hand's record is right, an IDLE
driver has nothing ready to take (R108), and the budget is within its bounds (R116). -/
abbrev DriverSound (s : State) : Prop :=
  (∀ o ∈ s.ring, OpSound s.settings o.op ∧ AllLive s.dead o.op.strip o.op.named) ∧
    (∀ h ∈ s.driver.hand.toList,
      OpSound s.settings h.op ∧ HandSound s.driver.state h ∧ AllLive s.dead h.op.strip h.toCome) ∧
    SlotSound s ∧ DeadSound s ∧ s.driver.passOver ≤ Config.passOverMax ∧
    (s.driver.state = .idle → s.ring = []) ∧ s.charge.level ≤ Config.chargeMax

/-! ### Touch (R141, R142, R143, R150) -/

/-- The contact and its counts are within their ranges (R137, R138, R139). -/
def contactInRange (c : ContactState) : Bool :=
  match c with
  | .none => true
  | .arming _ _ n => 1 ≤ n && n ≤ Config.confirmMax
  | .down c => c.number < 256 && c.sinceReport ≤ Config.scanCountMax
  | .releasing c n => c.number < 256 && c.sinceReport ≤ Config.scanCountMax && 1 ≤ n && n ≤ Config.confirmMax

/-- A release echo is due. -/
def ContactState.echoDue : ContactState → Bool
  | .down c | .releasing c _ => c.releaseEchoDue
  | .none | .arming .. => false

/-- The scanner's state agrees with touch enable, with the count of voided scans and with the driver. -/
def State.scannerFits (s : State) : Bool :=
  match s.touch.scanner with
  | .off => s.settings.touchEnable == 0 && s.touch.contact == .none
  | .scanning sc =>
    s.settings.touchEnable == 1 && decide (s.touch.voided < Config.voidedMax) && (!s.pulseInProgress || sc.sawPulse)
  | .quietWait => s.settings.touchEnable == 1 && s.pulseInProgress
  | .quiet sc => s.settings.touchEnable == 1 && !s.pulseInProgress && !sc.sawPulse

/-- The scanner agrees with touch enable, with the count of voided scans and with the driver: QUIET_WAIT lasts a pulse,
no pulse meets a quiet scan, and a scan during a pulse has seen it; a release echo that is due finds room (R150). -/
abbrev TouchSound (s : State) : Prop :=
  s.touch.voided ≤ Config.voidedMax ∧ s.touch.xBeams.length = Config.xBeamMax ∧
    s.touch.yBeams.length = Config.yBeamMax ∧ (∀ b ∈ s.touch.xBeams ++ s.touch.yBeams, b.broken ≤ Config.brokenMax) ∧
    s.touch.contactCounter < 256 ∧ contactInRange s.touch.contact = true ∧
    (s.touch.contact.echoDue = true → (s.pool .echo).length ≤ 1) ∧ s.scannerFits = true

/-! ### Link (R165, R167, R174, R177) -/

/-- What the transmitter does agrees with the receiver, the own address and the reply cache. -/
def Link.txFits (l : Link) : Bool :=
  match l.tx with
  | .idle => true
  | .turnaround reply r => l.ownAddress.isSome && (!r || l.cache.map (·.2) == some reply)
  | .sending reply r => l.rx == .hunt && l.ownAddress.isSome && (!r || l.cache.map (·.2) == some reply)

/-- While SENDING no frame is partly received (R167); a unit without an own address sends nothing (R165); a pending
restart's reply is the cached one (R177). -/
abbrev LinkSound (l : Link) : Prop :=
  l.txFits = true ∧ (l.ownAddress = none → l.cache = none)

/-! ### The whole unit -/

/-- Every block is sound, and outside reset the blocks agree with one another. An overcurrent input that is high never
stands beside a pulse (R119). -/
abbrev UnitSound (s : State) : Prop :=
  (StoreSound s.store ∧ ReportsSound s.reports ∧ ImageSound s.image ∧ LinkSound s.link ∧ PanelSound s) ∧
    (s.inReset = false →
      WorkSound s ∧ GeneratorSound s ∧ DriverSound s ∧ TouchSound s ∧ (s.driver.state = .pulse → s.ocin = false))

/-! ### Terms of the statements -/

/-- A frame from the host, as the commands of the message rows carry it (R172, R173). -/
structure HostFrame where
  broadcast : Bool
  seq : Byte
  kind : Byte
  payload : List Byte
deriving DecidableEq, Repr

/-- The frame whose last byte a command is, with its kind's code (R190); none for a command that is no frame. -/
def frameOf : Instr → Option HostFrame
  | .query q p => some ⟨false, q, 0x01, p⟩
  | .configure q p => some ⟨false, q, 0x02, p⟩
  | .restart q p => some ⟨false, q, 0x03, p⟩
  | .draw q p => some ⟨false, q, 0x10, p⟩
  | .cancel q p => some ⟨false, q, 0x11, p⟩
  | .cancelAll q p => some ⟨false, q, 0x11, p⟩
  | .resume q p => some ⟨false, q, 0x12, p⟩
  | .setViewportDefine q p => some ⟨false, q, 0x20, p⟩
  | .setViewportUndefine q p => some ⟨false, q, 0x20, p⟩
  | .getViewport q p => some ⟨false, q, 0x21, p⟩
  | .setFont q p => some ⟨false, q, 0x28, p⟩
  | .dropFont q p => some ⟨false, q, 0x29, p⟩
  | .loadGlyph q p => some ⟨false, q, 0x2A, p⟩
  | .dropGlyph q p => some ⟨false, q, 0x2B, p⟩
  | .readImage q p => some ⟨false, q, 0x30, p⟩
  | .listDeadDots q p => some ⟨false, q, 0x31, p⟩
  | .forgetDeadDot q p => some ⟨false, q, 0x32, p⟩
  | .setZoneDefine q p => some ⟨false, q, 0x40, p⟩
  | .setZoneUndefine q p => some ⟨false, q, 0x40, p⟩
  | .collect q p => some ⟨false, q, 0x48, p⟩
  | .subscribe q p => some ⟨false, q, 0x49, p⟩
  | .unknownKind q k p => some ⟨false, q, k, p⟩
  | .broadcastRestart q p => some ⟨true, q, 0x03, p⟩
  | .broadcastCancel q p => some ⟨true, q, 0x11, p⟩
  | .receiverGapTimeout | .replyStart | .replyEnd | .fullResetEntry _ | .fullResetExit _ _ | .overcurrent _
  | .rechargeStep | .pulseEnd _ | .gapEnd | .stripExamination | .sweepExpiry | .scanEnd _ _ | .characterReceived _ _
  | .frameDropped _ => none

/-- The body of the frame on the wire, for a unit whose own address is `own` (R189). -/
def HostFrame.wire (f : HostFrame) (own : Nat) : List Byte :=
  frameBody (if f.broadcast then Config.broadcastAddress else byte own) 0 f.seq f.kind f.payload

/-- The characters of a line, each with a good stop bit, as commands. -/
def asCharacters (line : List Byte) : List Instr := line.map fun c => .characterReceived c true

/-- Some commands one after another, for as long as each gives a next state. -/
def execAll : List Instr → State → Host.Outcome State Fault Refusal
  | [], s => .next s
  | c :: cs, s =>
    match exec c s with
    | .next t => execAll cs t
    | o => o

/-- A fresh addressed frame is carried out in this state: not in reset, transmitter IDLE, an own address, and another
sequence than the cached one (R165, R167, R174, R176, R187). -/
abbrev FreshFrame (s : State) (own : Nat) (seq : Byte) : Prop :=
  s.inReset = false ∧ s.link.tx = .idle ∧ s.link.ownAddress = some own ∧ ∀ e ∈ s.link.cache.toList, e.1 ≠ seq

/-- The link after a frame is carried out: receiver in HUNT, the reply saved under the frame's sequence and waiting for
its start time (R168, R174, R175). -/
def Link.replied (l : Link) (own : Nat) (seq kind : Byte) (reply : Reply) (restartAfter : Bool) : Link :=
  { l with
    rx := .hunt
    tx := .turnaround (replyBody own seq kind reply) restartAfter
    cache := some (seq, replyBody own seq kind reply) }

/-- The unit after a frame is carried out and answered, with nothing else changed. -/
def State.replied (s : State) (own : Nat) (seq kind : Byte) (reply : Reply) : State :=
  { s with link := s.link.replied own seq kind reply false }

/-- The payload lengths accepted for a kind code, by the table of R190. -/
def lengthAccepted (kind : Byte) (n : Nat) : Bool :=
  match kind.toNat with
  | 0x01 | 0x03 | 0x12 | 0x31 => n == 0
  | 0x02 => decide (3 ≤ n ∧ n ≤ 57 ∧ n % 3 = 0)
  | 0x10 => decide (6 ≤ n ∧ n ≤ 200)
  | 0x11 | 0x2B | 0x32 | 0x48 => n == 2
  | 0x20 => n == 14
  | 0x21 | 0x29 | 0x49 => n == 1
  | 0x28 => n == 6
  | 0x2A => decide (3 ≤ n ∧ n ≤ 200)
  | 0x30 => n == 3
  | 0x40 => n == 7
  | _ => false

/-- The touch block as a restart, a geometry change, or a change of touch enable or of a beam setting leaves it: contact
dropped, blocked set empty, counts 0, quiet pending clear, and a first scan started when touch is enabled
(R151, R152). -/
def Touch.fresh (t : Touch) (enabled : Bool) (period : Nat) (pulse : Bool) : Touch where
  scanner := if enabled then .scanning ⟨period, pulse⟩ else .off
  voided := 0
  xBeams := List.replicate Config.xBeamMax .clear
  yBeams := List.replicate Config.yBeamMax .clear
  contact := .none
  contactCounter := t.contactCounter

/-- The payload of a CONFIGURE that carries these pairs of id and value (R190). -/
def configurePayload (pairs : List (Nat × Nat)) : List Byte :=
  pairs.flatMap fun e => [byte e.1, byte e.2, byte (e.2 / 256)]

/-- The pairs fit their fields and their number. -/
abbrev PairsFit (pairs : List (Nat × Nat)) : Prop :=
  1 ≤ pairs.length ∧ pairs.length ≤ 19 ∧ ∀ e ∈ pairs, e.1 < 256 ∧ e.2 < 65536

/-- The settings a message would leave: each named setting with the value of its last pair (R180). -/
def settingsAfter (c : Settings) (pairs : List (Nat × Nat)) : Settings := pairs.foldl (fun c e => c.put e.1 e.2) c

/-- The state a restart leaves, by the table of R186, for an IDLE transmitter and the reply cache given: what is kept is
as it was, the rest is emptied, and the dots of the flushed ring and of the operation cut short are UNKNOWN. The latched
pulse length and gap are kept (log 17), the free generator holds no item values (log 20), and the new scan has seen no pulse
(log 23). -/
def restartedState (s : State) (cache : Option (Byte × List Byte)) : State :=
  { s with
    queue := ⟨[], s.queue.tagCounter⟩
    ring := []
    sweep := { s.sweep with slot := none }
    gen := ⟨none, none, none, none⟩
    driver := { s.driver with state := .idle, hand := none, passOver := 0 }
    touch := s.touch.fresh (s.settings.touchEnable == 1) s.settings.scanPeriod false
    reports := ⟨[], 1, false, s.reports.subscription, none⟩
    link := { s.link with rx := .hunt, tx := .idle, cache := cache }
    image := loseOps (match s.driver.hand with
      | some h => loseDots s.image h.op.strip h.lost
      | none => s.image) s.ring }

/-- The record of a request as it joins (R20). -/
def joining (tag : Nat) (d : DrawForm) : Request :=
  ⟨tag, .host, d.viewport, d.rule, d.force, d.items, .queued, ⟨0, .itemStart⟩, 0, 0, 0, false, false, false, false⟩

/-- What the all form of CANCEL does to the queue, the generator and the reports (R35): QUEUED host requests leave
CANCELLED, a RASTERING one stops where it stands and leaves or drains marked, reports in queue order, and the arbiter
chooses. -/
def cancelledAll (s : State) : State :=
  let goes (r : Request) : Bool :=
    r.origin == .host && (r.state == .queued || (r.state == .rastering && r.outstanding == 0))
  let stops (r : Request) : Bool := r.origin == .host && r.state == .rastering
  State.generatorArbiter
    { s with
      gen := if s.queue.requests.any stops then ⟨none, none, none, none⟩ else s.gen
      queue :=
        { s.queue with
          requests := (s.queue.requests.filter fun r => !goes r).map fun r =>
            if stops r then { r with state := .draining, cancelMark := true } else r }
      reports := (s.queue.requests.filter goes).foldl (fun q r => q.offer
        (.completion r.tag .cancelled r.generated r.itemsDone r.clipped r.missingGlyph r.dotsStruck)) s.reports }

/-- The request the generator works on, by its place in the queue, and its current item (R20, R87). -/
abbrev Working (s : State) (pre : List Request) (r : Request) (post : List Request) (it : Item) : Prop :=
  s.queue.requests = pre ++ r :: post ∧ (s.queue.requests.map (·.tag)).Nodup ∧ s.gen.current = some r.tag ∧
    r.items[r.progress.item]? = some it

/-- What one examination of strip `t` comes to (R91, R97): a generator with no waiting strip makes it in its own event,
after which the driver's arbiter takes what an append has made ready (log 12); a stalled one, whose waiting strip is `t`,
makes it when room appears. -/
abbrev ExaminedAs (s : State) (t : Strip) (outcome : State) : Prop :=
  (s.gen.waiting = none → s.inReset = false → exec .stripExamination s = .next outcome.driverArbiter) ∧
    (s.gen.waiting = some t → s.reexamine = outcome)

/-- The record of a request after an operation is appended for it (R27). -/
def Request.appended (r : Request) : Request :=
  { r with generated := min (r.generated + 1) 65535, outstanding := r.outstanding + 1 }

/-- The unit after a strip with this operation is done with (R94, R96, R99): an empty operation changes nothing; any other
stands at the ring's tail under the request's tag, committed to the image, and has emptied a sweep slot that names its
strip, with the pass-over count. -/
def stripDone (s : State) (tag : Nat) (op : StripOp) : State :=
  let slotGone := ∃ w ∈ s.sweep.slot.toList, w.strip = op.strip
  if op.setMask = 0 ∧ op.clearMask = 0 then s
  else
    { s with
      ring := s.ring ++ [⟨tag, op⟩]
      image := commitOp s.image op
      sweep := { s.sweep with slot := if slotGone then none else s.sweep.slot }
      driver := { s.driver with passOver := if slotGone then 0 else s.driver.passOver } }

/-- The record of a request after a strip with this operation is done with. -/
def Request.afterStrip (r : Request) (op : StripOp) : Request :=
  if op.setMask = 0 ∧ op.clearMask = 0 then r else r.appended

/-- The unit after the current item of the request at this place in the queue is finished (R27, R28, R83, R98; log 20): the item is
counted; with another item to come the progress moves to its start; after the last, generation ends, the request leaves
DONE with nothing outstanding and is DRAINING otherwise, and the arbiter chooses for the free generator. -/
def itemFinished (s : State) (pre : List Request) (r : Request) (post : List Request) : State :=
  let counted : Request := { r with itemsDone := r.itemsDone + 1, progress := ⟨r.progress.item + 1, .itemStart⟩ }
  if r.progress.item + 1 < r.items.length then
    { s with queue := { s.queue with requests := pre ++ counted :: post }, gen := ⟨some r.tag, none, none, none⟩ }
  else if r.outstanding = 0 then
    State.generatorArbiter
      { s with
        gen := ⟨none, none, none, none⟩
        queue := { s.queue with requests := pre ++ post }
        reports :=
          if r.origin = .host then s.reports.offer (.completion r.tag .done r.generated counted.itemsDone r.clipped
            r.missingGlyph r.dotsStruck) else s.reports }
  else
    State.generatorArbiter
      { s with
        gen := ⟨none, none, none, none⟩
        queue := { s.queue with requests := pre ++ { counted with state := .draining } :: post } }

/-- The unit after code `i` of the current TEXT item is done with, skipped or its cell ended (R79, R82, R83): the latch is
emptied and the next code's glyph start comes, or the item is finished after the last. -/
def codeDone (s : State) (pre : List Request) (r : Request) (post : List Request) (codes : List Nat) (i : Nat) : State :=
  if i + 1 < codes.length then
    { s with
      queue :=
        { s.queue with requests := pre ++ { r with progress := ⟨r.progress.item, .glyphStart (i + 1)⟩ } :: post }
      gen := { s.gen with latch := none, waiting := none } }
  else itemFinished s pre r post

/-- An item of this kind and with these field bytes fails check 3, 4 or 5 of R62, by the table of R63 and the lengths and
offsets of R191. -/
def itemRefused (kind : Nat) (f : List Byte) : Prop :=
  let n := f.length
  let one (i : Nat) : Nat := (f.getD i 0).toNat
  let two (i : Nat) : Nat := one i + 256 * one (i + 1)
  match kind with
  | 1 | 7 => n ≠ 4
  | 2 => n ≠ 8
  | 3 => n ≠ 9 ∨ two 4 = 0 ∨ 4096 < two 4 ∨ two 6 = 0 ∨ 4096 < two 6 ∨ 1 < one 8
  | 4 => n < 3 ∨ 7 < one 0 ∨ 1 < one 1 ∨ (one 1 = 0 ∧ 66 < n) ∨ (one 1 = 1 ∧ (n < 7 ∨ 70 < n))
  | 5 => n < 6 ∨ one 4 = 0 ∨ 240 < one 4 ∨ one 5 = 0 ∨ 64 < one 5 ∨ n ≠ 6 + one 4 * ((one 5 + 7) / 8)
  | 6 => n ≠ 0
  | 8 => n ≠ 1 ∨ one 0 = 0 ∨ 64 < one 0
  | _ => True

/-- Which dots of the operation in hand an overcurrent or a restart loses, by the table of R6: those of the phase that
was pulsing, and, for a request operation alone, those of a phase not begun; those of a completed phase keep their
values. -/
def lostDots (h : Hand) (p : Nat) : Prop :=
  let lost (mask : Mask) (st : PhaseStatus) : Prop :=
    mask.getLsbD p = true ∧ (st = .pulsing ∨ (st = .notBegun ∧ h.source ≠ .sweep))
  lost h.op.setMask h.setStatus ∨ lost h.op.clearMask h.clearStatus

end Sys2Proof.Machine
end

