-- ==== Sys2Proof/Certificates/Slice0/Obligations.lean ====
section
/-!
DEFINITION. The statements for the provers. OBLIGATIONS.json lists them with the rules they rest on.
-/

open Sys2Proof Sys2Proof.Machine

/-! ### The step, the queue, the invariants -/

/-- The command at the front of the queue is carried out on the state with the queue's rest; an empty queue idles
(the model's queue of commands, log 3). -/
def Obligations.StepRunsFrontCommand : Prop :=
  (∀ (c : Instr) (rest : List Instr) (s : State),
    step { s with pending := c :: rest } = exec c { s with pending := rest }) ∧
  ∀ s : State, s.pending = [] → step s = .next s

/-- Every command gives a next state in every state (log 14) and leaves the commands that wait as they are (log 3). The
tables that software owns are written by their own commands alone: settings by CONFIGURE (R179), straps by the end of a full reset
(R165), the glyph store by its four messages (R69), zones by SET ZONE and a geometry change (R147), the dead-dot table by
pulse ends, FORGET DEAD DOT and a geometry change (R9), the subscription by SUBSCRIBE (R160), the contact counter by
scan ends (R139), the tag counter by requests that join (R21), the sweep cursor by expiries and a geometry change
(R127). A character can complete any frame; a full reset's end writes all of them but the overcurrent input. That the tables
stand while the unit is in reset is the model's choice (log 9), and so is the level of that input (log 2). -/
def Obligations.TablesChangeOnlyByTheirCommands : Prop :=
  ∀ (i : Instr) (s : State), i.WellFormed → ∃ t, exec i s = .next t ∧ t.pending = s.pending ∧
    (match i with
      | .configure .. | .characterReceived .. | .fullResetExit .. => True
      | _ => t.settings = s.settings) ∧
    (match i with
      | .fullResetExit .. => True
      | _ => t.link.addressStraps = s.link.addressStraps ∧ t.link.rateStraps = s.link.rateStraps) ∧
    (match i with
      | .setFont .. | .dropFont .. | .loadGlyph .. | .dropGlyph .. | .characterReceived .. | .fullResetExit .. => True
      | _ => t.store = s.store) ∧
    (match i with
      | .setZoneDefine .. | .setZoneUndefine .. | .configure .. | .characterReceived .. | .fullResetExit .. => True
      | _ => t.zones = s.zones) ∧
    (match i with
      | .pulseEnd .. | .forgetDeadDot .. | .configure .. | .characterReceived .. | .fullResetExit .. => True
      | _ => t.dead = s.dead) ∧
    (match i with
      | .subscribe .. | .characterReceived .. | .fullResetExit .. => True
      | _ => t.reports.subscription = s.reports.subscription) ∧
    (match i with
      | .scanEnd .. | .fullResetExit .. => True
      | _ => t.touch.contactCounter = s.touch.contactCounter) ∧
    (match i with
      | .draw .. | .scanEnd .. | .characterReceived .. | .fullResetExit .. => True
      | _ => t.queue.tagCounter = s.queue.tagCounter) ∧
    (match i with
      | .sweepExpiry | .configure .. | .characterReceived .. | .fullResetExit .. => True
      | _ => t.sweep.cursor = s.sweep.cursor) ∧
    (match i with
      | .overcurrent _ => True
      | _ => t.ocin = s.ocin) ∧
    (match i with
      | .fullResetEntry _ | .fullResetExit .. => True
      | _ => t.inReset = s.inReset)

/-- Every step keeps the unit sound: whatever command stands in front, a sound unit stays sound. `UnitSound` says what the
manual states of every moment, and two things that are the model's (log 20): a free generator holds no item values (DESIGN
CHOICE), and the progress of a DRAINING request whose items are all completed stands one past its list (DEDUCED). -/
def Obligations.EveryStepKeepsUnitSound : Prop :=
  ∀ s t : State, UnitSound s → step s = .next t → UnitSound t

/-- The unit right after a full reset is sound (`EveryStepKeepsUnitSound` says in what sense), whatever the straps, the level
of the overcurrent input and the commands that wait; `State.reset` is the one of log 1 and log 2. -/
def Obligations.FullResetStateIsSound : Prop :=
  UnitSound State.reset ∧
    ∀ (ads : BitVec 5) (brs : BitVec 2) (ocin : Bool) (cs : List Instr), UnitSound (.afterFullReset ads brs ocin cs)

/-- Outside reset, requests, generator, ring and hand agree with one another after every step: pools of 12 and 2, a ring
of 32, distinct tags, one RASTERING request, outstanding counts that count operations in ring and hand, each record's
progress at the item after those it counts completed, in HELD only QUEUED requests, and no request left QUEUED by a free
generator while the driver is not HELD (R19, R25, R27, R29, R95, R106, R122). That the progress of a DRAINING request whose
items are all completed stands one past its list is the model's (DEDUCED, log 20). -/
def Obligations.EveryStepKeepsWorkSound : Prop :=
  ∀ s t : State, (s.inReset = false → WorkSound s) → step s = .next t → t.inReset = false → WorkSound t

/-- After every step each block that was sound is sound still, on its own. The glyph store: free and used columns sum to
2048, at most 320 glyphs, no two under one key and each in a defined font (R67). The report queue: at most 32 entries with
distinct numbers from 1 to 65535, its coalescing reference naming an unsent MOVE in it (R154, R156, R158). The image: its
canonical form, and no dot both ON and OFF (R2). The panel: settings in their ranges with every beam centre inside the
panel, viewport 0 the whole panel, defined viewports and zones inside the panel, and each request naming a defined viewport
(R26, R42, R140, R147, R179). The charge level: at most 64 (R116). The link: the transmitter agrees with the receiver, the
own address and the reply cache (R165, R167, R177). -/
def Obligations.EveryStepKeepsEachBlockSound : Prop :=
  ∀ s t : State, step s = .next t →
    (StoreSound s.store → StoreSound t.store) ∧ (ReportsSound s.reports → ReportsSound t.reports) ∧
      (ImageSound s.image → ImageSound t.image) ∧ (PanelSound s → PanelSound t) ∧
      (s.charge.level ≤ Config.chargeMax → t.charge.level ≤ Config.chargeMax) ∧ (LinkSound s.link → LinkSound t.link)

/-! ### The line -/

/-- The characters of a whole frame on the line do what the frame's command does: START and the escaped body, received
one by one in whatever state the receiver is, give the state that the row of the table gives in one event. The body is
destination (31 for a broadcast), source 0, sequence, kind, payload length, payload, and the CRC, high byte first: a
register of all ones, shifted left for each data bit, most significant bit of each byte first, and exclusive-ored with
0x1021 when the bit shifted out differs from the data bit. A reply's body is laid out alike, with destination 0, the own
address as source, the frame's sequence, and its kind plus 0x80; it is saved in the cache and handed to the transmitter. -/
def Obligations.WireFramesRunTheirCommand : Prop :=
  let crc (bytes : List Byte) : BitVec 16 :=
    (bytes.flatMap fun b => [7, 6, 5, 4, 3, 2, 1, 0].map fun i => b.getLsbD i).foldl
      (fun r d => if r.getLsbD 15 = d then r <<< 1 else (r <<< 1) ^^^ 0x1021) 0xFFFF
  let whole (head : List Byte) : List Byte := head ++ [byte ((crc head).toNat / 256), byte (crc head).toNat]
  let line (body : List Byte) : List Byte :=
    0xE7 :: body.flatMap fun b => if b = 0xE7 ∨ b = 0xE8 then [0xE8, b ^^^ 0x20] else [b]
  (∀ (i : Instr) (f : HostFrame) (s : State) (own : Nat),
    frameOf i = some f → f.payload.length ≤ 200 → s.inReset = false → s.isSending = false →
    (f.broadcast = false → s.link.ownAddress = some own) →
    execAll (asCharacters (line (whole
      ([if f.broadcast then 31 else byte own, 0, f.seq, f.kind, byte f.payload.length] ++ f.payload)))) s = exec i s) ∧
  ∀ (s : State) (own : Nat) (seq kind : Byte) (reply : List Byte),
    let body := whole ([0, byte own, seq, kind + 0x80, byte reply.length] ++ reply)
    s.replied own seq kind reply =
      { s with link := { s.link with rx := .hunt, tx := .turnaround body false, cache := some (seq, body) } }

/-- A complete body that the frame checks drop, received character by character, leaves every block as it was and the
receiver in HUNT, as the row FRAME_DROPPED says: a bad CRC, a nonzero source, another party's frame, a broadcast that is
not acted on, or an addressed frame during TURNAROUND. -/
def Obligations.WireDroppedFramesChangeNothing : Prop :=
  ∀ (body : List Byte) (s : State), bodyComplete body = true → s.inReset = false → s.isSending = false →
    s.dropsFrame body = true →
    execAll (asCharacters (lineChars body)) s = .next { s with link := { s.link with rx := .hunt } } ∧
      exec (.frameDropped body) s = .next { s with link := { s.link with rx := .hunt } }

/-- An addressed frame that is not carried out: with the cached sequence the saved reply is sent again, byte for byte,
and nothing is carried out; during TURNAROUND the frame is dropped; during SENDING and in reset it is not received. -/
def Obligations.FramesThatAreNotCarriedOut : Prop :=
  ∀ (i : Instr) (f : HostFrame) (s : State) (own : Nat),
    frameOf i = some f → f.broadcast = false → f.payload.length ≤ 200 → s.link.ownAddress = some own →
    (∀ saved, s.inReset = false → s.link.tx = .idle → s.link.cache = some (f.seq, saved) →
      exec i s = .next { s with link := { s.link with rx := .hunt, tx := .turnaround saved false } }) ∧
    (∀ reply r, s.inReset = false → s.link.tx = .turnaround reply r →
      exec i s = .next { s with link := { s.link with rx := .hunt } }) ∧
    ((s.inReset = true ∨ ∃ reply r, s.link.tx = .sending reply r) → exec i s = .next s)

/-- A kind that is no message kind is answered UNKNOWN_KIND, and a payload length that does not suit its kind
BAD_LENGTH; the reply is saved and nothing else changes. -/
def Obligations.UnknownKindAndBadLength : Prop :=
  ∀ (s : State) (own : Nat) (i : Instr) (f : HostFrame),
    frameOf i = some f → f.broadcast = false → f.payload.length ≤ 200 → FreshFrame s own f.seq →
    (f.kind ∉ messageCodes → exec i s = .next (s.replied own f.seq f.kind [0x01])) ∧
    (f.kind ∈ messageCodes → lengthAccepted f.kind f.payload.length = false →
      exec i s = .next (s.replied own f.seq f.kind [0x02]))

/-- What the events of the line do. A START begins a new frame in every receiver state; in HUNT any other character is
ignored; in BODY an ESC enters ESCAPE; a byte after an ESC, START apart, is taken as the byte it stands for, needlessly
escaped or not; a payload length above 200, escaped or not, drops the frame; a framing error, and a gap of more than 3
character times, drop the partial frame; while SENDING and in reset none of them is taken. (The other characters are the
body bytes of `WireFramesRunTheirCommand`.) A reply's start raises DE: the transmitter is SENDING, TXD carries START and
the escaped reply, each character as its start bit, its data bits and its stop bit, back to back, and a partly received
frame is discarded; its end lowers DE and leaves the receiver in HUNT, and nothing else changes when no restart is
pending. While the transmitter is IDLE or in TURNAROUND nothing is driven onto the line, and TXD is high (in TURNAROUND the
model's choice, log 22). -/
def Obligations.LineEventsMoveReceiverAndTransmitter : Prop :=
  ∀ s : State,
    (s.inReset = false → s.isSending = false →
      exec (.characterReceived 0xE7 true) s =
        .next { s with link := { s.link with rx := .body [] (BitVec.allOnes 16) } } ∧
      (s.link.rx = .hunt → ∀ b ≠ 0xE7, exec (.characterReceived b true) s = .next s) ∧
      (∀ bytes crc, s.link.rx = .body bytes crc →
        exec (.characterReceived 0xE8 true) s = .next { s with link := { s.link with rx := .escape bytes crc } }) ∧
      (∀ bytes crc, s.link.rx = .escape bytes crc → ∀ b : Byte, b ≠ 0xC7 → b ≠ 0xE7 → b ≠ 0xE8 →
        exec (.characterReceived (b ^^^ 0x20) true) s =
          exec (.characterReceived b true) { s with link := { s.link with rx := .body bytes crc } }) ∧
      (∀ bytes crc, bytes.length = 4 → ∀ b : Byte, 200 < b.toNat →
        (s.link.rx = .body bytes crc → b ≠ 0xE7 → b ≠ 0xE8 →
          exec (.characterReceived b true) s = .next { s with link := { s.link with rx := .hunt } }) ∧
        (s.link.rx = .escape bytes crc → b ^^^ 0x20 ≠ 0xE7 →
          exec (.characterReceived (b ^^^ 0x20) true) s = .next { s with link := { s.link with rx := .hunt } })) ∧
      (∀ b, exec (.characterReceived b false) s = .next { s with link := { s.link with rx := .hunt } }) ∧
      exec .receiverGapTimeout s = .next { s with link := { s.link with rx := .hunt } } ∧
      ∀ n, s.txdLevel n = true ∧ s.lineDriven n = none) ∧
    (s.inReset = true ∨ s.isSending = true →
      exec .receiverGapTimeout s = .next s ∧ ∀ b stop, exec (.characterReceived b stop) s = .next s) ∧
    ∀ (reply : List Byte) (r : Bool), s.inReset = false →
      (s.link.tx = .turnaround reply r →
        ∃ t, exec .replyStart s = .next t ∧ t = { s with link := { s.link with rx := .hunt, tx := .sending reply r } } ∧
          s.deHigh = false ∧ t.deHigh = true ∧
          let line := 0xE7 :: reply.flatMap fun b => if b = 0xE7 ∨ b = 0xE8 then [0xE8, b ^^^ 0x20] else [b]
          t.txLine = line ∧
          t.txdBits = line.flatMap (fun b => [false, b.getLsbD 0, b.getLsbD 1, b.getLsbD 2, b.getLsbD 3, b.getLsbD 4,
            b.getLsbD 5, b.getLsbD 6, b.getLsbD 7, true]) ∧
          ∀ n, t.lineDriven n = some (t.txdBits.getD n true)) ∧
      (s.link.tx = .sending reply false →
        ∃ t, exec .replyEnd s = .next t ∧ t = { s with link := { s.link with rx := .hunt, tx := .idle } } ∧
          t.deHigh = false ∧ ∀ n, t.txdLevel n = true ∧ t.lineDriven n = none)

/-! ### Settings, identity, restarts -/

/-- QUERY answers OK with the 20-byte snapshot of the table of R190, taken in its event, and changes nothing else. The
silicon revision 3 is the revision the manual describes (log 16). -/
def Obligations.QueryAnswersWithSnapshot : Prop :=
  ∀ (s : State) (own : Nat) (seq : Byte), FreshFrame s own seq →
    exec (.query seq []) s = .next (s.replied own seq 0x01
      [0x00, 0x40, 0x02, 0x03, byte own, byte s.link.rateStraps.toNat, byte s.settings.columns,
        byte s.settings.stripRows,
        match s.driver.state with
          | .idle => 0
          | .waitCharge => 1
          | .pulse => 2
          | .gap => 3
          | .held => 4,
        byte s.charge.level, byte (s.pool .host).length, byte (s.pool .echo).length, byte s.ring.length,
        byte s.reports.entries.length, if s.reports.lost then 1 else 0, byte s.dead.length,
        byte s.store.freeColumns, byte (s.store.freeColumns / 256),
        byte s.store.glyphs.length, byte (s.store.glyphs.length / 256),
        match s.touch.contact with
          | .none => 0
          | .arming .. => 1
          | .down _ => 2
          | .releasing .. => 3])

/-- CONFIGURE checks its pairs in list order, then the beams against the panel, then, for a geometry change, that the
work in flight is empty; the first failure is the reply and nothing else changes. The nineteen settings, each with its id,
the field it writes and its range, are written out (`row`), and no other id is in range or writes anything. -/
def Obligations.ConfigureChecksInOrder : Prop :=
  let row (id : Nat) : Option ((Settings → Nat) × (Nat → Prop)) := match id with
    | 1 => some (Settings.columns, fun v => 8 ≤ v ∧ v ≤ 240)
    | 2 => some (Settings.stripRows, fun v => 1 ≤ v ∧ v ≤ 4)
    | 3 => some (Settings.pulseLength, fun v => 100 ≤ v ∧ v ≤ 2000 ∧ v % 50 = 0)
    | 4 => some (Settings.phaseGap, fun v => v ≤ 1000)
    | 5 => some (Settings.rechargePeriod, fun v => 20 ≤ v ∧ v ≤ 1000)
    | 6 => some (Settings.sweepInterval, fun v => v = 0 ∨ (20 ≤ v ∧ v ≤ 5000))
    | 7 => some (Settings.touchEnable, fun v => v ≤ 1)
    | 8 => some (Settings.xBeams, fun v => 8 ≤ v ∧ v ≤ 48)
    | 9 => some (Settings.yBeams, fun v => 4 ≤ v ∧ v ≤ 24)
    | 10 => some (Settings.xOrigin, fun v => v ≤ 239)
    | 11 => some (Settings.xPitch, fun v => 1 ≤ v ∧ v ≤ 16)
    | 12 => some (Settings.yOrigin, fun v => v ≤ 63)
    | 13 => some (Settings.yPitch, fun v => 1 ≤ v ∧ v ≤ 16)
    | 14 => some (Settings.scanPeriod, fun v => 5 ≤ v ∧ v ≤ 100)
    | 15 => some (Settings.pressConfirm, fun v => 1 ≤ v ∧ v ≤ 8)
    | 16 => some (Settings.releaseConfirm, fun v => 1 ≤ v ∧ v ≤ 8)
    | 17 => some (Settings.moveThreshold, fun v => 1 ≤ v ∧ v ≤ 8)
    | 18 => some (Settings.moveInterval, fun v => 1 ≤ v ∧ v ≤ 50)
    | 19 => some (Settings.blockedLimit, fun v => 50 ≤ v ∧ v ≤ 5000)
    | _ => none
  (∀ id v, settingInRange id v = true ↔ ∃ field range, row id = some (field, range) ∧ range v) ∧
  (∀ (c : Settings) (id v : Nat),
    (row id = none → c.put id v = c) ∧
      ∀ id' field range, row id' = some (field, range) → field (c.put id v) = if id = id' then v else field c) ∧
  ∀ (s : State) (own : Nat) (seq : Byte) (pairs : List (Nat × Nat)), FreshFrame s own seq → PairsFit pairs →
    let new := settingsAfter s.settings pairs
    (∀ pre bad post, pairs = pre ++ bad :: post → (∀ e ∈ pre, settingInRange e.1 e.2 = true) →
      settingInRange bad.1 bad.2 = false →
      exec (.configure seq (configurePayload pairs)) s = .next (s.replied own seq 0x02 [0x03, byte pre.length])) ∧
    ((∀ e ∈ pairs, settingInRange e.1 e.2 = true) →
      (¬(new.xOrigin + (new.xBeams - 1) * new.xPitch ≤ new.columns - 1 ∧
          new.yOrigin + (new.yBeams - 1) * new.yPitch ≤ 16 * new.stripRows - 1) →
        exec (.configure seq (configurePayload pairs)) s = .next (s.replied own seq 0x02 [0x03, 0xFF])) ∧
      (new.beamsInside = true → (new.columns ≠ s.settings.columns ∨ new.stripRows ≠ s.settings.stripRows) →
        (s.queue.requests ≠ [] ∨ s.ring ≠ [] ∨ s.driver.hand ≠ none) →
        exec (.configure seq (configurePayload pairs)) s = .next (s.replied own seq 0x02 [0x05])))

/-- A CONFIGURE that passes its checks and keeps the panel's shape: every setting it names takes its value in that one
event, a stopped sweep timer starts when the interval is not 0, and the scanner starts afresh when touch enable changes,
or, with touch enabled, a beam setting. A quiet scan that was demanded stays demanded unless the scanner starts afresh;
where that lifts the block, a phase that waits in WAIT_CHARGE tries its start in this event, after the other effects (their
order is log 13; that an overcurrent met by that start offers its reports is the model's choice, log 21). Nothing else
changes. -/
def Obligations.ConfigureTakesEffectInOneEvent : Prop :=
  ∀ (s : State) (own : Nat) (seq : Byte) (pairs : List (Nat × Nat)), FreshFrame s own seq → PairsFit pairs →
    (∀ e ∈ pairs, settingInRange e.1 e.2 = true) →
    let new := settingsAfter s.settings pairs
    let restarts := new.touchEnable ≠ s.settings.touchEnable ∨ (new.touchEnable = 1 ∧ s.settings.beamsDiffer new = true)
    let quiet := match s.touch.scanner with
      | .quietWait | .quiet _ => true
      | .off | .scanning _ => false
    let configured : State :=
      { s with
        settings := new
        sweep := if s.sweep.timer = none ∧ new.sweepInterval ≠ 0 then { s.sweep with timer := some new.sweepInterval }
          else s.sweep
        touch := if restarts then s.touch.fresh (new.touchEnable == 1) new.scanPeriod s.pulseInProgress else s.touch
        reports := if restarts then { s.reports with coalesce := none } else s.reports }
    new.beamsInside = true → new.columns = s.settings.columns → new.stripRows = s.settings.stripRows →
    exec (.configure seq (configurePayload pairs)) s = .next (State.replied
      (if quiet = true ∧ restarts ∧ s.driver.state = .waitCharge then configured.tryPhase else configured)
      own seq 0x02 [0x00])

/-- A geometry change accepted with the work in flight empty: the image is UNKNOWN over the new panel, the dead-dot and
zone tables are empty, viewport 0 covers the new panel with PRINT, wrap and cursor (0, 0) and the others are undefined,
the sweep cursor is (0, 0) with its slot empty and the pass-over count 0, and the scanner starts afresh; tag counter,
glyph store, reports, contact counter, charge and driver state are kept. -/
def Obligations.GeometryChangeResetsThePanel : Prop :=
  ∀ (s : State) (own : Nat) (seq : Byte) (pairs : List (Nat × Nat)), FreshFrame s own seq → PairsFit pairs →
    (∀ e ∈ pairs, settingInRange e.1 e.2 = true) →
    let new := settingsAfter s.settings pairs
    new.beamsInside = true → (new.columns ≠ s.settings.columns ∨ new.stripRows ≠ s.settings.stripRows) →
    s.queue.requests = [] → s.ring = [] → s.driver.hand = none →
    exec (.configure seq (configurePayload pairs)) s = .next (State.replied
      { s with
        settings := new
        image := []
        dead := []
        viewports := ⟨true, ⟨0, 0, new.columns, 16 * new.stripRows⟩, ⟨.set, .clear⟩, true, 0, 0⟩ ::
          List.replicate 7 .undefined
        zones := List.replicate 16 .undefined
        driver := { s.driver with passOver := 0 }
        sweep :=
          ⟨⟨0, 0⟩, none, if s.sweep.timer = none ∧ new.sweepInterval ≠ 0 then some new.sweepInterval else s.sweep.timer⟩
        touch := s.touch.fresh (new.touchEnable == 1) new.scanPeriod s.pulseInProgress
        reports := { s.reports with coalesce := none } } own seq 0x02 [0x00])

/-- An addressed RESTART is answered OK and takes effect when that reply has gone, with its own reply kept in the cache;
a broadcast RESTART takes effect at once, with the cache empty and a waiting reply abandoned. What it keeps and empties is
the table of R186 (`restartedState`), and three things are the model's choice: the latched pulse length and gap are kept (log
17), the free generator holds no item values (log 20), and the scan that starts has not seen a pulse that the restart ended
(log 23). -/
def Obligations.RestartKeepsAndEmpties : Prop :=
  ∀ (s : State) (own : Nat) (seq : Byte),
    (FreshFrame s own seq →
      exec (.restart seq []) s = .next { s with link := s.link.replied own seq 0x03 [0x00] true }) ∧
    (∀ reply, s.inReset = false → s.link.tx = .sending reply true →
      exec .replyEnd s = .next (restartedState s s.link.cache)) ∧
    (s.inReset = false → s.isSending = false → exec (.broadcastRestart seq []) s = .next (restartedState s none))

/-- A full reset: its beginning releases the lines, lights no emitter, empties the hand and silences the link, a low RESETN
of less than 10 microseconds does nothing, and at its end the straps are read and every block takes the state of R187, whatever the
unit was doing before. The overcurrent input, a pin, keeps its level (log 2), and that the free generator holds no item
values is the model's choice (log 20). The two bit-rate straps read select the rate by the table of R165. -/
def Obligations.FullResetLeavesTheResetState : Prop :=
  (∀ s : State, ∃ t, exec (.fullResetEntry .powerOn) s = .next t ∧ t.inReset = true ∧
    t.coilLines = ⟨none, false, false, 0⟩ ∧ t.emitterOrder = [] ∧ t.deHigh = false ∧ t.txLine = [] ∧
    (∀ n, t.lineDriven n = none) ∧ t.driver.hand = none ∧
    ∀ us, exec (.fullResetEntry (.resetnLow us)) s = .next (if 10 ≤ us then t else s)) ∧
  (∀ (s : State) (ads : BitVec 5) (brs : BitVec 2), s.inReset = true →
    ∃ t, exec (.fullResetExit ads brs) s = .next t ∧ t.inReset = false ∧
      t.settings =
        { columns := 96, stripRows := 2, pulseLength := 500, phaseGap := 200, rechargePeriod := 100, sweepInterval := 0,
          touchEnable := 0, xBeams := 24, yBeams := 8, xOrigin := 2, xPitch := 4, yOrigin := 2, yPitch := 4,
          scanPeriod := 10, pressConfirm := 2, releaseConfirm := 3, moveThreshold := 2, moveInterval := 5,
          blockedLimit := 500 } ∧
      t.link = ⟨ads, brs, .hunt, .idle, none⟩ ∧
      (t.link.bitRate = match brs.getLsbD 1, brs.getLsbD 0 with
        | false, false => 19200
        | false, true => 57600
        | true, false => 115200
        | true, true => 230400) ∧ (∀ x y, imageDot t.image x y = .unknown) ∧ t.dead = [] ∧
      t.queue = ⟨[], 1⟩ ∧
      t.viewports = ⟨true, ⟨0, 0, 96, 32⟩, ⟨.set, .clear⟩, true, 0, 0⟩ :: List.replicate 7 .undefined ∧
      t.store = ⟨List.replicate 8 .undefined, [], 2048⟩ ∧ t.gen = ⟨none, none, none, none⟩ ∧
      t.ring = [] ∧ t.driver.state = .idle ∧ t.driver.hand = none ∧ t.driver.passOver = 0 ∧
      t.driver.pulseLength = none ∧ t.driver.phaseGap = none ∧ t.coilLines = ⟨none, false, false, 0⟩ ∧
      t.charge = ⟨0, 100⟩ ∧ t.sweep = ⟨⟨0, 0⟩, none, none⟩ ∧ t.touch.scanner = .off ∧ t.emitterOrder = [] ∧
      t.touch.voided = 0 ∧ t.touch.xBeams = List.replicate 48 ⟨0, false⟩ ∧
      t.touch.yBeams = List.replicate 24 ⟨0, false⟩ ∧ t.touch.contact = .none ∧
      t.touch.contactCounter = 0 ∧ t.zones = List.replicate 16 .undefined ∧ t.reports.entries = [] ∧
      t.reports.counter = 1 ∧ t.reports.lost = false ∧ (∀ c, t.reports.subscribed c = true) ∧
      t.reports.coalesce = none ∧ t.deHigh = false ∧ (∀ n, t.txdLevel n = true ∧ t.lineDriven n = none) ∧
      t.ocin = s.ocin ∧ t.pending = s.pending)

/-! ### Requests -/

/-- Reading a DRAW's payload gives back the drawing it was laid out from: header, rule choice, force and every item, with
every field at every value its encoding admits; with the rule source VIEWPORT the two action bytes are ignored, whatever
they hold (R61, R63, R188, R191). -/
def Obligations.DrawPayloadReadsBack : Prop :=
  ∀ (viewports : List Viewport) (d : DrawForm), d.fits = true →
    (viewports.getD d.viewport .undefined).defined = true →
    parseDraw viewports d.encode = .ok d ∧
    ∀ ink ground : Byte, d.rule = .viewport →
      parseDraw viewports ([byte d.viewport, 0, ink, ground] ++ d.encode.drop 4) = .ok d

/-- A DRAW is checked for form, then against the driver, then against the host pool; a failure is the reply, and nothing
else changes. The form: a header field that fails is BAD_FIELD 0xFF; after any number of items that pass, an item that
runs past the payload is BAD_LENGTH, one whose kind, length or field fails (`itemRefused`) is BAD_FIELD with its index, and
bytes left over after the last item of the count are BAD_LENGTH. (What passes is `DrawPayloadReadsBack`.) -/
def Obligations.DrawIsRefusedInOrder : Prop :=
  ∀ (s : State) (own : Nat) (seq vp source ink ground force count : Byte) (p : List Byte), FreshFrame s own seq →
    p.length ≤ 194 →
    let run := exec (.draw seq ([vp, source, ink, ground, force, count] ++ p)) s
    let badHeader := ¬(vp.toNat ≤ 7 ∧ (s.viewport vp.toNat).defined = true) ∨ 1 < source.toNat ∨
      (source = 1 ∧ (3 < ink.toNat ∨ 3 < ground.toNat)) ∨ 1 < force.toNat ∨ count = 0 ∨ 16 < count.toNat
    (badHeader → run = .next (s.replied own seq 0x10 [0x03, 0xFF])) ∧
    (¬badHeader → ∀ (passed : List Item) (rest : List Byte), (∀ it ∈ passed, it.fits = true) →
      p = passed.flatMap Item.encode ++ rest →
      (passed.length = count.toNat → rest ≠ [] → run = .next (s.replied own seq 0x10 [0x02])) ∧
      (passed.length < count.toNat →
        (rest.length < 2 → run = .next (s.replied own seq 0x10 [0x02])) ∧
        ∀ (kind len : Byte) (fields : List Byte), rest = kind :: len :: fields →
          (fields.length < len.toNat → run = .next (s.replied own seq 0x10 [0x02])) ∧
          (len.toNat ≤ fields.length → itemRefused kind.toNat (fields.take len.toNat) →
            run = .next (s.replied own seq 0x10 [0x03, byte passed.length])))) ∧
    (∀ d, parseDraw s.viewports ([vp, source, ink, ground, force, count] ++ p) = .ok d →
      (s.driver.state = .held → run = .next (s.replied own seq 0x10 [0x06])) ∧
      (s.driver.state ≠ .held → 12 ≤ (s.pool .host).length → run = .next (s.replied own seq 0x10 [0x04])))

/-- A DRAW that passes every check joins the queue at its newest end with the next free tag, the reply is OK with that tag,
and the generator arbiter chooses (`GeneratorArbiterPrefersEchoes`): at work, the generator takes nothing; free, with nothing
else QUEUED, it takes the request at once, its progress at its first item, with no item values until that item starts (the
model's choice, log 20). The counter then stands one past the tag (log 15, DEDUCED). No reachable state has a free generator beside another QUEUED request and a driver that is not HELD
(`EveryStepKeepsWorkSound`). -/
def Obligations.DrawJoinsTheQueue : Prop :=
  ∀ (s : State) (own : Nat) (seq : Byte) (d : DrawForm), FreshFrame s own seq → d.fits = true →
    (s.viewport d.viewport).defined = true → s.driver.state ≠ .held → (s.pool .host).length < 12 →
    s.queue.requests.length ≤ 14 → InCount s.queue.tagCounter →
    let tag := s.nextTag
    let r := joining tag d
    let joined : State := { s with queue := ⟨s.queue.requests ++ [r], nextNumber tag⟩ }
    exec (.draw seq d.encode) s =
      .next (joined.generatorArbiter.replied own seq 0x10 [0x00, byte tag, byte (tag / 256)]) ∧
    (∀ current, s.gen.current = some current → joined.generatorArbiter = joined) ∧
    (s.gen.current = none → (∀ q ∈ s.queue.requests, q.state ≠ .queued) →
      joined.generatorArbiter =
        { s with
          queue := ⟨s.queue.requests ++ [{ r with state := .rastering }], nextNumber tag⟩
          gen := ⟨some tag, none, none, none⟩ })

/-- A counter's next number passes over those in use, upward and from 65535 to 1: it is the first from the counter's
value on that nothing holds (tags and report numbers; that it passes over them when the number is taken is log 15). -/
def Obligations.NumbersPassOverThoseInUse : Prop :=
  ∀ (used : List Nat) (counter : Nat), InCount counter → used.length < 65535 →
    freeNumber used counter ∉ used ∧ InCount (freeNumber used counter) ∧
    ∃ k ≤ used.length, freeNumber used counter = nextNumber^[k] counter ∧
      (∀ j < k, nextNumber^[j] counter ∈ used) ∧
      ∀ n, InCount n → nextNumber n = if n = 65535 then 1 else n + 1

/-- The generator arbiter hands a free generator to the oldest QUEUED echo, otherwise to the oldest QUEUED host request, its
progress at the start of its first item, and takes nothing while the generator is at work, while the driver is HELD, or
with nothing QUEUED. That the generator then holds no item values, before the item's start reads them, is the model's choice
(log 20). -/
def Obligations.GeneratorArbiterPrefersEchoes : Prop :=
  ∀ s : State, (s.queue.requests.map (·.tag)).Nodup →
    (∀ pre r post, s.gen.current = none → s.driver.state ≠ .held → s.queue.requests = pre ++ r :: post →
      r.state = .queued →
      ((r.origin = .echo ∧ ∀ q ∈ pre, ¬(q.state = .queued ∧ q.origin = .echo)) ∨
        (r.origin = .host ∧ (∀ q ∈ pre, q.state ≠ .queued) ∧
          ∀ q ∈ post, ¬(q.state = .queued ∧ q.origin = .echo))) →
      s.generatorArbiter =
        { s with
          queue := { s.queue with requests := pre ++ { r with state := .rastering, progress := ⟨0, .itemStart⟩ } :: post }
          gen := ⟨some r.tag, none, none, none⟩ }) ∧
    (s.gen.current ≠ none ∨ s.driver.state = .held ∨ (∀ q ∈ s.queue.requests, q.state ≠ .queued) →
      s.generatorArbiter = s)

/-- CANCEL with a tag acts by the state of the host request with that tag, by the table of R33: QUEUED, it leaves
CANCELLED; RASTERING, generation stops and it drains marked, its progress where it stands, or leaves CANCELLED with nothing
outstanding, and the arbiter chooses again; DRAINING is TOO_LATE; no such host request is NOT_FOUND. After a
QUEUED request has left the arbiter finds nothing to do while the generator is at work or the driver HELD; otherwise it
chooses (`GeneratorArbiterPrefersEchoes`), in a form that no reachable state has (`EveryStepKeepsWorkSound`). That the stopped
generator holds no item values is the model's choice (log 20). -/
def Obligations.CancelActsByTheRequestsState : Prop :=
  ∀ (s : State) (own : Nat) (seq : Byte) (tag : Nat), FreshFrame s own seq → InCount tag →
    (s.queue.requests.map (·.tag)).Nodup →
    let run := exec (.cancel seq [byte tag, byte (tag / 256)]) s
    (∀ pre r post, s.queue.requests = pre ++ r :: post → r.tag = tag → r.origin = .host →
      let left (st : State) : State :=
        { st with
          queue := { s.queue with requests := pre ++ post }
          reports := s.reports.offer
            (.completion tag .cancelled r.generated r.itemsDone r.clipped r.missingGlyph r.dotsStruck) }
      let stopped : State := { s with gen := ⟨none, none, none, none⟩ }
      (r.state = .queued →
        run = .next ((left s).generatorArbiter.replied own seq 0x11 [0x00]) ∧
          (s.gen.current ≠ none ∨ s.driver.state = .held → (left s).generatorArbiter = left s)) ∧
      (r.state = .rastering → r.outstanding = 0 →
        run = .next ((left stopped).generatorArbiter.replied own seq 0x11 [0x00])) ∧
      (r.state = .rastering → r.outstanding ≠ 0 →
        run = .next (State.replied (State.generatorArbiter
          { stopped with
            queue :=
              { s.queue with requests := pre ++ { r with state := .draining, cancelMark := true } :: post } })
          own seq 0x11 [0x00])) ∧
      (r.state = .draining → run = .next (s.replied own seq 0x11 [0x09]))) ∧
    ((∀ q ∈ s.queue.requests, q.tag = tag → q.origin = .echo) → run = .next (s.replied own seq 0x11 [0x08]))

/-- The all form cancels every QUEUED or RASTERING host request in one event and counts the DRAINING ones as too late;
echoes are not reached. Sent to one unit it is answered with both counts; broadcast, it acts alike with no reply, and a
broadcast CANCEL of any other tag does nothing. That the freed generator holds no item values is the model's choice (log
20). -/
def Obligations.CancelAllReachesEveryHostRequest : Prop :=
  ∀ (s : State) (own : Nat) (seq : Byte), (s.queue.requests.map (·.tag)).Nodup →
    let drains := (s.queue.requests.filter fun r => r.origin == .host && r.state == .draining).length
    (FreshFrame s own seq →
      exec (.cancelAll seq [0, 0]) s = .next ((cancelledAll s).replied own seq 0x11
        [0x00, byte ((s.pool .host).length - drains), byte drains])) ∧
    (s.inReset = false → s.isSending = false →
      exec (.broadcastCancel seq [0, 0]) s =
        .next { cancelledAll s with link := { s.link with rx := .hunt } } ∧
      ∀ a b : Byte, (a ≠ 0 ∨ b ≠ 0) →
        exec (.broadcastCancel seq [a, b]) s = .next { s with link := { s.link with rx := .hunt } })

/-- RESUME returns a HELD driver to IDLE and the generator arbiter chooses among the QUEUED requests; in any other state
it is answered NOT_HELD and changes nothing. Ring and slot are empty in HELD (R122). -/
def Obligations.ResumeEndsTheHold : Prop :=
  ∀ (s : State) (own : Nat) (seq : Byte), FreshFrame s own seq →
    (s.driver.state = .held → s.ring = [] → s.sweep.slot = none →
      exec (.resume seq []) s = .next
        ((State.generatorArbiter { s with driver := { s.driver with state := .idle } }).replied own seq 0x12 [0x00])) ∧
    (s.driver.state ≠ .held → exec (.resume seq []) s = .next (s.replied own seq 0x12 [0x0B]))

/-! ### Viewports, fonts, glyphs, image, zones, reports -/

/-- A SET VIEWPORT with operation DEFINE that passes its checks writes the viewport's record and nothing else: the
carried rectangle (ignored for viewport 0), rule and wrap, and the carried cursor, or the cursor it had, or (0, 0) where
it was undefined. That the message carries the cursor in two's complement (log 19) and wrap as 0 for off and 1 for on (log 24) is the model's
(DEDUCED). -/
def Obligations.SetViewportDefinesItsRecord : Prop :=
  ∀ (s : State) (own : Nat) (seq : Byte) (id x y w h : Byte) (ink ground : Action) (wrap given : Bool) (cx cy : Int),
    FreshFrame s own seq → id.toNat ≤ 7 → coordinateFits cx = true → coordinateFits cy = true →
    (id ≠ 0 → 1 ≤ w.toNat ∧ x.toNat + w.toNat ≤ s.settings.columns ∧
      1 ≤ h.toNat ∧ y.toNat + h.toNat ≤ 16 * s.settings.stripRows) →
    let old := s.viewport id.toNat
    exec (.setViewportDefine seq ([id, 1, x, y, w, h, byte ink.code, byte ground.code, boolByte wrap, boolByte given] ++
        signed16Bytes cx ++ signed16Bytes cy)) s = .next (State.replied
      { s with
        viewports := s.viewports.set id.toNat
          ⟨true, if id = 0 then old.rect else ⟨x.toNat, y.toNat, w.toNat, h.toNat⟩, ⟨ink, ground⟩, wrap,
            if given then cx else if old.defined then old.cx else 0,
            if given then cy else if old.defined then old.cy else 0⟩ } own seq 0x20 [0x00])

/-- An UNDEFINE of viewports 1 to 7: NOT_FOUND when it is undefined, IN_USE while a request in the queue names it, and
otherwise its record takes the undefined values. -/
def Obligations.SetViewportUndefinesUnlessInUse : Prop :=
  ∀ (s : State) (own : Nat) (seq : Byte) (id : Byte) (rest : List Byte), FreshFrame s own seq →
    1 ≤ id.toNat → id.toNat ≤ 7 → rest.length = 12 →
    let run := exec (.setViewportUndefine seq ([id, 0] ++ rest)) s
    ((s.viewport id.toNat).defined = false → run = .next (s.replied own seq 0x20 [0x08])) ∧
    ((s.viewport id.toNat).defined = true → (∃ r ∈ s.queue.requests, r.viewport = id.toNat) →
      run = .next (s.replied own seq 0x20 [0x0A])) ∧
    ((s.viewport id.toNat).defined = true → (∀ r ∈ s.queue.requests, r.viewport ≠ id.toNat) →
      run = .next (State.replied
        { s with viewports := s.viewports.set id.toNat ⟨false, ⟨0, 0, 0, 0⟩, ⟨.leave, .leave⟩, false, 0, 0⟩ }
        own seq 0x20 [0x00]))

/-- The fields of SET VIEWPORT, SET ZONE and SET FONT are checked in index order; the first that fails is named in a
BAD_FIELD reply, and nothing else changes. `bad` says which indices fail for a payload, by the tables of R44, R148 and R70
(whose check 6, IN_USE, is `FontsAreSetAndDropped`); that 0 and 1 are wrap's two codes is the model's (DEDUCED, log 24). -/
def Obligations.FieldsAreCheckedInOrder : Prop :=
  ∀ (s : State) (own : Nat) (seq : Byte), FreshFrame s own seq →
    (∀ id op x y w h ink ground wrap given c0 c1 c2 c3 : Byte,
      let bad : Nat → Prop := fun i => match i with
        | 0 => 7 < id.toNat
        | 1 => 1 < op.toNat ∨ (op = 0 ∧ id = 0)
        | 2 => op = 1 ∧ id ≠ 0 ∧ s.settings.columns ≤ x.toNat
        | 3 => op = 1 ∧ id ≠ 0 ∧ 16 * s.settings.stripRows ≤ y.toNat
        | 4 => op = 1 ∧ id ≠ 0 ∧ (w = 0 ∨ s.settings.columns < x.toNat + w.toNat)
        | 5 => op = 1 ∧ id ≠ 0 ∧ (h = 0 ∨ 16 * s.settings.stripRows < y.toNat + h.toNat)
        | 6 => op = 1 ∧ 3 < ink.toNat
        | 7 => op = 1 ∧ 3 < ground.toNat
        | 8 => op = 1 ∧ 1 < wrap.toNat
        | 9 => op = 1 ∧ 1 < given.toNat
        | _ => False
      ∀ i, bad i → (∀ j < i, ¬bad j) →
        let p := [id, op, x, y, w, h, ink, ground, wrap, given, c0, c1, c2, c3]
        exec (.setViewportDefine seq p) s = .next (s.replied own seq 0x20 [0x03, byte i]) ∧
          exec (.setViewportUndefine seq p) s = .next (s.replied own seq 0x20 [0x03, byte i])) ∧
    (∀ id op x y w h echo : Byte,
      let bad : Nat → Prop := fun i => match i with
        | 0 => id = 0 ∨ 16 < id.toNat
        | 1 => 1 < op.toNat
        | 2 => op = 1 ∧ s.settings.columns ≤ x.toNat
        | 3 => op = 1 ∧ 16 * s.settings.stripRows ≤ y.toNat
        | 4 => op = 1 ∧ (w = 0 ∨ s.settings.columns < x.toNat + w.toNat)
        | 5 => op = 1 ∧ (h = 0 ∨ 16 * s.settings.stripRows < y.toNat + h.toNat)
        | 6 => op = 1 ∧ 2 < echo.toNat
        | _ => False
      ∀ i, bad i → (∀ j < i, ¬bad j) →
        let p := [id, op, x, y, w, h, echo]
        exec (.setZoneDefine seq p) s = .next (s.replied own seq 0x40 [0x03, byte i]) ∧
          exec (.setZoneUndefine seq p) s = .next (s.replied own seq 0x40 [0x03, byte i])) ∧
    (∀ id height spacing gap given code : Byte,
      let bad : Nat → Prop := fun i => match i with
        | 0 => 7 < id.toNat
        | 1 => height = 0 ∨ 32 < height.toNat
        | 2 => 8 < spacing.toNat
        | 3 => 16 < gap.toNat
        | 4 => 1 < given.toNat
        | _ => False
      ∀ i, bad i → (∀ j < i, ¬bad j) →
        exec (.setFont seq [id, height, spacing, gap, given, code]) s = .next (s.replied own seq 0x28 [0x03, byte i]))

/-- SET FONT writes the font's record, unless the font holds glyphs and its height would change, which is IN_USE; DROP
FONT takes the font's glyphs out of the table, returns their columns to the pool and leaves the record undefined, and
an undefined font is NOT_FOUND and an id above 7 BAD_FIELD. -/
def Obligations.FontsAreSetAndDropped : Prop :=
  ∀ (s : State) (own : Nat) (seq : Byte) (id : Byte), FreshFrame s own seq →
    (7 < id.toNat → exec (.dropFont seq [id]) s = .next (s.replied own seq 0x29 [0x03, 0x00])) ∧
    (id.toNat ≤ 7 →
    let old := s.store.font id.toNat
    (∀ height spacing gap code : Byte, ∀ given : Bool, 1 ≤ height.toNat → height.toNat ≤ 32 → spacing.toNat ≤ 8 →
      gap.toNat ≤ 16 →
      exec (.setFont seq [id, height, spacing, gap, boolByte given, code]) s = .next (
        if old.defined = true ∧ (∃ y ∈ s.store.glyphs, y.font = id.toNat) ∧ height.toNat ≠ old.height then
          s.replied own seq 0x28 [0x0A]
        else State.replied
          { s with
            store :=
              { s.store with
                fonts := s.store.fonts.set id.toNat ⟨true, height.toNat, spacing.toNat, gap.toNat,
                  if given then some code.toNat else none⟩ } } own seq 0x28 [0x00])) ∧
    exec (.dropFont seq [id]) s = .next (
      if old.defined = false then s.replied own seq 0x29 [0x08]
      else State.replied
        { s with
          store :=
            ⟨s.store.fonts.set id.toNat .undefined, s.store.glyphs.filter fun y => y.font != id.toNat,
              s.store.freeColumns +
                ((s.store.glyphs.filter fun y => y.font == id.toNat).map fun y => y.columns.length).sum⟩ }
        own seq 0x29 [0x00]))

/-- A LOAD GLYPH into a defined font with a width of 1 to 32 and data of the right length: with no glyph under its key
it makes a new one, refused NO_ROOM when the table holds 320 or the free columns are short; with one, it replaces it,
the old columns counted as freed. The stored columns hold the data's dots, top dot first. -/
def Obligations.LoadGlyphMakesOrReplaces : Prop :=
  ∀ (s : State) (own : Nat) (seq : Byte) (id code width : Byte) (data : List Byte), FreshFrame s own seq →
    StoreSound s.store → id.toNat ≤ 7 → (s.store.font id.toNat).defined = true →
    1 ≤ width.toNat → width.toNat ≤ 32 →
    let h := (s.store.font id.toNat).height
    data.length = width.toNat * ((h + 7) / 8) → data.length ≤ 197 →
    let old := s.store.glyph id.toNat code.toNat
    let room := s.store.freeColumns + (old.map fun y => y.columns.length).getD 0
    ∃ columns : List Pattern, columns.length = width.toNat ∧
      (∀ i < width.toNat, ∀ j < 32, (columns.getD i 0).getLsbD j =
        (decide (j < h) && (data.getD (i * ((h + 7) / 8) + j / 8) 0).getLsbD (j % 8))) ∧
      exec (.loadGlyph seq ([id, code, width] ++ data)) s = .next (
        if (old = none ∧ 320 ≤ s.store.glyphs.length) ∨ room < width.toNat then s.replied own seq 0x2A [0x07]
        else State.replied
          { s with
            store :=
              { s.store with
                glyphs := (s.store.glyphs.filter fun z => !(z.font == id.toNat && z.code == code.toNat)) ++
                  [⟨id.toNat, code.toNat, columns⟩]
                freeColumns := room - width.toNat } } own seq 0x2A [0x00])

/-- DROP GLYPH takes the glyph under its key out of the table and returns its columns to the pool; with none under the
key it is NOT_FOUND. LOAD GLYPH is refused in the order of R73: font id, font defined, width, data length. -/
def Obligations.DropGlyphAndLoadGlyphRefusals : Prop :=
  ∀ (s : State) (own : Nat) (seq : Byte) (id code : Byte), FreshFrame s own seq →
    (StoreSound s.store → id.toNat ≤ 7 →
      exec (.dropGlyph seq [id, code]) s = .next (match s.store.glyph id.toNat code.toNat with
        | none => s.replied own seq 0x2B [0x08]
        | some old => State.replied
          { s with
            store :=
              { s.store with
                glyphs := s.store.glyphs.filter fun z => z != old
                freeColumns := s.store.freeColumns + old.columns.length } } own seq 0x2B [0x00])) ∧
    (7 < id.toNat → exec (.dropGlyph seq [id, code]) s = .next (s.replied own seq 0x2B [0x03, 0x00])) ∧
    ∀ (width : Byte) (data : List Byte), data.length ≤ 197 →
      let font := s.store.font id.toNat
      let run := exec (.loadGlyph seq ([id, code, width] ++ data)) s
      (7 < id.toNat → run = .next (s.replied own seq 0x2A [0x03, 0x00])) ∧
      (id.toNat ≤ 7 → font.defined = false → run = .next (s.replied own seq 0x2A [0x08])) ∧
      (id.toNat ≤ 7 → font.defined = true → (width = 0 ∨ 32 < width.toNat) →
        run = .next (s.replied own seq 0x2A [0x03, 0x02])) ∧
      (id.toNat ≤ 7 → font.defined = true → 1 ≤ width.toNat → width.toNat ≤ 32 →
        data.length ≠ width.toNat * ((font.height + 7) / 8) → run = .next (s.replied own seq 0x2A [0x03, 0x03]))

/-- READ IMAGE checks strip row, first column and count in order; accepted, it repeats them and gives for each strip the
known mask and the on mask of the image as it stands, bit p for position p. GET VIEWPORT answers with the whole record
as it stands, its cursor in two's complement (DEDUCED, log 19) and its wrap as 0 for off and 1 for on (DEDUCED, log 24), or
BAD_FIELD for an id above 7. Neither changes anything. -/
def Obligations.ReadBackShowsImageAndViewports : Prop :=
  ∀ (s : State) (own : Nat) (seq : Byte) (k x0 n id : Byte), FreshFrame s own seq →
    let v := s.viewport id.toNat
    exec (.getViewport seq [id]) s = .next (s.replied own seq 0x21 (if id.toNat ≤ 7 then
      [0x00, id, if v.defined then 1 else 0, byte v.rect.x, byte v.rect.y, byte v.rect.w, byte v.rect.h,
        byte v.rule.ink.code, byte v.rule.ground.code, if v.wrap then 1 else 0,
        byte (v.cx % 65536).toNat, byte ((v.cx % 65536).toNat / 256),
        byte (v.cy % 65536).toNat, byte ((v.cy % 65536).toNat / 256)]
      else [0x03, 0x00])) ∧
    let run := exec (.readImage seq [k, x0, n]) s
    let bad0 := s.settings.stripRows ≤ k.toNat
    let bad1 := s.settings.columns ≤ x0.toNat
    let bad2 := n = 0 ∨ 48 < n.toNat ∨ s.settings.columns < x0.toNat + n.toNat
    (bad0 → run = .next (s.replied own seq 0x30 [0x03, 0x00])) ∧
    (¬bad0 → bad1 → run = .next (s.replied own seq 0x30 [0x03, 0x01])) ∧
    (¬bad0 → ¬bad1 → bad2 → run = .next (s.replied own seq 0x30 [0x03, 0x02])) ∧
    (¬bad0 → ¬bad1 → ¬bad2 → ∃ known on : Nat → Mask,
      (∀ i < n.toNat, ∀ p < 16,
        ((known i).getLsbD p = true ↔ imageDot s.image (x0.toNat + i) (16 * k.toNat + p) ≠ .unknown) ∧
        ((on i).getLsbD p = true ↔ imageDot s.image (x0.toNat + i) (16 * k.toNat + p) = .on)) ∧
      run = .next (s.replied own seq 0x30 ([0x00, k, x0, n] ++ (List.range n.toNat).flatMap fun i =>
        [(known i).setWidth 8, (known i >>> 8).setWidth 8, (on i).setWidth 8, (on i >>> 8).setWidth 8])))

/-- LIST DEAD DOTS gives the table oldest first and changes nothing. FORGET DEAD DOT checks the dot against the panel,
then removes its entry and nothing else, the others keeping their order, or answers NOT_FOUND. -/
def Obligations.DeadDotsAreListedAndForgotten : Prop :=
  ∀ (s : State) (own : Nat) (seq : Byte), FreshFrame s own seq →
    exec (.listDeadDots seq []) s = .next (s.replied own seq 0x31 (0x00 :: byte s.dead.length ::
      s.dead.flatMap fun d => [byte d.x, byte d.y, if d.source = .request then 0 else 1])) ∧
    ∀ x y : Byte,
      let run := exec (.forgetDeadDot seq [x, y]) s
      (s.settings.columns ≤ x.toNat → run = .next (s.replied own seq 0x32 [0x03, 0x00])) ∧
      (x.toNat < s.settings.columns → 16 * s.settings.stripRows ≤ y.toNat →
        run = .next (s.replied own seq 0x32 [0x03, 0x01])) ∧
      (x.toNat < s.settings.columns → y.toNat < 16 * s.settings.stripRows →
        (∀ pre d post, s.dead = pre ++ d :: post → d.x = x.toNat → d.y = y.toNat →
          (s.dead.map fun e => (e.x, e.y)).Nodup →
          run = .next (State.replied { s with dead := pre ++ post } own seq 0x32 [0x00])) ∧
        ((∀ d ∈ s.dead, ¬(d.x = x.toNat ∧ d.y = y.toNat)) → run = .next (s.replied own seq 0x32 [0x08])))

/-- A SET ZONE that passes its checks defines the zone with the carried rectangle and echo mode, or gives a defined zone
the undefined values; an UNDEFINE of an undefined zone is NOT_FOUND. -/
def Obligations.SetZoneDefinesAndUndefines : Prop :=
  ∀ (s : State) (own : Nat) (seq : Byte) (id x y w h : Byte), FreshFrame s own seq →
    1 ≤ id.toNat → id.toNat ≤ 16 →
    (∀ echo : EchoMode, 1 ≤ w.toNat → x.toNat + w.toNat ≤ s.settings.columns → 1 ≤ h.toNat →
      y.toNat + h.toNat ≤ 16 * s.settings.stripRows →
      exec (.setZoneDefine seq [id, 1, x, y, w, h, match echo with | .none => 0 | .press => 1 | .hold => 2]) s =
        .next (State.replied
          { s with zones := s.zones.set (id.toNat - 1) ⟨true, ⟨x.toNat, y.toNat, w.toNat, h.toNat⟩, echo⟩ }
          own seq 0x40 [0x00])) ∧
    ∀ e : Byte, exec (.setZoneUndefine seq [id, 0, x, y, w, h, e]) s = .next (
      if (s.zones.getD (id.toNat - 1) .undefined).defined = true then
        State.replied { s with zones := s.zones.set (id.toNat - 1) ⟨false, ⟨0, 0, 0, 0⟩, .none⟩ } own seq 0x40 [0x00]
      else s.replied own seq 0x40 [0x08])

/-- COLLECT removes the acknowledged entry and every older one, and then answers with the lost mark, the number of
entries left and the oldest of them, up to 8, each as its 11 bytes (`layout`, by the tables of R192 and R188); those are
marked sent, the lost mark is cleared, and the coalescing reference is cleared when its entry was removed or carried. -/
def Obligations.CollectRemovesThenCarries : Prop :=
  ∀ (s : State) (own : Nat) (seq : Byte) (n : Nat) (gone left : List Entry), FreshFrame s own seq → n < 65536 →
    s.reports.numbers.Nodup → s.reports.entries = gone ++ left →
    (match gone.getLast? with
      | some e => e.number = n ∧ n ≠ 0
      | none => n = 0 ∨ ∀ e ∈ left, e.number ≠ n) →
    let yes (b : Bool) : Byte := if b then 1 else 0
    let layout (e : Entry) : List Byte := [byte e.number, byte (e.number / 256)] ++ match e.report with
      | .completion tag o generated items clipped missing struck =>
        [1, byte tag, byte (tag / 256), match o with | .done => 0 | .cancelled => 1 | .failed => 2, byte generated,
          byte (generated / 256), byte items,
          byte ((if clipped then 1 else 0) + (if missing then 2 else 0) + (if struck then 4 else 0)),
          if o = .failed then 1 else 0]
      | .press c x y zone echo => [2, 1, byte c, byte x, byte y, byte zone, 0, yes echo, 0]
      | .move c x y zone inside => [2, 2, byte c, byte x, byte y, byte zone, yes inside, 0, 0]
      | .release c x y zone inside echo => [2, 3, byte c, byte x, byte y, byte zone, yes inside, yes echo, 0]
      | .beam axis number blocked => [3, if axis = .x then 0 else 1, byte number, yes blocked, 0, 0, 0, 0, 0]
      | .dot x y source rec => [4, byte x, byte y, if source = .request then 0 else 1, yes rec, 0, 0, 0, 0]
      | .driver t phase => [5, 1, byte t.col, byte t.row, if phase = .set then 0 else 1, 0, 0, 0, 0]
    exec (.collect seq [byte n, byte (n / 256)]) s = .next (State.replied
      { s with
        reports :=
          { s.reports with
            entries := (left.take 8).map (fun e => { e with sent := true }) ++ left.drop 8
            lost := false
            coalesce := s.reports.coalesce.filter fun m => decide (∃ e ∈ left.drop 8, e.number = m) } }
      own seq 0x48 ([0x00, yes s.reports.lost, byte left.length, byte (left.take 8).length] ++
        (left.take 8).flatMap layout))

/-- SUBSCRIBE replaces the subscription by its mask, class code c at bit c - 1, and answers with it; a mask that names
anything other than the five classes is BAD_FIELD. A report of a class outside the subscription changes nothing. -/
def Obligations.SubscribeReplacesTheSubscription : Prop :=
  ∀ (s : State) (own : Nat) (seq : Byte) (mask : Byte), FreshFrame s own seq →
    (mask.toNat < 32 → ∃ q : ReportQueue,
      exec (.subscribe seq [mask]) s = .next (State.replied { s with reports := q } own seq 0x49 [0x00, mask]) ∧
      q = { s.reports with subscription := q.subscription } ∧
      ∀ r : Report,
        q.subscribed r.cls = mask.getLsbD (match r with
          | .completion .. => 0
          | .press .. | .move .. | .release .. => 1
          | .beam .. => 2
          | .dot .. => 3
          | .driver .. => 4) ∧
        (q.subscribed r.cls = false → q.offer r = q)) ∧
    (32 ≤ mask.toNat → exec (.subscribe seq [mask]) s = .next (s.replied own seq 0x49 [0x03, 0x00]))

/-- A subscribed report that is offered: a MOVE takes the place of the entry the coalescing reference names and joins at
the newest end with a new number; any other joins while the queue holds fewer than 32 entries; otherwise it is dropped
and the lost mark is set. The number is the counter's next that no entry left in the queue has
(`NumbersPassOverThoseInUse`), and the counter then stands one past it (log 15, DEDUCED). -/
def Obligations.OfferedReportsJoinReplaceOrAreLost : Prop :=
  ∀ (q : ReportQueue) (r : Report), ReportsSound q → q.subscribed r.cls = true →
    (∀ pre old post, r.isMove = true → q.coalesce = some old.number → q.entries = pre ++ old :: post →
      let n := freeNumber ((pre ++ post).map (·.number)) q.counter
      n ∉ (pre ++ post).map (·.number) ∧ InCount n ∧
        q.offer r = { q with entries := pre ++ post ++ [⟨n, r, false⟩], counter := nextNumber n, coalesce := some n }) ∧
    ((r.isMove = false ∨ q.coalesce = none) → q.entries.length < 32 →
      let n := freeNumber (q.entries.map (·.number)) q.counter
      n ∉ q.entries.map (·.number) ∧ InCount n ∧
        q.offer r =
          { q with
            entries := q.entries ++ [⟨n, r, false⟩]
            counter := nextNumber n
            coalesce := if r.isMove then some n else q.coalesce }) ∧
    ((r.isMove = false ∨ q.coalesce = none) → q.entries.length = 32 → q.offer r = { q with lost := true })

/-! ### Image, ink and masks -/

/-- The masks formed for a strip, dot by dot, by the tables of R92 and R93: a dot that is clipped, not claimed or
recorded dead is in neither; SET and CLEAR place it when force is set or the image does not hold the wanted face; INVERT
places a known dot toward the other face. The two masks are disjoint. -/
def Obligations.MasksFollowActionAndImage : Prop :=
  ∀ (c : Claim) (rule : InkRule) (force : Bool) (dead : List DeadDot) (im : Image) (t : Strip),
    let op := formOp c rule force dead im t
    op.strip = t ∧ op.setMask &&& op.clearMask = 0 ∧
    ∀ p < 16,
      let dot := imageDot im t.col (16 * t.row + p)
      let wanted (a : Action) : Prop :=
        (∀ d ∈ dead, ¬(d.x = t.col ∧ d.y = 16 * t.row + p)) ∧
          ((c t.col (16 * t.row + p : Nat) = some .ink ∧ rule.ink = a) ∨
            (c t.col (16 * t.row + p : Nat) = some .ground ∧ rule.ground = a))
      (op.setMask.getLsbD p = true ↔
        (wanted .set ∧ (force = true ∨ dot ≠ .on)) ∨ (wanted .invert ∧ dot = .off)) ∧
      (op.clearMask.getLsbD p = true ↔
        (wanted .clear ∧ (force = true ∨ dot ≠ .off)) ∨ (wanted .invert ∧ dot = .on))

/-- A commit turns the dots of the set mask ON and those of the clear mask OFF, a loss turns the dots named by an
operation UNKNOWN, and every other dot of the panel keeps its value; neither leaves the image's canonical form. -/
def Obligations.CommitAndLossReachNamedDotsAlone : Prop :=
  ∀ (im : Image) (op : StripOp), ImageSound im → op.setMask &&& op.clearMask = 0 →
    ImageSound (commitOp im op) ∧
    (∀ m : Mask, ImageSound (loseDots im op.strip m)) ∧
    ∀ x y : Nat,
      imageDot (commitOp im op) x y =
        (if op.strip = ⟨x, y / 16⟩ ∧ op.setMask.getLsbD (y % 16) = true then .on
         else if op.strip = ⟨x, y / 16⟩ ∧ op.clearMask.getLsbD (y % 16) = true then .off
         else imageDot im x y) ∧
      (∀ m : Mask, imageDot (loseDots im op.strip m) x y =
        if op.strip = ⟨x, y / 16⟩ ∧ m.getLsbD (y % 16) = true then .unknown else imageDot im x y) ∧
      ∀ ops : List RingOp, imageDot (loseOps im ops) x y =
        if (∃ o ∈ ops, o.op.strip = ⟨x, y / 16⟩ ∧ (o.op.setMask ||| o.op.clearMask).getLsbD (y % 16) = true) then .unknown
        else imageDot im x y

/-- A LINE claims exactly the dots of R54: for each i from 0 to L, the long coordinate i steps from the start, and the
short one floor((2 i S + L) / (2 L)) steps, each toward the end; x is the long axis when dx is at least dy. -/
def Obligations.LineClaimsItsSteps : Prop :=
  ∀ (rect : Rect) (x0 y0 x1 y1 u v : Int),
    let dx := (x1 - x0).natAbs
    let dy := (y1 - y0).natAbs
    let toward (a b : Int) (n : Nat) : Int := if a ≤ b then a + n else a - n
    ((Item.line x0 y0 x1 y1).classAt rect u v = some .ink ↔
      if dy ≤ dx then
        ∃ i ≤ dx, u = toward x0 x1 i ∧ v = toward y0 y1 ((2 * i * dy + dx) / (2 * dx))
      else
        ∃ i ≤ dy, v = toward y0 y1 i ∧ u = toward x0 x1 ((2 * i * dx + dy) / (2 * dy))) ∧
    (Item.line x0 y0 x1 y1).classAt rect u v ≠ some .ground ∧
    (Item.line x0 y0 x1 y1).classAt rect x0 y0 = some .ink ∧ (Item.line x0 y0 x1 y1).classAt rect x1 y1 = some .ink

/-- What the other graphic items and a glyph cell claim, before clipping. A DOT: its one dot as ink. A BOX covers w by h
dots from its corner: FILLED, all as ink; OUTLINE, its border columns and rows as ink and the interior as ground. An IMAGE:
bit j mod 8 of byte floor (j / 8) of column i, 1 as ink and 0 as ground. A CLEAR: every dot of the rectangle as ground.
TEXT, CURSOR and NEWLINE claim nothing of their own. A cell at (x, y): the latched patterns, column by column, ON as ink
and OFF as ground, then the spacing columns, all ground, over the font's height. -/
def Obligations.ItemsAndCellsClaimTheirDots : Prop :=
  ∀ (rect : Rect) (u v : Int),
    let ink (it : Item) : Prop := it.classAt rect u v = some .ink
    let ground (it : Item) : Prop := it.classAt rect u v = some .ground
    let dotAt (x y : Int) (i j : Nat) : Prop := u = x + i ∧ v = y + j
    (∀ x y : Int, (ink (.dot x y) ↔ dotAt x y 0 0) ∧ ¬ground (.dot x y)) ∧
    (∀ (x y : Int) (w h : Nat),
      (ink (.box x y w h .filled) ↔ ∃ i < w, ∃ j < h, dotAt x y i j) ∧ ¬ground (.box x y w h .filled) ∧
      (ink (.box x y w h .outline) ↔
        ∃ i < w, ∃ j < h, dotAt x y i j ∧ (i = 0 ∨ i = w - 1 ∨ j = 0 ∨ j = h - 1)) ∧
      (ground (.box x y w h .outline) ↔
        ∃ i < w, ∃ j < h, dotAt x y i j ∧ 0 < i ∧ i + 1 < w ∧ 0 < j ∧ j + 1 < h)) ∧
    (∀ (x y : Int) (w h : Nat) (data : List Byte),
      let one (i j : Nat) : Bool := (data.getD (i * ((h + 7) / 8) + j / 8) 0).getLsbD (j % 8)
      (ink (.image x y w h data) ↔ ∃ i < w, ∃ j < h, dotAt x y i j ∧ one i j = true) ∧
      (ground (.image x y w h data) ↔ ∃ i < w, ∃ j < h, dotAt x y i j ∧ one i j = false)) ∧
    (¬ink .clear ∧ (ground .clear ↔ ∃ i < rect.w, ∃ j < rect.h, dotAt 0 0 i j)) ∧
    (∀ font start codes, Item.classAt rect (.text font start codes) u v = none) ∧
    (∀ x y : Int, Item.classAt rect (.cursor x y) u v = none) ∧
    (∀ rows, Item.classAt rect (.newline rows) u v = none) ∧
    ∀ (l : Latch) (x y : Int),
      (l.classAt x y u v = some .ink ↔
        ∃ i < l.columns.length, ∃ j < l.height, dotAt x y i j ∧ (l.columns.getD i 0).getLsbD j = true) ∧
      (l.classAt x y u v = some .ground ↔
        ∃ i < l.columns.length + l.spacing, ∃ j < l.height, dotAt x y i j ∧
          (i < l.columns.length → (l.columns.getD i 0).getLsbD j = false))

/-- The clipping test of a graphic item and of a glyph cell says whether some dot it would claim lies outside the
rectangle, and what it claims on the panel is what lies inside, its coordinates counted from the rectangle's corner. -/
def Obligations.ClippingTestFindsDotsOutside : Prop :=
  ∀ (rect : Rect),
    (∀ it : Item, it.fits = true →
      (it.isClipped rect = true ↔
        ∃ u v : Int, it.classAt rect u v ≠ none ∧ ¬(0 ≤ u ∧ u < rect.w ∧ 0 ≤ v ∧ v < rect.h)) ∧
      ∀ x y : Int, itemClaim rect it x y =
        if rect.x ≤ x ∧ x < rect.x + rect.w ∧ rect.y ≤ y ∧ y < rect.y + rect.h then
          it.classAt rect (x - rect.x) (y - rect.y) else none) ∧
    ∀ (l : Latch) (x y : Int),
      (1 ≤ l.columns.length → 1 ≤ l.height →
        (l.isClipped rect x y = true ↔
          ∃ u v : Int, l.classAt x y u v ≠ none ∧ ¬(0 ≤ u ∧ u < rect.w ∧ 0 ≤ v ∧ v < rect.h))) ∧
      ∀ a b : Int, cellClaim rect l x y a b =
        if rect.x ≤ a ∧ a < rect.x + rect.w ∧ rect.y ≤ b ∧ b < rect.y + rect.h then
          l.classAt x y (a - rect.x) (b - rect.y) else none

/-- The strips of a claim, an item's or a cell's, are those of the panel that hold a claimed dot, taken by columns in
increasing x and within a column by strip rows in increasing k. `firstStrip` gives the first of them, and `stripAfter` the
next after a strip, each none where there is none. -/
def Obligations.StripsAreTakenInOrder : Prop :=
  ∀ (columns stripRows : Nat) (c : Claim),
    let claimed (u : Strip) : Prop :=
      u.col < columns ∧ u.row < stripRows ∧ ∃ p < 16, c u.col (16 * u.row + p : Nat) ≠ none
    let lt (a b : Strip) : Prop := a.col < b.col ∨ (a.col = b.col ∧ a.row < b.row)
    (∀ u, firstStrip columns stripRows c = some u ↔ claimed u ∧ ∀ w, claimed w → w = u ∨ lt u w) ∧
    (firstStrip columns stripRows c = none ↔ ∀ u, ¬claimed u) ∧
    ∀ t, (∀ u, stripAfter columns stripRows c t = some u ↔
        claimed u ∧ lt t u ∧ ∀ w, claimed w → lt t w → w = u ∨ lt u w) ∧
      (stripAfter columns stripRows c t = none ↔ ∀ u, claimed u → ¬lt t u)

/-! ### The generator's events -/

/-- One strip of a graphic item or of a glyph cell is examined. With another strip to come, an empty operation is passed,
and one that is due is appended when the ring has room, committed to the image in the same event, counted, and empties a
sweep slot that names its strip with the pass-over count; the place moves on. With the ring full the strip becomes the
waiting strip and nothing else changes. A stalled generator makes the same examination, its masks formed afresh, when room
appears (`reexamine`). With no waiting strip room changes nothing. One examination is one event (log 6), the driver's take
comes after the generator's part (log 12, DEDUCED), and that the command changes nothing of a free or stalled generator, and
nothing in reset, is the model's choice (log 5). -/
def Obligations.ExaminationPassesAppendsOrStalls : Prop :=
  (∀ s : State, (s.gen.waiting = none → s.reexamine = s) ∧ (s.inReset = true → exec .stripExamination s = .next s) ∧
    (s.inReset = false → s.gen.current = none ∨ s.gen.waiting ≠ none →
      exec .stripExamination s = .next s.driverArbiter)) ∧
  ∀ (s : State) (pre : List Request) (r : Request) (post : List Request) (it : Item) (v : ItemValues) (t : Strip)
    (c : Claim) (next : Strip → Place),
    Working s pre r post it → s.gen.values = some v →
    ((r.progress.place = .strip t ∧ c = itemClaim v.rect it ∧ next = .strip) ∨
      ∃ i x y wrapped l, r.progress.place = .cell i x y wrapped t ∧ s.gen.latch = some l ∧ c = cellClaim v.rect l x y ∧
        next = .cell i x y wrapped) →
    let op := formOp c v.rule v.force s.dead s.image t
    let due := ¬(op.setMask = 0 ∧ op.clearMask = 0)
    let q := r.afterStrip op
    (due → 32 ≤ s.ring.length → ExaminedAs s t { s with gen := { s.gen with waiting := some t } }) ∧
    ∀ u, stripAfter s.settings.columns s.settings.stripRows c t = some u → (due → s.ring.length < 32) →
      ExaminedAs s t
        { stripDone s r.tag op with
          gen := { s.gen with waiting := none }
          queue :=
            { s.queue with requests := pre ++ { q with progress := ⟨r.progress.item, next u⟩ } :: post } }

/-- A glyph cell ends after its last strip, passed or appended: the viewport's cursor, as it then stands, takes the wrap,
if the text wrapped before the cell, and the advance of the latched width and spacing, neither coordinate past 32767; the
latch is emptied, and the next code's glyph start comes, or after the last code the TEXT item is finished. The model's: one
event (log 6), the driver's take after it (log 12, DEDUCED), and no item values after the item, its progress one past the
list after the last (log 20). -/
def Obligations.CellEndMovesTheCursor : Prop :=
  ∀ (s : State) (pre : List Request) (r : Request) (post : List Request) (font : Nat) (start : Option (Int × Int))
    (codes : List Nat) (v : ItemValues) (i : Nat) (x y : Int) (wrapped : Bool) (t : Strip) (l : Latch),
    Working s pre r post (.text font start codes) → s.gen.values = some v →
    r.progress.place = .cell i x y wrapped t → s.gen.latch = some l →
    stripAfter s.settings.columns s.settings.stripRows (cellClaim v.rect l x y) t = none →
    let op := formOp (cellClaim v.rect l x y) v.rule v.force s.dead s.image t
    (¬(op.setMask = 0 ∧ op.clearMask = 0) → s.ring.length < 32) →
    let vp := s.viewport r.viewport
    ExaminedAs s t (codeDone
      { stripDone s r.tag op with
        viewports := s.viewports.set r.viewport
          { vp with
            cx := min ((if wrapped then 0 else vp.cx) + (l.columns.length + l.spacing : Nat)) 32767
            cy := if wrapped then min (vp.cy + (l.height + l.lineGap : Nat)) 32767 else vp.cy } }
      pre (r.afterStrip op) post codes i)

/-- A graphic item is finished after its last strip, passed or appended: it is counted, and with another item to come the
progress moves to that item's start. After the last item generation of the request ends: with operations outstanding, the
one just appended among them, it becomes DRAINING, otherwise it leaves DONE with its COMPLETION report when it is a host
request; the generator is free and the arbiter chooses again (`itemFinished`). The model's: the driver takes the operation
just appended after that (log 12, DEDUCED), and the generator holds no item values after an item, whose progress stands one
past the list after the last (log 20). -/
def Obligations.GenerationEndsAfterTheLastItem : Prop :=
  ∀ (s : State) (pre : List Request) (r : Request) (post : List Request) (it : Item) (v : ItemValues) (t : Strip),
    Working s pre r post it → s.gen.values = some v → r.progress.place = .strip t →
    stripAfter s.settings.columns s.settings.stripRows (itemClaim v.rect it) t = none →
    let op := formOp (itemClaim v.rect it) v.rule v.force s.dead s.image t
    (¬(op.setMask = 0 ∧ op.clearMask = 0) → s.ring.length < 32) →
    ExaminedAs s t (itemFinished (stripDone s r.tag op) pre (r.afterStrip op) post)

/-- An item is started. It reads the viewport's rectangle, wrap and rule and the request's force in this event. A graphic
item makes its clipping test and its place becomes its first strip, or it is finished when it has no strip or its rule is
LEAVE/LEAVE; CURSOR and NEWLINE move the viewport's cursor and are finished; a TEXT item with its font undefined is
finished with the missing-glyph flag, and otherwise its start position replaces the cursor and its first glyph start
comes. To be finished is to be counted, with the next item's start or the end of generation after it (`itemFinished`).
The model's: one event (log 6), the driver's take after it (log 12, DEDUCED), and no item values after an item, its progress
one past the list after the last (log 20). -/
def Obligations.ItemStartsByItsKind : Prop :=
  ∀ (s : State) (pre : List Request) (r : Request) (post : List Request) (it : Item),
    Working s pre r post it → s.gen.waiting = none → s.inReset = false → r.progress.place = .itemStart →
    let vp := s.viewport r.viewport
    let rule := match r.rule with
      | .viewport => vp.rule
      | .explicit e => e
    let values : ItemValues := ⟨vp.rect, rule, vp.wrap, r.force⟩
    let cursorAt (x y : Int) : State :=
      { s with viewports := s.viewports.set r.viewport { vp with cx := x, cy := y } }
    let begun (st : State) (q : Request) (place : Place) : State :=
      { st with
        queue := { s.queue with requests := pre ++ { q with progress := ⟨r.progress.item, place⟩ } :: post }
        gen := { s.gen with values := some values } }
    exec .stripExamination s = .next (State.driverArbiter (match it with
      | .cursor x y => itemFinished (cursorAt x y) pre r post
      | .newline rows => itemFinished (cursorAt 0 (min (vp.cy + rows) 32767)) pre r post
      | .text font start _ =>
        if (s.store.font font).defined = true then
          begun (match start with
            | some (x, y) => cursorAt x y
            | none => s) r (.glyphStart 0)
        else itemFinished s pre { r with missingGlyph := true } post
      | .dot .. | .line .. | .box .. | .image .. | .clear =>
        let flagged := { r with clipped := r.clipped || it.isClipped vp.rect }
        match (if rule.ink = .leave ∧ rule.ground = .leave then none
          else firstStrip s.settings.columns s.settings.stripRows (itemClaim vp.rect it)) with
        | some t => begun s flagged (.strip t)
        | none => itemFinished s pre flagged post))

/-- A glyph start: a code with no glyph and no default is skipped with the missing-glyph flag; otherwise the chosen
glyph is latched with its font's height, spacing and line gap, it wraps before the cell by the three conditions of R80,
the clipped flag is set when the cell reaches outside the rectangle, and the first strip of the cell comes next. The
cursor is not written. Where a cell has no strip, or the rule is LEAVE/LEAVE, it ends at once and the cursor takes the wrap
and the advance. After a skip or an ended cell the next code comes, or the item is finished (`codeDone`). The model's: one event (log
6), the driver's take after it (log 12, DEDUCED), and no item values after the item, its progress one past the list after the
last (log 20). -/
def Obligations.GlyphStartChoosesWrapsAndLatches : Prop :=
  ∀ (s : State) (pre : List Request) (r : Request) (post : List Request) (font : Nat) (start : Option (Int × Int))
    (codes : List Nat) (v : ItemValues) (i : Nat),
    Working s pre r post (.text font start codes) → s.gen.values = some v → s.gen.waiting = none → s.inReset = false →
    r.progress.place = .glyphStart i →
    let record := s.store.font font
    let own := s.store.glyph font (codes.getD i 0)
    let chosen := own.or (if record.defined then record.defaultCode.bind fun d => s.store.glyph font d else none)
    let vp := s.viewport r.viewport
    exec .stripExamination s = .next (State.driverArbiter (match chosen with
      | none => codeDone s pre { r with missingGlyph := true } post codes i
      | some g =>
        let width := g.columns.length
        let wraps := v.wrap && decide (0 < vp.cx ∧ (v.rect.w : Int) < vp.cx + width)
        let x : Int := if wraps then 0 else vp.cx
        let y : Int := if wraps then vp.cy + (record.height + record.lineGap : Nat) else vp.cy
        let latch : Latch := ⟨g.columns, record.height, record.spacing, record.lineGap⟩
        let flagged := { r with clipped := r.clipped || latch.isClipped v.rect x y }
        match (if v.rule.ink = .leave ∧ v.rule.ground = .leave then none
          else firstStrip s.settings.columns s.settings.stripRows (cellClaim v.rect latch x y)) with
        | some t =>
          { s with
            queue :=
              { s.queue with
                requests := pre ++ { flagged with progress := ⟨r.progress.item, .cell i x y wraps t⟩ } :: post }
            gen := { s.gen with latch := some latch } }
        | none => codeDone
          { s with
            viewports := s.viewports.set r.viewport
              { vp with
                cx := min ((if wraps then 0 else vp.cx) + (width + record.spacing : Nat)) 32767
                cy := if wraps then min (vp.cy + (record.height + record.lineGap : Nat)) 32767 else vp.cy } }
          pre flagged post codes i))

/-! ### The driver and the charge budget -/

/-- The driver's arbiter, for an IDLE driver, by the table of R108: the ring head when the slot is empty, or while the
pass-over count is below 4, when the count rises by 1; the slot when the ring is empty or the count stands at 4, when
it returns to 0. A driver that is not IDLE, or has no source ready, takes nothing. `took` is what the take makes of the
state before the first phase is tried. The take of a ring head makes room, and a stalled generator examines its waiting
strip in the take's event (`ExaminationPassesAppendsOrStalls`); that it does so before the phase is tried is log 11
(DEDUCED). -/
def Obligations.DriverArbiterPassesOverAtMostFour : Prop :=
  ∀ s : State,
    let took (ring : List RingOp) (slot : Option StripOp) (source : HandSource) (op : StripOp) (count : Nat) : State :=
      { s with
        ring := ring
        sweep := { s.sweep with slot := slot }
        driver :=
          { s.driver with
            state := .waitCharge
            passOver := count
            hand := some ⟨source, op, if op.setMask = 0 then .clear else .set,
              if op.setMask = 0 then .notRun else .notBegun, if op.clearMask = 0 then .notRun else .notBegun⟩ } }
    (s.driver.state ≠ .idle ∨ (s.ring = [] ∧ s.sweep.slot = none) → s.driverArbiter = s) ∧
    (s.driver.state = .idle →
      (∀ o rest, s.ring = o :: rest → s.sweep.slot = none →
        let taken := took rest none (.ring o.tag) o.op s.driver.passOver
        s.driverArbiter = (if s.gen.waiting = none then taken else taken.reexamine).tryPhase) ∧
      (∀ o rest w, s.ring = o :: rest → s.sweep.slot = some w → s.driver.passOver < 4 →
        let taken := took rest (some w) (.ring o.tag) o.op (s.driver.passOver + 1)
        s.driverArbiter = (if s.gen.waiting = none then taken else taken.reexamine).tryPhase) ∧
      (∀ w, s.sweep.slot = some w → (s.ring = [] ∨ 4 ≤ s.driver.passOver) →
        s.driverArbiter = (took s.ring none .sweep w 0).tryPhase))

/-- A recharge step raises the level by 1 up to 64 in every driver state, reads the recharge period for the step after
it, and lets a phase that waits in WAIT_CHARGE try its start; in reset there is none. A phase starts exactly when the
level meets the number of dots in its mask and no quiet scan is pending or running: the level falls by that number,
pulse length and gap are latched, the phase is pulsing, and the scan in progress sees the pulse; otherwise the driver
waits in WAIT_CHARGE. The started phase drives the coil lines: its strip is selected, DSET alone enabled in a set phase and
DCLR alone in a clear phase, and the positions of its mask driven; in every other state, and in reset, they are released.
With the overcurrent input already high (a level that the model keeps, log 2) the pulse ends in the
start's event by the overcurrent rule, the charge spent: what the start comes to is what OVERCURRENT makes of the started
pulse (`OvercurrentHoldsTheDriver`). -/
def Obligations.RechargeStepsAndPhaseStarts : Prop :=
  ∀ s : State,
    let charged : State := { s with charge := ⟨if s.charge.level < 64 then s.charge.level + 1 else 64,
      s.settings.rechargePeriod⟩ }
    (s.inReset = false → s.driver.state ≠ .waitCharge → exec .rechargeStep s = .next charged) ∧
    (s.inReset = false → s.driver.state = .waitCharge → exec .rechargeStep s = .next charged.tryPhase) ∧
    (s.inReset = true → exec .rechargeStep s = .next s) ∧
    (s.inReset = true ∨ s.driver.state ≠ .pulse → s.coilLines = ⟨none, false, false, 0⟩) ∧
    ∀ h : Hand, s.driver.hand = some h →
      let mask := match h.phase with
        | .set => h.op.setMask
        | .clear => h.op.clearMask
      let need := ((List.range 16).filter fun p => mask.getLsbD p).length
      let quiet := match s.touch.scanner with
        | .quietWait | .quiet _ => true
        | .off | .scanning _ => false
      let started : State :=
        { s with
          charge := { s.charge with level := s.charge.level - need }
          driver :=
            { s.driver with
              state := .pulse
              pulseLength := some s.settings.pulseLength
              phaseGap := some s.settings.phaseGap
              hand := some (match h.phase with
                | .set => { h with setStatus := .pulsing }
                | .clear => { h with clearStatus := .pulsing }) }
          touch :=
            { s.touch with
              scanner := match s.touch.scanner with
                | .scanning sc => .scanning ⟨sc.period, true⟩
                | other => other } }
      (s.inReset = false → started.coilLines = match h.phase with
        | .set => ⟨some h.op.strip, true, false, h.op.setMask⟩
        | .clear => ⟨some h.op.strip, false, true, h.op.clearMask⟩) ∧
      (¬(need ≤ s.charge.level ∧ quiet = false) →
        s.tryPhase = { s with driver := { s.driver with state := .waitCharge } }) ∧
      (need ≤ s.charge.level → quiet = false →
        (s.ocin = false → s.tryPhase = started) ∧
        (s.ocin = true → s.inReset = false → exec (.overcurrent true) started = .next s.tryPhase))

/-- A pulse that runs its full length: the phase is completed and the driver enters GAP, the lines are released, a quiet
scan that waited for the pulse starts, and the sense result is handled before the gap begins: each position of the phase's
mask whose coil drew no current is a dot found dead, one after another in increasing position, with source REQUEST for a
ring operation and SWEEP for a sweep operation (`DeadDotIsRecordedAndStruck`). With every coil drawing current nothing more
changes. With a latched gap of 0 the gap ends in the same event. A pulse end without a pulse does nothing (log 5). -/
def Obligations.PulseEndsInGap : Prop :=
  ∀ (s : State) (sense : Mask),
    (∀ h gap, s.inReset = false → s.driver.state = .pulse → s.driver.hand = some h → s.driver.phaseGap = some gap →
      let mask := match h.phase with
        | .set => h.op.setMask
        | .clear => h.op.clearMask
      let source : SenseSource := match h.source with
        | .ring _ => .request
        | .sweep => .sweep
      let ended : State :=
        { s with
          driver :=
            { s.driver with
              state := .gap
              hand := some (match h.phase with
                | .set => { h with setStatus := .completed }
                | .clear => { h with clearStatus := .completed }) }
          touch :=
            { s.touch with
              scanner := match s.touch.scanner with
                | .quietWait => .quiet ⟨s.settings.scanPeriod, false⟩
                | other => other } }
      let sensed := ((List.range 16).filter fun p => mask.getLsbD p && !sense.getLsbD p).foldl
        (fun u p => u.foundDead h.op.strip source p) ended
      ended.coilLines = ⟨none, false, false, 0⟩ ∧ sensed.coilLines = ⟨none, false, false, 0⟩ ∧
        ((∀ p < 16, mask.getLsbD p = true → sense.getLsbD p = true) → sensed = ended) ∧
        exec (.pulseEnd sense) s = if gap = 0 then exec .gapEnd sensed else .next sensed) ∧
    (s.inReset = true ∨ s.driver.state ≠ .pulse → exec (.pulseEnd sense) s = .next s)

/-- A dot found dead, with fewer than 24 entries: it is recorded at the newest end, UNKNOWN, reported with recorded = yes
and struck. Every ring operation that names it loses it, one left empty is removed, and the requests of those that lose it
are flagged. Then, after the DOT report, the request of each operation removed is settled, in ring order, once for each of
them: its outstanding count falls by 1, and a DRAINING one that comes to 0 leaves with its report
(`GapEndsInClearPhaseOrCompletion` says what to settle is). When an operation was removed, a stalled generator examines its
waiting strip again, last (the place of these two within the event is log 10, DEDUCED). With the table full the dot is
UNKNOWN and reported with recorded = no, and the ring keeps it. Either way no other dot's value is lost. -/
def Obligations.DeadDotIsRecordedAndStruck : Prop :=
  ∀ (s : State) (t : Strip) (source : SenseSource) (p : Nat), p < 16 → ImageSound s.image →
    let y := 16 * t.row + p
    let names (o : RingOp) : Prop := o.op.strip = t ∧ (o.op.setMask ||| o.op.clearMask).getLsbD p = true
    let cut (o : RingOp) : StripOp :=
      ⟨o.op.strip, o.op.setMask &&& ~~~(1#16 <<< p), o.op.clearMask &&& ~~~(1#16 <<< p)⟩
    let emptied (o : RingOp) : Prop := names o ∧ (cut o).setMask = 0 ∧ (cut o).clearMask = 0
    let image := loseDots s.image t (1#16 <<< p)
    let struck : State :=
      { s with
        image := image
        dead := s.dead ++ [⟨t.col, y, source⟩]
        reports := s.reports.offer (.dot t.col y source true)
        ring := s.ring.filterMap fun o => if emptied o then none else some (if names o then ⟨o.tag, cut o⟩ else o)
        queue :=
          { s.queue with
            requests := s.queue.requests.map fun r =>
              { r with dotsStruck := r.dotsStruck || decide (∃ o ∈ s.ring, names o ∧ o.tag = r.tag) } } }
    let settled := (s.ring.filter fun o => emptied o).foldl (fun u o => u.settleOne o.tag) struck
    (∀ x' y', imageDot image x' y' = if x' = t.col ∧ y' = y then .unknown else imageDot s.image x' y') ∧
    (∀ o ∈ struck.ring, ¬names o) ∧
    (s.dead.length < 24 →
      s.foundDead t source p = if ∃ o ∈ s.ring, emptied o then settled.reexamine else struck) ∧
    (24 ≤ s.dead.length →
      s.foundDead t source p =
        { s with image := image, reports := s.reports.offer (.dot t.col y source false) })

/-- A gap ends: a clear phase not begun becomes the phase in hand and tries its start; otherwise the operation
completes, leaves the hand, settles its request when it carries a tag, and the arbiter of the IDLE driver chooses in the
same event. To settle is to lower the outstanding count by 1; a DRAINING request that comes to 0 leaves, CANCELLED when
its cancel mark is set and DONE otherwise, a host request with its COMPLETION report; any other request stays. A gap end
without a gap does nothing (log 5). -/
def Obligations.GapEndsInClearPhaseOrCompletion : Prop :=
  ∀ s : State,
    (∀ h, s.inReset = false → s.driver.state = .gap → s.driver.hand = some h →
      let free : State := { s with driver := { s.driver with state := .idle, hand := none } }
      exec .gapEnd s = .next (
        if h.clearStatus = .notBegun then
          State.tryPhase { s with driver := { s.driver with hand := some { h with phase := .clear } } }
        else match h.source with
          | .ring tag => (free.settleOne tag).driverArbiter
          | .sweep => free.driverArbiter)) ∧
    (s.inReset = true ∨ s.driver.state ≠ .gap → exec .gapEnd s = .next s) ∧
    ∀ (pre : List Request) (r : Request) (post : List Request), s.queue.requests = pre ++ r :: post →
      (s.queue.requests.map (·.tag)).Nodup →
      s.settleOne r.tag =
        if r.state = .draining ∧ r.outstanding ≤ 1 then
          { s with
            queue := { s.queue with requests := pre ++ post }
            reports :=
              if r.origin = .host then s.reports.offer (.completion r.tag (if r.cancelMark then .cancelled else .done)
                r.generated r.itemsDone r.clipped r.missingGlyph r.dotsStruck) else s.reports }
        else
          { s with
            queue := { s.queue with requests := pre ++ { r with outstanding := r.outstanding - 1 } :: post } }

/-- An overcurrent during a pulse makes the driver enter HELD in one event: the lost dots of the hand (R6) and every dot
a ring operation names become UNKNOWN and no other dot changes; hand, ring and slot are empty, the pass-over count 0,
the generator free, only the QUEUED requests are left in their order, the COMPLETION reports of the failed host
requests are offered oldest first and the DRIVER report after them, a quiet scan that waited for the pulse starts with the
scan period (R143), and charge, beams, counts, contact and all else are kept. Outside PULSE the input is not acted on. The
level that the input is left at, the command's operand, is the model's choice (log 2), and so is that the free generator
holds no item values (log 20) and that the latched pulse length and gap are kept (log 17). -/
def Obligations.OvercurrentHoldsTheDriver : Prop :=
  ∀ (s : State) (level : Bool),
    (s.inReset = true ∨ s.driver.state ≠ .pulse → exec (.overcurrent level) s = .next { s with ocin := level }) ∧
    ∀ h, s.inReset = false → s.driver.state = .pulse → s.driver.hand = some h → ImageSound s.image →
      (s.queue.requests.map (·.tag)).Nodup →
      ∃ t, exec (.overcurrent level) s = .next t ∧ t.ocin = level ∧
        t.driver = { s.driver with state := .held, hand := none, passOver := 0 } ∧ t.ring = [] ∧ t.sweep = { s.sweep with slot := none } ∧
        t.gen = ⟨none, none, none, none⟩ ∧ t.coilLines = ⟨none, false, false, 0⟩ ∧
        t.queue = { s.queue with requests := s.queue.requests.filter fun r => r.state == .queued } ∧
        t.reports = ((s.queue.requests.filter fun r => r.state != .queued && r.origin == .host).foldl
          (fun q r => q.offer
            (.completion r.tag .failed r.generated r.itemsDone r.clipped r.missingGlyph r.dotsStruck))
          s.reports).offer (.driver h.op.strip h.phase) ∧
        (∀ x y, ((h.op.strip = ⟨x, y / 16⟩ ∧ lostDots h (y % 16)) ∨
            (∃ o ∈ s.ring, o.op.strip = ⟨x, y / 16⟩ ∧ (o.op.setMask ||| o.op.clearMask).getLsbD (y % 16) = true) →
            imageDot t.image x y = .unknown) ∧
          (¬(h.op.strip = ⟨x, y / 16⟩ ∧ lostDots h (y % 16)) →
            (∀ o ∈ s.ring, ¬(o.op.strip = ⟨x, y / 16⟩ ∧
              (o.op.setMask ||| o.op.clearMask).getLsbD (y % 16) = true)) →
            imageDot t.image x y = imageDot s.image x y)) ∧
        t.charge = s.charge ∧ t.settings = s.settings ∧ t.dead = s.dead ∧ t.viewports = s.viewports ∧
        t.store = s.store ∧ t.zones = s.zones ∧ t.link = s.link ∧
        t.touch =
          { s.touch with
            scanner := match s.touch.scanner with
              | .quietWait => .quiet ⟨s.settings.scanPeriod, false⟩
              | other => other } ∧
        t.inReset = false ∧ t.pending = s.pending

/-! ### The sweep -/

/-- A sweep expiry. With the interval at 0 it does nothing but stop the timer; with the driver HELD or the slot full it
only sets the next expiry; otherwise it examines every strip once from the cursor in sweep order, coming round, and the
first that no operation names and that holds a known dot fills the slot with a copy of the image, the cursor moving to
the strip after it; the image is not changed. A stopped timer has no expiry: that the command then
changes nothing is the model's choice (log 5). -/
def Obligations.SweepExpiryFillsTheNextKnownStrip : Prop :=
  ∀ s : State, s.inReset = false →
    let timed : State := { s with sweep := { s.sweep with timer := some s.settings.sweepInterval } }
    let named (t : Strip) : Prop := (∃ o ∈ s.ring, o.op.strip = t) ∨ ∃ h, s.driver.hand = some h ∧ h.op.strip = t
    let known (t : Strip) : Prop :=
      ∃ p < 16, imageDot s.image t.col (16 * t.row + p) ≠ .unknown ∧
        ∀ d ∈ s.dead, ¬(d.x = t.col ∧ d.y = 16 * t.row + p)
    let order := (List.range (s.settings.columns * s.settings.stripRows)).map fun i =>
      let j := (s.sweep.cursor.col * s.settings.stripRows + s.sweep.cursor.row + i) %
        (s.settings.columns * s.settings.stripRows)
      (⟨j / s.settings.stripRows, j % s.settings.stripRows⟩ : Strip)
    (s.sweep.timer = none → exec .sweepExpiry s = .next s) ∧
    (s.sweep.timer ≠ none → s.settings.sweepInterval = 0 →
      exec .sweepExpiry s = .next { s with sweep := { s.sweep with timer := none } }) ∧
    (s.sweep.timer ≠ none → s.settings.sweepInterval ≠ 0 →
      (s.driver.state = .held ∨ s.sweep.slot ≠ none → exec .sweepExpiry s = .next timed) ∧
      (s.driver.state ≠ .held → s.sweep.slot = none → s.sweep.cursor.col < s.settings.columns →
        s.sweep.cursor.row < s.settings.stripRows →
        ((∀ t ∈ order, named t ∨ ¬known t) → exec .sweepExpiry s = .next timed) ∧
        ∀ skipped t rest, order = skipped ++ t :: rest → (∀ u ∈ skipped, named u ∨ ¬known u) → ¬named t → known t →
          exec .sweepExpiry s = .next (State.driverArbiter
            { timed with
              sweep :=
                { timed.sweep with
                  slot := some ⟨t, (imageGet s.image t).on, (imageGet s.image t).off⟩
                  cursor := if t.row + 1 < s.settings.stripRows then ⟨t.col, t.row + 1⟩
                    else if t.col + 1 < s.settings.columns then ⟨t.col + 1, 0⟩ else ⟨0, 0⟩ } })))

/-! ### Touch -/

/-- The end of a scan. A scan that saw a pulse is discarded whole: only the count of voided scans rises, and at 8 quiet
pending is set, the quiet scan starting at once or, with a pulse in progress, when the pulse is over. The end of a
quiet scan clears quiet pending and lets a phase that waits try its start in the same event. With the scanner OFF or
waiting there is no scan, and that the command then changes nothing is the model's choice (log 5); no emitter is lit then,
and in a running scan every x beam and then every y beam (the moment each is lit, and the level that names an axis, are log
18). -/
def Obligations.VoidedScansDemandAQuietScan : Prop :=
  ∀ (s : State) (xb : BitVec 48) (yb : BitVec 24), s.inReset = false →
    let count := min (s.touch.voided + 1) 8
    (∀ period, s.touch.scanner = .scanning ⟨period, true⟩ →
      exec (.scanEnd xb yb) s = .next
        { s with
          touch :=
            { s.touch with
              voided := count
              scanner :=
                if count < 8 then .scanning ⟨s.settings.scanPeriod, decide (s.driver.state = .pulse)⟩
                else if s.driver.state = .pulse then .quietWait
                else .quiet ⟨s.settings.scanPeriod, false⟩ } }) ∧
    (s.touch.scanner = .off ∨ s.touch.scanner = .quietWait → exec (.scanEnd xb yb) s = .next s) ∧
    (∀ sc, s.touch.scanner = .quiet sc →
      ∃ t, exec (.scanEnd xb yb) s = .next (if t.driver.state = .waitCharge then t.tryPhase else t) ∧
        t.quietPending = false ∧ t.touch.voided = 0 ∧ t.driver = s.driver ∧ t.charge = s.charge ∧
        t.image = s.image ∧ t.ring = s.ring) ∧
    s.emitterOrder = match s.touch.scanner with
      | .off | .quietWait => []
      | .scanning _ | .quiet _ => (List.range (s.settings.xBeams + s.settings.yBeams)).map fun i =>
        if i < s.settings.xBeams then ⟨.x, BitVec.ofNat 7 i⟩ else ⟨.y, BitVec.ofNat 7 (i - s.settings.xBeams)⟩

/-- A scan that is not voided, an ordinary one or a quiet one, ends in the order of R141. Each beam of the frame counts the
scans in a row in which it was broken, up to 5000; it joins the blocked set with a BLOCKED report when its count is at
least the blocked limit, and leaves it with a CLEAR report when it was not broken; the reports are offered x axis first, in
beam order. Then the outcome is formed from the broken beams that are not blocked (`ScanOutcomesFollowTheRuns`), and the
contact moves by it (`ContactMovesByTheScanOutcome`). Last, the next scan starts; after a quiet scan the driver's block is
lifted and a phase that waits tries its start. -/
def Obligations.BeamsAreBlockedAndCleared : Prop :=
  ∀ (s : State) (xb : BitVec 48) (yb : BitVec 24), s.inReset = false →
    let c := s.settings
    let stepped (b : Beam) (broken : Bool) : Beam :=
      let n := if broken then min (b.broken + 1) 5000 else 0
      ⟨n, if b.blocked then broken else decide (c.blockedLimit ≤ n)⟩
    let report (axis : Axis) (b : Beam) (broken : Bool) (i : Nat) (q : ReportQueue) : ReportQueue :=
      if b.blocked = (stepped b broken).blocked then q else q.offer (.beam axis i (stepped b broken).blocked)
    let xs := s.touch.xBeams.mapIdx fun i b => if i < c.xBeams then stepped b (xb.getLsbD i) else b
    let ys := s.touch.yBeams.mapIdx fun i b => if i < c.yBeams then stepped b (yb.getLsbD i) else b
    let beamed : State :=
      { s with
        touch := { s.touch with xBeams := xs, yBeams := ys, voided := 0 }
        reports := (List.range c.yBeams).foldl
          (fun q i => report .y (s.touch.yBeams.getD i .clear) (yb.getLsbD i) i q)
          ((List.range c.xBeams).foldl
            (fun q i => report .x (s.touch.xBeams.getD i .clear) (xb.getLsbD i) i q) s.reports) }
    let moved := beamed.contactStep
      (outcomeOf c (axisRuns c.xBeams xs xb.getLsbD) (axisRuns c.yBeams ys yb.getLsbD))
    let next : State :=
      { moved with
        touch := { moved.touch with scanner := .scanning ⟨c.scanPeriod, decide (s.driver.state = .pulse)⟩ } }
    (∀ period, s.touch.scanner = .scanning ⟨period, false⟩ → exec (.scanEnd xb yb) s = .next next) ∧
    (∀ sc, s.touch.scanner = .quiet sc →
      exec (.scanEnd xb yb) s = .next (if s.driver.state = .waitCharge then next.tryPhase else next))

/-- The outcome of a scan that is not voided. The runs of an axis are the maximal sets of consecutive beams that were broken
and are not blocked, in increasing number, each given by its first and last beam. More than one run on either axis is
MULTIPLE; none on both, CLEAR; one on one axis alone, PARTIAL; and one on each, SINGLE at the floor of half the sum of the
centres of each run's first and last beams, beam i of an axis having its centre at origin + i times pitch. -/
def Obligations.ScanOutcomesFollowTheRuns : Prop :=
  (∀ (number : Nat) (beams : List Beam) (broken : Nat → Bool),
    let hit (i : Nat) : Prop := i < number ∧ broken i = true ∧ (beams.getD i .clear).blocked = false
    let runs := axisRuns number beams broken
    runs.Pairwise (fun a b => a.2 < b.1) ∧
    ∀ a b : Nat, (a, b) ∈ runs ↔
      a ≤ b ∧ (∀ i, a ≤ i → i ≤ b → hit i) ∧ ¬hit (b + 1) ∧ (a = 0 ∨ ¬hit (a - 1))) ∧
  ∀ (c : Settings) (xs ys : List (Nat × Nat)),
    (1 < xs.length ∨ 1 < ys.length → outcomeOf c xs ys = .multiple) ∧
    (xs = [] → ys = [] → outcomeOf c xs ys = .clear) ∧
    (∀ r, (xs = [r] ∧ ys = []) ∨ (xs = [] ∧ ys = [r]) → outcomeOf c xs ys = .part) ∧
    ∀ a b a' b', xs = [(a, b)] → ys = [(a', b')] → outcomeOf c xs ys =
      .single ((c.xOrigin + a * c.xPitch + (c.xOrigin + b * c.xPitch)) / 2)
        ((c.yOrigin + a' * c.yPitch + (c.yOrigin + b' * c.yPitch)) / 2)

/-- A press makes the contact: it takes the contact counter as its number, the lowest-numbered defined zone that holds
the position is captured with its rectangle and echo mode, an echo joins when the captured mode, the driver and the echo
pool allow it, as one INVERT/LEAVE box over the captured rectangle in viewport 0, and a PRESS report tells so. A contact
ends with a RELEASE at its reported position; a release echo that is due joins unless the driver is HELD, and the report
tells so; the contact state is NONE and the coalescing reference cleared. The
tag counter's place after an echo joins is log 15 (DEDUCED). -/
def Obligations.PressAndReleaseEchoTheCapturedZone : Prop :=
  ∀ s : State,
    let box (r : Rect) : Request :=
      ⟨s.nextTag, .echo, 0, .explicit ⟨.invert, .leave⟩, false, [.box r.x r.y r.w r.h .filled], .queued,
        ⟨0, .itemStart⟩, 0, 0, 0, false, false, false, false⟩
    let echoed (r : Rect) (st : State) : State := State.generatorArbiter
      { st with queue := ⟨s.queue.requests ++ [box r], nextNumber s.nextTag⟩ }
    let n := s.touch.contactCounter
    let made (x y zone : Nat) (captured : Option Rect) (mode : EchoMode) (due : Bool) : State :=
      { s with
        touch :=
          { s.touch with
            contactCounter := (n + 1) % 256
            contact := .down ⟨n, x, y, 0, zone, captured, mode, due⟩ } }
    let ended (st : State) (d : Contact) (inside echo : Bool) : State :=
      { st with
        reports := { s.reports.offer (.release d.number d.x d.y d.zone inside echo) with coalesce := none }
        touch := { s.touch with contact := .none } }
    (∀ (x y : Nat) (pre : List Zone) (z : Zone) (post : List Zone), s.zones = pre ++ z :: post →
      (∀ w ∈ pre, ¬(w.defined = true ∧ w.rect.holds x y = true)) → z.defined = true → z.rect.holds x y = true →
      let pool := (s.pool .echo).length
      let echo := decide (s.driver.state ≠ .held ∧ ((z.echo = .press ∧ pool < 2) ∨ (z.echo = .hold ∧ pool = 0)))
      let contact := made x y (pre.length + 1) (some z.rect) z.echo (echo && z.echo == .hold)
      s.press x y = (if echo then echoed z.rect contact else contact).offer (.press n x y (pre.length + 1) echo)) ∧
    (∀ x y : Nat, (∀ z ∈ s.zones, ¬(z.defined = true ∧ z.rect.holds x y = true)) →
      s.press x y = (made x y 0 none .none false).offer (.press n x y 0 false)) ∧
    (∀ (d : Contact) (r : Rect), d.captured = some r → (d.releaseEchoDue = true → (s.pool .echo).length < 2) →
      let echo := decide (d.releaseEchoDue = true ∧ s.driver.state ≠ .held)
      s.release d = ended (if echo then echoed r s else s) d (r.holds d.x d.y) echo) ∧
    ∀ d : Contact, d.captured = none → d.releaseEchoDue = false → s.release d = ended s d false false

/-- The contact at the end of a scan that is not voided, by the tables of R136 to R138, with `press`, `release` and the
MOVE report as their own rules have them: what a SINGLE, a CLEAR and any other outcome do in each contact state. -/
def Obligations.ContactMovesByTheScanOutcome : Prop :=
  ∀ (s : State) (o : ScanOutcome),
    let c := s.settings
    let goes (k : ContactState) : State := { s with touch := { s.touch with contact := k } }
    let counted (d : Contact) : Contact := { d with sinceReport := min (d.sinceReport + 1) 50 }
    let far (t a b : Nat) : Prop := a + t ≤ b ∨ b + t ≤ a
    let moved (d : Contact) (x y : Nat) : State :=
      let d := counted d
      if (far c.moveThreshold x d.x ∨ far c.moveThreshold y d.y) ∧ c.moveInterval ≤ d.sinceReport then
        State.offer (goes (.down { d with x := x, y := y, sinceReport := 0 }))
          (.move d.number x y d.zone (match d.captured with
            | some r => r.holds x y
            | none => false))
      else goes (.down d)
    let pressed (x y n : Nat) : State := if c.pressConfirm ≤ min n 8 then s.press x y else goes (.arming x y (min n 8))
    let released (d : Contact) (n : Nat) : State :=
      if c.releaseConfirm ≤ min n 8 then s.release (counted d) else goes (.releasing (counted d) (min n 8))
    s.contactStep o = match s.touch.contact, o with
      | .none, .single x y => pressed x y 1
      | .none, _ => s
      | .arming .., .clear => goes .none
      | .arming x0 y0 n, .single x y =>
        if ¬far (c.moveThreshold + 1) x x0 ∧ ¬far (c.moveThreshold + 1) y y0 then pressed x0 y0 (n + 1)
        else pressed x y 1
      | .arming .., _ => s
      | .down d, .clear => released d 1
      | .down d, .single x y => moved d x y
      | .down d, _ => goes (.down (counted d))
      | .releasing d n, .clear => released d (n + 1)
      | .releasing d _, .single x y => moved d x y
      | .releasing d n, _ => goes (.releasing (counted d) n)
end

