-- ==== Sys2Proof/Laws/State.lean ====
section
/-!
SUPPORT. One lemma per field for each named update of the unit, so that no later proof unfolds a record update.
-/

namespace Sys2Proof.Machine

variable (s : State)

/-! `State.setRx`. -/

@[simp] theorem State.setRx_inReset (rx : Receiver) : (s.setRx rx).inReset = s.inReset := rfl
@[simp] theorem State.setRx_ocin (rx : Receiver) : (s.setRx rx).ocin = s.ocin := rfl
@[simp] theorem State.setRx_settings (rx : Receiver) : (s.setRx rx).settings = s.settings := rfl
@[simp] theorem State.setRx_link (rx : Receiver) : (s.setRx rx).link = { s.link with rx := rx } := rfl
@[simp] theorem State.setRx_image (rx : Receiver) : (s.setRx rx).image = s.image := rfl
@[simp] theorem State.setRx_dead (rx : Receiver) : (s.setRx rx).dead = s.dead := rfl
@[simp] theorem State.setRx_queue (rx : Receiver) : (s.setRx rx).queue = s.queue := rfl
@[simp] theorem State.setRx_viewports (rx : Receiver) : (s.setRx rx).viewports = s.viewports := rfl
@[simp] theorem State.setRx_store (rx : Receiver) : (s.setRx rx).store = s.store := rfl
@[simp] theorem State.setRx_gen (rx : Receiver) : (s.setRx rx).gen = s.gen := rfl
@[simp] theorem State.setRx_ring (rx : Receiver) : (s.setRx rx).ring = s.ring := rfl
@[simp] theorem State.setRx_driver (rx : Receiver) : (s.setRx rx).driver = s.driver := rfl
@[simp] theorem State.setRx_charge (rx : Receiver) : (s.setRx rx).charge = s.charge := rfl
@[simp] theorem State.setRx_sweep (rx : Receiver) : (s.setRx rx).sweep = s.sweep := rfl
@[simp] theorem State.setRx_touch (rx : Receiver) : (s.setRx rx).touch = s.touch := rfl
@[simp] theorem State.setRx_zones (rx : Receiver) : (s.setRx rx).zones = s.zones := rfl
@[simp] theorem State.setRx_reports (rx : Receiver) : (s.setRx rx).reports = s.reports := rfl
@[simp] theorem State.setRx_pending (rx : Receiver) : (s.setRx rx).pending = s.pending := rfl

/-! `State.answer`. -/

@[simp] theorem State.answer_inReset (b : List Byte) (r : Bool) : (s.answer b r).inReset = s.inReset := rfl
@[simp] theorem State.answer_ocin (b : List Byte) (r : Bool) : (s.answer b r).ocin = s.ocin := rfl
@[simp] theorem State.answer_settings (b : List Byte) (r : Bool) : (s.answer b r).settings = s.settings := rfl
@[simp] theorem State.answer_link (b : List Byte) (r : Bool) :
    (s.answer b r).link = { s.link with tx := .turnaround b r } :=
  rfl
@[simp] theorem State.answer_image (b : List Byte) (r : Bool) : (s.answer b r).image = s.image := rfl
@[simp] theorem State.answer_dead (b : List Byte) (r : Bool) : (s.answer b r).dead = s.dead := rfl
@[simp] theorem State.answer_queue (b : List Byte) (r : Bool) : (s.answer b r).queue = s.queue := rfl
@[simp] theorem State.answer_viewports (b : List Byte) (r : Bool) : (s.answer b r).viewports = s.viewports := rfl
@[simp] theorem State.answer_store (b : List Byte) (r : Bool) : (s.answer b r).store = s.store := rfl
@[simp] theorem State.answer_gen (b : List Byte) (r : Bool) : (s.answer b r).gen = s.gen := rfl
@[simp] theorem State.answer_ring (b : List Byte) (r : Bool) : (s.answer b r).ring = s.ring := rfl
@[simp] theorem State.answer_driver (b : List Byte) (r : Bool) : (s.answer b r).driver = s.driver := rfl
@[simp] theorem State.answer_charge (b : List Byte) (r : Bool) : (s.answer b r).charge = s.charge := rfl
@[simp] theorem State.answer_sweep (b : List Byte) (r : Bool) : (s.answer b r).sweep = s.sweep := rfl
@[simp] theorem State.answer_touch (b : List Byte) (r : Bool) : (s.answer b r).touch = s.touch := rfl
@[simp] theorem State.answer_zones (b : List Byte) (r : Bool) : (s.answer b r).zones = s.zones := rfl
@[simp] theorem State.answer_reports (b : List Byte) (r : Bool) : (s.answer b r).reports = s.reports := rfl
@[simp] theorem State.answer_pending (b : List Byte) (r : Bool) : (s.answer b r).pending = s.pending := rfl

/-! `State.replied`. -/

@[simp] theorem State.replied_inReset (own : Nat) (q k : Byte) (r : Reply) :
    (s.replied own q k r).inReset = s.inReset :=
  rfl
@[simp] theorem State.replied_ocin (own : Nat) (q k : Byte) (r : Reply) : (s.replied own q k r).ocin = s.ocin := rfl
@[simp] theorem State.replied_settings (own : Nat) (q k : Byte) (r : Reply) :
    (s.replied own q k r).settings = s.settings :=
  rfl
@[simp] theorem State.replied_link (own : Nat) (q k : Byte) (r : Reply) :
    (s.replied own q k r).link = s.link.replied own q k r false :=
  rfl
@[simp] theorem State.replied_image (own : Nat) (q k : Byte) (r : Reply) :
    (s.replied own q k r).image = s.image :=
  rfl
@[simp] theorem State.replied_dead (own : Nat) (q k : Byte) (r : Reply) : (s.replied own q k r).dead = s.dead := rfl
@[simp] theorem State.replied_queue (own : Nat) (q k : Byte) (r : Reply) :
    (s.replied own q k r).queue = s.queue :=
  rfl
@[simp] theorem State.replied_viewports (own : Nat) (q k : Byte) (r : Reply) :
    (s.replied own q k r).viewports = s.viewports :=
  rfl
@[simp] theorem State.replied_store (own : Nat) (q k : Byte) (r : Reply) :
    (s.replied own q k r).store = s.store :=
  rfl
@[simp] theorem State.replied_gen (own : Nat) (q k : Byte) (r : Reply) : (s.replied own q k r).gen = s.gen := rfl
@[simp] theorem State.replied_ring (own : Nat) (q k : Byte) (r : Reply) : (s.replied own q k r).ring = s.ring := rfl
@[simp] theorem State.replied_driver (own : Nat) (q k : Byte) (r : Reply) :
    (s.replied own q k r).driver = s.driver :=
  rfl
@[simp] theorem State.replied_charge (own : Nat) (q k : Byte) (r : Reply) :
    (s.replied own q k r).charge = s.charge :=
  rfl
@[simp] theorem State.replied_sweep (own : Nat) (q k : Byte) (r : Reply) :
    (s.replied own q k r).sweep = s.sweep :=
  rfl
@[simp] theorem State.replied_touch (own : Nat) (q k : Byte) (r : Reply) :
    (s.replied own q k r).touch = s.touch :=
  rfl
@[simp] theorem State.replied_zones (own : Nat) (q k : Byte) (r : Reply) :
    (s.replied own q k r).zones = s.zones :=
  rfl
@[simp] theorem State.replied_reports (own : Nat) (q k : Byte) (r : Reply) :
    (s.replied own q k r).reports = s.reports :=
  rfl
@[simp] theorem State.replied_pending (own : Nat) (q k : Byte) (r : Reply) :
    (s.replied own q k r).pending = s.pending :=
  rfl

/-! `State.offer`. -/

@[simp] theorem State.offer_inReset (r : Report) : (s.offer r).inReset = s.inReset := rfl
@[simp] theorem State.offer_ocin (r : Report) : (s.offer r).ocin = s.ocin := rfl
@[simp] theorem State.offer_settings (r : Report) : (s.offer r).settings = s.settings := rfl
@[simp] theorem State.offer_link (r : Report) : (s.offer r).link = s.link := rfl
@[simp] theorem State.offer_image (r : Report) : (s.offer r).image = s.image := rfl
@[simp] theorem State.offer_dead (r : Report) : (s.offer r).dead = s.dead := rfl
@[simp] theorem State.offer_queue (r : Report) : (s.offer r).queue = s.queue := rfl
@[simp] theorem State.offer_viewports (r : Report) : (s.offer r).viewports = s.viewports := rfl
@[simp] theorem State.offer_store (r : Report) : (s.offer r).store = s.store := rfl
@[simp] theorem State.offer_gen (r : Report) : (s.offer r).gen = s.gen := rfl
@[simp] theorem State.offer_ring (r : Report) : (s.offer r).ring = s.ring := rfl
@[simp] theorem State.offer_driver (r : Report) : (s.offer r).driver = s.driver := rfl
@[simp] theorem State.offer_charge (r : Report) : (s.offer r).charge = s.charge := rfl
@[simp] theorem State.offer_sweep (r : Report) : (s.offer r).sweep = s.sweep := rfl
@[simp] theorem State.offer_touch (r : Report) : (s.offer r).touch = s.touch := rfl
@[simp] theorem State.offer_zones (r : Report) : (s.offer r).zones = s.zones := rfl
@[simp] theorem State.offer_reports (r : Report) : (s.offer r).reports = s.reports.offer r := rfl
@[simp] theorem State.offer_pending (r : Report) : (s.offer r).pending = s.pending := rfl

/-! `State.clearCoalesce`. -/

@[simp] theorem State.clearCoalesce_inReset : s.clearCoalesce.inReset = s.inReset := rfl
@[simp] theorem State.clearCoalesce_ocin : s.clearCoalesce.ocin = s.ocin := rfl
@[simp] theorem State.clearCoalesce_settings : s.clearCoalesce.settings = s.settings := rfl
@[simp] theorem State.clearCoalesce_link : s.clearCoalesce.link = s.link := rfl
@[simp] theorem State.clearCoalesce_image : s.clearCoalesce.image = s.image := rfl
@[simp] theorem State.clearCoalesce_dead : s.clearCoalesce.dead = s.dead := rfl
@[simp] theorem State.clearCoalesce_queue : s.clearCoalesce.queue = s.queue := rfl
@[simp] theorem State.clearCoalesce_viewports : s.clearCoalesce.viewports = s.viewports := rfl
@[simp] theorem State.clearCoalesce_store : s.clearCoalesce.store = s.store := rfl
@[simp] theorem State.clearCoalesce_gen : s.clearCoalesce.gen = s.gen := rfl
@[simp] theorem State.clearCoalesce_ring : s.clearCoalesce.ring = s.ring := rfl
@[simp] theorem State.clearCoalesce_driver : s.clearCoalesce.driver = s.driver := rfl
@[simp] theorem State.clearCoalesce_charge : s.clearCoalesce.charge = s.charge := rfl
@[simp] theorem State.clearCoalesce_sweep : s.clearCoalesce.sweep = s.sweep := rfl
@[simp] theorem State.clearCoalesce_touch : s.clearCoalesce.touch = s.touch := rfl
@[simp] theorem State.clearCoalesce_zones : s.clearCoalesce.zones = s.zones := rfl
@[simp] theorem State.clearCoalesce_reports : s.clearCoalesce.reports = { s.reports with coalesce := none } := rfl
@[simp] theorem State.clearCoalesce_pending : s.clearCoalesce.pending = s.pending := rfl

/-! `State.changeRequest`. -/

@[simp] theorem State.changeRequest_inReset (t : Nat) (f : Request → Request) :
    (s.changeRequest t f).inReset = s.inReset :=
  rfl
@[simp] theorem State.changeRequest_ocin (t : Nat) (f : Request → Request) :
    (s.changeRequest t f).ocin = s.ocin :=
  rfl
@[simp] theorem State.changeRequest_settings (t : Nat) (f : Request → Request) :
    (s.changeRequest t f).settings = s.settings :=
  rfl
@[simp] theorem State.changeRequest_link (t : Nat) (f : Request → Request) :
    (s.changeRequest t f).link = s.link :=
  rfl
@[simp] theorem State.changeRequest_image (t : Nat) (f : Request → Request) :
    (s.changeRequest t f).image = s.image :=
  rfl
@[simp] theorem State.changeRequest_dead (t : Nat) (f : Request → Request) :
    (s.changeRequest t f).dead = s.dead :=
  rfl
@[simp] theorem State.changeRequest_queue (t : Nat) (f : Request → Request) :
    (s.changeRequest t f).queue = { s.queue with requests := s.queue.requests.map fun r => if r.tag == t then f r else r } :=
  rfl
@[simp] theorem State.changeRequest_viewports (t : Nat) (f : Request → Request) :
    (s.changeRequest t f).viewports = s.viewports :=
  rfl
@[simp] theorem State.changeRequest_store (t : Nat) (f : Request → Request) :
    (s.changeRequest t f).store = s.store :=
  rfl
@[simp] theorem State.changeRequest_gen (t : Nat) (f : Request → Request) : (s.changeRequest t f).gen = s.gen := rfl
@[simp] theorem State.changeRequest_ring (t : Nat) (f : Request → Request) :
    (s.changeRequest t f).ring = s.ring :=
  rfl
@[simp] theorem State.changeRequest_driver (t : Nat) (f : Request → Request) :
    (s.changeRequest t f).driver = s.driver :=
  rfl
@[simp] theorem State.changeRequest_charge (t : Nat) (f : Request → Request) :
    (s.changeRequest t f).charge = s.charge :=
  rfl
@[simp] theorem State.changeRequest_sweep (t : Nat) (f : Request → Request) :
    (s.changeRequest t f).sweep = s.sweep :=
  rfl
@[simp] theorem State.changeRequest_touch (t : Nat) (f : Request → Request) :
    (s.changeRequest t f).touch = s.touch :=
  rfl
@[simp] theorem State.changeRequest_zones (t : Nat) (f : Request → Request) :
    (s.changeRequest t f).zones = s.zones :=
  rfl
@[simp] theorem State.changeRequest_reports (t : Nat) (f : Request → Request) :
    (s.changeRequest t f).reports = s.reports :=
  rfl
@[simp] theorem State.changeRequest_pending (t : Nat) (f : Request → Request) :
    (s.changeRequest t f).pending = s.pending :=
  rfl

/-! `State.setPlace`. -/

@[simp] theorem State.setPlace_inReset (t : Nat) (p : Place) : (s.setPlace t p).inReset = s.inReset := rfl
@[simp] theorem State.setPlace_ocin (t : Nat) (p : Place) : (s.setPlace t p).ocin = s.ocin := rfl
@[simp] theorem State.setPlace_settings (t : Nat) (p : Place) : (s.setPlace t p).settings = s.settings := rfl
@[simp] theorem State.setPlace_link (t : Nat) (p : Place) : (s.setPlace t p).link = s.link := rfl
@[simp] theorem State.setPlace_image (t : Nat) (p : Place) : (s.setPlace t p).image = s.image := rfl
@[simp] theorem State.setPlace_dead (t : Nat) (p : Place) : (s.setPlace t p).dead = s.dead := rfl
@[simp] theorem State.setPlace_viewports (t : Nat) (p : Place) : (s.setPlace t p).viewports = s.viewports := rfl
@[simp] theorem State.setPlace_store (t : Nat) (p : Place) : (s.setPlace t p).store = s.store := rfl
@[simp] theorem State.setPlace_gen (t : Nat) (p : Place) : (s.setPlace t p).gen = s.gen := rfl
@[simp] theorem State.setPlace_ring (t : Nat) (p : Place) : (s.setPlace t p).ring = s.ring := rfl
@[simp] theorem State.setPlace_driver (t : Nat) (p : Place) : (s.setPlace t p).driver = s.driver := rfl
@[simp] theorem State.setPlace_charge (t : Nat) (p : Place) : (s.setPlace t p).charge = s.charge := rfl
@[simp] theorem State.setPlace_sweep (t : Nat) (p : Place) : (s.setPlace t p).sweep = s.sweep := rfl
@[simp] theorem State.setPlace_touch (t : Nat) (p : Place) : (s.setPlace t p).touch = s.touch := rfl
@[simp] theorem State.setPlace_zones (t : Nat) (p : Place) : (s.setPlace t p).zones = s.zones := rfl
@[simp] theorem State.setPlace_reports (t : Nat) (p : Place) : (s.setPlace t p).reports = s.reports := rfl
@[simp] theorem State.setPlace_pending (t : Nat) (p : Place) : (s.setPlace t p).pending = s.pending := rfl
@[simp] theorem State.setPlace_queue (t : Nat) (p : Place) : (s.setPlace t p).queue =
    (s.changeRequest t fun r => { r with progress := ⟨r.progress.item, p⟩ }).queue := rfl

/-! `State.joinRequest`. -/

@[simp] theorem State.joinRequest_inReset (o : Origin) (v : Nat) (c : RuleChoice) (f : Bool) (its : List Item) :
    (s.joinRequest o v c f its).inReset = s.inReset :=
  rfl
@[simp] theorem State.joinRequest_ocin (o : Origin) (v : Nat) (c : RuleChoice) (f : Bool) (its : List Item) :
    (s.joinRequest o v c f its).ocin = s.ocin :=
  rfl
@[simp] theorem State.joinRequest_settings (o : Origin) (v : Nat) (c : RuleChoice) (f : Bool) (its : List Item) :
    (s.joinRequest o v c f its).settings = s.settings :=
  rfl
@[simp] theorem State.joinRequest_link (o : Origin) (v : Nat) (c : RuleChoice) (f : Bool) (its : List Item) :
    (s.joinRequest o v c f its).link = s.link :=
  rfl
@[simp] theorem State.joinRequest_image (o : Origin) (v : Nat) (c : RuleChoice) (f : Bool) (its : List Item) :
    (s.joinRequest o v c f its).image = s.image :=
  rfl
@[simp] theorem State.joinRequest_dead (o : Origin) (v : Nat) (c : RuleChoice) (f : Bool) (its : List Item) :
    (s.joinRequest o v c f its).dead = s.dead :=
  rfl
@[simp] theorem State.joinRequest_queue (o : Origin) (v : Nat) (c : RuleChoice) (f : Bool) (its : List Item) :
    (s.joinRequest o v c f its).queue = ⟨s.queue.requests ++
        [⟨s.nextTag, o, v, c, f, its, .queued, .start, 0, 0, 0, false, false, false, false⟩],
      nextNumber s.nextTag⟩ :=
  rfl
@[simp] theorem State.joinRequest_viewports (o : Origin) (v : Nat) (c : RuleChoice) (f : Bool) (its : List Item) :
    (s.joinRequest o v c f its).viewports = s.viewports :=
  rfl
@[simp] theorem State.joinRequest_store (o : Origin) (v : Nat) (c : RuleChoice) (f : Bool) (its : List Item) :
    (s.joinRequest o v c f its).store = s.store :=
  rfl
@[simp] theorem State.joinRequest_gen (o : Origin) (v : Nat) (c : RuleChoice) (f : Bool) (its : List Item) :
    (s.joinRequest o v c f its).gen = s.gen :=
  rfl
@[simp] theorem State.joinRequest_ring (o : Origin) (v : Nat) (c : RuleChoice) (f : Bool) (its : List Item) :
    (s.joinRequest o v c f its).ring = s.ring :=
  rfl
@[simp] theorem State.joinRequest_driver (o : Origin) (v : Nat) (c : RuleChoice) (f : Bool) (its : List Item) :
    (s.joinRequest o v c f its).driver = s.driver :=
  rfl
@[simp] theorem State.joinRequest_charge (o : Origin) (v : Nat) (c : RuleChoice) (f : Bool) (its : List Item) :
    (s.joinRequest o v c f its).charge = s.charge :=
  rfl
@[simp] theorem State.joinRequest_sweep (o : Origin) (v : Nat) (c : RuleChoice) (f : Bool) (its : List Item) :
    (s.joinRequest o v c f its).sweep = s.sweep :=
  rfl
@[simp] theorem State.joinRequest_touch (o : Origin) (v : Nat) (c : RuleChoice) (f : Bool) (its : List Item) :
    (s.joinRequest o v c f its).touch = s.touch :=
  rfl
@[simp] theorem State.joinRequest_zones (o : Origin) (v : Nat) (c : RuleChoice) (f : Bool) (its : List Item) :
    (s.joinRequest o v c f its).zones = s.zones :=
  rfl
@[simp] theorem State.joinRequest_reports (o : Origin) (v : Nat) (c : RuleChoice) (f : Bool) (its : List Item) :
    (s.joinRequest o v c f its).reports = s.reports :=
  rfl
@[simp] theorem State.joinRequest_pending (o : Origin) (v : Nat) (c : RuleChoice) (f : Bool) (its : List Item) :
    (s.joinRequest o v c f its).pending = s.pending :=
  rfl

/-! `State.freeGenerator`. -/

@[simp] theorem State.freeGenerator_inReset : s.freeGenerator.inReset = s.inReset := rfl
@[simp] theorem State.freeGenerator_ocin : s.freeGenerator.ocin = s.ocin := rfl
@[simp] theorem State.freeGenerator_settings : s.freeGenerator.settings = s.settings := rfl
@[simp] theorem State.freeGenerator_link : s.freeGenerator.link = s.link := rfl
@[simp] theorem State.freeGenerator_image : s.freeGenerator.image = s.image := rfl
@[simp] theorem State.freeGenerator_dead : s.freeGenerator.dead = s.dead := rfl
@[simp] theorem State.freeGenerator_queue : s.freeGenerator.queue = s.queue := rfl
@[simp] theorem State.freeGenerator_viewports : s.freeGenerator.viewports = s.viewports := rfl
@[simp] theorem State.freeGenerator_store : s.freeGenerator.store = s.store := rfl
@[simp] theorem State.freeGenerator_gen : s.freeGenerator.gen = .free := rfl
@[simp] theorem State.freeGenerator_ring : s.freeGenerator.ring = s.ring := rfl
@[simp] theorem State.freeGenerator_driver : s.freeGenerator.driver = s.driver := rfl
@[simp] theorem State.freeGenerator_charge : s.freeGenerator.charge = s.charge := rfl
@[simp] theorem State.freeGenerator_sweep : s.freeGenerator.sweep = s.sweep := rfl
@[simp] theorem State.freeGenerator_touch : s.freeGenerator.touch = s.touch := rfl
@[simp] theorem State.freeGenerator_zones : s.freeGenerator.zones = s.zones := rfl
@[simp] theorem State.freeGenerator_reports : s.freeGenerator.reports = s.reports := rfl
@[simp] theorem State.freeGenerator_pending : s.freeGenerator.pending = s.pending := rfl

/-! `State.setViewport`. -/

@[simp] theorem State.setViewport_inReset (i : Nat) (v : Viewport) : (s.setViewport i v).inReset = s.inReset := rfl
@[simp] theorem State.setViewport_ocin (i : Nat) (v : Viewport) : (s.setViewport i v).ocin = s.ocin := rfl
@[simp] theorem State.setViewport_settings (i : Nat) (v : Viewport) : (s.setViewport i v).settings = s.settings := rfl
@[simp] theorem State.setViewport_link (i : Nat) (v : Viewport) : (s.setViewport i v).link = s.link := rfl
@[simp] theorem State.setViewport_image (i : Nat) (v : Viewport) : (s.setViewport i v).image = s.image := rfl
@[simp] theorem State.setViewport_dead (i : Nat) (v : Viewport) : (s.setViewport i v).dead = s.dead := rfl
@[simp] theorem State.setViewport_queue (i : Nat) (v : Viewport) : (s.setViewport i v).queue = s.queue := rfl
@[simp] theorem State.setViewport_viewports (i : Nat) (v : Viewport) :
    (s.setViewport i v).viewports = s.viewports.set i v :=
  rfl
@[simp] theorem State.setViewport_store (i : Nat) (v : Viewport) : (s.setViewport i v).store = s.store := rfl
@[simp] theorem State.setViewport_gen (i : Nat) (v : Viewport) : (s.setViewport i v).gen = s.gen := rfl
@[simp] theorem State.setViewport_ring (i : Nat) (v : Viewport) : (s.setViewport i v).ring = s.ring := rfl
@[simp] theorem State.setViewport_driver (i : Nat) (v : Viewport) : (s.setViewport i v).driver = s.driver := rfl
@[simp] theorem State.setViewport_charge (i : Nat) (v : Viewport) : (s.setViewport i v).charge = s.charge := rfl
@[simp] theorem State.setViewport_sweep (i : Nat) (v : Viewport) : (s.setViewport i v).sweep = s.sweep := rfl
@[simp] theorem State.setViewport_touch (i : Nat) (v : Viewport) : (s.setViewport i v).touch = s.touch := rfl
@[simp] theorem State.setViewport_zones (i : Nat) (v : Viewport) : (s.setViewport i v).zones = s.zones := rfl
@[simp] theorem State.setViewport_reports (i : Nat) (v : Viewport) : (s.setViewport i v).reports = s.reports := rfl
@[simp] theorem State.setViewport_pending (i : Nat) (v : Viewport) : (s.setViewport i v).pending = s.pending := rfl

/-! `State.driverState`. -/

@[simp] theorem State.driverState_inReset (d : DriverState) : (s.driverState d).inReset = s.inReset := rfl
@[simp] theorem State.driverState_ocin (d : DriverState) : (s.driverState d).ocin = s.ocin := rfl
@[simp] theorem State.driverState_settings (d : DriverState) : (s.driverState d).settings = s.settings := rfl
@[simp] theorem State.driverState_link (d : DriverState) : (s.driverState d).link = s.link := rfl
@[simp] theorem State.driverState_image (d : DriverState) : (s.driverState d).image = s.image := rfl
@[simp] theorem State.driverState_dead (d : DriverState) : (s.driverState d).dead = s.dead := rfl
@[simp] theorem State.driverState_queue (d : DriverState) : (s.driverState d).queue = s.queue := rfl
@[simp] theorem State.driverState_viewports (d : DriverState) : (s.driverState d).viewports = s.viewports := rfl
@[simp] theorem State.driverState_store (d : DriverState) : (s.driverState d).store = s.store := rfl
@[simp] theorem State.driverState_gen (d : DriverState) : (s.driverState d).gen = s.gen := rfl
@[simp] theorem State.driverState_ring (d : DriverState) : (s.driverState d).ring = s.ring := rfl
@[simp] theorem State.driverState_driver (d : DriverState) :
    (s.driverState d).driver = { s.driver with state := d } :=
  rfl
@[simp] theorem State.driverState_charge (d : DriverState) : (s.driverState d).charge = s.charge := rfl
@[simp] theorem State.driverState_sweep (d : DriverState) : (s.driverState d).sweep = s.sweep := rfl
@[simp] theorem State.driverState_touch (d : DriverState) : (s.driverState d).touch = s.touch := rfl
@[simp] theorem State.driverState_zones (d : DriverState) : (s.driverState d).zones = s.zones := rfl
@[simp] theorem State.driverState_reports (d : DriverState) : (s.driverState d).reports = s.reports := rfl
@[simp] theorem State.driverState_pending (d : DriverState) : (s.driverState d).pending = s.pending := rfl

/-! `State.flush`. -/

@[simp] theorem State.flush_inReset : s.flush.inReset = s.inReset := rfl
@[simp] theorem State.flush_ocin : s.flush.ocin = s.ocin := rfl
@[simp] theorem State.flush_settings : s.flush.settings = s.settings := rfl
@[simp] theorem State.flush_link : s.flush.link = s.link := rfl
@[simp] theorem State.flush_image : s.flush.image = loseOps s.image s.ring := rfl
@[simp] theorem State.flush_dead : s.flush.dead = s.dead := rfl
@[simp] theorem State.flush_queue : s.flush.queue = s.queue := rfl
@[simp] theorem State.flush_viewports : s.flush.viewports = s.viewports := rfl
@[simp] theorem State.flush_store : s.flush.store = s.store := rfl
@[simp] theorem State.flush_gen : s.flush.gen = .free := rfl
@[simp] theorem State.flush_ring : s.flush.ring = [] := rfl
@[simp] theorem State.flush_driver : s.flush.driver = { s.driver with passOver := 0 } := rfl
@[simp] theorem State.flush_charge : s.flush.charge = s.charge := rfl
@[simp] theorem State.flush_sweep : s.flush.sweep = { s.sweep with slot := none } := rfl
@[simp] theorem State.flush_touch : s.flush.touch = s.touch := rfl
@[simp] theorem State.flush_zones : s.flush.zones = s.zones := rfl
@[simp] theorem State.flush_reports : s.flush.reports = s.reports := rfl
@[simp] theorem State.flush_pending : s.flush.pending = s.pending := rfl

/-! `State.setContact`. -/

@[simp] theorem State.setContact_inReset (c : ContactState) : (s.setContact c).inReset = s.inReset := rfl
@[simp] theorem State.setContact_ocin (c : ContactState) : (s.setContact c).ocin = s.ocin := rfl
@[simp] theorem State.setContact_settings (c : ContactState) : (s.setContact c).settings = s.settings := rfl
@[simp] theorem State.setContact_link (c : ContactState) : (s.setContact c).link = s.link := rfl
@[simp] theorem State.setContact_image (c : ContactState) : (s.setContact c).image = s.image := rfl
@[simp] theorem State.setContact_dead (c : ContactState) : (s.setContact c).dead = s.dead := rfl
@[simp] theorem State.setContact_queue (c : ContactState) : (s.setContact c).queue = s.queue := rfl
@[simp] theorem State.setContact_viewports (c : ContactState) : (s.setContact c).viewports = s.viewports := rfl
@[simp] theorem State.setContact_store (c : ContactState) : (s.setContact c).store = s.store := rfl
@[simp] theorem State.setContact_gen (c : ContactState) : (s.setContact c).gen = s.gen := rfl
@[simp] theorem State.setContact_ring (c : ContactState) : (s.setContact c).ring = s.ring := rfl
@[simp] theorem State.setContact_driver (c : ContactState) : (s.setContact c).driver = s.driver := rfl
@[simp] theorem State.setContact_charge (c : ContactState) : (s.setContact c).charge = s.charge := rfl
@[simp] theorem State.setContact_sweep (c : ContactState) : (s.setContact c).sweep = s.sweep := rfl
@[simp] theorem State.setContact_touch (c : ContactState) :
    (s.setContact c).touch = { s.touch with contact := c } :=
  rfl
@[simp] theorem State.setContact_zones (c : ContactState) : (s.setContact c).zones = s.zones := rfl
@[simp] theorem State.setContact_reports (c : ContactState) : (s.setContact c).reports = s.reports := rfl
@[simp] theorem State.setContact_pending (c : ContactState) : (s.setContact c).pending = s.pending := rfl

/-! `State.setScanner`. -/

@[simp] theorem State.setScanner_inReset (x : Scanner) : (s.setScanner x).inReset = s.inReset := rfl
@[simp] theorem State.setScanner_ocin (x : Scanner) : (s.setScanner x).ocin = s.ocin := rfl
@[simp] theorem State.setScanner_settings (x : Scanner) : (s.setScanner x).settings = s.settings := rfl
@[simp] theorem State.setScanner_link (x : Scanner) : (s.setScanner x).link = s.link := rfl
@[simp] theorem State.setScanner_image (x : Scanner) : (s.setScanner x).image = s.image := rfl
@[simp] theorem State.setScanner_dead (x : Scanner) : (s.setScanner x).dead = s.dead := rfl
@[simp] theorem State.setScanner_queue (x : Scanner) : (s.setScanner x).queue = s.queue := rfl
@[simp] theorem State.setScanner_viewports (x : Scanner) : (s.setScanner x).viewports = s.viewports := rfl
@[simp] theorem State.setScanner_store (x : Scanner) : (s.setScanner x).store = s.store := rfl
@[simp] theorem State.setScanner_gen (x : Scanner) : (s.setScanner x).gen = s.gen := rfl
@[simp] theorem State.setScanner_ring (x : Scanner) : (s.setScanner x).ring = s.ring := rfl
@[simp] theorem State.setScanner_driver (x : Scanner) : (s.setScanner x).driver = s.driver := rfl
@[simp] theorem State.setScanner_charge (x : Scanner) : (s.setScanner x).charge = s.charge := rfl
@[simp] theorem State.setScanner_sweep (x : Scanner) : (s.setScanner x).sweep = s.sweep := rfl
@[simp] theorem State.setScanner_touch (x : Scanner) : (s.setScanner x).touch = { s.touch with scanner := x } := rfl
@[simp] theorem State.setScanner_zones (x : Scanner) : (s.setScanner x).zones = s.zones := rfl
@[simp] theorem State.setScanner_reports (x : Scanner) : (s.setScanner x).reports = s.reports := rfl
@[simp] theorem State.setScanner_pending (x : Scanner) : (s.setScanner x).pending = s.pending := rfl

/-! Updates that only some states see: the fields they never touch. -/

@[simp] theorem State.generatorArbiter_inReset : s.generatorArbiter.inReset = s.inReset := by
  unfold State.generatorArbiter; split; · rfl
  split <;> rfl
@[simp] theorem State.generatorArbiter_ocin : s.generatorArbiter.ocin = s.ocin := by
  unfold State.generatorArbiter; split; · rfl
  split <;> rfl
@[simp] theorem State.generatorArbiter_settings : s.generatorArbiter.settings = s.settings := by
  unfold State.generatorArbiter; split; · rfl
  split <;> rfl
@[simp] theorem State.generatorArbiter_link : s.generatorArbiter.link = s.link := by
  unfold State.generatorArbiter; split; · rfl
  split <;> rfl
@[simp] theorem State.generatorArbiter_image : s.generatorArbiter.image = s.image := by
  unfold State.generatorArbiter; split; · rfl
  split <;> rfl
@[simp] theorem State.generatorArbiter_dead : s.generatorArbiter.dead = s.dead := by
  unfold State.generatorArbiter; split; · rfl
  split <;> rfl
@[simp] theorem State.generatorArbiter_viewports : s.generatorArbiter.viewports = s.viewports := by
  unfold State.generatorArbiter; split; · rfl
  split <;> rfl
@[simp] theorem State.generatorArbiter_store : s.generatorArbiter.store = s.store := by
  unfold State.generatorArbiter; split; · rfl
  split <;> rfl
@[simp] theorem State.generatorArbiter_ring : s.generatorArbiter.ring = s.ring := by
  unfold State.generatorArbiter; split; · rfl
  split <;> rfl
@[simp] theorem State.generatorArbiter_driver : s.generatorArbiter.driver = s.driver := by
  unfold State.generatorArbiter; split; · rfl
  split <;> rfl
@[simp] theorem State.generatorArbiter_charge : s.generatorArbiter.charge = s.charge := by
  unfold State.generatorArbiter; split; · rfl
  split <;> rfl
@[simp] theorem State.generatorArbiter_sweep : s.generatorArbiter.sweep = s.sweep := by
  unfold State.generatorArbiter; split; · rfl
  split <;> rfl
@[simp] theorem State.generatorArbiter_touch : s.generatorArbiter.touch = s.touch := by
  unfold State.generatorArbiter; split; · rfl
  split <;> rfl
@[simp] theorem State.generatorArbiter_zones : s.generatorArbiter.zones = s.zones := by
  unfold State.generatorArbiter; split; · rfl
  split <;> rfl
@[simp] theorem State.generatorArbiter_reports : s.generatorArbiter.reports = s.reports := by
  unfold State.generatorArbiter; split; · rfl
  split <;> rfl
@[simp] theorem State.generatorArbiter_pending : s.generatorArbiter.pending = s.pending := by
  unfold State.generatorArbiter; split; · rfl
  split <;> rfl

@[simp] theorem State.leave_inReset (r : Request) (o : LeaveOutcome) : (s.leave r o).inReset = s.inReset := by
  unfold State.leave; split <;> rfl
@[simp] theorem State.leave_ocin (r : Request) (o : LeaveOutcome) : (s.leave r o).ocin = s.ocin := by
  unfold State.leave; split <;> rfl
@[simp] theorem State.leave_settings (r : Request) (o : LeaveOutcome) : (s.leave r o).settings = s.settings := by
  unfold State.leave; split <;> rfl
@[simp] theorem State.leave_link (r : Request) (o : LeaveOutcome) : (s.leave r o).link = s.link := by
  unfold State.leave; split <;> rfl
@[simp] theorem State.leave_image (r : Request) (o : LeaveOutcome) : (s.leave r o).image = s.image := by
  unfold State.leave; split <;> rfl
@[simp] theorem State.leave_dead (r : Request) (o : LeaveOutcome) : (s.leave r o).dead = s.dead := by
  unfold State.leave; split <;> rfl
@[simp] theorem State.leave_viewports (r : Request) (o : LeaveOutcome) : (s.leave r o).viewports = s.viewports := by
  unfold State.leave; split <;> rfl
@[simp] theorem State.leave_store (r : Request) (o : LeaveOutcome) : (s.leave r o).store = s.store := by
  unfold State.leave; split <;> rfl
@[simp] theorem State.leave_gen (r : Request) (o : LeaveOutcome) : (s.leave r o).gen = s.gen := by
  unfold State.leave; split <;> rfl
@[simp] theorem State.leave_ring (r : Request) (o : LeaveOutcome) : (s.leave r o).ring = s.ring := by
  unfold State.leave; split <;> rfl
@[simp] theorem State.leave_driver (r : Request) (o : LeaveOutcome) : (s.leave r o).driver = s.driver := by
  unfold State.leave; split <;> rfl
@[simp] theorem State.leave_charge (r : Request) (o : LeaveOutcome) : (s.leave r o).charge = s.charge := by
  unfold State.leave; split <;> rfl
@[simp] theorem State.leave_sweep (r : Request) (o : LeaveOutcome) : (s.leave r o).sweep = s.sweep := by
  unfold State.leave; split <;> rfl
@[simp] theorem State.leave_touch (r : Request) (o : LeaveOutcome) : (s.leave r o).touch = s.touch := by
  unfold State.leave; split <;> rfl
@[simp] theorem State.leave_zones (r : Request) (o : LeaveOutcome) : (s.leave r o).zones = s.zones := by
  unfold State.leave; split <;> rfl
@[simp] theorem State.leave_pending (r : Request) (o : LeaveOutcome) : (s.leave r o).pending = s.pending := by
  unfold State.leave; split <;> rfl

@[simp] theorem State.settleOne_inReset (t : Nat) : (s.settleOne t).inReset = s.inReset := by
  unfold State.settleOne; split; · rfl
  dsimp only; split <;> simp
@[simp] theorem State.settleOne_ocin (t : Nat) : (s.settleOne t).ocin = s.ocin := by
  unfold State.settleOne; split; · rfl
  dsimp only; split <;> simp
@[simp] theorem State.settleOne_settings (t : Nat) : (s.settleOne t).settings = s.settings := by
  unfold State.settleOne; split; · rfl
  dsimp only; split <;> simp
@[simp] theorem State.settleOne_link (t : Nat) : (s.settleOne t).link = s.link := by
  unfold State.settleOne; split; · rfl
  dsimp only; split <;> simp
@[simp] theorem State.settleOne_image (t : Nat) : (s.settleOne t).image = s.image := by
  unfold State.settleOne; split; · rfl
  dsimp only; split <;> simp
@[simp] theorem State.settleOne_dead (t : Nat) : (s.settleOne t).dead = s.dead := by
  unfold State.settleOne; split; · rfl
  dsimp only; split <;> simp
@[simp] theorem State.settleOne_viewports (t : Nat) : (s.settleOne t).viewports = s.viewports := by
  unfold State.settleOne; split; · rfl
  dsimp only; split <;> simp
@[simp] theorem State.settleOne_store (t : Nat) : (s.settleOne t).store = s.store := by
  unfold State.settleOne; split; · rfl
  dsimp only; split <;> simp
@[simp] theorem State.settleOne_gen (t : Nat) : (s.settleOne t).gen = s.gen := by
  unfold State.settleOne; split; · rfl
  dsimp only; split <;> simp
@[simp] theorem State.settleOne_ring (t : Nat) : (s.settleOne t).ring = s.ring := by
  unfold State.settleOne; split; · rfl
  dsimp only; split <;> simp
@[simp] theorem State.settleOne_driver (t : Nat) : (s.settleOne t).driver = s.driver := by
  unfold State.settleOne; split; · rfl
  dsimp only; split <;> simp
@[simp] theorem State.settleOne_charge (t : Nat) : (s.settleOne t).charge = s.charge := by
  unfold State.settleOne; split; · rfl
  dsimp only; split <;> simp
@[simp] theorem State.settleOne_sweep (t : Nat) : (s.settleOne t).sweep = s.sweep := by
  unfold State.settleOne; split; · rfl
  dsimp only; split <;> simp
@[simp] theorem State.settleOne_touch (t : Nat) : (s.settleOne t).touch = s.touch := by
  unfold State.settleOne; split; · rfl
  dsimp only; split <;> simp
@[simp] theorem State.settleOne_zones (t : Nat) : (s.settleOne t).zones = s.zones := by
  unfold State.settleOne; split; · rfl
  dsimp only; split <;> simp
@[simp] theorem State.settleOne_pending (t : Nat) : (s.settleOne t).pending = s.pending := by
  unfold State.settleOne; split; · rfl
  dsimp only; split <;> simp

@[simp] theorem State.leave_queue (r : Request) (o : LeaveOutcome) :
    (s.leave r o).queue = { s.queue with requests := s.queue.requests.filter fun q => q.tag != r.tag } := by
  unfold State.leave; split <;> rfl
@[simp] theorem State.leave_reports (r : Request) (o : LeaveOutcome) :
    (s.leave r o).reports = if r.origin = .host then s.reports.offer (r.completion o) else s.reports := by
  unfold State.leave; split <;> simp_all

/-! Views of the state. -/

@[simp] theorem State.replied_viewport (own : Nat) (q k : Byte) (r : Reply) (i : Nat) :
    (s.replied own q k r).viewport i = s.viewport i := rfl
@[simp] theorem State.setRx_viewport (rx : Receiver) (i : Nat) : (s.setRx rx).viewport i = s.viewport i := rfl
@[simp] theorem State.setRx_pool (rx : Receiver) (o : Origin) : (s.setRx rx).pool o = s.pool o := rfl
@[simp] theorem State.setRx_nextTag (rx : Receiver) : (s.setRx rx).nextTag = s.nextTag := rfl

/-- A request that joins takes the next tag and is the newest. -/
theorem State.joinRequest_newest (o : Origin) (v : Nat) (c : RuleChoice) (f : Bool) (its : List Item) :
    ∃ r, (s.joinRequest o v c f its).queue.requests = s.queue.requests ++ [r] ∧ r.tag = s.nextTag ∧ r.state = .queued ∧
      r.progress = .start :=
  ⟨_, rfl, rfl, rfl, rfl⟩

end Sys2Proof.Machine
end

