-- ==== Sys2Proof/Laws/Ops.lean ====
section
/-!
SUPPORT. The small facts of the shared operations: fields of bytes, masks, checks made in order, and the records of a
queue whose tags are distinct.
-/

namespace Sys2Proof.Machine

/-! ### Bytes (R188) -/

/-- A byte's number is taken modulo 256. -/
theorem byte_toNat (n : Nat) : (byte n).toNat = n % 256 := by simp [byte]

/-- A byte of a byte's own number is that byte. -/
theorem byte_of_toNat (b : Byte) : byte b.toNat = b := by simp [byte]

/-- A two-byte field is read back from the bytes that carry it. -/
theorem le16_bytes {n : Nat} (h : n < 65536) : le16 (byte n) (byte (n / 256)) = n := by
  simp only [le16, byte_toNat]; omega

/-- A two-byte field is below 65536. -/
theorem le16_lt (a b : Byte) : le16 a b < 65536 := by
  have := a.isLt
  have := b.isLt
  simp only [le16]; omega

/-- A signed field is read back from the bytes that carry it. -/
theorem signed16_bytes {i : Int} (h : -32768 ≤ i) (k : i ≤ 32767) :
    signed16 (byte (i % 65536).toNat) (byte ((i % 65536).toNat / 256)) = i := by
  have : (i % 65536).toNat < 65536 := by omega
  simp only [signed16, le16_bytes this]
  split <;> omega

/-! ### Masks (R1) -/

/-- Bit p of a mask made from a test is the test's answer at p. -/
theorem maskOf_getLsbD (f : Nat → Bool) (p : Nat) : (maskOf f).getLsbD p = (decide (p < 16) && f p) := by
  unfold maskOf
  rw [BitVec.getLsbD_ofFnLE]
  split <;> simp_all

/-- A dot after a commit (R3). -/
theorem StripImage.dot_commit (v : StripImage) (a b : Mask) (h : a &&& b = 0) (p : Nat) :
    (v.commit a b).dot p = if a.getLsbD p then .on else if b.getLsbD p then .off else v.dot p := by
  have hb : (a &&& b).getLsbD p = false := by rw [h]; simp
  rw [BitVec.getLsbD_and] at hb
  by_cases hp : p < 16
  · cases ha : a.getLsbD p <;> cases hb' : b.getLsbD p <;> simp_all [StripImage.dot, StripImage.commit]
  · have z : ∀ m : Mask, m.getLsbD p = false := fun m => BitVec.getLsbD_of_ge m p (by omega)
    simp [StripImage.dot, z]

/-- A dot after a loss (R5, R6). -/
theorem StripImage.dot_lose (v : StripImage) (m : Mask) (p : Nat) :
    (v.lose m).dot p = if m.getLsbD p then .unknown else v.dot p := by
  by_cases hp : p < 16
  · cases hm : m.getLsbD p <;> simp_all [StripImage.dot, StripImage.lose]
  · have z : ∀ m : Mask, m.getLsbD p = false := fun m => BitVec.getLsbD_of_ge m p (by omega)
    simp [StripImage.dot, z]

/-! ### Checks in order (R44, R70, R148) -/

/-- Every check holds. -/
theorem firstFailing_none {l : List (Nat × Bool)} : firstFailing l = none ↔ ∀ e ∈ l, e.2 = true := by
  induction l with
  | nil => simp [firstFailing]
  | cons e l ih => obtain ⟨i, b⟩ := e; cases b <;> simp [firstFailing, ih]

/-- The first check that fails is the one answered. -/
theorem firstFailing_some {l : List (Nat × Bool)} {i : Nat} :
    firstFailing l = some i ↔ ∃ pre post, l = pre ++ (i, false) :: post ∧ ∀ e ∈ pre, e.2 = true := by
  induction l with
  | nil => simp [firstFailing]
  | cons e l ih =>
    obtain ⟨j, b⟩ := e
    cases b
    · simp only [firstFailing, Bool.false_eq_true, if_false, Option.some.injEq]
      constructor
      · rintro rfl; exact ⟨[], l, rfl, by simp⟩
      · rintro ⟨pre, post, h, hp⟩
        cases pre with
        | nil => simp_all
        | cons x pre =>
          have := hp x (by simp)
          simp only [List.cons_append, List.cons.injEq] at h
          rw [← h.1] at this
          simp at this
    · simp only [firstFailing, if_true, ih]
      constructor
      · rintro ⟨pre, post, rfl, hp⟩
        exact ⟨(j, true) :: pre, post, rfl, by simpa using hp⟩
      · rintro ⟨pre, post, h, hp⟩
        cases pre with
        | nil => simp at h
        | cons x pre =>
          simp only [List.cons_append, List.cons.injEq] at h
          exact ⟨pre, post, h.2, fun e he => hp e (by simp [he])⟩

/-! ### Requests by tag (R19, R21) -/

/-- With distinct tags, no other request of the queue has a request's tag. -/
theorem tag_ne {pre post : List Request} {r : Request} (h : ((pre ++ r :: post).map (·.tag)).Nodup) :
    ∀ q ∈ pre ++ post, q.tag ≠ r.tag := by
  intro q hq e
  simp only [List.map_append, List.map_cons] at h
  have h' := (List.perm_middle.nodup_iff).1 h
  rw [List.nodup_cons] at h'
  apply h'.1
  rw [← e, ← List.map_append]
  exact List.mem_map_of_mem hq

/-- The request found under a tag. -/
theorem State.request_split {s : State} {pre post : List Request} {r : Request}
    (hs : s.queue.requests = pre ++ r :: post) (h : (s.queue.requests.map (·.tag)).Nodup) :
    s.request r.tag = some r := by
  have hne := tag_ne (hs ▸ h)
  unfold State.request
  rw [hs, List.find?_append, List.find?_eq_none.2]
  · simp
  · intro q hq; simpa using hne q (by simp [hq])

/-- Changing the record under a tag changes that record alone. -/
theorem State.changeRequest_split {s : State} {pre post : List Request} {r : Request} (f : Request → Request)
    (hs : s.queue.requests = pre ++ r :: post) (h : (s.queue.requests.map (·.tag)).Nodup) :
    s.changeRequest r.tag f = { s with queue := { s.queue with requests := pre ++ f r :: post } } := by
  have hne := tag_ne (hs ▸ h)
  have keep : ∀ l : List Request, (∀ q ∈ l, q.tag ≠ r.tag) →
      l.map (fun q => if q.tag == r.tag then f q else q) = l := by
    intro l hl
    conv => rhs; rw [← List.map_id l]
    exact List.map_congr_left fun q hq => by simp [hl q hq]
  unfold State.changeRequest
  rw [hs, List.map_append, List.map_cons, keep pre fun q hq => hne q (by simp [hq]),
    keep post fun q hq => hne q (by simp [hq])]
  simp

/-- What is left of the queue when the request under a tag leaves. -/
theorem State.leave_split {s : State} {pre post : List Request} {r : Request}
    (hs : s.queue.requests = pre ++ r :: post) (h : (s.queue.requests.map (·.tag)).Nodup) :
    (s.queue.requests.filter fun q => q.tag != r.tag) = pre ++ post := by
  have hne := tag_ne (hs ▸ h)
  have keep : ∀ l : List Request, (∀ q ∈ l, q.tag ≠ r.tag) → l.filter (fun q => q.tag != r.tag) = l := by
    intro l hl
    rw [List.filter_eq_self]
    intro q hq; simpa using hl q hq
  rw [hs, List.filter_append, List.filter_cons, keep pre fun q hq => hne q (by simp [hq]),
    keep post fun q hq => hne q (by simp [hq])]
  simp

end Sys2Proof.Machine
end

