-- ==== Sys2Proof/Laws/Generator.lean ====
section
/-!
SUPPORT. What the generator's operations do to the request they work on, by its place in the queue: one lemma each, in the
terms of Safety.lean.
-/

namespace Sys2Proof.Machine

variable {s : State} {pre post : List Request} {r : Request}

/-- A change of place reaches the one record. -/
theorem State.setPlace_split (p : Place) (hs : s.queue.requests = pre ++ r :: post)
    (h : (s.queue.requests.map (·.tag)).Nodup) :
    s.setPlace r.tag p =
      { s with queue := { s.queue with requests := pre ++ { r with progress := ⟨r.progress.item, p⟩ } :: post } } :=
  State.changeRequest_split _ hs h

/-- The same tags after the record of one request is changed, its tag kept. -/
theorem tags_split {q : Request} (h : ((pre ++ r :: post).map (·.tag)).Nodup) (hq : q.tag = r.tag) :
    ((pre ++ q :: post).map (·.tag)).Nodup := by
  simpa [hq] using h

/-- Generation of the request ends: it drains with operations outstanding and leaves DONE with none (R28, R98). -/
theorem State.endGeneration_split (hs : s.queue.requests = pre ++ r :: post)
    (h : (s.queue.requests.map (·.tag)).Nodup) :
    s.endGeneration r = State.generatorArbiter (
      if r.outstanding = 0 then
        { s with
          gen := .free
          queue := { s.queue with requests := pre ++ post }
          reports := if r.origin = .host then s.reports.offer (r.completion .done) else s.reports }
      else
        { s with
          gen := .free
          queue := { s.queue with requests := pre ++ { r with state := .draining } :: post } }) := by
  have hl := State.leave_split hs h
  simp only [State.endGeneration]
  congr 1
  split
  · simp only [State.leave, State.freeGenerator, hl, State.offer]
    split <;> rfl
  · exact State.changeRequest_split (s := s.freeGenerator) _ hs h

/-- The current item is finished (`itemFinished`). -/
theorem State.finishItem_split (hs : s.queue.requests = pre ++ r :: post)
    (h : (s.queue.requests.map (·.tag)).Nodup) : s.finishItem r.tag = itemFinished s pre r post := by
  let q : Request := { r with itemsDone := r.itemsDone + 1, progress := ⟨r.progress.item + 1, .itemStart⟩ }
  let s' : State := { s with queue := { s.queue with requests := pre ++ q :: post } }
  have hn : (s'.queue.requests.map (·.tag)).Nodup := tags_split (r := r) (by rwa [hs] at h) rfl
  have hq : s'.request r.tag = some q := State.request_split (r := q) rfl hn
  have he := State.endGeneration_split (s := s') (r := q) rfl hn
  simp only [State.finishItem, State.changeRequest_split _ hs h]
  change (match s'.request r.tag with
    | none => s'
    | some r' => if r'.progress.item < r'.items.length then _ else s'.endGeneration r') = _
  rw [hq]
  simp only [he, itemFinished]
  split
  · rfl
  · change State.generatorArbiter (if r.outstanding = 0 then _ else _) = _
    split <;> rfl

/-- A code of the TEXT item is done with (`codeDone`). -/
theorem State.nextCode_split (codes : List Nat) (i : Nat) (hs : s.queue.requests = pre ++ r :: post)
    (h : (s.queue.requests.map (·.tag)).Nodup) : s.nextCode r.tag codes.length i = codeDone s pre r post codes i := by
  simp only [State.nextCode, codeDone]
  split
  · rw [State.setPlace_split _ hs h]
  · exact State.finishItem_split hs h

/-- A strip's operation that is due is appended (`stripDone`, `Request.appended`). -/
theorem State.append_split (op : StripOp) (hd : op.isEmpty = false) (hs : s.queue.requests = pre ++ r :: post)
    (h : (s.queue.requests.map (·.tag)).Nodup) :
    s.append r.tag op =
      { stripDone s r.tag op with queue := { s.queue with requests := pre ++ r.appended :: post } } := by
  have hd' : ¬(op.setMask = 0 ∧ op.clearMask = 0) := by simpa [StripOp.isEmpty] using hd
  simp only [State.append, State.changeRequest_split _ hs h, stripDone, if_neg hd']
  rcases s.sweep with ⟨_, _ | w, _⟩
  · simp [Request.appended, Config.generatedMax]
  · by_cases e : w.strip = op.strip <;> simp [e, Request.appended, Config.generatedMax]

end Sys2Proof.Machine
end

