-- ==== Sys2Proof/Laws/Image.lean ====
section
/-!
SUPPORT. The dot image as a store: what reading a strip gives after another is put in place, and that putting a strip
in place keeps the canonical form.
-/

namespace Sys2Proof.Machine

/-! ### Sweep order -/

theorem Strip.before_irrefl (a : Strip) : a.before a = false := by simp [Strip.before]

theorem Strip.before_trans {a b c : Strip} (h : a.before b = true) (k : b.before c = true) : a.before c = true := by
  simp [Strip.before] at *; omega

/-- Two strips of which neither comes before the other are one. -/
theorem Strip.before_total {a b : Strip} (h : a ≠ b) : a.before b = true ∨ b.before a = true := by
  obtain ⟨a, a'⟩ := a
  obtain ⟨b, b'⟩ := b
  simp [Strip.before] at *
  omega

/-! ### Reading -/

/-- A strip that comes before every listed one is not listed. -/
theorem imageGet_unlisted {im : Image} {t : Strip} (h : ∀ e ∈ im, e.1 ≠ t) : imageGet im t = .unknown := by
  induction im with
  | nil => rfl
  | cons e l ih => simp_all [imageGet]

/-- The canonical form of a list with a first entry. -/
theorem imageWf_cons {e : Strip × StripImage} {im : Image} :
    imageWf (e :: im) = true ↔ e.2 ≠ .unknown ∧ (∀ x ∈ im, e.1.before x.1 = true) ∧ imageWf im = true := by
  simp [imageWf]; tauto

/-- Reading after a strip is put in place: that strip's new value, every other strip's old one. -/
theorem imageGet_imageSet {im : Image} (h : imageWf im = true) (t u : Strip) (v : StripImage) :
    imageGet (imageSet im t v) u = if t = u then v else imageGet im u := by
  induction im with
  | nil => unfold imageSet; split <;> simp_all [imageGet]
  | cons e l ih =>
    obtain ⟨k, w⟩ := e
    obtain ⟨-, hk, hl⟩ := imageWf_cons.1 h
    have ih := ih hl
    unfold imageSet
    by_cases e1 : k = t
    · subst e1
      by_cases e2 : v = .unknown
      · by_cases e3 : k = u
        · subst e3
          have : imageGet l k = .unknown :=
            imageGet_unlisted fun x hx hxk => by have := hk x hx; simp [hxk, Strip.before_irrefl] at this
          simp [e2, this]
        · simp [e2, e3, imageGet]
      · by_cases e3 : k = u <;> simp [e2, e3, imageGet]
    · by_cases e2 : t.before k = true
      · by_cases e3 : v = .unknown
        · by_cases e4 : t = u
          · subst e4
            have : imageGet ((k, w) :: l) t = .unknown := imageGet_unlisted fun x hx hxt => by
              rcases List.mem_cons.1 hx with rfl | hx
              · exact e1 hxt
              · have := Strip.before_trans e2 (hk x hx)
                simp [hxt, Strip.before_irrefl] at this
            simp [e1, e2, e3, this]
          · simp [e1, e2, e3, e4]
        · by_cases e4 : t = u
          · subst e4; simp [e1, e2, e3, imageGet]
          · simp [e1, e2, e3, e4, imageGet]
      · have e2' : t.before k = false := by simpa using e2
        by_cases e4 : k = u
        · subst e4; simp [e1, e2', imageGet, Ne.symm e1]
        · simp [e1, e2', e4, imageGet, ih]

/-! ### The canonical form is kept -/

/-- What an image lists after a strip is put in place: that strip, and what it listed before. -/
theorem mem_imageSet {im : Image} {t : Strip} {v : StripImage} {e : Strip × StripImage} (h : e ∈ imageSet im t v) :
    (e = (t, v) ∧ v ≠ .unknown) ∨ e ∈ im := by
  induction im with
  | nil => unfold imageSet at h; split at h <;> simp_all
  | cons x l ih =>
    obtain ⟨k, w⟩ := x
    unfold imageSet at h
    split at h
    · split at h <;> simp_all
      tauto
    · split at h
      · split at h <;> simp_all
      · rcases List.mem_cons.1 h with rfl | h
        · simp
        · rcases ih h with h | h
          · exact .inl h
          · simp [h]

/-- Putting a strip in place keeps the canonical form. -/
theorem imageWf_imageSet {im : Image} (h : imageWf im = true) (t : Strip) (v : StripImage) :
    imageWf (imageSet im t v) = true := by
  induction im with
  | nil => unfold imageSet; split <;> simp_all [imageWf]
  | cons e l ih =>
    obtain ⟨k, w⟩ := e
    obtain ⟨hw, hk, hl⟩ := imageWf_cons.1 h
    unfold imageSet
    by_cases e1 : k = t
    · subst e1
      by_cases e2 : v = .unknown
      · simpa [e2] using hl
      · simp only [if_true, e2, if_false]; exact imageWf_cons.2 ⟨e2, hk, hl⟩
    · by_cases e2 : t.before k = true
      · by_cases e3 : v = .unknown
        · simpa [e1, e2, e3] using h
        · simp only [e1, e2, e3, if_true, if_false]
          refine imageWf_cons.2 ⟨e3, fun x hx => ?_, h⟩
          rcases List.mem_cons.1 hx with rfl | hx
          · exact e2
          · exact Strip.before_trans e2 (hk x hx)
      · simp only [e1, e2, if_false]
        refine imageWf_cons.2 ⟨hw, fun x hx => ?_, ih hl⟩
        rcases mem_imageSet hx with ⟨rfl, -⟩ | hx
        · exact (Strip.before_total e1).resolve_right e2
        · exact hk x hx

/-- A commit keeps the canonical form (R3). -/
theorem imageWf_commitOp {im : Image} (h : imageWf im = true) (op : StripOp) : imageWf (commitOp im op) = true :=
  imageWf_imageSet h _ _

/-- A loss keeps the canonical form (R5, R6, R10). -/
theorem imageWf_loseDots {im : Image} (h : imageWf im = true) (t : Strip) (m : Mask) :
    imageWf (loseDots im t m) = true :=
  imageWf_imageSet h _ _

/-- The loss of a flushed ring keeps the canonical form (R5). -/
theorem imageWf_loseOps {im : Image} (h : imageWf im = true) (ops : List RingOp) : imageWf (loseOps im ops) = true := by
  induction ops generalizing im with
  | nil => exact h
  | cons o l ih => exact ih (imageWf_loseDots h _ _)

/-- The image of a full reset has the canonical form. -/
theorem imageWf_reset : imageWf State.reset.image = true := rfl

end Sys2Proof.Machine
end

