-- ==== Sys2Proof/Laws/Link.lean ====
section
/-!
SUPPORT. What an addressed frame does, once: the lemma that every statement about a message row goes through.
-/

namespace Sys2Proof.Machine

/-- An own address lies between 1 and 30 and is what the address straps gave. -/
theorem Link.ownAddress_range {l : Link} {own : Nat} (h : l.ownAddress = some own) :
    1 ≤ own ∧ own ≤ 30 ∧ own = l.addressStraps.toNat := by
  unfold Link.ownAddress at h
  split at h <;> simp_all

/-- The own address as a byte is not the broadcast address, and reads back as itself. -/
theorem Link.ownAddress_byte {l : Link} {own : Nat} (h : l.ownAddress = some own) :
    (byte own).toNat = own ∧ byte own ≠ Config.broadcastAddress := by
  obtain ⟨a, b, -⟩ := Link.ownAddress_range h
  have hb : (byte own).toNat = own := by simp [byte]; omega
  refine ⟨hb, fun e => ?_⟩
  have := congrArg BitVec.toNat e
  simp [hb, Config.broadcastAddress] at this
  omega

/-- One bit of the CRC, by the top bit of the register. -/
theorem crcBit_eq (r : BitVec 16) (d : Bool) :
    crcBit r d = if r.getLsbD 15 = d then r <<< 1 else (r <<< 1) ^^^ 0x1021 := by
  have h : r.msb = r.getLsbD 15 := by simp [BitVec.msb_eq_getLsbD_last]
  unfold crcBit
  rw [h]
  cases r.getLsbD 15 <;> cases d <;> simp

/-- The CRC runs over the bits of the bytes, most significant bit of each first. -/
theorem crc16_bits (bytes : List Byte) :
    crc16 bytes = (bytes.flatMap fun b => [7, 6, 5, 4, 3, 2, 1, 0].map fun i => b.getLsbD i).foldl crcBit
      (BitVec.allOnes 16) := by
  unfold crc16
  generalize BitVec.allOnes 16 = r
  induction bytes generalizing r with
  | nil => rfl
  | cons b bs ih => rw [List.flatMap_cons, List.foldl_append, ← ih]; rfl

/-- A fresh addressed frame is carried out and answered. -/
theorem addressedFrame_fresh {s : State} {own : Nat} {seq : Byte} (kind : Byte) (p : List Byte)
    (h : FreshFrame s own seq) (hp : p.length ≤ 200) :
    s.addressedFrame seq kind p = (s.setRx .hunt).execute own seq kind p := by
  obtain ⟨h1, h2, h3, h4⟩ := h
  obtain ⟨hb, hne⟩ := Link.ownAddress_byte h3
  have hlen : ¬ Config.payloadMax < p.length := by simp [Config.payloadMax]; omega
  have h3' : (s.setRx Receiver.hunt).link.ownAddress = some own := h3
  simp only [State.addressedFrame, State.listening, State.isSending, h1, h2, h3, hlen, State.frameArrives, if_false]
  simp only [hb, hne, h3']
  simp [State.takeAddressed, State.inTurnaround, State.setRx, h2]
  rcases hc : s.link.cache with _ | ⟨q, body⟩
  · simp
  · have := h4 (q, body) (by simp [hc])
    simp_all

/-- A fresh addressed frame, from what its owner makes of it: `t` is the owner's state, whose link is the one it was
given. -/
theorem addressedFrame_carried {s : State} {own : Nat} {seq : Byte} (kind : Byte) (p : List Byte) (t : State)
    (r : Reply) (h : FreshFrame s own seq) (hp : p.length ≤ 200) (hk : carryOut kind (s.setRx .hunt) p = (t, r))
    (hl : t.link = (s.setRx .hunt).link) :
    s.addressedFrame seq kind p = { t with link := s.link.replied own seq kind r (leavesRestart kind p) } := by
  rw [addressedFrame_fresh kind p h hp]
  unfold State.execute
  rw [hk]
  simp [State.answer, Link.replied, hl, State.setRx]

/-- A message kind is read back from its code. -/
theorem msgKindOf_code (k : MsgKind) : msgKindOf k.code = some k := by cases k <;> rfl

/-- A message kind's owner is reached when its length suits it. -/
theorem carryOut_kind (k : MsgKind) (s : State) (p : List Byte) (h : k.accepts p.length = true) :
    carryOut k.code s p = ownerCarriesOut k s p := by
  simp [carryOut, msgKindOf_code, h]

/-- RESTART alone leaves a restart pending. -/
theorem leavesRestart_kind (k : MsgKind) (p : List Byte) :
    leavesRestart k.code p = (k == .restart && p.isEmpty) := by
  cases k <;> rfl

/-- A message of a kind and a length that suit, other than RESTART, from what its owner makes of it: the one lemma that
the statements about message rows cite. -/
theorem addressedFrame_message {s : State} {own : Nat} {seq : Byte} (k : MsgKind) (p : List Byte) (t : State) (r : Reply)
    (h : FreshFrame s own seq) (ha : k.accepts p.length = true) (hk : ownerCarriesOut k (s.setRx .hunt) p = (t, r))
    (hl : t.link = (s.setRx .hunt).link) (hr : k ≠ .restart) :
    s.addressedFrame seq k.code p = ({ t with link := s.link }).replied own seq k.code r := by
  have hp : p.length ≤ 200 := by
    cases k <;> simp_all [MsgKind.accepts] <;> omega
  rw [addressedFrame_carried k.code p t r h hp (by rw [carryOut_kind k _ _ ha, hk]) hl, leavesRestart_kind]
  have : (k == MsgKind.restart) = false := by simp [hr]
  simp [State.replied, this]

end Sys2Proof.Machine
end

