-- ==== Sys2Proof/Tests/Slice0.lean ====
section
/-!
SUPPORT. Small tests: ill-formed commands refused by the checks, the manual's own examples and tables, one or two steps of
each command, and, for each statement with hypotheses, a witness that meets them.
-/

namespace Sys2Proof.Tests

open Sys2Proof.Machine

set_option Elab.async false

/-! ### Helpers -/

/-- The state a command leaves. -/
def run (i : Instr) (s : State) : State :=
  match exec i s with
  | .next t => t
  | .fault _ | .refused _ => s

/-- The payload of the saved reply. -/
def reply (s : State) : List Byte :=
  match s.link.cache with
  | some (_, b) => (b.drop 5).take (b.length - 7)
  | none => []

/-- A mask from its positions. -/
def at' (ps : List Nat) : Mask := maskOf ps.contains

/-- The unit right after a full reset; its own address is 1. -/
def base : State := State.reset

/-- A request of one item. -/
def request (tag : Nat) (o : Origin) (st : ReqState) (it : Item) : Request :=
  ⟨tag, o, 0, .explicit .print, false, [it, .clear], st, .start, 0, 0, 0, false, false, false, false⟩

/-- Host request 1, RASTERING, with these items and its progress at a place of item `item`. -/
def worked (items : List Item) (item : Nat) (place : Place) : Request :=
  { request 1 .host .rastering .clear with items := items, progress := ⟨item, place⟩, itemsDone := item }

/-- A unit whose generator works on that request; the driver holds a sweep operation in its gap. -/
def working (items : List Item) (item : Nat) (place : Place) (latch : Option Latch) : State :=
  { base with
    queue := ⟨[worked items item place], 2⟩
    gen := ⟨some 1, some ⟨⟨0, 0, 96, 32⟩, .print, true, false⟩, latch, none⟩
    driver := ⟨.gap, some ⟨.sweep, ⟨⟨9, 0⟩, 1, 0⟩, .set, .completed, .notRun⟩, some 500, some 200, 0⟩ }

/-- A driver in PULSE with a request operation of tag 1. -/
def pulsing (op : StripOp) (gap : Nat) : State :=
  { base with
    queue := ⟨[{ request 1 .host .draining .clear with
      outstanding := 1, generated := 1, itemsDone := 2, progress := ⟨2, .itemStart⟩ }], 2⟩
    driver := ⟨.pulse, some ⟨.ring 1, op, .set, .pulsing, .notRun⟩, some 500, some gap, 0⟩ }

/-- A driver that waits in WAIT_CHARGE with a set phase of one dot, enough charge, and an overcurrent input at a level. -/
def waiting (ocin : Bool) : State :=
  { base with
    ocin := ocin
    charge := ⟨10, 100⟩
    driver := ⟨.waitCharge, some ⟨.sweep, ⟨⟨2, 0⟩, 1, 0⟩, .set, .notBegun, .notRun⟩, none, none, 0⟩ }

/-- A unit whose touch scanner is scanning, with the beams of a full reset. -/
def touching (contact : ContactState) (saw : Bool) : State :=
  { base with
    settings := { base.settings with touchEnable := 1, pressConfirm := 1, releaseConfirm := 1 }
    touch := { base.touch with scanner := .scanning ⟨10, saw⟩, contact := contact } }

/-! ### Ill-formed commands -/

theorem test_payload_of_200_fits : wellFormed (.draw 0 (List.replicate 200 0)) = true := by decide +kernel
theorem test_payload_of_201_does_not_fit : wellFormed (.draw 0 (List.replicate 201 0)) = false := by decide +kernel
theorem test_cancel_with_tag_0_is_not_cancel : wellFormed (.cancel 0 [0, 0]) = false := by decide
theorem test_cancel_all_with_a_tag : wellFormed (.cancelAll 0 [1, 0]) = false := by decide
theorem test_define_with_undefine_byte : wellFormed (.setViewportDefine 0 [1, 0]) = false := by decide
theorem test_undefine_with_define_byte : wellFormed (.setZoneUndefine 0 [1, 1]) = false := by decide
theorem test_unknown_kind_that_is_known : wellFormed (.unknownKind 0 0x10 []) = false := by decide
theorem test_broadcast_restart_with_payload : wellFormed (.broadcastRestart 0 [0]) = false := by decide
theorem test_broadcast_cancel_with_a_tag : wellFormed (.broadcastCancel 0 [0, 1]) = false := by decide
theorem test_short_low_resetn : wellFormed (.fullResetEntry (.resetnLow 9)) = false := by decide
theorem test_dropped_body_incomplete : wellFormed (.frameDropped [1, 0, 5, 1, 1, 0, 0]) = false := by decide

/-! ### Words of the table -/

/-- The table gives its rows no bits, so a word spells no command. -/
theorem test_no_word_spells_a_command : decodeTableWord 8 0x10 = none := rfl

/-! ### The manual's examples -/

/-- R170: the CRC over 0x31 to 0x39 is 0x29B1. -/
theorem test_crc_check_value : crc16 [0x31, 0x32, 0x33, 0x34, 0x35, 0x36, 0x37, 0x38, 0x39] = 0x29B1 := by
  decide +kernel

/-- The example after R169: RESUME to unit 5 with sequence 0xE7, up to its CRC. -/
theorem test_escaped_sequence :
    (lineChars (frameBody 5 0 0xE7 0x12 [])).take 7 = [0xE7, 0x05, 0x00, 0xE8, 0xC7, 0x12, 0x00] := by decide +kernel

/-- The example after R54: the line from (0, 0) to (5, 2). -/
theorem test_line : (List.range 6).map (lineDot 0 0 5 2) = [(0, 0), (1, 0), (2, 1), (3, 1), (4, 2), (5, 2)] := by
  decide +kernel

/-- The example after R54: the line from (2, 1) to (0, 0) rounds the other way. -/
theorem test_line_reversed : (List.range 3).map (lineDot 2 1 0 0) = [(2, 1), (1, 0), (0, 0)] := by decide +kernel

/-- The example after R191: one DOT at (-3, 5). -/
theorem test_draw_example :
    parseDraw base.viewports [0x00, 0x01, 0x01, 0x02, 0x00, 0x01, 0x01, 0x04, 0xFD, 0xFF, 0x05, 0x00] =
      .ok ⟨0, .explicit ⟨.set, .clear⟩, false, [.dot (-3) 5]⟩ := by rfl

/-- The strip of the example after R94: ON at 0 to 3, OFF at 4 to 7, claimed whole as ink. -/
def flipped (rule : InkRule) (force : Bool) : StripOp :=
  formOp (fun _ _ => some .ink) rule force [] [(⟨30, 1⟩, ⟨at' [0, 1, 2, 3], at' [4, 5, 6, 7]⟩)] ⟨30, 1⟩

theorem test_flip : flipped ⟨.invert, .leave⟩ true = ⟨⟨30, 1⟩, 0x00F0, 0x000F⟩ := by decide +kernel
theorem test_paint : flipped ⟨.set, .leave⟩ false = ⟨⟨30, 1⟩, 0xFFF0, 0⟩ := by decide +kernel
theorem test_paint_forced : flipped ⟨.set, .leave⟩ true = ⟨⟨30, 1⟩, 0xFFFF, 0⟩ := by decide +kernel
theorem test_scrape : flipped ⟨.clear, .leave⟩ false = ⟨⟨30, 1⟩, 0, 0xFF0F⟩ := by decide +kernel

/-- The worked sequence of chapter 1: 23 dead dots, tag 12 in the hand, tag 13 in the ring. -/
def twoDead : State :=
  { pulsing ⟨⟨40, 0⟩, at' [2, 3, 4, 5, 6], at' [10, 11]⟩ 200 with
    dead := (List.range 23).map fun i => ⟨i, 0, .request⟩
    image := [(⟨40, 0⟩, ⟨at' [2, 3, 5], ~~~(at' [2, 3, 5])⟩)]
    ring := [⟨13, ⟨⟨40, 0⟩, 0, at' [4, 6]⟩⟩] }

theorem test_dead_dots_ring :
    (run (.pulseEnd (at' [2, 3, 5])) twoDead).ring = [⟨13, ⟨⟨40, 0⟩, 0, at' [6]⟩⟩] := by decide +kernel
theorem test_dead_dots_reports :
    (run (.pulseEnd (at' [2, 3, 5])) twoDead).reports.entries.map (·.report) =
      [.dot 40 4 .request true, .dot 40 6 .request false] := by decide +kernel

/-! ### The message rows -/

/-- R185, R190: family 0x0240, revision 3, address 1, rate 0, 96 columns, 2 strip rows. -/
theorem test_query : (reply (run (.query 5 []) base)).take 8 = [0, 0x40, 0x02, 3, 1, 0, 96, 2] := by decide +kernel
theorem test_query_length : (reply (run (.query 5 []) base)).length = 21 := by decide +kernel

/-- The worked sequence of chapter 11, event 1: the beams do not fit the smaller panel. -/
theorem test_configure_cross_field : reply (run (.configure 5 [1, 64, 0, 2, 1, 0]) base) = [3, 0xFF] := by
  decide +kernel
/-- The same, event 2: pulse length 520 is pair 5. -/
theorem test_configure_bad_pair :
    reply (run (.configure 5 [1, 64, 0, 2, 1, 0, 8, 16, 0, 12, 1, 0, 9, 4, 0, 3, 0x08, 0x02]) base) = [3, 5] := by
  decide +kernel

/-- R177: the effect of RESTART waits for its reply's end. -/
theorem test_restart_waits : (run (.restart 5 []) (pulsing ⟨⟨0, 0⟩, 1, 0⟩ 0)).driver.state = .pulse := by
  decide +kernel
/-- R191, check 2 of the example: the item runs past the payload. -/
theorem test_draw_bad_length :
    reply (run (.draw 5 [0, 1, 1, 2, 0, 1, 0x01, 0x05, 0xFD, 0xFF, 0x05, 0x00]) base) = [2] := by decide +kernel
/-- R22: tag 1 is given and the generator takes the request at once. -/
theorem test_draw_accepted :
    reply (run (.draw 5 [0, 1, 1, 2, 0, 1, 0x01, 0x04, 0xFD, 0xFF, 0x05, 0x00]) base) = [0, 1, 0] := by decide +kernel
theorem test_cancel_not_found : reply (run (.cancel 5 [7, 0]) base) = [8] := by decide +kernel
/-- R100: a RASTERING request with nothing outstanding leaves at once. -/
theorem test_cancel_rastering :
    (run (.cancel 5 [1, 0]) (working [.clear] 0 .itemStart none)).reports.entries.map (·.report) =
      [.completion 1 .cancelled 0 0 false false false] := by decide +kernel
theorem test_cancel_all_counts : reply (run (.cancelAll 5 [0, 0]) (pulsing ⟨⟨0, 0⟩, 1, 0⟩ 0)) = [0, 0, 1] := by
  decide +kernel
theorem test_resume_not_held : reply (run (.resume 5 []) base) = [0x0B] := by decide +kernel
theorem test_set_viewport :
    (run (.setViewportDefine 5 [1, 1, 90, 20, 6, 12, 1, 0, 1, 1, 0xFF, 0xFF, 3, 0]) base).viewport 1 =
      ⟨true, ⟨90, 20, 6, 12⟩, ⟨.set, .leave⟩, true, -1, 3⟩ := by decide +kernel
/-- R44: the first failing field is the width, at index 4. -/
theorem test_set_viewport_too_wide :
    reply (run (.setViewportDefine 5 [1, 1, 90, 20, 7, 13, 1, 0, 1, 1, 0, 0, 0, 0]) base) = [3, 4] := by decide +kernel
theorem test_undefine_viewport_0 :
    reply (run (.setViewportUndefine 5 [0, 0, 0, 0, 0, 0, 0, 0, 0, 0, 0, 0, 0, 0]) base) = [3, 1] := by decide +kernel
theorem test_get_viewport :
    reply (run (.getViewport 5 [0]) base) = [0, 0, 1, 0, 0, 96, 32, 1, 2, 1, 0, 0, 0, 0] := by decide +kernel
theorem test_set_font :
    (run (.setFont 5 [3, 8, 1, 2, 1, 63]) base).store.font 3 = ⟨true, 8, 1, 2, some 63⟩ := by decide +kernel
theorem test_drop_font_not_found : reply (run (.dropFont 5 [3]) base) = [8] := by decide +kernel
/-- R73, R188: a 2-column glyph of height 5; bits above the height are ignored. -/
theorem test_load_glyph :
    (run (.loadGlyph 6 [3, 65, 2, 0xFF, 0x04]) (run .replyEnd (run .replyStart (run (.setFont 5 [3, 5, 1, 0, 0, 0]) base)))).store.glyph
      3 65 = some ⟨3, 65, [0x1F, 0x04]⟩ := by decide +kernel
theorem test_drop_glyph_not_found : reply (run (.dropGlyph 5 [3, 65]) base) = [8] := by decide +kernel
theorem test_read_image : reply (run (.readImage 5 [0, 40, 1]) twoDead) = [0, 0, 40, 1, 0xFF, 0xFF, 0x2C, 0] := by
  decide +kernel
theorem test_list_dead_dots : (reply (run (.listDeadDots 5 []) twoDead)).take 5 = [0, 23, 0, 0, 0] := by decide +kernel
theorem test_forget_dead_dot : (run (.forgetDeadDot 5 [22, 0]) twoDead).dead.length = 22 := by decide +kernel
theorem test_set_zone :
    (run (.setZoneDefine 5 [16, 1, 0, 0, 96, 32, 2]) base).zones.getD 15 .undefined =
      ⟨true, ⟨0, 0, 96, 32⟩, .hold⟩ := by decide +kernel
theorem test_undefine_zone_not_found : reply (run (.setZoneUndefine 5 [16, 0, 0, 0, 0, 0, 0]) base) = [8] := by
  decide +kernel

/-- A queue with two entries, both unsent, and a coalescing reference. -/
def reporting : State :=
  { base with
    reports := ⟨[⟨4, .driver ⟨3, 1⟩ .clear, false⟩, ⟨5, .move 4 72 12 0 false, false⟩], 6, true, 0x1F, some 5⟩ }

theorem test_collect :
    reply (run (.collect 5 [4, 0]) reporting) = [0, 1, 1, 1, 5, 0, 2, 2, 4, 72, 12, 0, 0, 0, 0] := by decide +kernel
theorem test_collect_ends_coalescing : (run (.collect 5 [4, 0]) reporting).reports.coalesce = none := by decide +kernel
/-- Chapter 9, events 6 and 7: an unsent MOVE is replaced under a new number. -/
theorem test_move_coalesces :
    (reporting.offer (.move 4 76 12 0 false)).reports.numbers = [4, 6] := by decide +kernel
theorem test_subscribe : reply (run (.subscribe 5 [0x12]) base) = [0, 0x12] := by decide +kernel
theorem test_subscribe_bad_field : reply (run (.subscribe 5 [0x20]) base) = [3, 0] := by decide +kernel
theorem test_unknown_kind : reply (run (.unknownKind 5 0x55 [1, 2]) base) = [1] := by decide +kernel
theorem test_broadcast_restart : (run (.broadcastRestart 5 []) (pulsing ⟨⟨0, 0⟩, 1, 0⟩ 0)).driver.state = .idle := by
  decide +kernel
theorem test_broadcast_cancel_gets_no_reply :
    (run (.broadcastCancel 5 [0, 0]) (working [.clear] 0 .itemStart none)).link.tx = .idle := by decide +kernel

/-! ### The events -/

theorem test_gap_drops_a_partial_frame : (run .receiverGapTimeout (base.setRx (.body [1, 0] 0))).link.rx = .hunt := by
  decide +kernel
theorem test_reply_start_raises_de : (run .replyStart (base.answer [1] false)).deHigh = true := by decide +kernel
theorem test_reply_end_lowers_de : (run .replyEnd (run .replyStart (base.answer [1] false))).deHigh = false := by
  decide +kernel
theorem test_short_resetn : (run (.fullResetEntry (.resetnLow 9)) base).inReset = false := by decide +kernel
theorem test_reset_reads_straps :
    (run (.fullResetExit 31 2) (run (.fullResetEntry .powerOn) base)).link.ownAddress = none := by decide +kernel
/-- R6, R120: the pulsing phase's dot is lost. -/
theorem test_overcurrent :
    imageDot (run (.overcurrent false) { pulsing ⟨⟨2, 0⟩, 1, 0⟩ 0 with image := [(⟨2, 0⟩, ⟨1, 2⟩)] }).image 2 0 =
      .unknown := by decide +kernel
theorem test_recharge_stops_at_64 : (run .rechargeStep { base with charge := ⟨64, 100⟩ }).charge.level = 64 := by
  decide +kernel
/-- R107, R112: the coil lines of a set phase and of a clear phase in PULSE. -/
theorem test_coil_lines_in_pulse :
    (pulsing ⟨⟨2, 1⟩, 0x8001, 6⟩ 0).coilLines = ⟨some ⟨2, 1⟩, true, false, 0x8001⟩ ∧
      (run .gapEnd
        { base with
          charge := ⟨3, 100⟩
          driver := ⟨.gap, some ⟨.ring 1, ⟨⟨2, 1⟩, 1, 6⟩, .set, .completed, .notBegun⟩, some 500, some 0, 0⟩ }).coilLines =
        ⟨some ⟨2, 1⟩, false, true, 6⟩ := by decide +kernel
/-- R113: a latched gap of 0 completes the operation, and its request leaves DONE, in the same event. -/
theorem test_pulse_end_gap_0 :
    (run (.pulseEnd 1) (pulsing ⟨⟨2, 0⟩, 1, 0⟩ 0)).reports.entries.map (·.report) =
      [.completion 1 .done 1 2 false false false] := by decide +kernel
/-- R114: the clear phase follows; its one dot is paid from the charge. -/
theorem test_gap_end_starts_clear :
    (run .gapEnd
      { base with
        charge := ⟨3, 100⟩
        driver := ⟨.gap, some ⟨.ring 1, ⟨⟨2, 0⟩, 1, 2⟩, .set, .completed, .notBegun⟩, some 500, some 0, 0⟩ }).charge.level =
      2 := by decide +kernel
/-- R96: an operation that is due is appended and committed. -/
theorem test_strip_examination :
    (run .stripExamination (working [.box 3 0 1 2 .filled, .clear] 0 (.strip ⟨3, 0⟩) none)).ring =
      [⟨1, ⟨⟨3, 0⟩, 3, 0⟩⟩] := by decide +kernel
/-- R80, R82: the cursor moves by the advance at a cell's end. -/
theorem test_cell_end :
    ((run .stripExamination
      (working [.text 0 none [65, 66], .clear] 0 (.cell 0 0 0 false ⟨2, 0⟩) (some ⟨[0, 0], 4, 1, 0⟩))).viewport 0).cx =
      3 := by decide +kernel
/-- R130, R131: the sweep's copy holds every known dot. -/
theorem test_sweep_expiry :
    (run .sweepExpiry
      { pulsing ⟨⟨2, 0⟩, 1, 0⟩ 0 with
        settings := { base.settings with sweepInterval := 20, columns := 8 }
        image := [(⟨1, 1⟩, ⟨5, 2⟩)]
        sweep := ⟨⟨0, 0⟩, none, some 20⟩ }).sweep = ⟨⟨2, 0⟩, some ⟨⟨1, 1⟩, 5, 2⟩, some 20⟩ := by decide +kernel
/-- R140, R146: beams 3 and 1 are at (14, 6); the press is reported there. -/
theorem test_press :
    (run (.scanEnd 8 2) (touching .none false)).reports.entries.map (·.report) = [.press 0 14 6 0 false] := by
  decide +kernel
theorem test_release :
    (run (.scanEnd 0 0) (touching (.down ⟨7, 14, 6, 0, 0, none, .none, false⟩) false)).reports.entries.map (·.report) =
      [.release 7 14 6 0 false false] := by decide +kernel
/-- R171: ESC and the byte after it make one body byte. -/
theorem test_escape :
    (run (.characterReceived 0x61 true) (base.setRx (.escape [] 0xFFFF))).link.rx = .body [0x41] (crcByte 0xFFFF 0x41) := by
  decide +kernel
theorem test_frame_for_another_unit :
    run (.frameDropped (frameBody 2 0 5 1 [])) (base.setRx (.body [] 0)) = base := by decide +kernel

/-! ### Witnesses: concrete states and operands that meet the hypotheses of each statement

A fresh addressed frame is met by `base` with own address 1 and any sequence (`fresh`); the further hypotheses of a
message's statement are shown beside it, clause by clause. -/

/-- The unit with some states of its blocks that the clauses name. -/
def held : State := { base with driver := ⟨.held, none, some 500, some 200, 0⟩ }

/-- Twelve host requests, one in each state among them. -/
def crowded : State :=
  { working [.clear] 0 .itemStart none with
    queue :=
      ⟨[{ request 1 .host .rastering .clear with outstanding := 1 }, request 2 .host .draining .clear,
          request 3 .echo .queued .clear] ++ (List.range 10).map (fun i => request (i + 4) .host .queued .clear), 14⟩ }

/-- A store with font 3, height 5, and one glyph. -/
def stored : State :=
  { base with
    store := ⟨base.store.fonts.set 3 ⟨true, 5, 1, 0, some 65⟩, [⟨3, 65, [0x1F, 0x04]⟩], 2046⟩ }

/-- A unit that has run a while from the full reset: a request rasterising, operations appended, a phase pulsing. -/
def inUse : State :=
  { ([.draw 5 [0, 1, 1, 2, 0, 2, 6, 0, 1, 4, 2, 0, 2, 0], .replyStart, .replyEnd, .stripExamination, .stripExamination,
      .stripExamination, .rechargeStep, .setFont 6 [3, 5, 1, 0, 0, 0], .replyStart, .replyEnd,
      .loadGlyph 7 [3, 65, 2, 31, 4], .replyStart, .replyEnd, .setZoneDefine 9 [1, 1, 0, 0, 20, 20, 2], .replyStart,
      .replyEnd].foldl (fun s i => run i s)
      { base with charge := ⟨64, 100⟩ } : State) with
    pending := [.pulseEnd 0xFFFF] }

theorem fresh : FreshFrame base 1 5 := by decide +kernel

theorem witness_TablesChangeOnlyByTheirCommands : Instr.WellFormed (.configure 5 [3, 244, 1]) := by decide +kernel
theorem witness_EveryStepKeepsUnitSound_1 :
    StoreSound inUse.store ∧ ReportsSound inUse.reports ∧ ImageSound inUse.image ∧ LinkSound inUse.link ∧
      PanelSound inUse := by decide +kernel
theorem witness_EveryStepKeepsUnitSound_2 : WorkSound inUse ∧ GeneratorSound inUse := by decide +kernel
theorem witness_EveryStepKeepsUnitSound_3 :
    DriverSound inUse ∧ TouchSound inUse ∧ inUse.driver.state = .pulse ∧ inUse.ocin = false := by decide +kernel
theorem witness_EveryStepKeepsUnitSound :
    UnitSound inUse ∧ step inUse = .next (run (.pulseEnd 0xFFFF) { inUse with pending := [] }) :=
  ⟨⟨witness_EveryStepKeepsUnitSound_1, fun _ => ⟨witness_EveryStepKeepsUnitSound_2.1,
    witness_EveryStepKeepsUnitSound_2.2, witness_EveryStepKeepsUnitSound_3.1, witness_EveryStepKeepsUnitSound_3.2.1,
    fun _ => witness_EveryStepKeepsUnitSound_3.2.2.2⟩⟩, rfl⟩
theorem witness_EveryStepKeepsWorkSound :
    WorkSound inUse ∧ step inUse = .next (run (.pulseEnd 0xFFFF) { inUse with pending := [] }) ∧
      (run (.pulseEnd 0xFFFF) { inUse with pending := [] }).inReset = false :=
  ⟨witness_EveryStepKeepsUnitSound_2.1, rfl, by decide +kernel⟩
theorem witness_EveryStepKeepsEachBlockSound :
    step inUse = .next (run (.pulseEnd 0xFFFF) { inUse with pending := [] }) ∧ StoreSound inUse.store ∧
      ReportsSound reporting.reports ∧ inUse.image ≠ [] ∧ ImageSound inUse.image ∧
      (inUse.zones.getD 0 .undefined).defined = true ∧ PanelSound inUse ∧ inUse.charge.level ≤ Config.chargeMax ∧
      LinkSound (base.answer [1] false).link :=
  ⟨rfl, by decide +kernel⟩

theorem witness_WireFramesRunTheirCommand :
    frameOf (.draw 5 (List.replicate 200 0xE7)) = some ⟨false, 5, 0x10, List.replicate 200 0xE7⟩ ∧
      (List.replicate 200 (0xE7 : Byte)).length ≤ 200 ∧ base.inReset = false ∧ base.isSending = false ∧
      base.link.ownAddress = some 1 := by decide +kernel
theorem witness_WireDroppedFramesChangeNothing :
    bodyComplete (frameBody 2 0 5 1 []) = true ∧ base.inReset = false ∧ base.isSending = false ∧
      base.dropsFrame (frameBody 2 0 5 1 []) = true := by decide +kernel
theorem witness_FramesThatAreNotCarriedOut :
    frameOf (.query 5 []) = some ⟨false, 5, 0x01, []⟩ ∧ base.link.ownAddress = some 1 ∧
      ({ base with link := { base.link with cache := some (5, [1]) } } : State).link.cache = some (5, [1]) ∧
      (base.answer [1] false).link.tx = .turnaround [1] false ∧
      (run .replyStart (base.answer [1] false)).link.tx = .sending [1] false := by decide +kernel
theorem witness_UnknownKindAndBadLength :
    frameOf (.unknownKind 5 0x13 []) = some ⟨false, 5, 0x13, []⟩ ∧ (0x13 : Byte) ∉ messageCodes ∧
      (0x02 : Byte) ∈ messageCodes ∧ lengthAccepted 0x02 60 = false ∧ lengthAccepted 0x02 57 = true ∧
      lengthAccepted 0x02 0 = false := by decide +kernel
theorem witness_LineEventsMoveReceiverAndTransmitter :
    base.inReset = false ∧ base.isSending = false ∧ base.link.rx = .hunt ∧
      (run (.characterReceived 0xE7 true) base).link.rx = .body [] 0xFFFF ∧
      (base.setRx (.escape [] 0xFFFF)).link.rx = .escape [] 0xFFFF ∧ (0x41 : Byte) ≠ 0xC7 ∧
      ([1, 0, 5, 1] : List Byte).length = 4 ∧ 200 < (201 : Byte).toNat ∧ (201 : Byte) ^^^ 0x20 ≠ 0xE7 ∧
      (run .replyStart (base.answer [1] false)).isSending = true := by decide +kernel
theorem witness_QueryAnswersWithSnapshot : FreshFrame inUse 1 8 := by decide +kernel
theorem witness_ConfigureChecksInOrder :
    PairsFit [(1, 240), (1, 241)] ∧ settingInRange 1 240 = true ∧ settingInRange 1 241 = false ∧
      settingInRange 1 64 = true ∧ (settingsAfter base.settings [(1, 64)]).beamsInside = false ∧
      (settingsAfter crowded.settings [(1, 97)]).beamsInside = true ∧ crowded.queue.requests ≠ [] ∧
      FreshFrame crowded 1 5 := by decide +kernel
theorem witness_ConfigureTakesEffectInOneEvent :
    PairsFit [(7, 1), (6, 20)] ∧ (∀ e ∈ [(7, 1), (6, 20)], settingInRange e.1 e.2 = true) ∧
      (settingsAfter base.settings [(7, 1), (6, 20)]).beamsInside = true ∧
      (settingsAfter base.settings [(7, 1), (6, 20)]).columns = base.settings.columns := by decide +kernel

/-- A quiet scan that is running blocks a phase that waits. -/
def quietened : State :=
  { waiting false with settings := (touching .none false).settings, touch := { base.touch with scanner := .quiet ⟨10, false⟩ } }

theorem witness_ConfigureTakesEffectInOneEvent_quiet :
    FreshFrame quietened 1 5 ∧ PairsFit [(7, 0)] ∧ (∀ e ∈ [(7, 0)], settingInRange e.1 e.2 = true) ∧
      (settingsAfter quietened.settings [(7, 0)]).beamsInside = true ∧ quietened.quietPending = true ∧
      (run (.configure 5 (configurePayload [(7, 0)])) quietened).driver.state = .pulse := by decide +kernel
theorem witness_GeometryChangeResetsThePanel :
    PairsFit [(1, 240)] ∧ (∀ e ∈ [(1, 240)], settingInRange e.1 e.2 = true) ∧
      (settingsAfter base.settings [(1, 240)]).beamsInside = true ∧
      (settingsAfter base.settings [(1, 240)]).columns ≠ base.settings.columns ∧ base.queue.requests = [] ∧
      base.ring = [] ∧ base.driver.hand = none := by decide +kernel
theorem witness_RestartKeepsAndEmpties :
    (run .replyStart (base.answer [1] true)).link.tx = .sending [1] true ∧ inUse.inReset = false ∧
      inUse.isSending = false := by decide +kernel
theorem witness_FullResetLeavesTheResetState : (run (.fullResetEntry .powerOn) inUse).inReset = true := by
  decide +kernel

/-- A drawing with an item of each kind. -/
def drawing : DrawForm :=
  ⟨0, .viewport, true, [.dot (-32768) 32767, .line 0 0 5 2, .box 0 0 4096 1 .outline, .text 7 none [255],
    .text 0 (some (-1, 3)) [65], .image 0 0 2 9 [1, 2, 3, 4], .clear, .cursor 1 2, .newline 64]⟩

theorem witness_DrawPayloadReadsBack :
    drawing.fits = true ∧ (base.viewports.getD drawing.viewport .undefined).defined = true := by decide +kernel
theorem witness_DrawIsRefusedInOrder_1 :
    parseDraw base.viewports [1, 0, 0, 0, 0, 1] = .error [3, 0xFF] ∧ FreshFrame held 1 5 ∧ held.driver.state = .held :=
  ⟨rfl, by decide +kernel, rfl⟩
theorem witness_DrawIsRefusedInOrder_2 :
    (∃ d, parseDraw crowded.viewports [0, 0, 0, 0, 0, 1, 6, 0] = .ok d) ∧ crowded.driver.state ≠ .held ∧
      12 ≤ (crowded.pool .host).length := ⟨⟨_, rfl⟩, by decide +kernel, by decide +kernel⟩
/-- After a CLEAR that passes: a NEWLINE of 65 rows, an item of 2 bytes with 1 left, one byte of a header, an item left over. -/
theorem witness_DrawIsRefusedInOrder_3 :
    itemRefused 8 [65] ∧ Item.clear.fits = true ∧ Item.clear.encode = [6, 0] ∧
      [[2, 6, 0, 8, 1, 65], [2, 6, 0, 8, 2, 65], [2, 6, 0, 8], [1, 6, 0, 6, 0]].map (fun p =>
        reply (run (.draw 5 ([0, 0, 0, 0, 0] ++ p)) base)) = [[3, 1], [2], [2], [2]] :=
  ⟨.inr (.inr (by decide)), by decide +kernel⟩
theorem witness_DrawJoinsTheQueue :
    drawing.fits = true ∧ (base.viewport drawing.viewport).defined = true ∧ base.driver.state ≠ .held ∧
      (base.pool .host).length < 12 ∧ base.gen.current = none ∧ inUse.gen.current = some 1 ∧
      FreshFrame inUse 1 8 ∧ (inUse.pool .host).length < 12 ∧ InCount inUse.queue.tagCounter := by decide +kernel
theorem witness_NumbersPassOverThoseInUse : InCount 65535 ∧ [65535, 1].length < 65535 := by decide
theorem witness_GeneratorArbiterPrefersEchoes :
    (crowded.queue.requests.map (·.tag)).Nodup ∧ crowded.freeGenerator.gen.current = none ∧
      crowded.freeGenerator.driver.state ≠ .held ∧
      crowded.queue.requests = crowded.queue.requests.take 2 ++ request 3 .echo .queued .clear ::
        crowded.queue.requests.drop 3 ∧ crowded.gen.current ≠ none := by decide +kernel
theorem witness_CancelActsByTheRequestsState :
    FreshFrame crowded 1 5 ∧ (crowded.queue.requests.map (·.tag)).Nodup ∧ InCount 65535 ∧
      (crowded.request 4).map (·.state) = some .queued ∧ (crowded.request 1).map (·.state) = some .rastering ∧
      (crowded.request 2).map (·.state) = some .draining ∧ (crowded.request 3).map (·.origin) = some .echo ∧
      ((working [.clear] 0 .itemStart none).request 1).map (·.outstanding) = some 0 := by decide +kernel
theorem witness_CancelAllReachesEveryHostRequest :
    FreshFrame crowded 1 5 ∧ (crowded.queue.requests.map (·.tag)).Nodup ∧ crowded.inReset = false ∧
      crowded.isSending = false ∧ ((0 : Byte) ≠ 0 ∨ (1 : Byte) ≠ 0) := by decide +kernel
theorem witness_ResumeEndsTheHold :
    FreshFrame held 1 5 ∧ held.driver.state = .held ∧ held.ring = [] ∧ held.sweep.slot = none ∧
      base.driver.state ≠ .held := by decide +kernel

theorem witness_SetViewportDefinesItsRecord :
    (7 : Byte).toNat ≤ 7 ∧ coordinateFits (-32768) = true ∧ coordinateFits 32767 = true ∧
      (1 ≤ (6 : Byte).toNat ∧ (90 : Byte).toNat + (6 : Byte).toNat ≤ base.settings.columns ∧
        1 ≤ (32 : Byte).toNat ∧ (0 : Byte).toNat + (32 : Byte).toNat ≤ 16 * base.settings.stripRows) := by
  decide +kernel
theorem witness_SetViewportUndefinesUnlessInUse :
    (base.viewport 7).defined = false ∧ (List.replicate 12 (0 : Byte)).length = 12 ∧
      ((run (.setViewportDefine 4 [1, 1, 0, 0, 6, 12, 1, 0, 1, 0, 0, 0, 0, 0]) base).viewport 1).defined = true := by
  decide +kernel
/-- A request of the queue names viewport 1, which is defined. -/
def naming : State :=
  { base with
    viewports := base.viewports.set 1 ⟨true, ⟨0, 0, 6, 12⟩, .print, true, 0, 0⟩
    queue := ⟨[{ request 1 .host .queued .clear with viewport := 1 }], 2⟩ }

theorem witness_SetViewportUndefinesUnlessInUse_named :
    FreshFrame naming 1 5 ∧ (naming.viewport 1).defined = true ∧ (∃ r ∈ naming.queue.requests, r.viewport = 1) ∧
      reply (run (.setViewportUndefine 5 [1, 0, 0, 0, 0, 0, 0, 0, 0, 0, 0, 0, 0, 0]) naming) = [0x0A] := by decide +kernel
theorem witness_FieldsAreCheckedInOrder :
    7 < (8 : Byte).toNat ∧ base.settings.columns ≤ (96 : Byte).toNat ∧ 3 < (4 : Byte).toNat ∧
      base.settings.columns < (95 : Byte).toNat + (2 : Byte).toNat ∧ 2 < (3 : Byte).toNat ∧ 32 < (33 : Byte).toNat ∧
      8 < (9 : Byte).toNat ∧ 16 < (17 : Byte).toNat ∧ 1 < (2 : Byte).toNat := by decide +kernel
theorem witness_FontsAreSetAndDropped :
    FreshFrame stored 1 5 ∧ (stored.store.font 3).defined = true ∧ (∃ y ∈ stored.store.glyphs, y.font = 3) ∧
      (32 : Nat) ≠ (stored.store.font 3).height ∧ (stored.store.font 7).defined = false ∧ 7 < (8 : Byte).toNat := by decide +kernel
theorem witness_LoadGlyphMakesOrReplaces :
    FreshFrame stored 1 5 ∧ StoreSound stored.store ∧ (stored.store.font 3).defined = true ∧
      (List.replicate 32 (1 : Byte)).length = (32 : Byte).toNat * (((stored.store.font 3).height + 7) / 8) ∧
      (stored.store.glyph 3 65).isSome = true ∧ stored.store.glyph 3 66 = none := by decide +kernel
theorem witness_DropGlyphAndLoadGlyphRefusals :
    StoreSound stored.store ∧ stored.store.glyph 3 65 ≠ none ∧ stored.store.glyph 7 0 = none ∧
      (stored.store.font 7).defined = false ∧ (stored.store.font 3).defined = true ∧ 32 < (33 : Byte).toNat ∧
      ([0] : List Byte).length ≠ (2 : Byte).toNat * (((stored.store.font 3).height + 7) / 8) := by decide +kernel
theorem witness_ReadBackShowsImageAndViewports :
    base.settings.stripRows ≤ (2 : Byte).toNat ∧ ¬base.settings.stripRows ≤ (1 : Byte).toNat ∧
      base.settings.columns ≤ (96 : Byte).toNat ∧ ¬base.settings.columns ≤ (48 : Byte).toNat ∧
      48 < (49 : Byte).toNat ∧
      ¬((48 : Byte) = 0 ∨ 48 < (48 : Byte).toNat ∨ base.settings.columns < (48 : Byte).toNat + (48 : Byte).toNat) := by
  decide +kernel
theorem witness_DeadDotsAreListedAndForgotten :
    FreshFrame twoDead 1 5 ∧ twoDead.dead = (twoDead.dead.take 22) ++ ⟨22, 0, .request⟩ :: [] ∧
      (twoDead.dead.map fun e => (e.x, e.y)).Nodup ∧ (∀ d ∈ twoDead.dead, ¬(d.x = 95 ∧ d.y = 31)) ∧
      twoDead.settings.columns ≤ (96 : Byte).toNat ∧ 16 * twoDead.settings.stripRows ≤ (32 : Byte).toNat := by
  decide +kernel
theorem witness_SetZoneDefinesAndUndefines :
    FreshFrame inUse 1 8 ∧ (16 : Byte).toNat ≤ 16 ∧ (95 : Byte).toNat + (1 : Byte).toNat ≤ base.settings.columns ∧
      (inUse.zones.getD 0 .undefined).defined = true ∧ (inUse.zones.getD 15 .undefined).defined = false := by
  decide +kernel
theorem witness_CollectRemovesThenCarries :
    FreshFrame reporting 1 5 ∧ reporting.reports.numbers.Nodup ∧
      reporting.reports.entries = reporting.reports.entries.take 1 ++ reporting.reports.entries.drop 1 ∧
      ((reporting.reports.entries.take 1).getLast?.map (·.number)) = some 4 ∧
      (∀ e ∈ reporting.reports.entries, e.number ≠ 65535) := by decide +kernel
theorem witness_SubscribeReplacesTheSubscription : (31 : Byte).toNat < 32 ∧ 32 ≤ (32 : Byte).toNat := by decide

/-- A queue of 32 entries. -/
def full : ReportQueue := ⟨(List.range 32).map fun i => ⟨i + 1, .beam .x i true, false⟩, 33, false, 0x1F, none⟩

theorem witness_OfferedReportsJoinReplaceOrAreLost :
    ReportsSound reporting.reports ∧ reporting.reports.subscribed .touch = true ∧
      reporting.reports.coalesce = some 5 ∧
      reporting.reports.entries = reporting.reports.entries.take 1 ++ ⟨5, .move 4 72 12 0 false, false⟩ :: [] ∧
      reporting.reports.entries.length < 32 ∧ ReportsSound full ∧ full.subscribed .dot = true ∧
      full.entries.length = 32 := by decide +kernel

theorem witness_CommitAndLossReachNamedDotsAlone :
    ImageSound twoDead.image ∧ (0x8001 : Mask) &&& 0x7FFE = 0 := by decide +kernel
theorem witness_ClippingTestFindsDotsOutside :
    (Item.box (-1) 0 4096 1 .outline).fits = true ∧ 1 ≤ ([0x1F] : List Pattern).length := by decide +kernel

/-- A line over three columns, of which only the last reaches the second strip row. -/
theorem witness_StripsAreTakenInOrder :
    firstStrip 96 2 (itemClaim ⟨0, 0, 96, 32⟩ (.line 3 0 5 20)) = some ⟨3, 0⟩ ∧
      stripAfter 96 2 (itemClaim ⟨0, 0, 96, 32⟩ (.line 3 0 5 20)) ⟨5, 0⟩ = some ⟨5, 1⟩ ∧
      stripAfter 96 2 (itemClaim ⟨0, 0, 96, 32⟩ (.line 3 0 5 20)) ⟨3, 0⟩ = some ⟨4, 0⟩ ∧
      stripAfter 96 2 (itemClaim ⟨0, 0, 96, 32⟩ (.line 3 0 5 20)) ⟨5, 1⟩ = none ∧
      firstStrip 96 2 (itemClaim ⟨0, 0, 96, 32⟩ (.dot (-1) 0)) = none := by decide +kernel

/-- A graphic item of two strips, at the first of them, (3, 0). -/
def boxed : State := working [.box 3 0 2 2 .filled, .clear] 0 (.strip ⟨3, 0⟩) none

/-- The same, stalled: the ring is full and the strip waits. -/
def stalled : State :=
  { boxed with ring := List.replicate 32 ⟨1, ⟨⟨9, 1⟩, 4, 0⟩⟩, gen := { boxed.gen with waiting := some ⟨3, 0⟩ } }

/-- A TEXT item at a cell of code `i`, three columns wide, blank and its last column already OFF. -/
def lettered (i : Nat) (t : Strip) : State :=
  { working [.text 3 none [65, 66], .clear] 0 (.cell i 0 0 false t) (some ⟨[0, 0], 4, 1, 0⟩) with
    image := [(⟨2, 0⟩, ⟨0, 0x000F⟩)] }

theorem witness_ExaminationPassesAppendsOrStalls_1 :
    Working boxed [] (worked [.box 3 0 2 2 .filled, .clear] 0 (.strip ⟨3, 0⟩)) [] (.box 3 0 2 2 .filled) ∧
      stripAfter 96 2 (itemClaim ⟨0, 0, 96, 32⟩ (.box 3 0 2 2 .filled)) ⟨3, 0⟩ = some ⟨4, 0⟩ ∧
      boxed.gen.waiting = none ∧ boxed.ring.length < 32 ∧
      (formOp (itemClaim ⟨0, 0, 96, 32⟩ (.box 3 0 2 2 .filled)) .print false [] [] ⟨3, 0⟩).isEmpty = false := by
  decide +kernel
theorem witness_ExaminationPassesAppendsOrStalls_2 :
    Working stalled [] (worked [.box 3 0 2 2 .filled, .clear] 0 (.strip ⟨3, 0⟩)) [] (.box 3 0 2 2 .filled) ∧
      stalled.gen.waiting = some ⟨3, 0⟩ ∧ 32 ≤ stalled.ring.length ∧
      ({ stalled with ring := stalled.ring.drop 1 } : State).reexamine.ring.length = 32 := by decide +kernel
theorem witness_ExaminationPassesAppendsOrStalls_3 :
    Working (lettered 0 ⟨0, 0⟩) [] (worked [.text 3 none [65, 66], .clear] 0 (.cell 0 0 0 false ⟨0, 0⟩)) []
        (.text 3 none [65, 66]) ∧
      stripAfter 96 2 (cellClaim ⟨0, 0, 96, 32⟩ ⟨[0, 0], 4, 1, 0⟩ 0 0) ⟨0, 0⟩ = some ⟨1, 0⟩ ∧
      base.gen.current = none ∧ (run (.fullResetEntry .powerOn) base).inReset = true := by decide +kernel

/-- At the first code and at the last; passed with the image of `lettered`, appended with an unknown one. -/
theorem witness_CellEndMovesTheCursor :
    (∀ i ∈ [0, 1], Working (lettered i ⟨2, 0⟩) []
        (worked [.text 3 none [65, 66], .clear] 0 (.cell i 0 0 false ⟨2, 0⟩)) [] (.text 3 none [65, 66])) ∧
      stripAfter 96 2 (cellClaim ⟨0, 0, 96, 32⟩ ⟨[0, 0], 4, 1, 0⟩ 0 0) ⟨2, 0⟩ = none ∧
      [(lettered 0 ⟨2, 0⟩).image, []].map (fun im =>
        (formOp (cellClaim ⟨0, 0, 96, 32⟩ ⟨[0, 0], 4, 1, 0⟩ 0 0) .print false [] im ⟨2, 0⟩).isEmpty) = [true, false] ∧
      (lettered 0 ⟨2, 0⟩).ring.length < 32 := by decide +kernel

/-- A box's only strip, in the last item or before it; passed with the image given, appended with an unknown one. -/
def ending (items : List Item) (item : Nat) : State :=
  { working items item (.strip ⟨3, 0⟩) none with image := [(⟨3, 0⟩, ⟨3, 0⟩)] }

theorem witness_GenerationEndsAfterTheLastItem :
    Working (ending [.clear, .box 3 0 1 2 .filled] 1) [] (worked [.clear, .box 3 0 1 2 .filled] 1 (.strip ⟨3, 0⟩)) []
        (.box 3 0 1 2 .filled) ∧
      Working (ending [.box 3 0 1 2 .filled, .clear] 0) [] (worked [.box 3 0 1 2 .filled, .clear] 0 (.strip ⟨3, 0⟩)) []
        (.box 3 0 1 2 .filled) ∧
      stripAfter 96 2 (itemClaim ⟨0, 0, 96, 32⟩ (.box 3 0 1 2 .filled)) ⟨3, 0⟩ = none ∧
      [(ending [] 0).image, []].map (fun im =>
        (formOp (itemClaim ⟨0, 0, 96, 32⟩ (.box 3 0 1 2 .filled)) .print false [] im ⟨3, 0⟩).isEmpty) = [true, false] ∧
      (ending [] 0).ring.length < 32 := by decide +kernel
theorem witness_ItemStartsByItsKind :
    (∀ it ∈ [Item.clear, .newline 64, .cursor (-1) 5, .text 3 none [65], .dot (-1) 0],
        Working (working [it, .clear] 0 .itemStart none) [] (worked [it, .clear] 0 .itemStart) [] it) ∧
      (stored.store.font 3).defined = true ∧ (base.store.font 3).defined = false := by decide +kernel
theorem witness_GlyphStartChoosesWrapsAndLatches :
    Working { working [.text 3 none [65, 66], .clear] 0 (.glyphStart 0) none with store := stored.store } []
        (worked [.text 3 none [65, 66], .clear] 0 (.glyphStart 0)) [] (.text 3 none [65, 66]) ∧
      (stored.store.glyph 3 65).isSome = true ∧ base.store.glyph 3 66 = none := by decide +kernel

/-- An IDLE driver with both sources ready. -/
def ready (count : Nat) : State :=
  { base with
    ring := [⟨1, ⟨⟨2, 0⟩, 1, 0⟩⟩]
    sweep := ⟨⟨0, 0⟩, some ⟨⟨5, 1⟩, 1, 2⟩, some 10⟩
    driver := { base.driver with passOver := count } }

theorem witness_DriverArbiterPassesOverAtMostFour :
    (ready 3).driver.state = .idle ∧ (ready 3).gen.waiting = none ∧ (ready 3).driver.passOver < 4 ∧
      4 ≤ (ready 4).driver.passOver ∧ (ready 4).sweep.slot ≠ none ∧ (ready 4).ring ≠ [] ∧ inUse.driver.state ≠ .idle ∧
      base.ring = [] ∧ base.sweep.slot = none := by decide +kernel
/-- Log 11: with a stalled generator and a full slot the room that the take makes is filled in the same event. -/
theorem witness_DriverArbiterPassesOverAtMostFour_stalled :
    ({ stalled with driver := base.driver, sweep := (ready 0).sweep } : State).driverArbiter.ring.getLast? =
      some ⟨1, ⟨⟨3, 0⟩, 3, 0⟩⟩ := by decide +kernel
theorem witness_RechargeStepsAndPhaseStarts :
    inUse.driver.state ≠ .waitCharge ∧ (run .gapEnd
      { base with
        driver := ⟨.gap, some ⟨.ring 1, ⟨⟨2, 0⟩, 1, 2⟩, .set, .completed, .notBegun⟩, some 500, some 0, 0⟩ }).driver.state =
        .waitCharge ∧ (run (.fullResetEntry .powerOn) base).inReset = true ∧ inUse.driver.hand.isSome = true ∧
      inUse.ocin = false ∧ (waiting false).driver.hand.isSome = true ∧ (waiting false).tryPhase.driver.state = .pulse ∧
      (waiting true).tryPhase.driver.state = .held ∧ (waiting true).tryPhase.charge.level = 9 := by decide +kernel
theorem witness_PulseEndsInGap :
    (pulsing ⟨⟨2, 0⟩, 0x8001, 0⟩ 0).driver.state = .pulse ∧ (pulsing ⟨⟨2, 0⟩, 0x8001, 0⟩ 0).driver.phaseGap = some 0 ∧
      (∀ p ∈ List.range 16, (0x8001 : Mask).getLsbD p = true → (0x8001 : Mask).getLsbD p = true) ∧
      (at' [4, 6]).getLsbD 4 = true ∧ (at' [2, 3, 5]).getLsbD 4 = false ∧ base.driver.state ≠ .pulse := by decide +kernel
theorem witness_DeadDotIsRecordedAndStruck :
    15 < 16 ∧ ImageSound twoDead.image ∧ twoDead.gen.waiting = none ∧ twoDead.dead.length < 24 ∧
      24 ≤ (twoDead.foundDead ⟨40, 0⟩ .request 4).dead.length := by decide +kernel
/-- The strike removes the only operation of a DRAINING request: its report follows the DOT report (R101). -/
theorem witness_DeadDotIsRecordedAndStruck_removed :
    ({ twoDead with ring := [⟨1, ⟨⟨40, 0⟩, at' [4], 0⟩⟩] } : State).ring.length = 1 ∧
      (({ twoDead with ring := [⟨1, ⟨⟨40, 0⟩, at' [4], 0⟩⟩] } : State).foundDead ⟨40, 0⟩ .request 4).reports.entries.map
        (·.report) = [.dot 40 4 .request true, .completion 1 .done 1 2 false false true] := by decide +kernel
/-- Log 10: the room it makes lets a stalled generator go on. -/
theorem witness_DeadDotIsRecordedAndStruck_stalled :
    ((stalled.foundDead ⟨9, 1⟩ .sweep 2).gen.waiting, (stalled.foundDead ⟨9, 1⟩ .sweep 2).ring) =
      (none, [⟨1, ⟨⟨3, 0⟩, 3, 0⟩⟩]) := by decide +kernel
theorem witness_GapEndsInClearPhaseOrCompletion :
    (run (.pulseEnd 1) (pulsing ⟨⟨2, 0⟩, 1, 0⟩ 200)).driver.state = .gap ∧
      (run (.pulseEnd 1) (pulsing ⟨⟨2, 0⟩, 1, 0⟩ 200)).driver.hand.isSome = true ∧ base.driver.state ≠ .gap ∧
      (crowded.queue.requests.map (·.tag)).Nodup := by decide +kernel
theorem witness_OvercurrentHoldsTheDriver :
    twoDead.driver.state = .pulse ∧ twoDead.driver.hand.isSome = true ∧ ImageSound twoDead.image ∧
      (twoDead.queue.requests.map (·.tag)).Nodup ∧ base.driver.state ≠ .pulse := by decide +kernel
/-- R143: the quiet scan that waited for the pulse starts in the event. -/
theorem witness_OvercurrentHoldsTheDriver_quiet :
    (run (.overcurrent false) { twoDead with touch := { twoDead.touch with scanner := .quietWait } }).touch.scanner =
      .quiet ⟨10, false⟩ := by decide +kernel

/-- A small panel whose sweep is running, with one known strip. -/
def sweeping : State :=
  { pulsing ⟨⟨2, 0⟩, 1, 0⟩ 0 with
    settings := { base.settings with sweepInterval := 20, columns := 8 }
    image := [(⟨1, 1⟩, ⟨5, 2⟩)]
    sweep := ⟨⟨7, 1⟩, none, some 20⟩ }

theorem witness_SweepExpiryFillsTheNextKnownStrip :
    sweeping.sweep.timer ≠ none ∧ sweeping.settings.sweepInterval ≠ 0 ∧ sweeping.driver.state ≠ .held ∧
      sweeping.sweep.slot = none ∧ sweeping.sweep.cursor.col < sweeping.settings.columns ∧
      sweeping.sweep.cursor.row < sweeping.settings.stripRows ∧ base.sweep.timer = none ∧
      base.settings.sweepInterval = 0 ∧ held.driver.state = .held ∧ imageDot sweeping.image 1 16 ≠ .unknown := by
  decide +kernel
theorem witness_VoidedScansDemandAQuietScan :
    (touching .none true).touch.scanner = .scanning ⟨10, true⟩ ∧ base.touch.scanner = .off ∧
      (run (.scanEnd 0 0) { touching .none true with touch := { (touching .none true).touch with voided := 7 } }).touch.scanner =
        .quiet ⟨10, false⟩ := by decide +kernel
theorem witness_BeamsAreBlockedAndCleared :
    (touching .none false).touch.scanner = .scanning ⟨10, false⟩ ∧ quietened.touch.scanner = .quiet ⟨10, false⟩ ∧
      (run (.scanEnd 8 2) quietened).driver.state = .pulse := by decide +kernel
/-- Beams 1, 2 and 4 of an axis of 5, the last beam blocked or not. -/
theorem witness_ScanOutcomesFollowTheRuns :
    [false, true].map (fun b => axisRuns 5 [.clear, .clear, .clear, .clear, ⟨0, b⟩] (0x16 : BitVec 5).getLsbD) =
      [[(1, 2), (4, 4)], [(1, 2)]] := by decide +kernel
theorem witness_PressAndReleaseEchoTheCapturedZone :
    inUse.zones = [] ++ ⟨true, ⟨0, 0, 20, 20⟩, .hold⟩ :: inUse.zones.drop 1 ∧
      (⟨0, 0, 20, 20⟩ : Rect).holds 19 19 = true ∧
      (∀ z ∈ inUse.zones, ¬(z.defined = true ∧ z.rect.holds 20 19 = true)) ∧ (inUse.pool .echo).length < 2 := by
  decide +kernel
/-- A contact with no release echo due ends while the echo pool is full. -/
theorem witness_PressAndReleaseEchoTheCapturedZone_full :
    (({ base with queue := ⟨[request 1 .echo .rastering .clear, request 2 .echo .queued .clear], 3⟩ } : State).pool
        .echo).length = 2 ∧
      ((⟨7, 14, 6, 0, 1, some ⟨0, 0, 20, 20⟩, .press, false⟩ : Contact).releaseEchoDue = true → 2 < 2) := by
  decide +kernel

end Sys2Proof.Tests
end

