-- ==== Sys2Proof/Proofs/ImageDots.lean ====
section
/-!
SUPPORT. The dot image under a commit and a loss (R2, R3, R5, R6): soundness of the image is kept, and each dot's value
is read off.
-/

-- One proof at a time: side by side, the proofs' threads reserve more memory than the check allows.
set_option Elab.async false

namespace Sys2Proof.Machine

/-- No dot of the strip is both ON and OFF (R2). -/
abbrev StripImage.Disjoint (v : StripImage) : Prop := v.on &&& v.off = 0

/-- Two masks are disjoint when no position is in both. -/
theorem mask_disjoint_iff (a b : Mask) :
    a &&& b = 0 ↔ ∀ p, a.getLsbD p = true → b.getLsbD p = false := by
  constructor
  · intro h p ha
    have hp : (a &&& b).getLsbD p = false := by rw [h]; simp
    simpa [ha] using hp
  · intro h
    apply BitVec.eq_of_getLsbD_eq
    intro p _
    rw [BitVec.getLsbD_and]
    cases ha : a.getLsbD p
    · simp
    · simp [h p ha]

theorem StripImage.disjoint_unknown : StripImage.unknown.Disjoint := rfl

/-- Reading a sound image gives a strip without a dot that is both ON and OFF. -/
theorem imageGet_disjoint {im : Image} (h : ImageSound im) (t : Strip) : (imageGet im t).Disjoint := by
  obtain ⟨-, hd⟩ := h
  induction im with
  | nil => exact StripImage.disjoint_unknown
  | cons e l ih =>
    unfold imageGet
    split
    · exact hd e (by simp)
    · exact ih fun x hx => hd x (by simp [hx])

/-- Putting a strip without contradictions in place keeps the image sound. -/
theorem imageSound_imageSet {im : Image} (h : ImageSound im) (t : Strip) {v : StripImage} (hv : v.Disjoint) :
    ImageSound (imageSet im t v) := by
  refine ⟨imageWf_imageSet h.1 t v, fun e he => ?_⟩
  rcases mem_imageSet he with ⟨rfl, -⟩ | he
  · exact hv
  · exact h.2 e he

/-- A commit of disjoint masks keeps ON and OFF apart (R3). -/
theorem StripImage.disjoint_commit {v : StripImage} (hv : v.Disjoint) {a b : Mask} (h : a &&& b = 0) :
    (v.commit a b).Disjoint := by
  simp only [StripImage.Disjoint, mask_disjoint_iff] at *
  intro p
  specialize hv p
  specialize h p
  by_cases hp : p < 16
  · cases ha : a.getLsbD p <;> cases hb : b.getLsbD p <;> simp_all [StripImage.commit]
  · simp [StripImage.commit, BitVec.getLsbD_of_ge, Nat.not_lt.1 hp]

/-- A loss keeps ON and OFF apart (R5, R6). -/
theorem StripImage.disjoint_lose {v : StripImage} (hv : v.Disjoint) (m : Mask) : (v.lose m).Disjoint := by
  simp only [StripImage.Disjoint, mask_disjoint_iff, StripImage.lose, BitVec.getLsbD_and] at *
  intro p hp
  simp only [Bool.and_eq_true] at hp
  simp [hv p hp.1]

/-- A commit of disjoint masks keeps the image sound (R3). -/
theorem imageSound_commitOp {im : Image} (h : ImageSound im) {op : StripOp} (hd : op.setMask &&& op.clearMask = 0) :
    ImageSound (commitOp im op) :=
  imageSound_imageSet h _ (StripImage.disjoint_commit (imageGet_disjoint h _) hd)

/-- A loss keeps the image sound (R5, R6, R10). -/
theorem imageSound_loseDots {im : Image} (h : ImageSound im) (t : Strip) (m : Mask) : ImageSound (loseDots im t m) :=
  imageSound_imageSet h _ (StripImage.disjoint_lose (imageGet_disjoint h _) m)

/-- The loss of a flushed ring keeps the image sound (R5). -/
theorem imageSound_loseOps {im : Image} (h : ImageSound im) (ops : List RingOp) : ImageSound (loseOps im ops) := by
  induction ops generalizing im with
  | nil => exact h
  | cons o l ih => exact ih (imageSound_loseDots h _ _)

/-! ### Single dots -/

/-- The strip that holds dot p of a strip is that strip (R1). -/
theorem stripOf_rowOf (t : Strip) {p : Nat} (hp : p < 16) : stripOf t.col (t.rowOf p) = t := by
  obtain ⟨c, k⟩ := t
  simp only [stripOf, Strip.rowOf, Strip.mk.injEq, true_and]
  omega

/-- The position of dot p of a strip is p (R1). -/
theorem rowOf_mod (t : Strip) {p : Nat} (hp : p < 16) : t.rowOf p % 16 = p := by
  simp only [Strip.rowOf]; omega

/-- The value of dot p of a strip, read as a panel dot. -/
theorem imageDot_rowOf (im : Image) (t : Strip) {p : Nat} (hp : p < 16) :
    imageDot im t.col (t.rowOf p) = (imageGet im t).dot p := by
  rw [imageDot, stripOf_rowOf t hp, rowOf_mod t hp]

/-- Every dot of the panel after a commit (R3). -/
theorem imageDot_commitOp {im : Image} (h : imageWf im = true) {op : StripOp} (hd : op.setMask &&& op.clearMask = 0)
    (x y : Nat) :
    imageDot (commitOp im op) x y =
      if op.strip = stripOf x y ∧ op.setMask.getLsbD (y % 16) = true then .on
      else if op.strip = stripOf x y ∧ op.clearMask.getLsbD (y % 16) = true then .off
      else imageDot im x y := by
  simp only [imageDot, commitOp, imageGet_imageSet h]
  by_cases e : op.strip = stripOf x y
  · simp [e, StripImage.dot_commit _ _ _ hd]
  · simp [e]

/-- Every dot of the panel after a loss (R5, R6, R10). -/
theorem imageDot_loseDots {im : Image} (h : imageWf im = true) (t : Strip) (m : Mask) (x y : Nat) :
    imageDot (loseDots im t m) x y =
      if t = stripOf x y ∧ m.getLsbD (y % 16) = true then .unknown else imageDot im x y := by
  simp only [imageDot, loseDots, imageGet_imageSet h]
  by_cases e : t = stripOf x y
  · simp [e, StripImage.dot_lose]
  · simp [e]

/-- Every dot of the panel after the loss of some operations (R5). -/
theorem imageDot_loseOps {im : Image} (h : imageWf im = true) (ops : List RingOp) (x y : Nat) :
    imageDot (loseOps im ops) x y =
      if ∃ o ∈ ops, o.op.strip = stripOf x y ∧ o.op.named.getLsbD (y % 16) = true then .unknown
      else imageDot im x y := by
  induction ops generalizing im with
  | nil => simp [loseOps]
  | cons o l ih =>
    have hstep : loseOps im (o :: l) = loseOps (loseDots im o.op.strip o.op.named) l := rfl
    rw [hstep, ih (imageWf_loseDots h _ _), imageDot_loseDots h]
    simp only [List.exists_mem_cons_iff]
    by_cases hl : ∃ o ∈ l, o.op.strip = stripOf x y ∧ o.op.named.getLsbD (y % 16) = true
    · rw [if_pos hl, if_pos (Or.inr hl)]
    · simp only [if_neg hl, or_iff_left hl]

/-- A dot that is UNKNOWN stays so through a loss. -/
theorem imageDot_loseDots_unknown {im : Image} (h : imageWf im = true) (t : Strip) (m : Mask) {x y : Nat}
    (hu : imageDot im x y = .unknown) : imageDot (loseDots im t m) x y = .unknown := by
  rw [imageDot_loseDots h]; split <;> simp [hu]

/-- A dot that is UNKNOWN stays so through the loss of a ring. -/
theorem imageDot_loseOps_unknown {im : Image} (h : imageWf im = true) (ops : List RingOp) {x y : Nat}
    (hu : imageDot im x y = .unknown) : imageDot (loseOps im ops) x y = .unknown := by
  rw [imageDot_loseOps h]; split <;> simp [hu]

/-- A dot that is UNKNOWN in a sound image is in neither mask of its strip. -/
theorem StripImage.dot_eq_unknown {v : StripImage} {p : Nat} :
    v.dot p = .unknown ↔ v.on.getLsbD p = false ∧ v.off.getLsbD p = false := by
  unfold StripImage.dot
  cases v.on.getLsbD p <;> cases v.off.getLsbD p <;> simp

/-- A dot is ON when its strip's on mask holds it. -/
theorem StripImage.dot_eq_on {v : StripImage} {p : Nat} : v.dot p = .on ↔ v.on.getLsbD p = true := by
  unfold StripImage.dot
  cases v.on.getLsbD p <;> cases v.off.getLsbD p <;> simp

/-- Settles O39: an image sound before a commit or a loss is sound after it, and each dot is read through
`imageDot_commitOp`, `imageDot_loseDots` and `imageDot_loseOps`. -/
theorem commitAndLossReachNamedDotsAlone : Obligations.CommitAndLossReachNamedDotsAlone := by
  intro im op h hd
  refine ⟨imageSound_commitOp h hd, imageSound_loseDots h _, fun x y => ⟨?_, fun m => ?_, fun ops => ?_⟩⟩
  · exact imageDot_commitOp h.1 hd x y
  · exact imageDot_loseDots h.1 _ m x y
  · rw [imageDot_loseOps h.1]
    rfl

end Sys2Proof.Machine
end

