-- ==== Sys2Proof/Proofs/ReadBack.lean ====
section
/-!
SUPPORT. The messages that read the image, the viewport table and the dead-dot table (R16, R17, R18, R49).
-/

-- One proof at a time: side by side, the proofs' threads reserve more memory than the check allows.
set_option Elab.async false

namespace Sys2Proof.Machine

/-! ### Masks as bytes (R188) -/

/-- The low byte of a mask. -/
theorem byte_toNat_mask (m : Mask) : byte m.toNat = m.setWidth 8 := by
  apply BitVec.eq_of_toNat_eq
  simp [byte]

/-- The high byte of a mask. -/
theorem byte_toNat_mask_high (m : Mask) : byte (m.toNat / 256) = (m >>> 8).setWidth 8 := by
  apply BitVec.eq_of_toNat_eq
  simp [byte, Nat.shiftRight_eq_div_pow]

/-- The two masks of a strip as READ IMAGE sends them (R16). -/
theorem stripFields_eq (v : StripImage) :
    stripFields v =
      [v.known.setWidth 8, (v.known >>> 8).setWidth 8, v.on.setWidth 8, (v.on >>> 8).setWidth 8] := by
  simp [stripFields, maskBytes, le16Bytes, byte_toNat_mask, byte_toNat_mask_high]

/-- The known mask holds the dots that are not UNKNOWN (R16). -/
theorem StripImage.known_iff (v : StripImage) (p : Nat) : v.known.getLsbD p = true ↔ v.dot p ≠ .unknown := by
  rw [ne_eq, StripImage.dot_eq_unknown, StripImage.known, BitVec.getLsbD_or]
  cases v.on.getLsbD p <;> cases v.off.getLsbD p <;> simp

/-! ### Messages that only answer -/

/-- A message whose owner changes nothing leaves the unit with its reply. -/
theorem addressedFrame_answer {s : State} {own : Nat} {seq : Byte} (k : MsgKind) (p : List Byte) (r : Reply)
    (h : FreshFrame s own seq) (ha : k.accepts p.length = true)
    (hk : ownerCarriesOut k (s.setRx .hunt) p = (s.setRx .hunt, r)) (hr : k ≠ .restart) :
    s.addressedFrame seq k.code p = s.replied own seq k.code r :=
  addressedFrame_message k p (s.setRx .hunt) r h ha hk rfl hr

/-- What GET VIEWPORT answers (R49). -/
theorem getViewportMessage_eq (s : State) (id : Byte) :
    getViewportMessage s [id] =
      (s, if id.toNat ≤ 7 then okReply (viewportFields id.toNat (s.viewport id.toNat)) else badFieldReply 0) := by
  have hf : fieldNat [id] 0 = id.toNat := rfl
  simp only [getViewportMessage, hf]
  split <;> rfl

/-- What READ IMAGE answers when a check fails (R16). -/
theorem readImageMessage_bad (s : State) (k x0 n : Byte) (i : Nat)
    (h : firstFailing [(0, decide (k.toNat < s.settings.stripRows)), (1, decide (x0.toNat < s.settings.columns)),
      (2, decide (1 ≤ n.toNat ∧ n.toNat ≤ 48 ∧ x0.toNat + n.toNat ≤ s.settings.columns))] = some i) :
    readImageMessage s [k, x0, n] = (s, badFieldReply i) := by
  have h0 : fieldNat [k, x0, n] 0 = k.toNat := rfl
  have h1 : fieldNat [k, x0, n] 1 = x0.toNat := rfl
  have h2 : fieldNat [k, x0, n] 2 = n.toNat := rfl
  simp only [readImageMessage, h0, h1, h2, h]

/-- What READ IMAGE answers when its checks hold (R16). -/
theorem readImageMessage_ok (s : State) (k x0 n : Byte) (hk : k.toNat < s.settings.stripRows)
    (hx : x0.toNat < s.settings.columns)
    (hn : 1 ≤ n.toNat ∧ n.toNat ≤ 48 ∧ x0.toNat + n.toNat ≤ s.settings.columns) :
    readImageMessage s [k, x0, n] =
      (s, okReply ([k, x0, n] ++
        (List.range n.toNat).flatMap fun i => stripFields (imageGet s.image ⟨x0.toNat + i, k.toNat⟩))) := by
  have h0 : fieldNat [k, x0, n] 0 = k.toNat := rfl
  have h1 : fieldNat [k, x0, n] 1 = x0.toNat := rfl
  have h2 : fieldNat [k, x0, n] 2 = n.toNat := rfl
  have hc : firstFailing [(0, decide (k.toNat < s.settings.stripRows)), (1, decide (x0.toNat < s.settings.columns)),
      (2, decide (1 ≤ n.toNat ∧ n.toNat ≤ 48 ∧ x0.toNat + n.toNat ≤ s.settings.columns))] = none := by
    simp [firstFailing, hk, hx, hn]
  simp only [readImageMessage, h0, h1, h2, hc, byte_of_toNat]

/-- A strip's dot in the panel, by its place within the strip (R1). -/
theorem imageDot_strip (im : Image) (x k : Nat) {p : Nat} (hp : p < 16) :
    imageDot im x (16 * k + p) = (imageGet im ⟨x, k⟩).dot p :=
  imageDot_rowOf im ⟨x, k⟩ hp

/-- Settles O32: both messages change nothing, and their replies are read off `getViewportMessage_eq`,
`readImageMessage_bad` and `readImageMessage_ok`. -/
theorem readBackShowsImageAndViewports : Obligations.ReadBackShowsImageAndViewports := by
  intro s own seq k x0 n id hf
  refine ⟨?_, ?_⟩
  · have h := addressedFrame_answer .getViewport [id] _ hf rfl (getViewportMessage_eq (s.setRx .hunt) id)
      (by decide)
    refine congrArg Host.Outcome.next (h.trans (congrArg (s.replied own seq 0x21) ?_))
    by_cases hid : id.toNat ≤ 7
    · rw [if_pos hid, if_pos hid, okReply, viewportFields, byte_of_toNat]
      rfl
    · rw [if_neg hid, if_neg hid]
      rfl
  · have answer : ∀ r, readImageMessage (s.setRx .hunt) [k, x0, n] = (s.setRx .hunt, r) →
        exec (.readImage seq [k, x0, n]) s = .next (s.replied own seq 0x30 r) := fun r hr =>
      congrArg Host.Outcome.next (addressedFrame_answer .readImage [k, x0, n] r hf rfl hr (by decide))
    have hz : n = 0 ↔ n.toNat = 0 := ⟨fun e => by simp [e], fun e => BitVec.eq_of_toNat_eq (by simpa using e)⟩
    refine ⟨fun h0 => ?_, fun h0 h1 => ?_, fun h0 h1 h2 => ?_, fun h0 h1 h2 => ?_⟩
    · exact answer _ (readImageMessage_bad _ k x0 n 0 (by simp [firstFailing, not_lt.2 h0]))
    · exact answer _ (readImageMessage_bad _ k x0 n 1 (by simp [firstFailing, not_le.1 h0, not_lt.2 h1]))
    · have hn : ¬(1 ≤ n.toNat ∧ n.toNat ≤ 48 ∧ x0.toNat + n.toNat ≤ s.settings.columns) := by
        rw [hz] at h2; omega
      exact answer _ (readImageMessage_bad _ k x0 n 2 (by simp [firstFailing, not_le.1 h0, not_le.1 h1, hn]))
    · have hn : 1 ≤ n.toNat ∧ n.toNat ≤ 48 ∧ x0.toNat + n.toNat ≤ s.settings.columns := by
        rw [hz] at h2; omega
      refine ⟨fun i => (imageGet s.image ⟨x0.toNat + i, k.toNat⟩).known,
        fun i => (imageGet s.image ⟨x0.toNat + i, k.toNat⟩).on, fun i _ p hp => ?_, ?_⟩
      · rw [imageDot_strip _ _ _ hp]
        exact ⟨StripImage.known_iff _ _, StripImage.dot_eq_on.symm⟩
      · have h := answer _ (readImageMessage_ok (s.setRx .hunt) k x0 n (not_le.1 h0) (not_le.1 h1) hn)
        rw [h]
        simp [okReply, Result.code, stripFields_eq]

/-! ### The dead-dot table (R17, R18) -/

/-- What FORGET DEAD DOT does when the dot lies inside the panel (R18). -/
theorem forgetDeadDotMessage_inside (s : State) (x y : Byte) (hx : x.toNat < s.settings.columns)
    (hy : y.toNat < 16 * s.settings.stripRows) :
    forgetDeadDotMessage s [x, y] =
      if recorded s.dead x.toNat y.toNat then
        ({ s with dead := s.dead.filter fun d => !(d.x == x.toNat && d.y == y.toNat) }, okReply [])
      else (s, plainReply .notFound) := by
  have h0 : fieldNat [x, y] 0 = x.toNat := rfl
  have h1 : fieldNat [x, y] 1 = y.toNat := rfl
  simp only [forgetDeadDotMessage, h0, h1, not_le.2 hx, not_le.2 hy, if_false]

/-- With no dot named twice, forgetting the dot of an entry takes that entry out and no other (R9, R18). -/
theorem filter_dead_split {dead pre post : List DeadDot} {d : DeadDot} (hs : dead = pre ++ d :: post)
    (hn : (dead.map fun e => (e.x, e.y)).Nodup) :
    (dead.filter fun e => !(e.x == d.x && e.y == d.y)) = pre ++ post := by
  subst hs
  rw [List.map_append, List.map_cons, List.perm_middle.nodup_iff, List.nodup_cons, ← List.map_append] at hn
  have hne : ∀ e ∈ pre ++ post, (!(e.x == d.x && e.y == d.y)) = true := by
    intro e he
    have hd : (e.x, e.y) ≠ (d.x, d.y) := fun h =>
      hn.1 (h ▸ List.mem_map_of_mem (f := fun e : DeadDot => (e.x, e.y)) he)
    simpa [imp_iff_not_or] using hd
  rw [List.filter_append, List.filter_cons, List.filter_eq_self.2 fun e he => hne e (by simp [he]),
    List.filter_eq_self.2 fun e he => hne e (by simp [he])]
  simp

/-- Settles O33: LIST DEAD DOTS only answers, and FORGET DEAD DOT goes through `forgetDeadDotMessage_inside` once the
dot lies inside the panel. -/
theorem deadDotsAreListedAndForgotten : Obligations.DeadDotsAreListedAndForgotten := by
  intro s own seq hf
  refine ⟨?_, fun x y => ?_⟩
  · refine congrArg Host.Outcome.next
      ((addressedFrame_answer .listDeadDots [] _ hf rfl rfl (by decide)).trans
        (congrArg (s.replied own seq 0x31) ?_))
    have hcode : ∀ d : DeadDot, d.source.code = if d.source = .request then 0 else 1 := by
      intro d; cases d.source <;> rfl
    simp [okReply, Result.code, hcode]
  · have answer : ∀ r, forgetDeadDotMessage (s.setRx .hunt) [x, y] = (s.setRx .hunt, r) →
        exec (.forgetDeadDot seq [x, y]) s = .next (s.replied own seq 0x32 r) := fun r hr =>
      congrArg Host.Outcome.next (addressedFrame_answer .forgetDeadDot [x, y] r hf rfl hr (by decide))
    have h0 : fieldNat [x, y] 0 = x.toNat := rfl
    have h1 : fieldNat [x, y] 1 = y.toNat := rfl
    refine ⟨fun hx => answer _ ?_, fun hx hy => answer _ ?_, fun hx hy => ⟨?_, fun hd => answer _ ?_⟩⟩
    · simp [forgetDeadDotMessage, h0, hx]; rfl
    · simp [forgetDeadDotMessage, h0, h1, not_le.2 hx, hy]; rfl
    · intro pre d post hs hdx hdy hn
      have hrec : recorded s.dead x.toNat y.toNat = true := by
        simp only [recorded, List.any_eq_true]
        exact ⟨d, by simp [hs], by simp [hdx, hdy]⟩
      have hk := forgetDeadDotMessage_inside (s.setRx .hunt) x y hx hy
      rw [State.setRx_dead, if_pos hrec, ← hdx, ← hdy, filter_dead_split hs hn] at hk
      exact congrArg Host.Outcome.next
        (addressedFrame_message .forgetDeadDot [x, y] _ _ hf rfl hk rfl (by decide))
    · have hrec : ¬recorded s.dead x.toNat y.toNat = true := by
        simpa [recorded] using hd
      rw [forgetDeadDotMessage_inside (s.setRx .hunt) x y hx hy, State.setRx_dead, if_neg hrec]
      rfl

end Sys2Proof.Machine
end

