-- ==== Sys2Proof/Proofs/BlockSound.lean ====
section
/-!
SUPPORT. Each block's own soundness (glyph store, report queue, panel) under the operations that write the block.
-/

-- One proof at a time: side by side, the proofs' threads reserve more memory than the check allows.
set_option Elab.async false

namespace Sys2Proof.Machine

/-! ### Numbers that pass over those in use (R21, R156) -/

/-- A counter stays in its range. -/
theorem inCount_nextNumber (n : Nat) : InCount (nextNumber n) := by
  unfold nextNumber
  split <;> constructor <;> omega

theorem inCount_firstFree (used : List Nat) (fuel : Nat) {n : Nat} (h : InCount n) :
    InCount (firstFree used fuel n) := by
  induction fuel generalizing n with
  | zero => exact h
  | succ fuel ih =>
    unfold firstFree
    split
    · exact ih (inCount_nextNumber n)
    · exact h

/-- The i-th number after n, counting from 65535 on to 1. -/
theorem nextNumber_iterate {n : Nat} (h : InCount n) (i : Nat) : nextNumber^[i] n = (n - 1 + i) % 65535 + 1 := by
  induction i with
  | zero => obtain ⟨h1, h2⟩ := h; simp only [Function.iterate_zero_apply]; omega
  | succ i ih =>
    rw [Function.iterate_succ_apply', ih]
    unfold nextNumber
    split <;> omega

/-- The search ends on a number that is not in use, unless every number it tried is. -/
theorem firstFree_spec (used : List Nat) (fuel n : Nat) :
    firstFree used fuel n ∉ used ∨ ∀ i < fuel, nextNumber^[i] n ∈ used := by
  induction fuel generalizing n with
  | zero => exact .inr fun i hi => absurd hi (Nat.not_lt_zero i)
  | succ fuel ih =>
    unfold firstFree
    split
    next hn =>
      refine (ih (nextNumber n)).imp id fun hall i hi => ?_
      cases i with
      | zero => simpa using hn
      | succ i => exact hall i (by omega)
    next hn => exact .inl (by simpa using hn)

/-- The number the counter gives is not in use, as fewer than 65535 are. -/
theorem freeNumber_fresh {used : List Nat} {counter : Nat} (h : InCount counter) (hlen : used.length < 65535) :
    freeNumber used counter ∉ used := by
  refine (firstFree_spec used (used.length + 1) counter).resolve_right fun hall => ?_
  have hnodup : ((List.range (used.length + 1)).map fun i => nextNumber^[i] counter).Nodup := by
    refine List.Nodup.map_on (fun i hi j hj hij => ?_) List.nodup_range
    rw [List.mem_range] at hi hj
    rw [nextNumber_iterate h, nextNumber_iterate h] at hij
    omega
  have hsub : ((List.range (used.length + 1)).map fun i => nextNumber^[i] counter) ⊆ used := by
    intro x hx
    obtain ⟨i, hi, rfl⟩ := List.mem_map.1 hx
    exact hall i (List.mem_range.1 hi)
  have := (hnodup.subperm hsub).length_le
  simp at this

theorem inCount_freeNumber (used : List Nat) {counter : Nat} (h : InCount counter) :
    InCount (freeNumber used counter) :=
  inCount_firstFree used _ h

/-! ### The report queue (R154 to R159) -/

@[simp] theorem ReportQueue.join_entries (q : ReportQueue) (r : Report) :
    (q.join r).entries = q.entries ++ [⟨freeNumber q.numbers q.counter, r, false⟩] := rfl

theorem ReportQueue.join_numbers (q : ReportQueue) (r : Report) :
    (q.join r).numbers = q.numbers ++ [freeNumber q.numbers q.counter] := by
  simp [ReportQueue.numbers]

/-- A report that joins a queue with room keeps the queue sound; `coalesce` may name what it named before (R156). -/
theorem reportsSound_join {q : ReportQueue} (h : ReportsSound q) (r : Report)
    (hroom : q.entries.length < Config.reportSize) : ReportsSound (q.join r) := by
  obtain ⟨-, hnodup, hrange, hcount, hco⟩ := h
  have hfresh : freeNumber q.numbers q.counter ∉ q.numbers :=
    freeNumber_fresh hcount (by simp [ReportQueue.numbers, Config.reportSize] at *; omega)
  refine ⟨?_, ?_, ?_, inCount_nextNumber _, ?_⟩
  · simpa using hroom
  · rw [ReportQueue.join_numbers]
    refine List.nodup_append.2 ⟨hnodup, by simp, fun a ha b hb e => hfresh ?_⟩
    rwa [← List.mem_singleton.1 hb, ← e]
  · rw [ReportQueue.join_numbers]
    intro n hn
    rcases List.mem_append.1 hn with hn | hn
    · exact hrange n hn
    · rw [List.mem_singleton.1 hn]; exact inCount_freeNumber _ hcount
  · intro n hn
    cases hm : r.isMove with
    | true =>
      refine ⟨⟨freeNumber q.numbers q.counter, r, false⟩, by simp, ?_, hm, rfl⟩
      simpa [ReportQueue.join, hm, eq_comm] using hn
    | false =>
      obtain ⟨e, he, hen⟩ := hco n (by simpa [ReportQueue.join, hm] using hn)
      exact ⟨e, by simp [he], hen⟩

/-- The queue without the entries of one number, and without its coalescing reference. -/
theorem reportsSound_without {q : ReportQueue} (h : ReportsSound q) (n : Nat) :
    ReportsSound { q with entries := q.entries.filter fun e => e.number != n, coalesce := none } := by
  obtain ⟨hlen, hnodup, hrange, hcount, -⟩ := h
  have hsub : (q.entries.filter fun e => e.number != n).Sublist q.entries := List.filter_sublist
  exact ⟨hsub.length_le.trans hlen, hnodup.sublist (hsub.map _), fun m hm => hrange m ((hsub.map _).subset hm),
    hcount, by simp⟩

/-- Removing the entry with a number that is in the queue makes room. -/
theorem ReportQueue.length_without {q : ReportQueue} {n : Nat} (hn : n ∈ q.numbers) :
    (q.entries.filter fun e => e.number != n).length < q.entries.length := by
  obtain ⟨e, he, rfl⟩ := List.mem_map.1 hn
  exact List.length_filter_lt_length_iff_exists.2 ⟨e, he, by simp⟩

/-- The report queue stays sound through an offer (R157). -/
theorem reportsSound_offer {q : ReportQueue} (h : ReportsSound q) (r : Report) : ReportsSound (q.offer r) := by
  unfold ReportQueue.offer
  split
  · exact h
  · split
    next n hn =>
      unfold ReportQueue.replaced at hn
      split at hn
      next hm =>
        obtain ⟨-, hmem⟩ := Option.filter_eq_some_iff.1 hn
        have hw := reportsSound_without h n
        have hroom := Nat.lt_of_lt_of_le (ReportQueue.length_without (List.contains_iff_mem.1 hmem)) h.1
        have hj := reportsSound_join hw r hroom
        simpa [ReportQueue.join, hm, ReportQueue.numbers] using hj
      next => simp at hn
    · split
      next hroom => exact reportsSound_join h r hroom
      next => exact h

/-- The queue is sound without its coalescing reference. -/
theorem reportsSound_clearCoalesce {q : ReportQueue} (h : ReportsSound q) :
    ReportsSound { q with coalesce := none } := by
  obtain ⟨hlen, hnodup, hrange, hcount, -⟩ := h
  exact ⟨hlen, hnodup, hrange, hcount, by simp⟩

/-- A restart leaves a sound report queue (R164). -/
theorem reportsSound_restarted (q : ReportQueue) : ReportsSound q.restarted := by
  refine ⟨Nat.zero_le _, List.nodup_nil, by simp [ReportQueue.restarted, ReportQueue.numbers], ?_, by
    simp [ReportQueue.restarted]⟩
  exact ⟨le_rfl, by simp [ReportQueue.restarted]⟩

/-- What an acknowledgement leaves is the newest part of the queue (R161). -/
theorem acknowledge_sublist (entries : List Entry) (n : Nat) : (acknowledge entries n).Sublist entries := by
  unfold acknowledge
  split
  · exact (List.drop_sublist _ _).trans (List.dropWhile_sublist _)
  · exact List.Sublist.refl _

/-- The report queue stays sound through a COLLECT (R161, R162). -/
theorem reportsSound_collect {q : ReportQueue} (h : ReportsSound q) (n : Nat) : ReportsSound (q.collect n) := by
  obtain ⟨hlen, hnodup, hrange, hcount, hco⟩ := h
  have hsub := acknowledge_sublist q.entries n
  have hnum : (q.collect n).numbers = (acknowledge q.entries n).map (·.number) := by
    conv => rhs; rw [← List.take_append_drop Config.collectMax (acknowledge q.entries n)]
    simp [ReportQueue.collect, ReportQueue.numbers, Function.comp_def]
  refine ⟨?_, hnum ▸ hnodup.sublist (hsub.map _), fun m hm => hrange m ((hsub.map _).subset (hnum ▸ hm)), hcount, ?_⟩
  · have hl := hsub.length_le.trans hlen
    have : (q.collect n).entries.length = (acknowledge q.entries n).length := by
      simp [ReportQueue.collect]; omega
    rwa [this]
  · intro m hm
    obtain ⟨hq, hlater⟩ := Option.filter_eq_some_iff.1 (Option.mem_toList.1 hm)
    obtain ⟨e, he, hem, hemove, hsent⟩ := hco m (Option.mem_toList.2 hq)
    obtain ⟨e', he', hem'⟩ := List.mem_map.1 (List.contains_iff_mem.1 hlater)
    have hmem : e' ∈ q.entries := hsub.subset (List.mem_of_mem_drop he')
    have : e' = e := List.inj_on_of_nodup_map hnodup hmem he (hem'.trans hem.symm)
    subst this
    exact ⟨e', by simp [ReportQueue.collect, he'], hem, hemove, hsent⟩

/-! ### The glyph store (R67 to R76) -/

/-- The columns used by a list of glyphs, split by a test. -/
theorem usedColumns_filter (gs : List Glyph) (f : Glyph → Bool) :
    usedColumns (gs.filter fun y => !f y) + usedColumns (gs.filter f) = usedColumns gs := by
  induction gs with
  | nil => rfl
  | cons y l ih =>
    simp only [usedColumns] at *
    cases hf : f y <;> simp [hf] <;> omega

/-- The fonts after one record is replaced. -/
theorem GlyphStore.font_set (g : GlyphStore) (id i : Nat) (f : Font) :
    GlyphStore.font { g with fonts := g.fonts.set id f } i =
      if i = id ∧ id < g.fonts.length then f else g.font i := by
  simp only [GlyphStore.font, List.getD_eq_getElem?_getD, List.getElem?_set]
  by_cases e : i = id
  · subst e
    by_cases hl : i < g.fonts.length <;> simp [hl]
  · simp [e, Ne.symm e]

/-- SET FONT keeps the store sound: the record it writes is defined (R71). -/
theorem storeSound_setFont {g : GlyphStore} (h : StoreSound g) (id : Nat) {f : Font} (hf : f.defined = true) :
    StoreSound { g with fonts := g.fonts.set id f } := by
  obtain ⟨hfonts, hsum, hcount, hkeys, hall⟩ := h
  refine ⟨by simpa using hfonts, hsum, hcount, hkeys, fun y hy => ?_⟩
  obtain ⟨hd, hw⟩ := hall y hy
  refine ⟨?_, hw⟩
  rw [GlyphStore.font_set]
  split
  · exact hf
  · exact hd

/-- Dropping the glyphs that meet a test, with their columns freed, keeps the store sound. -/
theorem storeSound_remove {g : GlyphStore} (h : StoreSound g) (f : Glyph → Bool) :
    StoreSound { g with
      glyphs := g.glyphs.filter fun y => !f y
      freeColumns := g.freeColumns + usedColumns (g.glyphs.filter f) } := by
  obtain ⟨hfonts, hsum, hcount, hkeys, hall⟩ := h
  have hs : (g.glyphs.filter fun y => !f y).Sublist g.glyphs := List.filter_sublist
  refine ⟨hfonts, ?_, hs.length_le.trans hcount, hkeys.sublist (hs.map _), fun y hy => hall y (hs.subset hy)⟩
  have := usedColumns_filter g.glyphs f
  simp only
  omega

/-- Undefining a font that no stored glyph has keeps the store sound. -/
theorem storeSound_undefineFont {g : GlyphStore} (h : StoreSound g) {id : Nat} (hn : ∀ y ∈ g.glyphs, y.font ≠ id) :
    StoreSound { g with fonts := g.fonts.set id .undefined } := by
  obtain ⟨hfonts, hsum, hcount, hkeys, hall⟩ := h
  refine ⟨by simpa using hfonts, hsum, hcount, hkeys, fun y hy => ?_⟩
  obtain ⟨hd, hw⟩ := hall y hy
  refine ⟨?_, hw⟩
  rw [GlyphStore.font_set, if_neg fun e => hn y hy e.1]
  exact hd

/-- DROP FONT keeps the store sound (R72). -/
theorem storeSound_dropFont {g : GlyphStore} (h : StoreSound g) (id : Nat) : StoreSound (g.dropFont id) :=
  storeSound_undefineFont (storeSound_remove h fun y => y.font == id) fun y hy => by
    simpa using (List.mem_filter.1 hy).2

/-- A glyph under a new key joins where there is room (R74, R75). -/
theorem storeSound_add {g : GlyphStore} (h : StoreSound g) {y : Glyph}
    (hnew : ∀ z ∈ g.glyphs, (z.font, z.code) ≠ (y.font, y.code))
    (hcount : g.glyphs.length < Config.glyphMax) (hroom : y.columns.length ≤ g.freeColumns)
    (hfont : (g.font y.font).defined = true) (hw : 1 ≤ y.columns.length ∧ y.columns.length ≤ 32) :
    StoreSound { g with glyphs := g.glyphs ++ [y], freeColumns := g.freeColumns - y.columns.length } := by
  obtain ⟨hfonts, hsum, -, hkeys, hall⟩ := h
  refine ⟨hfonts, ?_, by simpa using hcount, ?_, fun z hz => ?_⟩
  · simp only [usedColumns, List.map_append, List.sum_append] at *
    simp; omega
  · rw [List.map_append]
    refine List.nodup_append.2 ⟨hkeys, by simp, ?_⟩
    intro a ha b hb
    obtain ⟨z, hz, rfl⟩ := List.mem_map.1 ha
    rw [List.mem_singleton.1 (by simpa using hb : b ∈ [(y.font, y.code)])]
    exact hnew z hz
  · rcases List.mem_append.1 hz with hz | hz
    · exact hall z hz
    · rw [List.mem_singleton.1 hz]; exact ⟨hfont, hw⟩

/-- The glyph found under a key is in the store and has the key. -/
theorem GlyphStore.glyph_some {g : GlyphStore} {font code : Nat} {y : Glyph} (h : g.glyph font code = some y) :
    y ∈ g.glyphs ∧ (y.font == font && y.code == code) = true :=
  ⟨List.mem_of_find?_eq_some h, by have := List.find?_some h; simpa using this⟩

/-- LOAD GLYPH keeps the store sound, by the room rules (R74, R75). -/
theorem storeSound_put {g : GlyphStore} (h : StoreSound g) {y : Glyph}
    (hroom : g.roomFor y.font y.code y.columns.length = true) (hfont : (g.font y.font).defined = true)
    (hw : 1 ≤ y.columns.length ∧ y.columns.length ≤ 32) : StoreSound (g.put y) := by
  have hrest := storeSound_remove h fun z => z.font == y.font && z.code == y.code
  refine storeSound_add hrest (fun z hz e => ?_) ?_ ?_ hfont hw
  · have := (List.mem_filter.1 hz).2
    simp_all
  · unfold GlyphStore.roomFor at hroom
    split at hroom
    next hnone =>
      simp only [Bool.and_eq_true, decide_eq_true_eq] at hroom
      exact Nat.lt_of_le_of_lt List.filter_sublist.length_le hroom.1
    next old hold =>
      obtain ⟨hmem, hkey⟩ := GlyphStore.glyph_some hold
      exact Nat.lt_of_lt_of_le (List.length_filter_lt_length_iff_exists.2 ⟨old, hmem, by simp [hkey]⟩) h.2.2.1
  · unfold GlyphStore.roomFor at hroom
    split at hroom
    next hnone =>
      simp only [Bool.and_eq_true, decide_eq_true_eq] at hroom
      exact Nat.le_add_right_of_le hroom.2
    next old hold =>
      obtain ⟨hmem, hkey⟩ := GlyphStore.glyph_some hold
      have hin : old ∈ g.glyphs.filter fun z => z.font == y.font && z.code == y.code :=
        List.mem_filter.2 ⟨hmem, hkey⟩
      have : old.columns.length ≤ usedColumns (g.glyphs.filter fun z => z.font == y.font && z.code == y.code) :=
        List.single_le_sum (fun _ _ => Nat.zero_le _) _ (List.mem_map_of_mem hin)
      simp only [decide_eq_true_eq] at hroom
      simp only
      omega

/-! ### The viewport table (R42, R26) -/

/-- The viewport records after one is replaced. -/
theorem State.setViewport_viewport (s : State) (id i : Nat) (v : Viewport) :
    (s.setViewport id v).viewport i = if i = id ∧ id < s.viewports.length then v else s.viewport i := by
  simp only [State.viewport, State.setViewport, List.getD_eq_getElem?_getD, List.getElem?_set]
  by_cases e : i = id
  · subst e
    by_cases hl : i < s.viewports.length <;> simp [hl]
  · simp [e, Ne.symm e]

/-- A defined viewport is one of the table's. -/
theorem State.viewport_mem {s : State} {id : Nat} (h : (s.viewport id).defined = true) :
    id < s.viewports.length ∧ s.viewport id ∈ s.viewports := by
  unfold State.viewport at *
  by_cases hl : id < s.viewports.length
  · simp [List.getD_eq_getElem?_getD, hl]
  · simp [List.getD_eq_getElem?_getD, hl, Viewport.undefined] at h

/-- The panel is sound after a state change that keeps settings and tables and names no new viewport in a request. -/
theorem panelSound_of_requests {s t : State} (h : PanelSound s) (hset : t.settings = s.settings)
    (hv : t.viewports = s.viewports) (hz : t.zones = s.zones)
    (hr : ∀ r ∈ t.queue.requests, (s.viewport r.viewport).defined = true) : PanelSound t := by
  have hview : ∀ i, t.viewport i = s.viewport i := fun i => by simp only [State.viewport, hv]
  obtain ⟨hs, hlen, hzlen, h0, hrect, hvs, hzs, -⟩ := h
  refine ⟨hset ▸ hs, hv ▸ hlen, hz ▸ hzlen, hview 0 ▸ h0, by rw [hview, hset]; exact hrect, ?_, ?_, ?_⟩
  · rw [hv, hset]; exact hvs
  · rw [hz, hset]; exact hzs
  · intro r hr'; rw [hview]; exact hr r hr'

/-- The panel is sound after a viewport's record is replaced: the new record is sound, viewport 0 stays the whole panel,
and a record that a request names stays defined (R26, R42). -/
theorem panelSound_setViewport {s : State} (h : PanelSound s) (id : Nat) {v : Viewport}
    (hv : ViewportSound s.settings v)
    (hzero : id = 0 → v.defined = true ∧ v.rect = (s.viewport 0).rect)
    (huse : ∀ r ∈ s.queue.requests, r.viewport = id → v.defined = true) : PanelSound (s.setViewport id v) := by
  obtain ⟨hs, hlen, hzlen, h0, hrect, hvs, hzs, hr⟩ := h
  refine ⟨hs, by simpa using hlen, hzlen, ?_, ?_, fun w hw => ?_, hzs, fun r hr' => ?_⟩
  · rw [State.setViewport_viewport]
    split
    next e => exact (hzero e.1.symm).1
    next => exact h0
  · rw [State.setViewport_viewport]
    split
    next e => exact (hzero e.1.symm).2.trans hrect
    next => exact hrect
  · rcases List.mem_or_eq_of_mem_set hw with hw | rfl
    · exact hvs w hw
    · exact hv
  · rw [State.setViewport_viewport]
    split
    next e => exact huse r hr' e.1
    next => exact hr r hr'

/-- A defined viewport is sound when it lies inside the panel (R42). -/
theorem viewportSound_defined {c : Settings} {v : Viewport} (h : v.defined = true) :
    ViewportSound c v ↔ v.rect.inPanel c.columns c.stripRows = true := by
  unfold ViewportSound
  rw [if_pos h]

/-- Moving the cursor of a defined viewport keeps the panel sound. -/
theorem panelSound_moveCursor {s : State} (h : PanelSound s) {id : Nat} (hd : (s.viewport id).defined = true)
    {v : Viewport} (hv : v.defined = (s.viewport id).defined) (hrect : v.rect = (s.viewport id).rect) :
    PanelSound (s.setViewport id v) := by
  have hv' : v.defined = true := hv.trans hd
  have hvs : ∀ w ∈ s.viewports, ViewportSound s.settings w := h.2.2.2.2.2.1
  refine panelSound_setViewport h id ?_ (fun e => ⟨hv', by rw [hrect, e]⟩) fun _ _ _ => hv'
  rw [viewportSound_defined hv', hrect]
  exact (viewportSound_defined hd).1 (hvs _ (State.viewport_mem hd).2)

end Sys2Proof.Machine
end

