-- ==== Sys2Proof/Proofs/EngineKeeps.lean ====
section
/-!
SUPPORT. What the engine keeps: requests, generator, driver and scanner leave settings, link, store, zones and the pins as
they are, and keep report queue, image, panel and charge level each sound on its own. One lemma per operation.
-/

-- One proof at a time: side by side, the proofs' threads reserve more memory than the check allows.
set_option Elab.async false

namespace Sys2Proof.Machine

/-- What every operation of the engine leaves as it is, and the blocks it keeps sound. -/
structure Keeps (s t : State) : Prop where
  inReset : t.inReset = s.inReset
  ocin : t.ocin = s.ocin
  settings : t.settings = s.settings
  link : t.link = s.link
  store : t.store = s.store
  zones : t.zones = s.zones
  pending : t.pending = s.pending
  level : s.charge.level ≤ Config.chargeMax → t.charge.level ≤ Config.chargeMax
  reports : ReportsSound s.reports → ReportsSound t.reports
  image : ImageSound s.image → ImageSound t.image
  panel : PanelSound s → PanelSound t

/-- What drawing and striking leave as it is besides: the scanner, the charge, and the driver but for its pass-over
count; and no echo request more than before. -/
structure DrawKeeps (s t : State) : Prop extends Keeps s t where
  touch : t.touch = s.touch
  charge : t.charge = s.charge
  driver : t.driver = { s.driver with passOver := t.driver.passOver }
  echoes : (t.pool .echo).length ≤ (s.pool .echo).length

/-- What changes to records and to the generator's place leave as it is besides: everything of the driver's side and of
the panel side, and no echo request more than before. -/
structure RecordKeeps (s t : State) : Prop extends Keeps s t where
  touch : t.touch = s.touch
  charge : t.charge = s.charge
  driver : t.driver = s.driver
  sweep : t.sweep = s.sweep
  dot : t.image = s.image
  ring : t.ring = s.ring
  dead : t.dead = s.dead
  echoes : (t.pool .echo).length ≤ (s.pool .echo).length

theorem RecordKeeps.draw {s t : State} (h : RecordKeeps s t) : DrawKeeps s t :=
  ⟨h.toKeeps, h.touch, h.charge, by rw [h.driver], h.echoes⟩

theorem Keeps.refl (s : State) : Keeps s s := ⟨rfl, rfl, rfl, rfl, rfl, rfl, rfl, id, id, id, id⟩

theorem Keeps.trans {s t u : State} (h : Keeps s t) (k : Keeps t u) : Keeps s u where
  inReset := k.inReset.trans h.inReset
  ocin := k.ocin.trans h.ocin
  settings := k.settings.trans h.settings
  link := k.link.trans h.link
  store := k.store.trans h.store
  zones := k.zones.trans h.zones
  pending := k.pending.trans h.pending
  level := k.level ∘ h.level
  reports := k.reports ∘ h.reports
  image := k.image ∘ h.image
  panel := k.panel ∘ h.panel

theorem DrawKeeps.refl (s : State) : DrawKeeps s s := ⟨Keeps.refl s, rfl, rfl, rfl, le_rfl⟩

theorem DrawKeeps.trans {s t u : State} (h : DrawKeeps s t) (k : DrawKeeps t u) : DrawKeeps s u where
  toKeeps := h.toKeeps.trans k.toKeeps
  touch := k.touch.trans h.touch
  charge := k.charge.trans h.charge
  driver := by rw [k.driver, h.driver]
  echoes := k.echoes.trans h.echoes

theorem RecordKeeps.refl (s : State) : RecordKeeps s s :=
  ⟨Keeps.refl s, rfl, rfl, rfl, rfl, rfl, rfl, rfl, le_rfl⟩

theorem RecordKeeps.trans {s t u : State} (h : RecordKeeps s t) (k : RecordKeeps t u) : RecordKeeps s u where
  toKeeps := h.toKeeps.trans k.toKeeps
  touch := k.touch.trans h.touch
  charge := k.charge.trans h.charge
  driver := k.driver.trans h.driver
  sweep := k.sweep.trans h.sweep
  dot := k.dot.trans h.dot
  ring := k.ring.trans h.ring
  dead := k.dead.trans h.dead
  echoes := k.echoes.trans h.echoes

/-- The record fields of the driver that drawing leaves as they are. -/
theorem DrawKeeps.driverFields {s t : State} (h : DrawKeeps s t) :
    t.driver.state = s.driver.state ∧ t.driver.hand = s.driver.hand ∧ t.driver.phaseGap = s.driver.phaseGap := by
  rw [h.driver]
  exact ⟨rfl, rfl, rfl⟩

/-- An update of the blocks that no single block's soundness speaks of. -/
theorem Keeps.free {s t : State}
    (h : t = { s with
      gen := t.gen, ring := t.ring, dead := t.dead, driver := t.driver, sweep := t.sweep, touch := t.touch }) :
    Keeps s t := by
  rw [h]
  exact ⟨rfl, rfl, rfl, rfl, rfl, rfl, rfl, id, id, id, id⟩

theorem DrawKeeps.free {s t : State}
    (h : t = { s with
      gen := t.gen, ring := t.ring, dead := t.dead, sweep := t.sweep
      driver := { s.driver with passOver := t.driver.passOver } }) :
    DrawKeeps s t := by
  rw [h]
  exact ⟨⟨rfl, rfl, rfl, rfl, rfl, rfl, rfl, id, id, id, id⟩, rfl, rfl, rfl, le_rfl⟩

theorem recordKeeps_gen (s : State) (g : Generator) : RecordKeeps s { s with gen := g } :=
  ⟨⟨rfl, rfl, rfl, rfl, rfl, rfl, rfl, id, id, id, id⟩, rfl, rfl, rfl, rfl, rfl, rfl, rfl, le_rfl⟩

/-- Several updates one after another. -/
theorem RecordKeeps.foldl {α : Type} {f : State → α → State} (h : ∀ s a, RecordKeeps s (f s a)) (l : List α)
    (s : State) : RecordKeeps s (l.foldl f s) := by
  induction l generalizing s with
  | nil => exact .refl s
  | cons a l ih => exact (h s a).trans (ih _)

/-- Several updates one after another. -/
theorem DrawKeeps.foldl {α : Type} {f : State → α → State} (h : ∀ s a, DrawKeeps s (f s a)) (l : List α) (s : State) :
    DrawKeeps s (l.foldl f s) := by
  induction l generalizing s with
  | nil => exact .refl s
  | cons a l ih => exact (h s a).trans (ih _)

/-! ### Reports and image -/

theorem recordKeeps_offer (s : State) (r : Report) : RecordKeeps s (s.offer r) :=
  ⟨⟨rfl, rfl, rfl, rfl, rfl, rfl, rfl, id, fun h => reportsSound_offer h r, id, id⟩,
    rfl, rfl, rfl, rfl, rfl, rfl, rfl, le_rfl⟩

theorem keeps_clearCoalesce (s : State) : Keeps s s.clearCoalesce :=
  ⟨rfl, rfl, rfl, rfl, rfl, rfl, rfl, id, reportsSound_clearCoalesce, id, id⟩

/-- An update of the image that keeps it sound. -/
theorem drawKeeps_image (s : State) {im : Image} (h : ImageSound s.image → ImageSound im) :
    DrawKeeps s { s with image := im } :=
  ⟨⟨rfl, rfl, rfl, rfl, rfl, rfl, rfl, id, id, h, id⟩, rfl, rfl, rfl, le_rfl⟩

/-! ### Requests -/

/-- A request of the queue names the viewport. -/
abbrev State.NamesViewport (s : State) (id : Nat) : Prop := ∃ q ∈ s.queue.requests, q.viewport = id

/-- A viewport that a request names is defined (R26). -/
theorem State.NamesViewport.defined {s : State} {id : Nat} (h : s.NamesViewport id) (hp : PanelSound s) :
    (s.viewport id).defined = true := by
  obtain ⟨q, hq, rfl⟩ := h
  exact hp.2.2.2.2.2.2.2 q hq

/-- A queue whose requests name no new viewport, with no echo request more. -/
theorem recordKeeps_queue (s : State) {q : RequestQueue} (h : ∀ r ∈ q.requests, s.NamesViewport r.viewport)
    (he : (q.requests.filter fun r => r.origin == .echo).length ≤ (s.pool .echo).length) :
    RecordKeeps s { s with queue := q } :=
  ⟨⟨rfl, rfl, rfl, rfl, rfl, rfl, rfl, id, id, id, fun hp =>
    panelSound_of_requests hp rfl rfl rfl fun r hr => (h r hr).defined hp⟩, rfl, rfl, rfl, rfl, rfl, rfl, rfl, he⟩

/-- As many requests of an origin after their records are changed, origins kept. -/
theorem length_pool_map (l : List Request) {f : Request → Request} (hf : ∀ r, (f r).origin = r.origin) (o : Origin) :
    ((l.map f).filter fun r => r.origin == o).length = (l.filter fun r => r.origin == o).length := by
  rw [List.filter_map, List.length_map]
  simp only [Function.comp_def, hf]

/-- The records after the one under a tag is changed. -/
theorem State.mem_changeRequest {s : State} {t : Nat} {f : Request → Request} {q : Request} :
    q ∈ (s.changeRequest t f).queue.requests ↔
      ∃ r ∈ s.queue.requests, q = if r.tag = t then f r else r := by
  rw [State.changeRequest_queue, List.mem_map]
  refine exists_congr fun r => and_congr_right fun _ => ?_
  rw [eq_comm]
  simp only [beq_iff_eq]

theorem State.NamesViewport.changeRequest {s : State} {id : Nat} (h : s.NamesViewport id) (t : Nat)
    {f : Request → Request} (hf : ∀ r, (f r).viewport = r.viewport) : (s.changeRequest t f).NamesViewport id := by
  obtain ⟨q, hq, rfl⟩ := h
  refine ⟨_, State.mem_changeRequest.2 ⟨q, hq, rfl⟩, ?_⟩
  split
  · exact hf q
  · rfl

theorem recordKeeps_changeRequest (s : State) (t : Nat) {f : Request → Request}
    (hf : ∀ r, (f r).viewport = r.viewport ∧ (f r).origin = r.origin) : RecordKeeps s (s.changeRequest t f) := by
  refine recordKeeps_queue s (fun q hq => ?_) (le_of_eq (length_pool_map _ (fun r => ?_) _))
  · obtain ⟨r, hr, rfl⟩ := State.mem_changeRequest.1 hq
    refine ⟨r, hr, ?_⟩
    split
    · exact (hf r).1.symm
    · rfl
  · split
    · exact (hf r).2
    · rfl

theorem recordKeeps_setPlace (s : State) (t : Nat) (p : Place) : RecordKeeps s (s.setPlace t p) :=
  recordKeeps_changeRequest s t fun _ => ⟨rfl, rfl⟩

/-- Requests that leave. -/
theorem recordKeeps_filter (s : State) (f : Request → Bool) :
    RecordKeeps s { s with queue := { s.queue with requests := s.queue.requests.filter f } } :=
  recordKeeps_queue s (fun r hr => ⟨r, (List.mem_filter.1 hr).1, rfl⟩)
    (List.filter_sublist.filter _).length_le

theorem recordKeeps_leave (s : State) (r : Request) (o : LeaveOutcome) : RecordKeeps s (s.leave r o) := by
  have h := recordKeeps_filter s fun q => q.tag != r.tag
  unfold State.leave
  dsimp only
  split
  · exact h.trans (recordKeeps_offer _ _)
  · exact h

theorem recordKeeps_settleOne (s : State) (t : Nat) : RecordKeeps s (s.settleOne t) := by
  unfold State.settleOne
  split
  · exact .refl s
  · have h := recordKeeps_changeRequest s t (f := fun r => { r with outstanding := r.outstanding - 1 }) fun _ => ⟨rfl, rfl⟩
    dsimp only
    split
    · exact h.trans (recordKeeps_leave _ _ _)
    · exact h

theorem recordKeeps_generatorArbiter (s : State) : RecordKeeps s s.generatorArbiter := by
  unfold State.generatorArbiter
  split
  · exact .refl s
  · split
    · exact .refl s
    · exact (recordKeeps_changeRequest s _ (f := fun r => { r with state := .rastering, progress := .start })
        fun _ => ⟨rfl, rfl⟩).trans (recordKeeps_gen _ _)

/-- A request joins that names a defined viewport (R26). -/
theorem keeps_joinRequest (s : State) (o : Origin) (v : Nat) (c : RuleChoice) (f : Bool) (its : List Item)
    (hv : PanelSound s → (s.viewport v).defined = true) : Keeps s (s.joinRequest o v c f its) := by
  refine ⟨rfl, rfl, rfl, rfl, rfl, rfl, rfl, id, id, id, fun hp => ?_⟩
  refine panelSound_of_requests hp rfl rfl rfl fun r hr => ?_
  rw [State.joinRequest_queue] at hr
  rcases List.mem_append.1 hr with hr | hr
  · exact hp.2.2.2.2.2.2.2 r hr
  · rw [List.mem_singleton.1 hr]; exact hv hp

/-- The cursor of a viewport that a request names is moved. -/
theorem recordKeeps_moveCursor (s : State) {i : Nat} (h : s.NamesViewport i) {v : Viewport}
    (hv : v.defined = (s.viewport i).defined) (hrect : v.rect = (s.viewport i).rect) :
    RecordKeeps s (s.setViewport i v) :=
  ⟨⟨rfl, rfl, rfl, rfl, rfl, rfl, rfl, id, id, id, fun hp => panelSound_moveCursor hp (h.defined hp) hv hrect⟩,
    rfl, rfl, rfl, rfl, rfl, rfl, rfl, le_rfl⟩

theorem recordKeeps_setCursor (s : State) {i : Nat} (h : s.NamesViewport i) (x y : Int) :
    RecordKeeps s (s.setViewport i { s.viewport i with cx := x, cy := y }) :=
  recordKeeps_moveCursor s h rfl rfl

/-! ### The generator -/

theorem recordKeeps_freeGenerator (s : State) : RecordKeeps s s.freeGenerator := recordKeeps_gen s _

theorem recordKeeps_endGeneration (s : State) (r : Request) : RecordKeeps s (s.endGeneration r) := by
  unfold State.endGeneration
  refine (recordKeeps_freeGenerator s).trans (.trans ?_ (recordKeeps_generatorArbiter _))
  split
  · exact recordKeeps_leave _ _ _
  · exact recordKeeps_changeRequest _ _ (f := fun q => { q with state := .draining }) fun _ => ⟨rfl, rfl⟩

theorem recordKeeps_finishItem (s : State) (t : Nat) : RecordKeeps s (s.finishItem t) := by
  unfold State.finishItem
  refine (recordKeeps_changeRequest s t (f := fun r =>
    { r with itemsDone := r.itemsDone + 1, progress := ⟨r.progress.item + 1, .itemStart⟩ }) fun _ => ⟨rfl, rfl⟩).trans ?_
  dsimp only
  split
  · exact .refl _
  · split
    · exact recordKeeps_gen _ _
    · exact recordKeeps_endGeneration _ _

theorem recordKeeps_nextCode (s : State) (t codes i : Nat) : RecordKeeps s (s.nextCode t codes i) := by
  unfold State.nextCode
  split
  · exact (recordKeeps_setPlace s t _).trans (recordKeeps_gen _ _)
  · exact recordKeeps_finishItem s t

/-- The cursor a cell's end leaves belongs to the same viewport (R82). -/
theorem cursorAfterCell_record (v : Viewport) (l : Latch) (wrapped : Bool) :
    (cursorAfterCell v l wrapped).defined = v.defined ∧ (cursorAfterCell v l wrapped).rect = v.rect := by
  unfold cursorAfterCell
  cases wrapped <;> exact ⟨rfl, rfl⟩

theorem recordKeeps_endCell (s : State) (r : Request) (codes i : Nat) (l : Latch) (wrapped : Bool)
    (hv : s.NamesViewport r.viewport) : RecordKeeps s (s.endCell r codes i l wrapped) :=
  have hc := cursorAfterCell_record (s.viewport r.viewport) l wrapped
  (recordKeeps_moveCursor s hv hc.1 hc.2).trans (recordKeeps_nextCode _ _ _ _)

theorem recordKeeps_moveOn (s : State) (r : Request) (it : Item) (c : Claim) (t : Strip)
    (hv : s.NamesViewport r.viewport) : RecordKeeps s (s.moveOn r it c t) := by
  unfold State.moveOn
  refine (recordKeeps_gen s { s.gen with waiting := none }).trans ?_
  dsimp only
  split
  · exact recordKeeps_setPlace _ _ _
  · exact recordKeeps_endCell _ _ _ _ _ _ hv
  · exact recordKeeps_nextCode _ _ _ _
  · exact recordKeeps_setPlace _ _ _
  · exact recordKeeps_finishItem _ _

/-- An action never asks for both masks (R93). -/
theorem wants_exclusive (a : Action) (force : Bool) (v : DotValue) (h : wantsSet a force v = true) :
    wantsClear a force v = false := by
  cases a <;> cases v <;> simp_all [wantsSet, wantsClear]

/-- The masks an examination forms are disjoint (R95). -/
theorem formOp_disjoint (c : Claim) (rule : InkRule) (force : Bool) (dead : List DeadDot) (im : Image) (t : Strip) :
    (formOp c rule force dead im t).setMask &&& (formOp c rule force dead im t).clearMask = 0 := by
  rw [mask_disjoint_iff]
  intro p hp
  simp only [formOp, maskOf_getLsbD, Bool.and_eq_true] at *
  rw [wants_exclusive _ _ _ hp.2, Bool.and_false]

theorem drawKeeps_append (s : State) (tag : Nat) {op : StripOp} (hop : op.setMask &&& op.clearMask = 0) :
    DrawKeeps s (s.append tag op) := by
  have h := recordKeeps_changeRequest s tag (f := fun r =>
    { r with generated := min (r.generated + 1) Config.generatedMax, outstanding := r.outstanding + 1 }) fun _ => ⟨rfl, rfl⟩
  refine ⟨⟨rfl, rfl, rfl, rfl, rfl, rfl, rfl, id, id, fun hi => imageSound_commitOp hi hop, h.panel⟩, rfl, rfl,
    ?_, h.echoes⟩
  unfold State.append
  dsimp only
  split
  · split <;> rfl
  · rfl

theorem drawKeeps_examine (s : State) (r : Request) (it : Item) (v : ItemValues) (t : Strip)
    (hv : s.NamesViewport r.viewport) : DrawKeeps s (s.examine r it v t) := by
  unfold State.examine
  dsimp only
  split
  · exact (recordKeeps_moveOn _ _ _ _ _ hv).draw
  · split
    · refine (drawKeeps_append s r.tag (formOp_disjoint _ _ _ _ _ _)).trans (recordKeeps_moveOn _ _ _ _ _ ?_).draw
      exact hv.changeRequest r.tag (f := fun r =>
        { r with generated := min (r.generated + 1) Config.generatedMax, outstanding := r.outstanding + 1 })
        fun _ => rfl
    · exact .free rfl

/-- The request found under a tag is in the queue and has the tag. -/
theorem State.request_some {s : State} {tag : Nat} {r : Request} (h : s.request tag = some r) :
    r ∈ s.queue.requests ∧ r.tag = tag :=
  ⟨List.mem_of_find?_eq_some h, by simpa using List.find?_some h⟩

/-- The item in progress belongs to the generator's request. -/
theorem State.inProgress_some {s : State} {r : Request} {it : Item} {v : ItemValues}
    (h : s.inProgress = some (r, it, v)) :
    s.gen.current.bind s.request = some r ∧ s.gen.values = some v ∧ r.items[r.progress.item]? = some it := by
  unfold State.inProgress at h
  split at h
  next r' v' hr hv =>
    simp only [Option.map_eq_some_iff, Prod.mk.injEq] at h
    obtain ⟨it', hit, rfl, rfl, rfl⟩ := h
    exact ⟨hr, hv, hit⟩
  next => simp at h

/-- The generator's request is in the queue, under the tag the generator names. -/
theorem State.currentRequest_some {s : State} {r : Request} (h : s.gen.current.bind s.request = some r) :
    r ∈ s.queue.requests ∧ s.gen.current = some r.tag := by
  obtain ⟨tag, htag, hr⟩ := Option.bind_eq_some_iff.1 h
  obtain ⟨hmem, ht⟩ := State.request_some hr
  exact ⟨hmem, by rw [htag, ht]⟩

theorem drawKeeps_reexamine (s : State) : DrawKeeps s s.reexamine := by
  unfold State.reexamine
  split
  next t r it v _ hp =>
    exact drawKeeps_examine s r it v t
      ⟨r, (State.currentRequest_some (State.inProgress_some hp).1).1, rfl⟩
  next => exact .refl s

theorem recordKeeps_startGraphic (s : State) (r : Request) (it : Item) (v : ItemValues) :
    RecordKeeps s (s.startGraphic r it v) := by
  unfold State.startGraphic
  refine (recordKeeps_changeRequest s r.tag (f := fun q => { q with clipped := q.clipped || it.isClipped v.rect })
    fun _ => ⟨rfl, rfl⟩).trans ?_
  dsimp only
  split
  · exact recordKeeps_finishItem _ _
  · split
    · exact recordKeeps_finishItem _ _
    · exact recordKeeps_setPlace _ _ _

theorem recordKeeps_startText (s : State) (r : Request) (font : Nat) (start : Option (Int × Int))
    (hv : s.NamesViewport r.viewport) : RecordKeeps s (s.startText r font start) := by
  unfold State.startText
  split
  · rcases start with _ | ⟨x, y⟩
    · exact recordKeeps_setPlace _ _ _
    · exact (recordKeeps_setCursor s hv x y).trans (recordKeeps_setPlace _ _ _)
  · exact (recordKeeps_changeRequest s r.tag (f := fun q => { q with missingGlyph := true }) fun _ => ⟨rfl, rfl⟩).trans
      (recordKeeps_finishItem _ _)

/-- The item values that an item's start reads (R88). -/
def State.readValues (s : State) (r : Request) : ItemValues :=
  ⟨(s.viewport r.viewport).rect, r.rule.resolve (s.viewport r.viewport).rule, (s.viewport r.viewport).wrap, r.force⟩

/-- The unit whose generator holds these item values. -/
def State.withValues (s : State) (v : ItemValues) : State := { s with gen := { s.gen with values := some v } }

/-- The start of an item, kind by kind (R78, R85, R86, R88). -/
theorem State.startItem_eq (s : State) (r : Request) (it : Item) :
    s.startItem r it =
      match it with
      | .cursor x y => ((s.withValues (s.readValues r)).setViewport r.viewport
          { s.viewport r.viewport with cx := x, cy := y }).finishItem r.tag
      | .newline rows => ((s.withValues (s.readValues r)).setViewport r.viewport
          { s.viewport r.viewport with cx := 0, cy := raiseCursor (s.viewport r.viewport).cy rows }).finishItem r.tag
      | .text font start _ => (s.withValues (s.readValues r)).startText r font start
      | .dot .. | .line .. | .box .. | .image .. | .clear =>
        (s.withValues (s.readValues r)).startGraphic r it (s.readValues r) := by
  cases it <;> rfl

theorem recordKeeps_startItem (s : State) (r : Request) (it : Item) (hv : s.NamesViewport r.viewport) :
    RecordKeeps s (s.startItem r it) := by
  have hvalues : RecordKeeps s (s.withValues (s.readValues r)) := recordKeeps_gen s _
  have hv' : (s.withValues (s.readValues r)).NamesViewport r.viewport := hv
  rw [State.startItem_eq]
  refine hvalues.trans ?_
  cases it with
  | cursor x y => exact (recordKeeps_setCursor _ hv' _ _).trans (recordKeeps_finishItem _ _)
  | newline rows => exact (recordKeeps_setCursor _ hv' _ _).trans (recordKeeps_finishItem _ _)
  | text font start codes => exact recordKeeps_startText _ _ _ _ hv'
  | dot | line | box | image | clear => exact recordKeeps_startGraphic _ _ _ _

theorem recordKeeps_startGlyph (s : State) (r : Request) (v : ItemValues) (font : Nat) (codes : List Nat) (i : Nat)
    (hv : s.NamesViewport r.viewport) : RecordKeeps s (s.startGlyph r v font codes i) := by
  unfold State.startGlyph
  split
  · exact (recordKeeps_changeRequest s r.tag (f := fun q => { q with missingGlyph := true }) fun _ => ⟨rfl, rfl⟩).trans
      (recordKeeps_nextCode _ _ _ _)
  · dsimp only
    generalize wrapsBefore v (s.viewport r.viewport) _ = wraps
    generalize (if wraps = true then (0 : Int) else _) = x
    generalize (if wraps = true then _ else (s.viewport r.viewport).cy) = y
    generalize Latch.mk _ _ _ _ = l
    refine (recordKeeps_changeRequest s r.tag (f := fun q => { q with clipped := q.clipped || l.isClipped v.rect x y })
      fun _ => ⟨rfl, rfl⟩).trans ?_
    split
    · exact recordKeeps_endCell _ _ _ _ _ _ (hv.changeRequest _
        (f := fun q => { q with clipped := q.clipped || l.isClipped v.rect x y }) fun _ => rfl)
    · exact (recordKeeps_setPlace _ r.tag _).trans (recordKeeps_gen _ _)

theorem drawKeeps_generatorEvent (s : State) : DrawKeeps s s.generatorEvent := by
  unfold State.generatorEvent
  split
  next r hr _ =>
    have hv : s.NamesViewport r.viewport := ⟨r, (State.currentRequest_some hr).1, rfl⟩
    split
    · exact (recordKeeps_startItem _ _ _ hv).draw
    · exact (recordKeeps_startGlyph _ _ _ _ _ _ hv).draw
    · exact drawKeeps_examine _ _ _ _ _ hv
    · exact drawKeeps_examine _ _ _ _ _ hv
    · exact .refl s
  next => exact .refl s

/-! ### The pulse driver -/

theorem keeps_cutShort (s : State) : Keeps s s.cutShort := by
  unfold State.cutShort
  split
  · exact .refl s
  · exact (drawKeeps_image s fun h => imageSound_loseDots h _ _).toKeeps.trans (.free rfl)

theorem keeps_flush (s : State) : Keeps s s.flush :=
  (drawKeeps_image s fun h => imageSound_loseOps h s.ring).toKeeps.trans (.free rfl)

theorem keeps_failRequests (s : State) : Keeps s s.failRequests :=
  (RecordKeeps.foldl (fun s r => recordKeeps_leave s r .failed) _ s).toKeeps

theorem keeps_pulseOver (s : State) : Keeps s s.pulseOver := by
  unfold State.pulseOver
  split
  · exact .free rfl
  · exact .refl s

theorem keeps_driverState (s : State) (d : DriverState) : Keeps s (s.driverState d) := .free rfl

theorem keeps_enterHeld (s : State) : Keeps s s.enterHeld := by
  unfold State.enterHeld
  split
  · exact .refl s
  · exact (keeps_cutShort s).trans <| (keeps_flush _).trans <| (keeps_driverState _ _).trans <|
      (keeps_failRequests _).trans <| (recordKeeps_offer _ _).toKeeps.trans (keeps_pulseOver _)

theorem keeps_notePulse (s : State) : Keeps s s.notePulse := by
  unfold State.notePulse
  split
  · exact .free rfl
  · exact .free rfl
  · exact .refl s
  · exact .refl s

/-- A charge whose level has not risen. -/
theorem keeps_spend (s : State) (n : Nat) : Keeps s { s with charge := { s.charge with level := s.charge.level - n } } :=
  ⟨rfl, rfl, rfl, rfl, rfl, rfl, rfl, fun h => (Nat.sub_le _ _).trans h, id, id, id⟩

theorem keeps_startPhase (s : State) (h : Hand) : Keeps s (s.startPhase h) := by
  unfold State.startPhase
  dsimp only
  have hstart := ((keeps_spend s h.need).trans (.free rfl)).trans (keeps_notePulse
    { s with
      charge := { s.charge with level := s.charge.level - h.need }
      driver :=
        { s.driver with
          state := .pulse
          hand := some (h.mark .pulsing)
          pulseLength := some s.settings.pulseLength
          phaseGap := some s.settings.phaseGap } })
  split
  · exact hstart.trans (keeps_enterHeld _)
  · exact hstart

theorem keeps_tryPhase (s : State) : Keeps s s.tryPhase := by
  unfold State.tryPhase
  split
  · exact .refl s
  · split
    · exact keeps_startPhase _ _
    · exact keeps_driverState _ _

theorem keeps_retryPhase (s : State) : Keeps s s.retryPhase := by
  unfold State.retryPhase
  split
  · exact keeps_tryPhase s
  · exact .refl s

theorem keeps_takeRing (s : State) (o : RingOp) (rest : List RingOp) (n : Nat) : Keeps s (s.takeRing o rest n) :=
  (Keeps.free (t := { s with
    ring := rest
    driver := { s.driver with state := .waitCharge, hand := some (handOf (.ring o.tag) o.op), passOver := n } })
    rfl).trans <| (drawKeeps_reexamine _).toKeeps.trans (keeps_tryPhase _)

theorem keeps_takeSweep (s : State) (op : StripOp) : Keeps s (s.takeSweep op) :=
  (Keeps.free (t := { s with
    sweep := { s.sweep with slot := none }
    driver := { s.driver with state := .waitCharge, hand := some (handOf .sweep op), passOver := 0 } })
    rfl).trans (keeps_tryPhase _)

theorem keeps_driverArbiter (s : State) : Keeps s s.driverArbiter := by
  unfold State.driverArbiter
  split
  · split
    · exact .refl s
    · exact keeps_takeRing _ _ _ _
    · exact keeps_takeSweep _ _
    · split
      · exact keeps_takeRing _ _ _ _
      · exact keeps_takeSweep _ _
  · exact .refl s

theorem drawKeeps_strike (s : State) (t : Strip) (p : Nat) : DrawKeeps s (s.strike t p) := by
  unfold State.strike
  dsimp only
  have hmarked : DrawKeeps s { s with
      ring := struckRing s.ring t p
      queue :=
        { s.queue with
          requests := s.queue.requests.map fun r =>
            if ((s.ring.filter fun o => o.names t p).map (·.tag)).contains r.tag then { r with dotsStruck := true }
            else r } } := by
    refine DrawKeeps.trans (t := { s with
      queue :=
        { s.queue with
          requests := s.queue.requests.map fun r =>
            if ((s.ring.filter fun o => o.names t p).map (·.tag)).contains r.tag then { r with dotsStruck := true }
            else r } }) (RecordKeeps.draw (recordKeeps_queue s (fun r hr => ?_)
        (le_of_eq (length_pool_map _ (fun r => ?_) _)))) (.free rfl)
    · obtain ⟨q, hq, rfl⟩ := List.mem_map.1 hr
      refine ⟨q, hq, ?_⟩
      split <;> rfl
    · split <;> rfl
  have hsettled := hmarked.trans (RecordKeeps.foldl (fun s (o : RingOp) => recordKeeps_settleOne s o.tag)
    (struckAway s.ring t p) _).draw
  split
  · exact hsettled
  · exact hsettled.trans (drawKeeps_reexamine _)

theorem drawKeeps_foundDead (s : State) (t : Strip) (source : SenseSource) (p : Nat) :
    DrawKeeps s (s.foundDead t source p) := by
  have himage := drawKeeps_image s fun h => imageSound_loseDots h t (BitVec.twoPow 16 p)
  unfold State.foundDead
  dsimp only
  split
  · exact (himage.trans (.free rfl)).trans <| (recordKeeps_offer _ _).draw.trans (drawKeeps_strike _ _ _)
  · exact himage.trans (recordKeeps_offer _ _).draw

theorem drawKeeps_senseResult (s : State) (h : Hand) (sense : Mask) : DrawKeeps s (s.senseResult h sense) :=
  DrawKeeps.foldl (fun s p => drawKeeps_foundDead s h.op.strip h.senseSource p) _ s

theorem keeps_completeOp (s : State) (h : Hand) : Keeps s (s.completeOp h) := by
  unfold State.completeOp
  refine Keeps.trans (t := { s with driver := { s.driver with state := .idle, hand := none } }) (.free rfl)
    (Keeps.trans ?_ (keeps_driverArbiter _))
  split
  · exact (recordKeeps_settleOne _ _).toKeeps
  · exact .refl _

theorem keeps_gapEnds (s : State) : Keeps s s.gapEnds := by
  unfold State.gapEnds
  split
  · exact .refl s
  next h _ =>
    split
    · exact (Keeps.free (t := { s with driver := { s.driver with hand := some { h with phase := .clear } } })
        rfl).trans (keeps_tryPhase _)
    · exact keeps_completeOp s h

theorem keeps_pulseEnds (s : State) (sense : Mask) : Keeps s (s.pulseEnds sense) := by
  unfold State.pulseEnds
  split
  · exact .refl s
  next h _ =>
    have hsensed := (Keeps.free (s := s) (t := { s with
      driver := { s.driver with state := .gap, hand := some (h.mark .completed) } }) rfl).trans <|
      (keeps_pulseOver _).trans (drawKeeps_senseResult _ h sense).toKeeps
    dsimp only
    split
    · exact hsensed.trans (keeps_gapEnds _)
    · exact hsensed

theorem keeps_recharge (s : State) : Keeps s s.recharge :=
  Keeps.trans (t := { s with charge := ⟨min (s.charge.level + 1) Config.chargeMax, s.settings.rechargePeriod⟩ })
    ⟨rfl, rfl, rfl, rfl, rfl, rfl, rfl, fun _ => Nat.min_le_right _ _, id, id, id⟩ (keeps_retryPhase _)

/-! ### The sweep -/

theorem keeps_sweepFill (s : State) (t : Strip) : Keeps s (s.sweepFill t) :=
  (Keeps.free (t := { s with
    sweep :=
      { s.sweep with
        slot := some (sweepOp s.image t)
        cursor := nextInSweep s.settings.columns s.settings.stripRows t } }) rfl).trans (keeps_driverArbiter _)

theorem keeps_sweepLooks (s : State) : Keeps s s.sweepLooks := by
  unfold State.sweepLooks
  split
  · exact .refl s
  · split
    · exact .refl s
    · exact keeps_sweepFill _ _

theorem keeps_sweepExpires (s : State) : Keeps s s.sweepExpires := by
  unfold State.sweepExpires
  split
  · exact .refl s
  · split
    · exact .free rfl
    · exact (Keeps.free (t := { s with sweep := { s.sweep with timer := some s.settings.sweepInterval } }) rfl).trans
        (keeps_sweepLooks _)

/-! ### The scanner and the contact -/

theorem keeps_setContact (s : State) (c : ContactState) : Keeps s (s.setContact c) := .free rfl

theorem keeps_setScanner (s : State) (x : Scanner) : Keeps s (s.setScanner x) := .free rfl

theorem keeps_restartTouch (s : State) : Keeps s s.restartTouch :=
  Keeps.trans (t := { s with touch := s.restartTouch.touch }) (.free rfl) (keeps_clearCoalesce _)

theorem keeps_joinEcho (s : State) (r : Rect) : Keeps s (s.joinEcho r) :=
  (keeps_joinRequest s _ _ _ _ _ fun hp => hp.2.2.2.1).trans (recordKeeps_generatorArbiter _).toKeeps

theorem keeps_press (s : State) (x y : Nat) : Keeps s (s.press x y) := by
  unfold State.press
  dsimp only
  refine Keeps.trans ?_ (recordKeeps_offer _ _).toKeeps
  split
  · exact Keeps.trans (.free rfl) (keeps_joinEcho _ _)
  · exact .free rfl

theorem keeps_pressTest (s : State) (x y count : Nat) : Keeps s (s.pressTest x y count) := by
  unfold State.pressTest
  dsimp only
  split
  · exact keeps_press _ _ _
  · exact keeps_setContact _ _

theorem keeps_release (s : State) (c : Contact) : Keeps s (s.release c) := by
  unfold State.release
  dsimp only
  refine Keeps.trans ?_ (keeps_setContact _ _)
  refine Keeps.trans (Keeps.trans ?_ (recordKeeps_offer _ _).toKeeps) (keeps_clearCoalesce _)
  split
  · exact keeps_joinEcho _ _
  · exact .refl s

theorem keeps_releaseTest (s : State) (c : Contact) (count : Nat) : Keeps s (s.releaseTest c count) := by
  unfold State.releaseTest
  dsimp only
  split
  · exact keeps_release _ _
  · exact keeps_setContact _ _

theorem keeps_moveCheck (s : State) (c : Contact) (x y : Nat) : Keeps s (s.moveCheck c x y) := by
  unfold State.moveCheck
  split
  · exact (keeps_setContact _ _).trans (recordKeeps_offer _ _).toKeeps
  · exact keeps_setContact _ _

theorem keeps_contactStep (s : State) (o : ScanOutcome) : Keeps s (s.contactStep o) := by
  unfold State.contactStep
  split
  · exact keeps_pressTest _ _ _ _
  · exact .refl s
  · exact keeps_setContact _ _
  · split
    · exact keeps_pressTest _ _ _ _
    · exact keeps_pressTest _ _ _ _
  · exact .refl s
  · exact keeps_releaseTest _ _ _
  · exact keeps_moveCheck _ _ _ _
  · exact keeps_setContact _ _
  · exact keeps_releaseTest _ _ _
  · exact keeps_moveCheck _ _ _ _
  · exact keeps_setContact _ _

theorem keeps_evaluateScan (s : State) (xb : BitVec 48) (yb : BitVec 24) : Keeps s (s.evaluateScan xb yb) := by
  unfold State.evaluateScan
  dsimp only
  refine Keeps.trans ?_ (keeps_contactStep _ _)
  exact Keeps.trans (.free rfl) (RecordKeeps.foldl recordKeeps_offer _ _).toKeeps

theorem keeps_voidScan (s : State) : Keeps s s.voidScan := by
  unfold State.voidScan
  dsimp only
  split
  · split
    · exact .free rfl
    · exact .free rfl
  · exact .free rfl

theorem keeps_scanEnds (s : State) (xb : BitVec 48) (yb : BitVec 24) : Keeps s (s.scanEnds xb yb) := by
  unfold State.scanEnds
  split
  · exact .refl s
  · exact .refl s
  · split
    · exact keeps_voidScan _
    · exact (keeps_evaluateScan _ _ _).trans (keeps_setScanner _ _)
  · exact (keeps_evaluateScan _ _ _).trans ((keeps_setScanner _ _).trans (keeps_retryPhase _))

/-! ### The messages of the request queue, and RESUME -/

theorem recordKeeps_cancelOne (s : State) (r : Request) : RecordKeeps s (s.cancelOne r) := by
  unfold State.cancelOne
  split
  · exact recordKeeps_leave _ _ _
  · split
    · exact (recordKeeps_freeGenerator s).trans (recordKeeps_leave _ _ _)
    · exact (recordKeeps_freeGenerator s).trans (recordKeeps_changeRequest _ _ fun _ => ⟨rfl, rfl⟩)
  · exact .refl s

theorem keeps_cancelAllForm (s : State) : Keeps s (cancelAllForm s).1 :=
  ((RecordKeeps.foldl recordKeeps_cancelOne _ s).trans (recordKeeps_generatorArbiter _)).toKeeps

theorem keeps_cancelMessage (s : State) (p : List Byte) : Keeps s (cancelMessage s p).1 := by
  unfold cancelMessage
  split
  · exact keeps_cancelAllForm s
  · unfold cancelTag
    split
    · exact .refl s
    · split
      · exact .refl s
      · exact ((recordKeeps_cancelOne _ _).trans (recordKeeps_generatorArbiter _)).toKeeps

/-- An accepted DRAW names a defined viewport (R61). -/
theorem parseDraw_viewport {vs : List Viewport} {p : List Byte} {d : DrawForm} (h : parseDraw vs p = .ok d) :
    (vs.getD d.viewport .undefined).defined = true := by
  unfold parseDraw at h
  dsimp only at h
  split at h
  next hvp =>
    split at h
    · cases h
    · split at h
      · split at h
        · cases h
        · cases h; exact hvp.2
      · cases h
  next => cases h

theorem keeps_drawMessage (s : State) (p : List Byte) : Keeps s (drawMessage s p).1 := by
  unfold drawMessage
  split
  · exact .refl s
  next d hd =>
    split
    · exact .refl s
    · split
      · exact .refl s
      · exact (keeps_joinRequest s _ _ _ _ _ fun _ => parseDraw_viewport hd).trans
          (recordKeeps_generatorArbiter _).toKeeps

theorem keeps_resumeMessage (s : State) : Keeps s (resumeMessage s).1 := by
  unfold resumeMessage
  split
  · exact (keeps_driverState s .idle).trans <| (recordKeeps_generatorArbiter _).toKeeps.trans (keeps_driverArbiter _)
  · exact .refl s

end Sys2Proof.Machine
end

