-- ==== Sys2Proof/Proofs/BlocksKept.lean ====
section
/-!
SUPPORT. What the messages, the link and the resets keep, block by block, and the statement that every step keeps each
block sound on its own.
-/

-- One proof at a time: side by side, the proofs' threads reserve more memory than the check allows.
set_option Elab.async false

namespace Sys2Proof.Machine

/-! ### Settings (R179 to R181) -/

/-- A CONFIGURE whose pairs pass the first check names settings with values in their ranges (R180). -/
theorem firstBadPair_none {i : Nat} {pairs : List (Nat × Nat)} (h : firstBadPair i pairs = none) :
    ∀ e ∈ pairs, settingInRange e.1 e.2 = true := by
  induction pairs generalizing i with
  | nil => simp
  | cons e l ih =>
    obtain ⟨k, v⟩ := e
    unfold firstBadPair at h
    split at h
    next hin => exact List.forall_mem_cons.2 ⟨hin, ih h⟩
    next => cases h

/-- The setting that is given a value has it. -/
theorem Settings.put_value_same (c : Settings) {i v : Nat} (h : settingInRange i v = true) :
    (c.put i v).value i = v := by
  unfold settingInRange at h
  split at h <;> first | rfl | cases h

/-- Giving one setting a value leaves the others. -/
theorem Settings.put_value_other (c : Settings) (v : Nat) {i j : Nat} (h : j ≠ i) :
    (c.put i v).value j = c.value j := by
  unfold Settings.put
  split <;> first | rfl | (unfold Settings.value; split <;> first | rfl | exact absurd rfl h)

/-- Every setting lies in its range (R179). -/
abbrev SettingsInRange (c : Settings) : Prop := ∀ i ∈ List.range 19, settingInRange (i + 1) (c.value (i + 1)) = true

theorem settingsInRange_put {c : Settings} (h : SettingsInRange c) {i v : Nat} (hv : settingInRange i v = true) :
    SettingsInRange (c.put i v) := by
  intro j hj
  by_cases e : j + 1 = i
  · subst e
    rwa [Settings.put_value_same c hv]
  · rw [Settings.put_value_other c v e]
    exact h j hj

theorem settingsInRange_putAll {c : Settings} (h : SettingsInRange c) {pairs : List (Nat × Nat)}
    (hp : ∀ e ∈ pairs, settingInRange e.1 e.2 = true) : SettingsInRange (c.putAll pairs) := by
  induction pairs generalizing c with
  | nil => exact h
  | cons e l ih =>
    obtain ⟨he, hl⟩ := List.forall_mem_cons.1 hp
    exact ih (settingsInRange_put h he) hl

/-- The panel of sound settings has 8 to 240 columns and 1 to 4 strip rows (R179). -/
theorem SettingsSound.shape {c : Settings} (h : SettingsSound c) :
    8 ≤ c.columns ∧ c.columns ≤ 240 ∧ 1 ≤ c.stripRows ∧ c.stripRows ≤ 4 := by
  have h1 := h.1 0 (by decide)
  have h2 := h.1 1 (by decide)
  simp only [settingInRange, Settings.value, Bool.and_eq_true, decide_eq_true_eq] at h1 h2
  exact ⟨h1.1, h1.2, h2.1, h2.2⟩

/-- Touch enable is 0 or 1 (R179). -/
theorem SettingsSound.touchEnable {c : Settings} (h : SettingsSound c) : c.touchEnable = 0 ∨ c.touchEnable = 1 := by
  have h7 := h.1 6 (by decide)
  simp only [settingInRange, Settings.value, decide_eq_true_eq] at h7
  omega

/-- What an accepted CONFIGURE leaves in the settings is sound (R180, R181). -/
theorem settingsSound_putAll {c : Settings} (h : SettingsSound c) {pairs : List (Nat × Nat)}
    (hp : firstBadPair 0 pairs = none) (hb : (c.putAll pairs).beamsInside ≠ false) :
    SettingsSound (c.putAll pairs) :=
  ⟨settingsInRange_putAll h.1 (firstBadPair_none hp), by simpa using hb⟩

/-- The shape stays when `shapeDiffers` says so. -/
theorem Settings.shape_eq {a b : Settings} (h : a.shapeDiffers b = false) :
    b.columns = a.columns ∧ b.stripRows = a.stripRows := by
  simp only [Settings.shapeDiffers, Bool.or_eq_false_iff, bne_eq_false_iff_eq] at h
  exact ⟨h.1.symm, h.2.symm⟩

/-- The panel is sound under other settings of the same shape. -/
theorem panelSound_settings {s : State} (h : PanelSound s) {c : Settings} (hc : SettingsSound c)
    (hshape : s.settings.shapeDiffers c = false) : PanelSound { s with settings := c } := by
  obtain ⟨hcol, hrow⟩ := Settings.shape_eq hshape
  obtain ⟨-, hlen, hzlen, h0, hrect, hvs, hzs, hr⟩ := h
  refine ⟨hc, hlen, hzlen, h0, ?_, fun v hv => ?_, fun z hz => ?_, hr⟩
  · rw [hcol, hrow]; exact hrect
  · simpa only [ViewportSound, hcol, hrow] using hvs v hv
  · simpa only [ZoneSound, hcol, hrow] using hzs z hz

/-- The whole panel lies inside the panel (R42). -/
theorem wholePanel_inPanel {columns stripRows : Nat} (hc : 1 ≤ columns) (hr : 1 ≤ stripRows) :
    (Viewport.wholePanel columns stripRows).rect.inPanel columns stripRows = true := by
  have hr' : 1 ≤ 16 * stripRows := by omega
  simp [Viewport.wholePanel, Rect.inPanel, hc, hr']

/-- A geometry change leaves a sound panel when no request is in the queue (R182, R184). -/
theorem panelSound_geometryChange {s : State} (hc : SettingsSound s.settings) (hr : s.queue.requests = []) :
    PanelSound s.geometryChange := by
  obtain ⟨hcol, -, hrow, -⟩ := hc.shape
  refine ⟨hc, rfl, rfl, rfl, rfl, fun v hv => ?_, fun z hz => ?_, fun r hr' => ?_⟩
  · rcases List.mem_cons.1 hv with rfl | hv
    · rw [viewportSound_defined rfl]
      exact wholePanel_inPanel (Nat.le_trans (by decide) hcol) hrow
    · rw [(List.mem_replicate.1 hv).2]; rfl
  · rw [(List.mem_replicate.1 hz).2]; rfl
  · rw [show s.geometryChange.queue.requests = [] from hr] at hr'
    cases hr'

/-! ### What a message keeps -/

/-- What a message leaves as it is, and the blocks it keeps sound, each on its own. -/
structure MessageKeeps (s t : State) : Prop where
  inReset : t.inReset = s.inReset
  ocin : t.ocin = s.ocin
  link : t.link = s.link
  pending : t.pending = s.pending
  level : s.charge.level ≤ Config.chargeMax → t.charge.level ≤ Config.chargeMax
  store : StoreSound s.store → StoreSound t.store
  reports : ReportsSound s.reports → ReportsSound t.reports
  image : ImageSound s.image → ImageSound t.image
  panel : PanelSound s → PanelSound t

theorem Keeps.message {s t : State} (h : Keeps s t) : MessageKeeps s t :=
  ⟨h.inReset, h.ocin, h.link, h.pending, h.level, fun k => h.store ▸ k, h.reports, h.image, h.panel⟩

theorem MessageKeeps.refl (s : State) : MessageKeeps s s := (Keeps.refl s).message

theorem MessageKeeps.trans {s t u : State} (h : MessageKeeps s t) (k : MessageKeeps t u) : MessageKeeps s u where
  inReset := k.inReset.trans h.inReset
  ocin := k.ocin.trans h.ocin
  link := k.link.trans h.link
  pending := k.pending.trans h.pending
  level := k.level ∘ h.level
  store := k.store ∘ h.store
  reports := k.reports ∘ h.reports
  image := k.image ∘ h.image
  panel := k.panel ∘ h.panel

theorem messageKeeps_store (s : State) {g : GlyphStore} (h : StoreSound s.store → StoreSound g) :
    MessageKeeps s { s with store := g } :=
  ⟨rfl, rfl, rfl, rfl, id, h, id, id, id⟩

theorem messageKeeps_reports (s : State) {q : ReportQueue} (h : ReportsSound s.reports → ReportsSound q) :
    MessageKeeps s { s with reports := q } :=
  ⟨rfl, rfl, rfl, rfl, id, id, h, id, id⟩

/-- The settings take new values, with the geometry change of another shape. -/
def State.reshaped (s : State) (new : Settings) : State :=
  if s.settings.shapeDiffers new then ({ s with settings := new }).geometryChange else { s with settings := new }

/-- The scanner takes part in a change of settings. -/
def State.retouched (s : State) (old new : Settings) : State :=
  if touchAffected old new then s.restartTouch else s

/-- The effects of new settings, one after another (log 13). -/
theorem State.applySettings_eq (s : State) (new : Settings) :
    s.applySettings new =
      let t := ((s.reshaped new).retouched s.settings new).startSweepTimer
      if (s.reshaped new).quietPending && !t.quietPending then t.retryPhase else t :=
  rfl

theorem messageKeeps_reshaped (s : State) {new : Settings} (hnew : SettingsSound s.settings → SettingsSound new)
    (hr : s.settings.shapeDiffers new = true → s.queue.requests = []) : MessageKeeps s (s.reshaped new) := by
  unfold State.reshaped
  split
  next hd =>
    refine ⟨rfl, rfl, rfl, rfl, id, id, id, fun _ => ⟨rfl, by simp [State.geometryChange]⟩, fun hp => ?_⟩
    exact panelSound_geometryChange (hnew hp.1) (hr hd)
  next hd =>
    exact ⟨rfl, rfl, rfl, rfl, id, id, id, id, fun hp => panelSound_settings hp (hnew hp.1) (by simpa using hd)⟩

theorem keeps_retouched (s : State) (old new : Settings) : Keeps s (s.retouched old new) := by
  unfold State.retouched
  split
  · exact keeps_restartTouch s
  · exact .refl s

theorem keeps_startSweepTimer (s : State) : Keeps s s.startSweepTimer := by
  unfold State.startSweepTimer
  split
  · split
    · exact .refl s
    · exact .free rfl
  · exact .refl s

theorem messageKeeps_applySettings (s : State) {new : Settings} (hnew : SettingsSound s.settings → SettingsSound new)
    (hr : s.settings.shapeDiffers new = true → s.queue.requests = []) : MessageKeeps s (s.applySettings new) := by
  rw [State.applySettings_eq]
  refine (messageKeeps_reshaped s hnew hr).trans (Keeps.message ?_)
  refine (keeps_retouched _ s.settings new).trans ((keeps_startSweepTimer _).trans ?_)
  dsimp only
  split
  · exact keeps_retryPhase _
  · exact .refl _

/-- With the work in flight empty there is no request (R182). -/
theorem State.workEmpty_iff (s : State) :
    s.workEmpty = true ↔ s.queue.requests = [] ∧ s.ring = [] ∧ s.driver.hand = none := by
  simp [State.workEmpty, and_assoc]

/-- An accepted CONFIGURE: the checks it has passed (R180 to R182). -/
theorem configureMessage_cases (s : State) (p : List Byte) :
    (configureMessage s p).1 = s ∨
      ∃ new, (configureMessage s p).1 = s.applySettings new ∧
        (SettingsSound s.settings → SettingsSound new) ∧
        (s.settings.shapeDiffers new = true → s.workEmpty = true) := by
  unfold configureMessage
  dsimp only
  split
  · exact .inl rfl
  next hpairs =>
    split
    · exact .inl rfl
    next hbeams =>
      split
      · exact .inl rfl
      next hbusy =>
        refine .inr ⟨_, rfl, fun hs => settingsSound_putAll hs hpairs hbeams, fun hd => ?_⟩
        simpa [hd] using hbusy

theorem messageKeeps_configureMessage (s : State) (p : List Byte) : MessageKeeps s (configureMessage s p).1 := by
  rcases configureMessage_cases s p with h | ⟨new, h, hnew, hr⟩
  · rw [h]; exact .refl s
  · rw [h]
    exact messageKeeps_applySettings s hnew fun hd => (s.workEmpty_iff.1 (hr hd)).1

/-- Every check of a SET VIEWPORT holds when none is answered (R44). -/
theorem setViewportChecks_none {c : Settings} {p : List Byte} (h : firstFailing (setViewportChecks c p) = none) :
    (fieldNat p 1 = 1 ∨ (fieldNat p 1 = 0 ∧ fieldNat p 0 ≠ 0)) ∧
      (fieldNat p 1 = 1 → fieldNat p 0 ≠ 0 →
        (1 ≤ fieldNat p 4 ∧ fieldNat p 2 + fieldNat p 4 ≤ c.columns) ∧
          (1 ≤ fieldNat p 5 ∧ fieldNat p 3 + fieldNat p 5 ≤ 16 * c.stripRows)) := by
  have hall := firstFailing_none.1 h
  simp only [setViewportChecks, List.forall_mem_cons, Bool.or_eq_true, Bool.not_eq_true', Bool.and_eq_false_iff,
    beq_eq_false_iff_ne, bne_eq_false_iff_eq, decide_eq_true_eq] at hall
  obtain ⟨-, hop, -, -, hw, hh, -⟩ := hall
  refine ⟨hop, fun h1 h0 => ⟨?_, ?_⟩⟩
  · exact hw.resolve_left fun h => h.elim (fun e => e h1) h0
  · exact hh.resolve_left fun h => h.elim (fun e => e h1) h0

/-- The record of a DEFINE is sound (R42, R45). -/
theorem panelSound_define {s : State} (h : PanelSound s) {p : List Byte} (hop : fieldNat p 1 = 1)
    (hc : firstFailing (setViewportChecks s.settings p) = none) : PanelSound (defineViewport s p).1 := by
  obtain ⟨-, hrect⟩ := setViewportChecks_none hc
  refine panelSound_setViewport h _ ?_ (fun e => ⟨rfl, by simp [definedViewport, e]⟩) fun _ _ _ => rfl
  rw [viewportSound_defined rfl]
  by_cases e : fieldNat p 0 = 0
  · obtain ⟨-, -, -, h0, -, hvs, -, -⟩ := h
    simpa [definedViewport, e] using (viewportSound_defined h0).1 (hvs _ (State.viewport_mem h0).2)
  · obtain ⟨⟨hw1, hw2⟩, hh1, hh2⟩ := hrect hop e
    simp [definedViewport, e, Rect.inPanel, hw1, hw2, hh1, hh2]

theorem messageKeeps_setViewportMessage (s : State) (p : List Byte) :
    MessageKeeps s (setViewportMessage s p).1 := by
  unfold setViewportMessage
  split
  · exact .refl s
  next hc =>
    split
    next hop => exact ⟨rfl, rfl, rfl, rfl, id, id, id, id, fun h => panelSound_define h hop hc⟩
    next hop =>
      unfold undefineViewport
      split
      · exact .refl s
      · split
        · exact .refl s
        next huse =>
          obtain ⟨hop', -⟩ := setViewportChecks_none hc
          have hid : fieldNat p 0 ≠ 0 := (hop'.resolve_left hop).2
          have hfree : ∀ r ∈ s.queue.requests, r.viewport ≠ fieldNat p 0 := by
            simpa [State.viewportInUse] using huse
          exact ⟨rfl, rfl, rfl, rfl, id, id, id, id, fun h =>
            panelSound_setViewport h _ rfl (fun e => absurd e hid) fun r hr e => absurd e (hfree r hr)⟩

/-- The panel is sound after a zone's record is replaced by a sound one. -/
theorem panelSound_setZone {s : State} (h : PanelSound s) (i : Nat) {z : Zone} (hz : ZoneSound s.settings z) :
    PanelSound { s with zones := s.zones.set i z } := by
  obtain ⟨hs, hlen, hzlen, h0, hrect, hvs, hzs, hr⟩ := h
  refine ⟨hs, hlen, by simpa using hzlen, h0, hrect, hvs, fun w hw => ?_, hr⟩
  rcases List.mem_or_eq_of_mem_set hw with hw | rfl
  · exact hzs w hw
  · exact hz

theorem messageKeeps_setZoneMessage (s : State) (p : List Byte) : MessageKeeps s (setZoneMessage s p).1 := by
  unfold setZoneMessage
  dsimp only
  split
  · exact .refl s
  next hc =>
    have hall := firstFailing_none.1 hc
    split
    next hop =>
      simp only [List.forall_mem_cons, hop, Bool.not_true, Bool.false_or, decide_eq_true_eq] at hall
      obtain ⟨-, -, -, -, ⟨hw1, hw2⟩, ⟨hh1, hh2⟩, -⟩ := hall
      refine ⟨rfl, rfl, rfl, rfl, id, id, id, id, fun h => panelSound_setZone h _ ?_⟩
      simp [ZoneSound, Rect.inPanel, hw1, hw2, hh1, hh2]
    next =>
      split
      · exact ⟨rfl, rfl, rfl, rfl, id, id, id, id, fun h => panelSound_setZone h _ rfl⟩
      · exact .refl s

theorem messageKeeps_setFontMessage (s : State) (p : List Byte) : MessageKeeps s (setFontMessage s p).1 := by
  unfold setFontMessage
  split
  · exact .refl s
  · dsimp only
    split
    · exact .refl s
    · exact messageKeeps_store s fun h => storeSound_setFont h _ rfl

theorem messageKeeps_dropFontMessage (s : State) (p : List Byte) : MessageKeeps s (dropFontMessage s p).1 := by
  unfold dropFontMessage
  dsimp only
  split
  · exact .refl s
  · split
    · exact .refl s
    · exact messageKeeps_store s fun h => storeSound_dropFont h _

theorem messageKeeps_loadGlyphMessage (s : State) (p : List Byte) : MessageKeeps s (loadGlyphMessage s p).1 := by
  unfold loadGlyphMessage
  dsimp only
  split
  · exact .refl s
  · split
    · exact .refl s
    next hfont =>
      split
      · exact .refl s
      next hwidth =>
        split
        · exact .refl s
        · split
          · exact .refl s
          next hroom =>
            have hlen : (patternsOf (s.store.font (fieldNat p 0)).height (fieldNat p 2) (p.drop 3)).length =
                fieldNat p 2 := by simp [patternsOf]
            refine messageKeeps_store s fun h => storeSound_put h ?_ ?_ ?_
            · simpa [hlen] using hroom
            · simpa using hfont
            · rw [hlen]; exact not_not.1 hwidth

theorem messageKeeps_dropGlyphMessage (s : State) (p : List Byte) : MessageKeeps s (dropGlyphMessage s p).1 := by
  unfold dropGlyphMessage
  dsimp only
  split
  · exact .refl s
  · split
    · exact .refl s
    · exact messageKeeps_store s fun h => storeSound_remove h _

theorem messageKeeps_forgetDeadDotMessage (s : State) (p : List Byte) :
    MessageKeeps s (forgetDeadDotMessage s p).1 := by
  unfold forgetDeadDotMessage
  dsimp only
  split
  · exact .refl s
  · split
    · exact .refl s
    · split
      · exact (Keeps.free rfl).message
      · exact .refl s

theorem messageKeeps_subscribeMessage (s : State) (p : List Byte) : MessageKeeps s (subscribeMessage s p).1 := by
  unfold subscribeMessage
  dsimp only
  split
  · exact .refl s
  · exact messageKeeps_reports s id

/-- The messages that change nothing but their own block's answer. -/
theorem readImageMessage_state (s : State) (p : List Byte) : (readImageMessage s p).1 = s := by
  unfold readImageMessage
  dsimp only
  split <;> rfl

theorem getViewportMessage_state (s : State) (p : List Byte) : (getViewportMessage s p).1 = s := by
  unfold getViewportMessage
  split <;> rfl

/-- Every message keeps the blocks (R175). -/
theorem messageKeeps_ownerCarriesOut (k : MsgKind) (s : State) (p : List Byte) :
    MessageKeeps s (ownerCarriesOut k s p).1 := by
  cases k with
  | query | restart | listDeadDots => exact .refl s
  | configure => exact messageKeeps_configureMessage s p
  | draw => exact (keeps_drawMessage s p).message
  | cancel => exact (keeps_cancelMessage s p).message
  | resume => exact (keeps_resumeMessage s).message
  | setViewport => exact messageKeeps_setViewportMessage s p
  | getViewport => exact (getViewportMessage_state s p).symm ▸ .refl s
  | setFont => exact messageKeeps_setFontMessage s p
  | dropFont => exact messageKeeps_dropFontMessage s p
  | loadGlyph => exact messageKeeps_loadGlyphMessage s p
  | dropGlyph => exact messageKeeps_dropGlyphMessage s p
  | readImage => exact (readImageMessage_state s p).symm ▸ .refl s
  | forgetDeadDot => exact messageKeeps_forgetDeadDotMessage s p
  | setZone => exact messageKeeps_setZoneMessage s p
  | collect => exact messageKeeps_reports s fun h => reportsSound_collect h _
  | subscribe => exact messageKeeps_subscribeMessage s p

theorem messageKeeps_carryOut (kind : Byte) (s : State) (p : List Byte) : MessageKeeps s (carryOut kind s p).1 := by
  unfold carryOut
  split
  · exact .refl s
  · split
    · exact messageKeeps_ownerCarriesOut _ s p
    · exact .refl s

/-! ### The blocks through an event -/

/-- The six blocks, each sound on its own in `t` when it was in `s`. -/
structure BlocksKept (s t : State) : Prop where
  store : StoreSound s.store → StoreSound t.store
  reports : ReportsSound s.reports → ReportsSound t.reports
  image : ImageSound s.image → ImageSound t.image
  panel : PanelSound s → PanelSound t
  level : s.charge.level ≤ Config.chargeMax → t.charge.level ≤ Config.chargeMax
  link : LinkSound s.link → LinkSound t.link

theorem MessageKeeps.blocks {s t : State} (h : MessageKeeps s t) : BlocksKept s t :=
  ⟨h.store, h.reports, h.image, h.panel, h.level, fun k => h.link ▸ k⟩

theorem Keeps.blocks {s t : State} (h : Keeps s t) : BlocksKept s t := h.message.blocks

theorem BlocksKept.refl (s : State) : BlocksKept s s := (Keeps.refl s).blocks

theorem BlocksKept.trans {s t u : State} (h : BlocksKept s t) (k : BlocksKept t u) : BlocksKept s u :=
  ⟨k.store ∘ h.store, k.reports ∘ h.reports, k.image ∘ h.image, k.panel ∘ h.panel, k.level ∘ h.level,
    k.link ∘ h.link⟩

/-- An update of the link that keeps it sound. -/
theorem blocksKept_link (s : State) {l : Link} (h : LinkSound s.link → LinkSound l) :
    BlocksKept s { s with link := l } :=
  ⟨id, id, id, id, id, h⟩

/-! ### The link (R165, R167, R174, R177) -/

/-- The receiver may always go to HUNT. -/
theorem linkSound_hunt {l : Link} (h : LinkSound l) : LinkSound { l with rx := .hunt } := by
  obtain ⟨htx, hcache⟩ := h
  refine ⟨?_, hcache⟩
  unfold Link.txFits at *
  revert htx
  cases l.tx <;> simp +contextual [Link.ownAddress]

/-- While no reply is being sent the receiver may take any state (R167). -/
theorem linkSound_setRx {l : Link} (h : LinkSound l) (rx : Receiver) (ht : ∀ b r, l.tx ≠ .sending b r) :
    LinkSound { l with rx := rx } := by
  obtain ⟨htx, hcache⟩ := h
  refine ⟨?_, hcache⟩
  unfold Link.txFits at *
  revert htx
  cases htx : l.tx with
  | sending b r => exact absurd htx (ht b r)
  | idle | turnaround => simp [Link.ownAddress]

/-- An idle transmitter, with the receiver in HUNT and the cache kept or emptied. -/
theorem linkSound_idle {l : Link} (h : LinkSound l) {c : Option (Byte × List Byte)} (hc : c = none ∨ c = l.cache) :
    LinkSound { l with rx := .hunt, tx := .idle, cache := c } := by
  refine ⟨rfl, fun ho => ?_⟩
  rcases hc with rfl | rfl
  · rfl
  · exact h.2 ho

/-- A saved reply waiting for its start time, in a unit with an own address (R174, R176). -/
theorem linkSound_turnaround {l : Link} {own : Nat} (ho : l.ownAddress = some own) (b : List Byte) (r : Bool)
    (hb : r = true → l.cache.map (·.2) = some b) : LinkSound { l with tx := .turnaround b r } := by
  have ho' : Link.ownAddress { l with tx := .turnaround b r } = some own := ho
  refine ⟨?_, fun h => by rw [ho'] at h; cases h⟩
  cases r with
  | false => simp [Link.txFits, ho']
  | true => simp [Link.txFits, ho', hb rfl]

theorem blocksKept_setRx_hunt (s : State) : BlocksKept s (s.setRx .hunt) := blocksKept_link s linkSound_hunt

theorem blocksKept_setRx (s : State) (rx : Receiver) (h : s.isSending = false) : BlocksKept s (s.setRx rx) :=
  blocksKept_link s fun hl => linkSound_setRx hl rx fun b r e => by simp [State.isSending, e] at h

/-! ### Restarts and resets (R124, R177, R186, R187) -/

theorem blocksKept_restart (s : State) {c : Option (Byte × List Byte)} (hc : c = none ∨ c = s.link.cache) :
    BlocksKept s (s.restart c) := by
  have hflushed := ((keeps_cutShort s).trans (keeps_flush _)).trans (keeps_driverState _ .idle)
  unfold State.restart
  refine hflushed.blocks.trans (.trans ?_ (keeps_restartTouch _).blocks)
  refine ⟨id, fun _ => reportsSound_restarted _, id, fun hp => ?_, id, fun hl => ?_⟩
  · exact panelSound_of_requests hp rfl rfl rfl fun r hr => absurd hr List.not_mem_nil
  · exact linkSound_idle hl (hflushed.link ▸ hc)

theorem blocksKept_enterReset (s : State) : BlocksKept s s.enterReset :=
  ⟨id, id, id, id, id, fun h => linkSound_idle h (.inr rfl)⟩

/-- The default settings are sound (R179). -/
theorem settingsSound_default : SettingsSound .default := by decide

/-- Every block is sound after a full reset (R187). -/
theorem blocksSound_afterFullReset (ads : BitVec 5) (brs : BitVec 2) (ocin : Bool) (cs : List Instr) (s : State) :
    BlocksKept s (.afterFullReset ads brs ocin cs) where
  store _ := by
    refine ⟨rfl, rfl, Nat.zero_le _, List.nodup_nil, fun y hy => ?_⟩
    cases hy
  reports _ := by
    refine ⟨Nat.zero_le _, List.nodup_nil, fun n hn => ?_, ⟨le_rfl, by simp [State.afterFullReset]⟩, fun n hn => ?_⟩
    · cases hn
    · cases hn
  image _ := ⟨rfl, fun e he => by cases he⟩
  panel _ := panelSound_geometryChange
    (s := { State.afterFullReset ads brs ocin cs with settings := .default }) settingsSound_default rfl
  level _ := Nat.zero_le _
  link _ := ⟨rfl, fun _ => rfl⟩

/-! ### Frames (R172 to R176) -/

/-- A message that is carried out and answered (R174, R175). -/
theorem State.execute_eq (s : State) (own : Nat) (seq kind : Byte) (p : List Byte) :
    s.execute own seq kind p =
      { (carryOut kind s p).1 with
        link :=
          { (carryOut kind s p).1.link with
            cache := some (seq, replyBody own seq kind (carryOut kind s p).2)
            tx := .turnaround (replyBody own seq kind (carryOut kind s p).2) (leavesRestart kind p) } } := rfl

theorem blocksKept_execute {s : State} {own : Nat} (seq kind : Byte) (p : List Byte)
    (ho : s.link.ownAddress = some own) : BlocksKept s (s.execute own seq kind p) := by
  have hm := messageKeeps_carryOut kind s p
  rw [State.execute_eq]
  refine hm.blocks.trans (blocksKept_link _ fun _ => ?_)
  rw [hm.link]
  exact linkSound_turnaround
    (l := { s.link with cache := some (seq, replyBody own seq kind (carryOut kind s p).2) }) ho _ _ fun _ => rfl

theorem blocksKept_takeAddressed {s : State} {own : Nat} (seq kind : Byte) (p : List Byte)
    (ho : s.link.ownAddress = some own) : BlocksKept s (s.takeAddressed own seq kind p) := by
  unfold State.takeAddressed
  split
  · exact .refl s
  · split
    · split
      · exact blocksKept_link s fun _ => linkSound_turnaround ho _ _ fun h => by cases h
      · exact blocksKept_execute seq kind p ho
    · exact blocksKept_execute seq kind p ho

theorem blocksKept_takeBroadcast (s : State) (kind : Byte) (p : List Byte) :
    BlocksKept s (s.takeBroadcast kind p) := by
  unfold State.takeBroadcast
  split
  · split
    · exact blocksKept_restart s (.inl rfl)
    · exact .refl s
  · split
    · exact (keeps_cancelAllForm s).blocks
    · exact .refl s
  · exact .refl s

theorem blocksKept_frameArrives (s : State) (good : Bool) (dest src seq kind : Byte) (p : List Byte) :
    BlocksKept s (s.frameArrives good dest src seq kind p) := by
  unfold State.frameArrives
  refine (blocksKept_setRx_hunt s).trans ?_
  dsimp only
  split
  · exact .refl _
  · split
    · exact .refl _
    · split
      · exact blocksKept_takeBroadcast _ _ _
      · split
        next own ho =>
          split
          · exact blocksKept_takeAddressed _ _ _ ho
          · exact .refl _
        next => exact .refl _

theorem blocksKept_bodyByte {s : State} (hs : s.isSending = false) (bytes : List Byte) (crc : BitVec 16) (b : Byte) :
    BlocksKept s (s.bodyByte bytes crc b) := by
  unfold State.bodyByte
  dsimp only
  split
  · exact blocksKept_setRx s _ hs
  · split
    · exact blocksKept_setRx_hunt s
    · split
      · exact blocksKept_frameArrives _ _ _ _ _ _ _
      · exact blocksKept_setRx s _ hs

theorem blocksKept_receive {s : State} (hs : s.isSending = false) (c : Option Byte) : BlocksKept s (s.receive c) := by
  unfold State.receive
  split
  · split
    · exact blocksKept_setRx s _ hs
    · exact .refl s
  · exact .refl s
  · exact blocksKept_setRx s _ hs
  · exact blocksKept_setRx s _ hs
  · split
    · exact blocksKept_setRx s _ hs
    · split
      · exact blocksKept_setRx s _ hs
      · exact blocksKept_bodyByte hs _ _ _
  · split
    · exact blocksKept_setRx s _ hs
    · exact blocksKept_bodyByte hs _ _ _

theorem blocksKept_addressedFrame (s : State) (seq kind : Byte) (p : List Byte) :
    BlocksKept s (s.addressedFrame seq kind p) := by
  unfold State.addressedFrame
  split
  · exact .refl s
  · split
    · split
      · exact blocksKept_setRx_hunt s
      · exact blocksKept_frameArrives _ _ _ _ _ _ _
    · exact blocksKept_setRx_hunt s

theorem blocksKept_broadcastFrame (s : State) (seq kind : Byte) (p : List Byte) :
    BlocksKept s (s.broadcastFrame seq kind p) := by
  unfold State.broadcastFrame
  split
  · exact .refl s
  · split
    · exact blocksKept_setRx_hunt s
    · exact blocksKept_frameArrives _ _ _ _ _ _ _

theorem blocksKept_replyStarts (s : State) : BlocksKept s s.replyStarts := by
  unfold State.replyStarts
  split
  next b r htx =>
    refine blocksKept_link s fun h => ⟨?_, h.2⟩
    have h1 := h.1
    simp only [Link.txFits, htx] at h1
    simpa [Link.txFits, Link.ownAddress] using h1
  next => exact .refl s

theorem blocksKept_replyEnds (s : State) : BlocksKept s s.replyEnds := by
  unfold State.replyEnds
  split
  · have hidle : BlocksKept s { s with link := { s.link with tx := .idle, rx := .hunt } } :=
      blocksKept_link s fun h => linkSound_idle h (.inr rfl)
    dsimp only
    split
    · exact hidle.trans (blocksKept_restart _ (.inr rfl))
    · exact hidle
  · exact .refl s

/-! ### Every step -/

theorem blocksKept_unlessReset {s : State} {f : State → State} (h : BlocksKept s (f s)) :
    BlocksKept s (s.unlessReset f) := by
  unfold State.unlessReset
  split
  · exact .refl s
  · exact h

/-- The overcurrent input's level is no block's (log 2). -/
theorem blocksKept_ocin (s : State) (level : Bool) : BlocksKept s { s with ocin := level } :=
  ⟨id, id, id, id, id, id⟩

/-- Every command keeps each block sound. -/
theorem blocksKept_exec {i : Instr} {s t : State} (h : exec i s = .next t) : BlocksKept s t := by
  cases i with
  | broadcastRestart | broadcastCancel => cases h; exact blocksKept_broadcastFrame _ _ _ _
  | receiverGapTimeout =>
    cases h
    split
    · exact blocksKept_setRx_hunt s
    · exact .refl s
  | replyStart => cases h; exact blocksKept_unlessReset (blocksKept_replyStarts s)
  | replyEnd => cases h; exact blocksKept_unlessReset (blocksKept_replyEnds s)
  | fullResetEntry cause =>
    cases h
    split
    · exact blocksKept_enterReset s
    · exact .refl s
  | fullResetExit ads brs =>
    cases h
    split
    · exact blocksSound_afterFullReset _ _ _ _ s
    · exact .refl s
  | overcurrent level =>
    cases h
    split
    · exact (blocksKept_ocin s level).trans (keeps_enterHeld _).blocks
    · exact blocksKept_ocin s level
  | rechargeStep => cases h; exact blocksKept_unlessReset (keeps_recharge s).blocks
  | pulseEnd sense =>
    cases h
    refine blocksKept_unlessReset ?_
    split
    · exact (keeps_pulseEnds s sense).blocks
    · exact .refl s
  | gapEnd =>
    cases h
    refine blocksKept_unlessReset ?_
    split
    · exact (keeps_gapEnds s).blocks
    · exact .refl s
  | stripExamination =>
    cases h
    exact blocksKept_unlessReset ((drawKeeps_generatorEvent s).toKeeps.trans (keeps_driverArbiter _)).blocks
  | sweepExpiry => cases h; exact blocksKept_unlessReset (keeps_sweepExpires s).blocks
  | scanEnd xb yb => cases h; exact blocksKept_unlessReset (keeps_scanEnds s xb yb).blocks
  | characterReceived data stop =>
    cases h
    split
    next hl => exact blocksKept_receive (by simpa using (Bool.and_eq_true_iff.1 hl).2) _
    next => exact .refl s
  | frameDropped body =>
    cases h
    split
    · exact blocksKept_setRx_hunt s
    · exact .refl s
  | query | configure | restart | draw | cancel | cancelAll | resume | setViewportDefine | setViewportUndefine
  | getViewport | setFont | dropFont | loadGlyph | dropGlyph | readImage | listDeadDots | forgetDeadDot | setZoneDefine
  | setZoneUndefine | collect | subscribe | unknownKind =>
    cases h; exact blocksKept_addressedFrame _ _ _ _

/-- Every step keeps each block sound. -/
theorem blocksKept_step {s t : State} (h : step s = .next t) : BlocksKept s t := by
  unfold step at h
  split at h
  · cases h; exact .refl s
  next c rest _ =>
    exact .trans (t := { s with pending := rest }) ⟨id, id, id, id, id, id⟩ (blocksKept_exec h)

/-- Settles O6: each operation keeps each block (`Keeps`, `MessageKeeps`, `BlocksKept`), so every command does. -/
theorem everyStepKeepsEachBlockSound : Obligations.EveryStepKeepsEachBlockSound := by
  intro s t h
  obtain ⟨hstore, hreports, himage, hpanel, hlevel, hlink⟩ := blocksKept_step h
  exact ⟨hstore, hreports, himage, hpanel, hlevel, hlink⟩

end Sys2Proof.Machine
end

