-- ==== Sys2Proof/Proofs/DeadDotsAndHold.lean ====
section
/-!
SUPPORT. Strikes, sense results and the entry to HELD, each said once as a whole next state, and the three statements
about them (R6, R8 to R12, R101, R113, R120).
-/

-- One proof at a time: side by side, the proofs' threads reserve more memory than the check allows.
set_option Elab.async false

namespace Sys2Proof.Machine

/-! ### Strikes (R101) -/

/-- A ring operation names a dot of its strip when one of its masks holds it (R5). -/
theorem RingOp.names_iff (o : RingOp) (t : Strip) (p : Nat) :
    o.names t p = true ↔ o.op.strip = t ∧ o.op.named.getLsbD p = true := by
  simp [RingOp.names]

/-- An operation is empty when both masks are (R94). -/
theorem StripOp.isEmpty_iff (op : StripOp) : op.isEmpty = true ↔ op.setMask = 0 ∧ op.clearMask = 0 := by
  simp [StripOp.isEmpty]

/-- The dots of a single position. -/
theorem getLsbD_onePosition {p q : Nat} (hp : p < 16) : (BitVec.twoPow 16 p).getLsbD q = decide (p = q) := by
  simp [BitVec.getLsbD_twoPow, hp]

/-- An operation names no longer the dot it has lost. -/
theorem StripOp.without_named (op : StripOp) {p : Nat} (hp : p < 16) : (op.without p).named.getLsbD p = false := by
  simp [StripOp.without, StripOp.named, getLsbD_onePosition hp]

/-- What one operation of the ring becomes through a strike; nothing when it is left empty. -/
def RingOp.struck (o : RingOp) (t : Strip) (p : Nat) : Option RingOp :=
  if o.names t p = true ∧ (o.op.without p).isEmpty = true then none
  else some (if o.names t p then ⟨o.tag, o.op.without p⟩ else o)

theorem struckRing_eq (ring : List RingOp) (t : Strip) (p : Nat) :
    struckRing ring t p = ring.filterMap fun o => o.struck t p := by
  unfold struckRing RingOp.struck
  refine congrArg (fun f => List.filterMap f ring) (funext fun o => ?_)
  cases o.names t p <;> cases (o.op.without p).isEmpty <;> rfl

theorem struckAway_eq (ring : List RingOp) (t : Strip) (p : Nat) :
    struckAway ring t p = ring.filter fun o => decide (o.names t p = true ∧ (o.op.without p).isEmpty = true) := by
  unfold struckAway
  refine List.filter_congr fun o _ => ?_
  simp

/-- What an operation left by a strike was before it. -/
theorem RingOp.struck_some {o o' : RingOp} {t : Strip} {p : Nat} (h : o.struck t p = some o') :
    ¬(o.names t p = true ∧ (o.op.without p).isEmpty = true) ∧
      o' = if o.names t p then ⟨o.tag, o.op.without p⟩ else o := by
  unfold RingOp.struck at h
  split at h
  · cases h
  next hn => cases h; exact ⟨hn, rfl⟩

/-- No operation of a struck ring names the dot. -/
theorem RingOp.struck_names {o o' : RingOp} {t : Strip} {p : Nat} (hp : p < 16) (h : o.struck t p = some o') :
    o'.names t p = false := by
  obtain ⟨-, rfl⟩ := RingOp.struck_some h
  split
  · simp [RingOp.names, StripOp.without_named _ hp]
  next hn => simpa using hn

/-- The unit as a strike leaves it before the removed operations' requests settle: the ring without the dot, and the
requests of the operations that lose it flagged. -/
def State.struck (s : State) (t : Strip) (p : Nat) : State :=
  { s with
    ring := s.ring.filterMap fun o => o.struck t p
    queue :=
      { s.queue with
        requests := s.queue.requests.map fun r =>
          { r with dotsStruck := r.dotsStruck || decide (∃ o ∈ s.ring, o.names t p = true ∧ o.tag = r.tag) } } }

/-- A strike: the struck ring, then the settled requests, then a stalled generator when an operation was removed. -/
theorem State.strike_eq (s : State) (t : Strip) (p : Nat) :
    s.strike t p =
      if ∃ o ∈ s.ring, o.names t p = true ∧ (o.op.without p).isEmpty = true then
        ((struckAway s.ring t p).foldl (fun u o => u.settleOne o.tag) (s.struck t p)).reexamine
      else s.struck t p := by
  have hflag : (s.queue.requests.map fun r : Request =>
        if ((s.ring.filter fun o => o.names t p).map (·.tag)).contains r.tag then { r with dotsStruck := true } else r) =
      s.queue.requests.map fun r =>
        { r with dotsStruck := r.dotsStruck || decide (∃ o ∈ s.ring, o.names t p = true ∧ o.tag = r.tag) } := by
    refine List.map_congr_left fun r _ => ?_
    have hc : ((s.ring.filter fun o => o.names t p).map (·.tag)).contains r.tag =
        decide (∃ o ∈ s.ring, o.names t p = true ∧ o.tag = r.tag) := by
      rw [Bool.eq_iff_iff]
      simp [and_assoc]
    rw [hc]
    by_cases h : ∃ o ∈ s.ring, o.names t p = true ∧ o.tag = r.tag
    · simp only [h, decide_true, if_true, Bool.or_true]
    · simp only [h, decide_false, Bool.false_eq_true, if_false, Bool.or_false]
  have hnone : (struckAway s.ring t p).isEmpty = true ↔
      ¬∃ o ∈ s.ring, o.names t p = true ∧ (o.op.without p).isEmpty = true := by
    rw [struckAway_eq, List.isEmpty_iff, List.filter_eq_nil_iff]
    simp
  unfold State.strike
  dsimp only
  rw [hflag, struckRing_eq]
  by_cases h : ∃ o ∈ s.ring, o.names t p = true ∧ (o.op.without p).isEmpty = true
  · rw [if_pos h, if_neg (fun e => hnone.1 e h)]
    rfl
  · have hnil : struckAway s.ring t p = [] := List.isEmpty_iff.1 (hnone.2 h)
    rw [if_neg h, hnil]
    rfl

/-! ### Dead dots (R9 to R12) -/

/-- The unit with a dot recorded dead, UNKNOWN and reported (R10). -/
def State.recordDead (s : State) (t : Strip) (source : SenseSource) (p : Nat) : State :=
  { s with
    image := loseDots s.image t (BitVec.twoPow 16 p)
    dead := s.dead ++ [⟨t.col, t.rowOf p, source⟩]
    reports := s.reports.offer (.dot t.col (t.rowOf p) source true) }

/-- A dot found dead, with room in the table and without (R10, R11). -/
theorem State.foundDead_eq (s : State) (t : Strip) (source : SenseSource) (p : Nat) :
    s.foundDead t source p =
      if s.dead.length < Config.deadSize then (s.recordDead t source p).strike t p
      else
        { s with
          image := loseDots s.image t (BitVec.twoPow 16 p)
          reports := s.reports.offer (.dot t.col (t.rowOf p) source false) } := rfl

/-- A panel dot after one dot of a strip is lost (R10). -/
theorem imageDot_loseOne {im : Image} (h : imageWf im = true) (t : Strip) {p : Nat} (hp : p < 16) (x y : Nat) :
    imageDot (loseDots im t (BitVec.twoPow 16 p)) x y =
      if x = t.col ∧ y = t.rowOf p then .unknown else imageDot im x y := by
  rw [imageDot_loseDots h]
  refine if_congr ?_ rfl rfl
  obtain ⟨c, k⟩ := t
  simp only [getLsbD_onePosition hp, stripOf, Strip.mk.injEq, decide_eq_true_eq, Strip.rowOf]
  omega

/-- Settles O52: the statement's ring, flags and settled requests are those of `State.strike_eq`. -/
theorem deadDotIsRecordedAndStruck : Obligations.DeadDotIsRecordedAndStruck := by
  intro s t source p hp himage y names cut emptied image struck settled
  have hnames : ∀ o : RingOp, o.names t p = true ↔ names o := fun o => RingOp.names_iff o t p
  have hemptied : ∀ o : RingOp, (o.names t p = true ∧ (o.op.without p).isEmpty = true) ↔ emptied o :=
    fun o => and_congr (hnames o) (StripOp.isEmpty_iff _)
  have hring : ∀ o : RingOp, o.struck t p = if emptied o then none else some (if names o then ⟨o.tag, cut o⟩ else o) :=
    fun o => by
      unfold RingOp.struck
      refine if_congr (hemptied o) rfl (congrArg some (if_congr (hnames o) rfl rfl))
  have hstruck : (s.recordDead t source p).struck t p = struck := by
    have hr : (s.ring.filterMap fun o => o.struck t p) = struck.ring :=
      congrArg (fun f => s.ring.filterMap f) (funext hring)
    have hq : (s.queue.requests.map fun r : Request =>
        { r with dotsStruck := r.dotsStruck || decide (∃ o ∈ s.ring, o.names t p = true ∧ o.tag = r.tag) }) =
        struck.queue.requests := by
      refine List.map_congr_left fun r _ => ?_
      have : (∃ o ∈ s.ring, o.names t p = true ∧ o.tag = r.tag) ↔ ∃ o ∈ s.ring, names o ∧ o.tag = r.tag := by
        simp only [hnames]
      simp only [this]
    exact congrArg₂ (fun ring requests =>
      ({ s.recordDead t source p with ring := ring, queue := { s.queue with requests := requests } } : State)) hr hq
  have haway : struckAway s.ring t p = s.ring.filter fun o => emptied o := by
    rw [struckAway_eq]
    refine List.filter_congr fun o _ => ?_
    simp only [hemptied]
  refine ⟨fun x' y' => imageDot_loseOne himage.1 t hp x' y', fun o ho => ?_, fun hroom => ?_, fun hfull => ?_⟩
  · obtain ⟨o', -, hstr⟩ := List.mem_filterMap.1 ho
    rw [← hring] at hstr
    rw [← hnames, RingOp.struck_names hp hstr]
    exact Bool.false_ne_true
  · rw [State.foundDead_eq, if_pos (show s.dead.length < Config.deadSize from hroom), State.strike_eq, hstruck]
    refine if_congr (exists_congr fun o => and_congr Iff.rfl (hemptied o)) ?_ rfl
    exact congrArg (fun l => (l.foldl (fun (u : State) (o : RingOp) => u.settleOne o.tag) struck).reexamine) haway
  · rw [State.foundDead_eq, if_neg (show ¬s.dead.length < Config.deadSize from Nat.not_lt.2 hfull)]
    rfl

/-! ### The end of a pulse (R113) -/

/-- A scanner once the pulse in progress is over: a quiet scan that waited starts (R143). -/
def Scanner.afterPulse (period : Nat) : Scanner → Scanner
  | .quietWait => .quiet ⟨period, false⟩
  | x => x

theorem State.pulseOver_eq (s : State) :
    s.pulseOver = { s with touch := { s.touch with scanner := s.touch.scanner.afterPulse s.settings.scanPeriod } } := by
  unfold State.pulseOver Scanner.afterPulse
  split <;> simp_all

/-- The unit at the end of a pulse, before the sense result is handled (R113). -/
def State.pulseEnded (s : State) (h : Hand) : State :=
  { s with
    driver := { s.driver with state := .gap, hand := some (h.mark .completed) }
    touch := { s.touch with scanner := s.touch.scanner.afterPulse s.settings.scanPeriod } }

/-- The end of a pulse: the sense result is handled in the gap, which ends at once when it was latched as 0 (R113,
R114). -/
theorem State.pulseEnds_eq {s : State} {h : Hand} (hh : s.driver.hand = some h) (sense : Mask) :
    s.pulseEnds sense =
      if s.driver.phaseGap = some 0 then ((s.pulseEnded h).senseResult h sense).gapEnds
      else (s.pulseEnded h).senseResult h sense := by
  have hgap := (drawKeeps_senseResult (s.pulseEnded h) h sense).driverFields.2.2
  unfold State.pulseEnds
  rw [hh]
  simp only [State.pulseOver_eq]
  change (if ((s.pulseEnded h).senseResult h sense).driver.phaseGap = some 0 then _ else _) = _
  rw [hgap]
  rfl

/-- Outside PULSE the coil lines are released (R107). -/
theorem State.coilLines_released {s : State} (h : s.driver.state ≠ .pulse) : s.coilLines = ⟨none, false, false, 0⟩ := by
  unfold State.coilLines
  split
  next hs _ => exact absurd hs h
  next => rfl

/-- GAP_END in a gap. -/
theorem exec_gapEnd {s : State} (hr : s.inReset = false) (hg : s.driver.state = .gap) :
    exec .gapEnd s = .next s.gapEnds := by
  simp [exec, execGapEnd, State.unlessReset, hr, hg]

/-- PULSE_END in a pulse. -/
theorem exec_pulseEnd {s : State} (hr : s.inReset = false) (hp : s.driver.state = .pulse) (sense : Mask) :
    exec (.pulseEnd sense) s = .next (s.pulseEnds sense) := by
  simp [exec, execPulseEnd, State.unlessReset, hr, hp]

/-- Settles O51: the statement's two states are those of `State.pulseEnds_eq`, and the sense result leaves the driver's
state, hand and gap (`drawKeeps_senseResult`). -/
theorem pulseEndsInGap : Obligations.PulseEndsInGap := by
  intro s sense
  refine ⟨?_, fun h => ?_⟩
  · intro h gap hr hp hh hgap mask source ended sensed
    have hmask : mask = h.op.mask h.phase := by simp only [mask]; cases h.phase <;> rfl
    have hended : ended = s.pulseEnded h := by
      cases hph : h.phase <;> cases hsc : s.touch.scanner <;>
        simp only [ended, State.pulseEnded, Hand.mark, Scanner.afterPulse, hph, hsc]
    have hsource : source = h.senseSource := by
      cases hs : h.source <;> simp only [source, Hand.senseSource, Hand.isRing, hs] <;> rfl
    have hsensed : sensed = (s.pulseEnded h).senseResult h sense := by
      simp only [sensed, State.senseResult, deadPositions, hmask, hended, hsource]
    have hk := drawKeeps_senseResult (s.pulseEnded h) h sense
    obtain ⟨hstate, -, -⟩ := hk.driverFields
    refine ⟨?_, ?_, fun hall => ?_, ?_⟩
    · exact State.coilLines_released (by rw [hended]; simp [State.pulseEnded])
    · exact State.coilLines_released (by rw [hsensed, hstate]; simp [State.pulseEnded])
    · have hnone : ((List.range 16).filter fun p => mask.getLsbD p && !sense.getLsbD p) = [] := by
        rw [List.filter_eq_nil_iff]
        intro p hp
        cases hm : mask.getLsbD p with
        | false => simp
        | true => simp [hall p (List.mem_range.1 hp) hm]
      simp only [sensed, hnone, List.foldl_nil]
    · rw [exec_pulseEnd hr hp, State.pulseEnds_eq hh, hgap, ← hsensed]
      rw [← hsensed] at hstate hk
      by_cases h0 : gap = 0
      · rw [if_pos h0, if_pos (by rw [h0])]
        exact (exec_gapEnd (hk.inReset.trans hr) hstate).symm
      · rw [if_neg h0, if_neg (by simpa using h0)]
  · simp only [exec, execPulseEnd, State.unlessReset]
    split
    · rfl
    next hr => rw [if_neg (h.resolve_left hr)]

/-! ### The entry to HELD (R120) -/

/-- Several requests leave one after another (R31, R37). -/
theorem foldl_leave (l : List Request) (o : LeaveOutcome) (s : State) :
    l.foldl (fun s r => s.leave r o) s =
      { s with
        queue :=
          { s.queue with requests := s.queue.requests.filter fun q => !(l.any fun r => r.tag == q.tag) }
        reports := (l.filter fun r => r.origin == .host).foldl (fun q r => q.offer (r.completion o)) s.reports } := by
  induction l generalizing s with
  | nil => simp
  | cons r l ih =>
    rw [List.foldl_cons, ih]
    have hleave : s.leave r o =
        { s with
          queue := { s.queue with requests := s.queue.requests.filter fun q => q.tag != r.tag }
          reports := if r.origin = .host then s.reports.offer (r.completion o) else s.reports } := by
      unfold State.leave
      split <;> rfl
    have hfilter : ((s.queue.requests.filter fun q => q.tag != r.tag).filter fun q => !(l.any fun r => r.tag == q.tag)) =
        s.queue.requests.filter fun q => !((r :: l).any fun r => r.tag == q.tag) := by
      rw [List.filter_filter]
      refine List.filter_congr fun q _ => ?_
      rw [List.any_cons, Bool.not_or, Bool.and_comm]
      simp only [bne, BEq.comm (a := r.tag)]
    rw [hleave]
    simp only [hfilter, List.filter_cons, beq_iff_eq]
    split <;> rfl

/-- The queue without the requests that are not QUEUED, which are told apart by their tags (R21, R37). -/
theorem filter_queued {l : List Request} (hn : (l.map (·.tag)).Nodup) :
    (l.filter fun q => !((l.filter fun r => r.state != .queued).any fun r => r.tag == q.tag)) =
      l.filter fun r => r.state == .queued := by
  refine List.filter_congr fun q hq => ?_
  rw [Bool.eq_iff_iff]
  simp only [Bool.not_eq_true', List.any_eq_false, List.mem_filter, bne_iff_ne, ne_eq, beq_iff_eq, and_imp]
  constructor
  · intro h
    by_contra hs
    exact h q hq hs rfl
  · intro hs r hr hns htag
    exact hns (List.inj_on_of_nodup_map hn hr hq htag ▸ hs)

/-- The RASTERING and DRAINING requests leave FAILED, the QUEUED ones stay in their order (R37). -/
theorem State.failRequests_eq {s : State} (hn : (s.queue.requests.map (·.tag)).Nodup) :
    s.failRequests =
      { s with
        queue := { s.queue with requests := s.queue.requests.filter fun r => r.state == .queued }
        reports :=
          (s.queue.requests.filter fun r => r.state != .queued && r.origin == .host).foldl
            (fun q r => q.offer (r.completion .failed)) s.reports } := by
  unfold State.failRequests
  rw [foldl_leave, filter_queued hn, List.filter_filter]
  simp only [Bool.and_comm]

/-- The unit as the entry to HELD leaves it (R120, R121). -/
def State.heldWith (s : State) (h : Hand) : State :=
  { s with
    image := loseOps (loseDots s.image h.op.strip h.lost) s.ring
    driver := { s.driver with state := .held, hand := none, passOver := 0 }
    ring := []
    sweep := { s.sweep with slot := none }
    gen := .free
    queue := { s.queue with requests := s.queue.requests.filter fun r => r.state == .queued }
    reports :=
      ((s.queue.requests.filter fun r => r.state != .queued && r.origin == .host).foldl
        (fun q r => q.offer (r.completion .failed)) s.reports).offer (.driver h.op.strip h.phase)
    touch := { s.touch with scanner := s.touch.scanner.afterPulse s.settings.scanPeriod } }

theorem State.enterHeld_eq {s : State} {h : Hand} (hh : s.driver.hand = some h)
    (hn : (s.queue.requests.map (·.tag)).Nodup) : s.enterHeld = s.heldWith h := by
  have hcut : s.cutShort =
      { s with image := loseDots s.image h.op.strip h.lost, driver := { s.driver with hand := none } } := by
    unfold State.cutShort
    rw [hh]
  unfold State.enterHeld
  rw [hh]
  simp only [State.pulseOver_eq, hcut]
  rw [State.failRequests_eq (by exact hn)]
  rfl

/-- The dots a phase loses (R6). -/
theorem lostMask_getLsbD (isRing : Bool) (m : Mask) (st : PhaseStatus) (p : Nat) :
    (lostMask isRing m st).getLsbD p = true ↔
      m.getLsbD p = true ∧ (st = .pulsing ∨ (st = .notBegun ∧ isRing = true)) := by
  cases st <;> cases isRing <;> simp [lostMask]

/-- The dots the operation in hand loses are those of the table of R6. -/
theorem Hand.lost_iff (h : Hand) (p : Nat) : h.lost.getLsbD p = true ↔ lostDots h p := by
  have hring : h.isRing = true ↔ h.source ≠ .sweep := by
    unfold Hand.isRing
    cases h.source <;> simp
  simp only [Hand.lost, BitVec.getLsbD_or, Bool.or_eq_true, lostMask_getLsbD, hring, lostDots]

/-- Settles O54: the next state is `State.heldWith`, whose image is read through `imageDot_loseDots` and
`imageDot_loseOps`. -/
theorem overcurrentHoldsTheDriver : Obligations.OvercurrentHoldsTheDriver := by
  intro s level
  refine ⟨fun h => ?_, fun h hr hp hh himage hn => ?_⟩
  · have : ¬(s.inReset = false ∧ s.driver.state = .pulse) := fun e => h.elim (by simp [e.1]) fun hs => hs e.2
    simp only [exec, execOvercurrent, if_neg this]
  · let t : State := ({ s with ocin := level } : State).heldWith h
    have hexec : exec (.overcurrent level) s = .next t := by
      simp only [exec, execOvercurrent]
      rw [if_pos ⟨hr, hp⟩]
      exact congrArg _ (State.enterHeld_eq (s := { s with ocin := level }) hh hn)
    have hdot : ∀ x y, imageDot t.image x y =
        if ∃ o ∈ s.ring, o.op.strip = ⟨x, y / 16⟩ ∧ o.op.named.getLsbD (y % 16) = true then .unknown
        else if h.op.strip = ⟨x, y / 16⟩ ∧ h.lost.getLsbD (y % 16) = true then .unknown
        else imageDot s.image x y := by
      intro x y
      have hlost := imageDot_loseDots himage.1 h.op.strip h.lost x y
      exact (imageDot_loseOps (imageWf_loseDots himage.1 _ _) s.ring x y).trans (if_congr Iff.rfl rfl hlost)
    simp only [← Hand.lost_iff]
    refine ⟨t, hexec, rfl, rfl, rfl, rfl, rfl, State.coilLines_released (by simp [t, State.heldWith]), rfl, rfl,
      fun x y => ⟨fun hlost => ?_, fun hhand hring => ?_⟩, rfl, rfl, rfl, rfl, rfl, rfl, rfl, ?_, hr, rfl⟩
    · rw [hdot]
      rcases hlost with hlost | hlost
      · rw [if_pos hlost, ite_self]
      · exact if_pos hlost
    · rw [hdot, if_neg fun ⟨o, ho, hno⟩ => hring o ho hno, if_neg hhand]
    · cases hsc : s.touch.scanner <;> simp only [t, State.heldWith, Scanner.afterPulse, hsc]

end Sys2Proof.Machine
end

