-- ==== Sys2Proof/Proofs/QueueSound.lean ====
section
/-!
SUPPORT. The request queue against the work in flight: what a sound queue is for a given generator's request and a given
number of operations in flight per tag, and which changes of records keep it sound (R19 to R31).
-/

-- One proof at a time: side by side, the proofs' threads reserve more memory than the check allows.
set_option Elab.async false

namespace Sys2Proof.Machine

/-- A request's record is sound while `n` of its operations are in flight (R20, R27, R29). -/
structure RequestSound (n : Nat) (r : Request) : Prop where
  tag : InCount r.tag
  items : r.itemsSound = true
  outstanding : r.outstanding = n
  item : r.progress.item = r.itemsDone
  done : r.itemsDone ≤ r.items.length
  queued : r.state = .queued → r.outstanding = 0 ∧ r.generated = 0 ∧ r.progress = .start
  draining : r.state = .draining → 1 ≤ r.outstanding

/-- The request queue is sound while the generator works for `current` and `load c` operations of tag `c` are in
flight. -/
structure QueueSound (q : RequestQueue) (current : Option Nat) (load : Nat → Nat) : Prop where
  tags : (q.requests.map (·.tag)).Nodup
  counter : InCount q.tagCounter
  hosts : (q.requests.filter fun r => r.origin == .host).length ≤ Config.hostPool
  echoes : (q.requests.filter fun r => r.origin == .echo).length ≤ Config.echoPool
  each : ∀ r ∈ q.requests, RequestSound (load r.tag) r
  rastering : ∀ r ∈ q.requests, r.state = .rastering ↔ current = some r.tag
  named : ∀ c, current = some c → ∃ r ∈ q.requests, r.tag = c
  working : ∀ c, 0 < load c → ∃ r ∈ q.requests, r.tag = c ∧ r.state ≠ .queued

namespace QueueSound

variable {q : RequestQueue} {current : Option Nat} {load : Nat → Nat}

/-- Two requests of the queue with one tag are one. -/
theorem unique (h : QueueSound q current load) {r r' : Request} (hr : r ∈ q.requests) (hr' : r' ∈ q.requests)
    (e : r.tag = r'.tag) : r = r' :=
  List.inj_on_of_nodup_map h.tags hr hr' e

/-- The same queue under a load that agrees. -/
theorem congr_load (h : QueueSound q current load) {load' : Nat → Nat} (e : ∀ c, load' c = load c) :
    QueueSound q current load' :=
  (funext e : load' = load) ▸ h

/-- The records are changed, tags and origins kept. -/
theorem map (h : QueueSound q current load) {f : Request → Request} {current' : Option Nat} {load' : Nat → Nat}
    (htag : ∀ r, (f r).tag = r.tag) (horigin : ∀ r, (f r).origin = r.origin)
    (heach : ∀ r ∈ q.requests, RequestSound (load' r.tag) (f r))
    (hrastering : ∀ r ∈ q.requests, (f r).state = .rastering ↔ current' = some r.tag)
    (hnamed : ∀ c, current' = some c → ∃ r ∈ q.requests, r.tag = c)
    (hworking : ∀ c, 0 < load' c → ∃ r ∈ q.requests, r.tag = c ∧ (f r).state ≠ .queued) :
    QueueSound { q with requests := q.requests.map f } current' load' where
  tags := by
    have : ((q.requests.map f).map (·.tag)) = q.requests.map (·.tag) := by
      rw [List.map_map]; exact List.map_congr_left fun r _ => htag r
    rw [this]; exact h.tags
  counter := h.counter
  hosts := (length_pool_map _ horigin _).trans_le h.hosts
  echoes := (length_pool_map _ horigin _).trans_le h.echoes
  each r' hr' := by
    obtain ⟨r, hr, rfl⟩ := List.mem_map.1 hr'
    rw [htag]; exact heach r hr
  rastering r' hr' := by
    obtain ⟨r, hr, rfl⟩ := List.mem_map.1 hr'
    rw [htag]; exact hrastering r hr
  named c hc := by
    obtain ⟨r, hr, e⟩ := hnamed c hc
    exact ⟨f r, List.mem_map_of_mem hr, (htag r).trans e⟩
  working c hc := by
    obtain ⟨r, hr, e, hs⟩ := hworking c hc
    exact ⟨f r, List.mem_map_of_mem hr, (htag r).trans e, hs⟩

/-- Requests leave: those that stay keep their load and their place with the generator. -/
theorem filter (h : QueueSound q current load) {keep : Request → Bool} {current' : Option Nat} {load' : Nat → Nat}
    (heach : ∀ r ∈ q.requests, keep r = true → RequestSound (load' r.tag) r)
    (hrastering : ∀ r ∈ q.requests, keep r = true → (r.state = .rastering ↔ current' = some r.tag))
    (hnamed : ∀ c, current' = some c → ∃ r ∈ q.requests, keep r = true ∧ r.tag = c)
    (hworking : ∀ c, 0 < load' c → ∃ r ∈ q.requests, keep r = true ∧ r.tag = c ∧ r.state ≠ .queued) :
    QueueSound { q with requests := q.requests.filter keep } current' load' where
  tags := h.tags.sublist (List.filter_sublist.map _)
  counter := h.counter
  hosts := (List.filter_sublist.filter _).length_le.trans h.hosts
  echoes := (List.filter_sublist.filter _).length_le.trans h.echoes
  each r hr := heach r (List.mem_filter.1 hr).1 (List.mem_filter.1 hr).2
  rastering r hr := hrastering r (List.mem_filter.1 hr).1 (List.mem_filter.1 hr).2
  named c hc := by
    obtain ⟨r, hr, hk, e⟩ := hnamed c hc
    exact ⟨r, List.mem_filter.2 ⟨hr, hk⟩, e⟩
  working c hc := by
    obtain ⟨r, hr, hk, e⟩ := hworking c hc
    exact ⟨r, List.mem_filter.2 ⟨hr, hk⟩, e⟩

/-- The record under one tag is changed, its state kept, and the load of that tag alone with it. -/
theorem change (h : QueueSound q current load) (t : Nat) {f : Request → Request} {load' : Nat → Nat}
    (htag : ∀ r, (f r).tag = r.tag) (horigin : ∀ r, (f r).origin = r.origin) (hstate : ∀ r, (f r).state = r.state)
    (hother : ∀ c, c ≠ t → load' c = load c)
    (heach : ∀ r ∈ q.requests, r.tag = t → RequestSound (load' t) (f r))
    (hworking : 0 < load' t → ∃ r ∈ q.requests, r.tag = t ∧ r.state ≠ .queued) :
    QueueSound { q with requests := q.requests.map fun r => if r.tag == t then f r else r } current load' := by
  have hs : ∀ r : Request, (if r.tag == t then f r else r).state = r.state := fun r => by
    split
    · exact hstate r
    · rfl
  refine h.map (fun r => ?_) (fun r => ?_) (fun r hr => ?_) (fun r hr => ?_) h.named fun c hc => ?_
  · split
    · exact htag r
    · rfl
  · split
    · exact horigin r
    · rfl
  · by_cases e : r.tag = t
    · simp only [e, beq_self_eq_true, if_true]
      exact heach r hr e
    · simp only [beq_eq_false_iff_ne.2 e, Bool.false_eq_true, if_false, hother _ e]
      exact h.each r hr
  · rw [hs]; exact h.rastering r hr
  · simp only [hs]
    by_cases e : c = t
    · subst e; exact hworking hc
    · exact h.working c (hother c e ▸ hc)

/-- The record of a request is changed in what no count speaks of. -/
theorem changeKeep (h : QueueSound q current load) (t : Nat) {f : Request → Request}
    (htag : ∀ r, (f r).tag = r.tag) (horigin : ∀ r, (f r).origin = r.origin) (hstate : ∀ r, (f r).state = r.state)
    (heach : ∀ r ∈ q.requests, r.tag = t → RequestSound (load t) r → RequestSound (load t) (f r)) :
    QueueSound { q with requests := q.requests.map fun r => if r.tag == t then f r else r } current load :=
  h.change t htag horigin hstate (fun _ _ => rfl) (fun r hr e => heach r hr e (e ▸ h.each r hr)) (h.working t)

/-- A request with no operation in flight leaves; a generator that worked for it is free. -/
theorem remove (h : QueueSound q current load) {t : Nat} (hload : load t = 0) :
    QueueSound { q with requests := q.requests.filter fun r => r.tag != t }
      (if current = some t then none else current) load := by
  refine h.filter (fun r hr _ => h.each r hr) (fun r hr hk => ?_) (fun c hc => ?_) fun c hc => ?_
  · have hne : r.tag ≠ t := by simpa using hk
    rw [h.rastering r hr]
    split
    next e => simp [e, Ne.symm hne]
    next => exact Iff.rfl
  · split at hc
    · cases hc
    next e =>
      obtain ⟨r, hr, rfl⟩ := h.named c hc
      exact ⟨r, hr, by simpa using fun e' => e (by rw [hc, e']), rfl⟩
  · obtain ⟨r, hr, rfl, hs⟩ := h.working c hc
    exact ⟨r, hr, by simpa using fun e : r.tag = t => by rw [e] at hc; omega, rfl, hs⟩

/-- Generation of the current request ends with operations in flight: it drains and the generator is free (R28). -/
theorem drain (h : QueueSound q current load) {t : Nat} {f : Request → Request} (hcur : current = some t)
    (htag : ∀ r, (f r).tag = r.tag) (horigin : ∀ r, (f r).origin = r.origin) (hstate : ∀ r, (f r).state = .draining)
    (heach : ∀ r ∈ q.requests, r.tag = t → RequestSound (load t) r → RequestSound (load t) (f r)) :
    QueueSound { q with requests := q.requests.map fun r => if r.tag == t then f r else r } none load := by
  refine h.map (fun r => ?_) (fun r => ?_) (fun r hr => ?_) (fun r hr => ?_) (fun c hc => by cases hc) fun c hc => ?_
  · split
    · exact htag r
    · rfl
  · split
    · exact horigin r
    · rfl
  · by_cases e : r.tag = t
    · simp only [e, beq_self_eq_true, if_true]
      exact heach r hr e (e ▸ h.each r hr)
    · simp only [beq_eq_false_iff_ne.2 e, Bool.false_eq_true, if_false]
      exact h.each r hr
  · by_cases e : r.tag = t
    · simp [e, hstate]
    · simp only [beq_eq_false_iff_ne.2 e, Bool.false_eq_true, if_false, h.rastering r hr, hcur, Option.some.injEq,
        reduceCtorEq, iff_false]
      exact fun e' => e e'.symm
  · obtain ⟨r, hr, e, hs⟩ := h.working c hc
    refine ⟨r, hr, e, ?_⟩
    split
    · rw [hstate]; decide
    · exact hs

/-- A QUEUED request is taken by a free generator (R25, R26). -/
theorem choose (h : QueueSound q none load) {t : Nat} {f : Request → Request}
    (htag : ∀ r, (f r).tag = r.tag) (horigin : ∀ r, (f r).origin = r.origin) (hstate : ∀ r, (f r).state = .rastering)
    (ht : ∃ r ∈ q.requests, r.tag = t)
    (heach : ∀ r ∈ q.requests, r.tag = t → RequestSound (load t) r → RequestSound (load t) (f r)) :
    QueueSound { q with requests := q.requests.map fun r => if r.tag == t then f r else r } (some t) load := by
  refine h.map (fun r => ?_) (fun r => ?_) (fun r hr => ?_) (fun r hr => ?_) (fun c hc => ?_) fun c hc => ?_
  · split
    · exact htag r
    · rfl
  · split
    · exact horigin r
    · rfl
  · by_cases e : r.tag = t
    · simp only [e, beq_self_eq_true, if_true]
      exact heach r hr e (e ▸ h.each r hr)
    · simp only [beq_eq_false_iff_ne.2 e, Bool.false_eq_true, if_false]
      exact h.each r hr
  · by_cases e : r.tag = t
    · simp [e, hstate]
    · simp only [beq_eq_false_iff_ne.2 e, Bool.false_eq_true, if_false, h.rastering r hr, Option.some.injEq,
        reduceCtorEq, false_iff]
      exact fun e' => e e'.symm
  · cases hc; exact ht
  · obtain ⟨r, hr, e, hs⟩ := h.working c hc
    refine ⟨r, hr, e, ?_⟩
    split
    · rw [hstate]; decide
    · exact hs

/-- A new request joins under a free tag, where its pool has room (R19, R21). -/
theorem join (h : QueueSound q current load) {r : Request}
    (hhost : r.origin = .host → (q.requests.filter fun r => r.origin == .host).length < Config.hostPool)
    (hecho : r.origin = .echo → (q.requests.filter fun r => r.origin == .echo).length < Config.echoPool)
    (htag : r.tag = freeNumber (q.requests.map (·.tag)) q.tagCounter) (hstate : r.state = .queued)
    (hr : RequestSound 0 r) :
    QueueSound ⟨q.requests ++ [r], nextNumber r.tag⟩ current load := by
  have hlen : q.requests.length ≤ Config.hostPool + Config.echoPool := by
    have hsplit := List.length_eq_length_filter_add (l := q.requests) fun r : Request => r.origin == .host
    have hother : (q.requests.filter fun r => !(r.origin == .host)) = q.requests.filter fun r => r.origin == .echo :=
      List.filter_congr fun r _ => by cases r.origin <;> rfl
    rw [hother] at hsplit
    have := h.hosts
    have := h.echoes
    omega
  have hfresh : r.tag ∉ q.requests.map (·.tag) := htag ▸ freeNumber_fresh h.counter (by
    simp only [List.length_map]
    exact Nat.lt_of_le_of_lt hlen (by decide))
  have hload : load r.tag = 0 := by
    by_contra hne
    obtain ⟨r', hr', e, -⟩ := h.working r.tag (Nat.pos_of_ne_zero hne)
    exact hfresh (e ▸ List.mem_map_of_mem (f := fun r : Request => r.tag) hr')
  have hcur : current ≠ some r.tag := fun e => by
    obtain ⟨r', hr', e'⟩ := h.named _ e
    exact hfresh (e' ▸ List.mem_map_of_mem (f := fun r : Request => r.tag) hr')
  refine ⟨?_, inCount_nextNumber _, ?_, ?_, fun r' hr' => ?_, fun r' hr' => ?_, fun c hc => ?_, fun c hc => ?_⟩
  · rw [List.map_append]
    refine List.nodup_append.2 ⟨h.tags, by simp, fun a ha b hb e => hfresh ?_⟩
    rwa [← List.mem_singleton.1 (by simpa using hb : b ∈ [r.tag]), ← e]
  · rw [List.filter_append, List.length_append]
    cases ho : r.origin with
    | host => simpa [ho] using hhost ho
    | echo => simpa [ho] using h.hosts
  · rw [List.filter_append, List.length_append]
    cases ho : r.origin with
    | host => simpa [ho] using h.echoes
    | echo => simpa [ho] using hecho ho
  · rcases List.mem_append.1 hr' with hr' | hr'
    · exact h.each r' hr'
    · rw [List.mem_singleton.1 hr', hload]; exact hr
  · rcases List.mem_append.1 hr' with hr' | hr'
    · exact h.rastering r' hr'
    · rw [List.mem_singleton.1 hr', hstate]
      exact ⟨fun e => (nomatch e), fun e => absurd e hcur⟩
  · obtain ⟨r', hr', e⟩ := h.named c hc
    exact ⟨r', List.mem_append_left _ hr', e⟩
  · obtain ⟨r', hr', e⟩ := h.working c hc
    exact ⟨r', List.mem_append_left _ hr', e⟩

/-- Nothing in flight and an empty queue (R39). -/
theorem empty {n : Nat} (hn : InCount n) (hload : ∀ c, load c = 0) : QueueSound ⟨[], n⟩ none load where
  tags := List.nodup_nil
  counter := hn
  hosts := Nat.zero_le _
  echoes := Nat.zero_le _
  each r hr := absurd hr List.not_mem_nil
  rastering r hr := absurd hr List.not_mem_nil
  named c hc := by cases hc
  working c hc := by rw [hload c] at hc; cases hc

/-- The QUEUED requests alone, with nothing in flight (R37). -/
theorem onlyQueued (h : QueueSound q current load) :
    QueueSound { q with requests := q.requests.filter fun r => r.state == .queued } none fun _ => 0 := by
  refine h.filter (fun r hr hk => ?_) (fun r hr hk => ?_) (fun c hc => by cases hc) fun c hc => absurd hc (lt_irrefl 0)
  · have hs : r.state = .queued := by simpa using hk
    obtain ⟨htag, hitems, -, hitem, hdone, hq, hd⟩ := h.each r hr
    exact ⟨htag, hitems, (hq hs).1, hitem, hdone, hq, hd⟩
  · have hs : r.state = .queued := by simpa using hk
    simp [hs]

end QueueSound

end Sys2Proof.Machine
end

