-- ==== Sys2Proof/Proofs/Core.lean ====
section
/-!
SUPPORT. The invariant every operation of the engine keeps: queue, generator, ring, hand, slot and dead dots agree. It is
the sound unit of Safety.lean without what an event restores only at its end; `owed` lists the tags of operations that
have gone but are not settled yet (R30).
-/

-- One proof at a time: side by side, the proofs' threads reserve more memory than the check allows.
set_option Elab.async false

namespace Sys2Proof.Machine

/-- The number of operations of a tag that are in flight or not settled yet. -/
def State.load (s : State) (owed : List Nat) (c : Nat) : Nat := s.inFlight c + owed.count c

/-- The generator fits the request it works on (R83, R87). -/
structure PlaceSound (c : Settings) (g : Generator) (r : Request) : Prop where
  item : ∃ it, r.items[r.progress.item]? = some it ∧ placeFits g r.progress.place it = true
  inside : ∀ t, r.progress.place.next = some t → t.inside c.columns c.stripRows = true
  waiting : ∀ t, g.waiting = some t → r.progress.place.next = some t

/-- The generator's state: free, or fitting its request (R87). -/
structure GeneratorFits (s : State) : Prop where
  free : s.gen.current = none → s.gen = .free
  place : ∀ r ∈ s.queue.requests, s.gen.current = some r.tag → PlaceSound s.settings s.gen r

/-- An operation of the ring is well formed and names no recorded dead dot (R12, R95). -/
structure OpLive (c : Settings) (dead : List DeadDot) (op : StripOp) : Prop where
  sound : OpSound c op
  live : AllLive dead op.strip op.named

/-- The hand's operation and record (R106, R110). -/
structure HandFits (c : Settings) (dead : List DeadDot) (d : DriverState) (h : Hand) : Prop where
  op : OpSound c h.op
  record : HandSound d h
  live : AllLive dead h.op.strip h.toCome

/-- A full slot: a faithful copy of the image for a strip that neither ring nor hand names (R131, R132). -/
structure SlotFits (s : State) (w : StripOp) : Prop where
  op : OpSound s.settings w
  copy : w = sweepOp s.image w.strip
  unnamed : s.namesStrip w.strip = false
  notHeld : s.driver.state ≠ .held

/-- The driver's side (R9, R95, R106, R108, R116, R132), without the driver's readiness. -/
structure DriverFits (s : State) : Prop where
  ring : ∀ o ∈ s.ring, OpLive s.settings s.dead o.op
  ringSize : s.ring.length ≤ Config.ringSize
  hand : ∀ h, s.driver.hand = some h → HandFits s.settings s.dead s.driver.state h
  handState : s.driver.state = .idle ∨ s.driver.state = .held ↔ s.driver.hand = none
  slotEmpty : s.sweep.slot = none → s.driver.passOver = 0
  slot : ∀ w, s.sweep.slot = some w → SlotFits s w
  dead : DeadSound s
  passOver : s.driver.passOver ≤ Config.passOverMax
  level : s.charge.level ≤ Config.chargeMax

/-- Queue and driver agree, whatever the generator holds of its item. -/
structure Tallied (owed : List Nat) (s : State) : Prop where
  queue : QueueSound s.queue s.gen.current (s.load owed)
  driver : DriverFits s
  heldQueued : s.driver.state = .held → ∀ r ∈ s.queue.requests, r.state = .queued
  image : ImageSound s.image
  settings : SettingsSound s.settings

/-- Queue, generator and driver agree. -/
structure Core (owed : List Nat) (s : State) : Prop extends Tallied owed s where
  gen : GeneratorFits s

/-- A free generator leaves no request QUEUED while the driver is not HELD (R25). -/
abbrev Chosen (s : State) : Prop :=
  s.gen.current = none → s.driver.state ≠ .held → ∀ r ∈ s.queue.requests, r.state ≠ .queued

/-- A generator waits only while the ring is full (R97). -/
abbrev WaitsForRoom (s : State) : Prop := s.gen.waiting ≠ none → s.ring.length = Config.ringSize

/-- The generator is where it stays until its next event: its choice is made and it waits only for room. -/
structure Drawn (s : State) : Prop extends Core [] s where
  chosen : Chosen s
  waits : WaitsForRoom s

/-- The generator has moved on: no strip waits. -/
structure Placed (s : State) : Prop extends Core [] s where
  chosen : Chosen s
  waiting : s.gen.waiting = none

theorem Placed.drawn {s : State} (h : Placed s) : Drawn s :=
  ⟨h.toCore, h.chosen, fun e => absurd h.waiting e⟩

/-! ### Changes beside the engine's blocks -/

theorem State.handTag_congr {s t : State} (hhand : t.driver.hand = s.driver.hand) : t.handTag = s.handTag := by
  unfold State.handTag
  rw [hhand]

theorem State.load_congr {s t : State} (hring : t.ring = s.ring) (hhand : t.driver.hand = s.driver.hand)
    (owed : List Nat) : t.load owed = s.load owed := by
  funext c
  simp only [State.load, State.inFlight, State.handTag_congr hhand, hring]

theorem State.namesStrip_congr {s t : State} (hring : t.ring = s.ring) (hhand : t.driver.hand = s.driver.hand)
    (u : Strip) : t.namesStrip u = s.namesStrip u := by
  simp only [State.namesStrip, hring, hhand]

/-- The driver's side depends on its own blocks alone. -/
theorem DriverFits.congr {s t : State} (h : DriverFits s) (hset : t.settings = s.settings) (hring : t.ring = s.ring)
    (hdead : t.dead = s.dead) (hdriver : t.driver = s.driver) (hslot : t.sweep.slot = s.sweep.slot)
    (himage : t.image = s.image) (hlevel : t.charge.level ≤ Config.chargeMax) : DriverFits t where
  ring := by rw [hset, hring, hdead]; exact h.ring
  ringSize := by rw [hring]; exact h.ringSize
  hand := by rw [hset, hdead, hdriver]; exact h.hand
  handState := by rw [hdriver]; exact h.handState
  slotEmpty := by rw [hslot, hdriver]; exact h.slotEmpty
  slot w hw := by
    obtain ⟨hop, hcopy, hnames, hheld⟩ := h.slot w (hslot ▸ hw)
    exact ⟨hset ▸ hop, himage ▸ hcopy, by rw [State.namesStrip_congr hring (by rw [hdriver])]; exact hnames,
      by rw [hdriver]; exact hheld⟩
  dead := by
    have hd : DeadSound s := h.dead
    simp only [DeadSound, hset, hdead, himage]
    exact hd
  passOver := by rw [hdriver]; exact h.passOver
  level := hlevel

theorem RecordKeeps.driverFits {s t : State} (k : RecordKeeps s t) (h : DriverFits s) : DriverFits t :=
  h.congr k.settings k.ring k.dead k.driver (by rw [k.sweep]) k.dot (by rw [k.charge]; exact h.level)

theorem RecordKeeps.load {s t : State} (k : RecordKeeps s t) (owed : List Nat) : t.load owed = s.load owed :=
  State.load_congr k.ring (by rw [k.driver]) owed

/-- A change of records and of the generator keeps the tally when it keeps the queue sound. -/
theorem Tallied.record {owed owed' : List Nat} {s t : State} (h : Tallied owed s) (k : RecordKeeps s t)
    (hq : QueueSound t.queue t.gen.current (s.load owed'))
    (hh : s.driver.state = .held → ∀ r ∈ t.queue.requests, r.state = .queued) : Tallied owed' t where
  queue := by rw [k.load]; exact hq
  driver := k.driverFits h.driver
  heldQueued := by rw [k.driver]; exact hh
  image := by rw [k.dot]; exact h.image
  settings := by rw [k.settings]; exact h.settings

/-- A change that leaves queue and generator as they are. -/
theorem Core.record {owed : List Nat} {s t : State} (h : Core owed s) (k : RecordKeeps s t)
    (hqueue : t.queue = s.queue) (hgen : t.gen = s.gen) : Core owed t where
  toTallied := h.toTallied.record k (by rw [hqueue, hgen]; exact h.queue) (by rw [hqueue]; exact h.heldQueued)
  gen := ⟨by rw [hgen]; exact h.gen.free, by rw [hqueue, hgen, k.settings]; exact h.gen.place⟩

theorem Core.offer {owed : List Nat} {s : State} (h : Core owed s) (r : Report) : Core owed (s.offer r) :=
  h.record (recordKeeps_offer s r) rfl rfl

/-- The tally does not depend on what the generator holds of its item. -/
theorem Tallied.withGen {owed : List Nat} {s : State} (h : Tallied owed s) {g : Generator}
    (hg : g.current = s.gen.current) : Tallied owed { s with gen := g } :=
  h.record (recordKeeps_gen s g) (by rw [hg]; exact h.queue) h.heldQueued

/-- A free generator fits. -/
theorem Tallied.core_of_free {owed : List Nat} {s : State} (h : Tallied owed s) (hg : s.gen = .free) : Core owed s where
  toTallied := h
  gen := ⟨fun _ => hg, fun r _ hc => by rw [hg] at hc; cases hc⟩

/-- While the generator works the driver is not HELD. -/
theorem Tallied.notHeld {owed : List Nat} {s : State} (h : Tallied owed s) {c : Nat} (hc : s.gen.current = some c) :
    s.driver.state ≠ .held := fun hd => by
  obtain ⟨r, hr, rfl⟩ := h.queue.named c hc
  have hq := h.heldQueued hd r hr
  rw [(h.queue.rastering r hr).2 hc] at hq
  cases hq

/-- The request found under a tag of the queue. -/
theorem QueueSound.request {s : State} {current : Option Nat} {load : Nat → Nat} (h : QueueSound s.queue current load)
    {r : Request} (hr : r ∈ s.queue.requests) : s.request r.tag = some r := by
  obtain ⟨pre, post, hs⟩ := List.mem_iff_append.1 hr
  exact State.request_split hs h.tags

theorem State.mem_changeRequest_self {s : State} {r : Request} (hr : r ∈ s.queue.requests) (f : Request → Request) :
    f r ∈ (s.changeRequest r.tag f).queue.requests :=
  State.mem_changeRequest.2 ⟨r, hr, (if_pos rfl).symm⟩

/-! ### The current request's record -/

/-- The record of the current request is changed in what no count speaks of. -/
theorem Tallied.changeCurrent {s : State} (h : Tallied [] s) {t : Nat} (hcur : s.gen.current = some t)
    {f : Request → Request} (hf : ∀ r, (f r).viewport = r.viewport ∧ (f r).origin = r.origin)
    (htag : ∀ r, (f r).tag = r.tag) (hstate : ∀ r, (f r).state = r.state)
    (heach : ∀ r ∈ s.queue.requests, r.tag = t → RequestSound (s.load [] t) r → RequestSound (s.load [] t) (f r)) :
    Tallied [] (s.changeRequest t f) :=
  h.record (recordKeeps_changeRequest s t hf)
    (h.queue.changeKeep t htag (fun r => (hf r).2) hstate heach) fun hd => absurd hd (h.notHeld hcur)

/-- A RASTERING request's record stays sound when only marks and the place within the item change. -/
theorem RequestSound.marked {n : Nat} {r q : Request} (h : RequestSound n r) (hr : r.state = .rastering)
    (htag : q.tag = r.tag) (hitems : q.items = r.items) (hout : q.outstanding = r.outstanding)
    (hitem : q.progress.item = r.progress.item) (hdone : q.itemsDone = r.itemsDone) (hstate : q.state = r.state) :
    RequestSound n q where
  tag := htag ▸ h.tag
  items := by
    have := h.items
    simp only [Request.itemsSound, hitems] at *
    exact this
  outstanding := hout.trans h.outstanding
  item := by rw [hitem, hdone]; exact h.item
  done := by rw [hdone, hitems]; exact h.done
  queued hs := by rw [hstate, hr] at hs; cases hs
  draining hs := by rw [hstate, hr] at hs; cases hs

/-- The current request is RASTERING. -/
theorem Tallied.rastering {owed : List Nat} {s : State} (h : Tallied owed s) {r : Request} (hr : r ∈ s.queue.requests)
    (hcur : s.gen.current = some r.tag) : r.state = .rastering :=
  (h.queue.rastering r hr).2 hcur

/-- Marks of the current request's record are changed. -/
theorem Tallied.mark {s : State} (h : Tallied [] s) {t : Nat} (hcur : s.gen.current = some t) {f : Request → Request}
    (hf : ∀ r, (f r).viewport = r.viewport ∧ (f r).origin = r.origin)
    (hk : ∀ r, (f r).tag = r.tag ∧ (f r).items = r.items ∧ (f r).outstanding = r.outstanding ∧
      (f r).progress.item = r.progress.item ∧ (f r).itemsDone = r.itemsDone ∧ (f r).state = r.state) :
    Tallied [] (s.changeRequest t f) :=
  h.changeCurrent hcur hf (fun r => (hk r).1) (fun r => (hk r).2.2.2.2.2) fun r hr e hs => by
    obtain ⟨h1, h2, h3, h4, h5, h6⟩ := hk r
    exact hs.marked (h.rastering hr (by rw [hcur, e])) h1 h2 h3 h4 h5 h6

/-- The generator stands at a place that fits the current item, with no strip waiting. -/
theorem Tallied.placed_at {s : State} (h : Tallied [] s) {r : Request} (hr : r ∈ s.queue.requests)
    (hcur : s.gen.current = some r.tag) {it : Item} (hit : r.items[r.progress.item]? = some it)
    (hfits : placeFits s.gen r.progress.place it = true) (hwait : s.gen.waiting = none)
    (hin : ∀ t, r.progress.place.next = some t → t.inside s.settings.columns s.settings.stripRows = true) :
    Placed s where
  toTallied := h
  gen := by
    refine ⟨fun e => (nomatch hcur.symm.trans e), fun q hq hc => ?_⟩
    rw [h.queue.unique hq hr (Option.some.inj (hc.symm.trans hcur))]
    exact ⟨⟨it, hit, hfits⟩, hin, fun t ht => by rw [hwait] at ht; cases ht⟩
  chosen e := by rw [hcur] at e; cases e
  waiting := hwait

/-- The generator takes a place in the current item. -/
theorem Tallied.placed {s : State} (h : Tallied [] s) {r : Request} (hr : r ∈ s.queue.requests)
    (hcur : s.gen.current = some r.tag) (p : Place) {it : Item} (hit : r.items[r.progress.item]? = some it)
    (hfits : placeFits s.gen p it = true) (hwait : s.gen.waiting = none)
    (hin : ∀ t, p.next = some t → t.inside s.settings.columns s.settings.stripRows = true) :
    Placed (s.setPlace r.tag p) :=
  (h.mark hcur (fun _ => ⟨rfl, rfl⟩) fun _ => ⟨rfl, rfl, rfl, rfl, rfl, rfl⟩ : Tallied [] (s.setPlace r.tag p)).placed_at
    (State.mem_changeRequest_self hr fun r => { r with progress := { r.progress with place := p } }) hcur hit hfits
    hwait hin

/-! ### The generator arbiter (R25) -/

/-- The arbiter's choice is a QUEUED request of the queue; without one, none is QUEUED. -/
theorem State.arbiterChoice_some {s : State} {r : Request} (h : s.arbiterChoice = some r) :
    r ∈ s.queue.requests ∧ r.state = .queued := by
  unfold State.arbiterChoice at h
  split at h
  next q hq =>
    cases h
    have := List.find?_some hq
    simp only [Bool.and_eq_true, beq_iff_eq] at this
    exact ⟨List.mem_of_find?_eq_some hq, this.1⟩
  next =>
    exact ⟨List.mem_of_find?_eq_some h, by simpa using List.find?_some h⟩

theorem State.arbiterChoice_none {s : State} (h : s.arbiterChoice = none) :
    ∀ r ∈ s.queue.requests, r.state ≠ .queued := by
  unfold State.arbiterChoice at h
  split at h
  · cases h
  · simpa using h

/-- What the generator arbiter does: nothing, or it takes its choice for the free generator (R25, R26). -/
theorem State.generatorArbiter_cases (s : State) :
    (s.generatorArbiter = s ∧ (s.gen.current = none → s.driver.state ≠ .held → s.arbiterChoice = none)) ∨
      ∃ r, s.arbiterChoice = some r ∧ s.gen.current = none ∧ s.driver.state ≠ .held ∧
        s.generatorArbiter =
          { s.changeRequest r.tag fun r => { r with state := .rastering, progress := .start } with
            gen := { Generator.free with current := some r.tag } } := by
  unfold State.generatorArbiter
  split
  next h => exact .inl ⟨rfl, fun hc hd => absurd h (by simp [hc, hd])⟩
  next h =>
    have hfree : s.gen.current = none ∧ s.driver.state ≠ .held := by simpa using h
    split
    next hn => exact .inl ⟨rfl, fun _ _ => hn⟩
    next r hr => exact .inr ⟨r, hr, hfree.1, hfree.2, rfl⟩

/-- A QUEUED request's record is sound as RASTERING at the start of its first item (R26). -/
theorem RequestSound.start {n : Nat} {r : Request} (h : RequestSound n r) (hq : r.state = .queued) :
    RequestSound n { r with state := .rastering, progress := .start } where
  tag := h.tag
  items := h.items
  outstanding := h.outstanding
  item := by
    have hp := (h.queued hq).2.2
    have := h.item
    rwa [hp] at this
  done := h.done
  queued hs := by cases hs
  draining hs := by cases hs

/-- A sound record has a first item (R20). -/
theorem RequestSound.firstItem {n : Nat} {r : Request} (h : RequestSound n r) : ∃ it, r.items[0]? = some it := by
  have hi := h.items
  simp only [Request.itemsSound, Bool.and_eq_true, decide_eq_true_eq] at hi
  exact ⟨_, List.getElem?_eq_getElem hi.1.1⟩

/-- The arbiter keeps the core and leaves no choice open. -/
theorem Core.arbiter {owed : List Nat} {s : State} (h : Core owed s) :
    Core owed s.generatorArbiter ∧ Chosen s.generatorArbiter := by
  rcases s.generatorArbiter_cases with ⟨he, hn⟩ | ⟨r, hr, hfree, hheld, he⟩
  · rw [he]
    exact ⟨h, fun hc hd => State.arbiterChoice_none (hn hc hd)⟩
  · obtain ⟨hmem, hqueued⟩ := State.arbiterChoice_some hr
    have hk := recordKeeps_generatorArbiter s
    rw [he] at hk ⊢
    have hone : ∀ q ∈ s.queue.requests, q.tag = r.tag → q = r := fun q hq e => h.queue.unique hq hmem e
    have hqueue : QueueSound s.queue none (s.load owed) := hfree ▸ h.queue
    refine ⟨⟨h.toTallied.record hk (hqueue.choose (fun _ => rfl) (fun _ => rfl) (fun _ => rfl) ⟨r, hmem, rfl⟩
      fun q hq e hs => ?_) fun hd => absurd hd hheld, ?_⟩, fun hc => (nomatch hc)⟩
    · rw [hone q hq e] at hs ⊢
      exact hs.start hqueued
    · refine ⟨fun hc => (nomatch hc), fun q hq hc => ?_⟩
      obtain ⟨q', hq', rfl⟩ := State.mem_changeRequest.1 hq
      have htag : q'.tag = r.tag := by
        have : (if q'.tag = r.tag then { q' with state := .rastering, progress := .start } else q').tag = q'.tag := by
          split <;> rfl
        rw [this] at hc
        exact (Option.some.inj hc).symm
      rw [if_pos htag]
      obtain ⟨it, hit⟩ := (h.queue.each q' hq').firstItem
      exact ⟨⟨it, hit, rfl⟩, fun t ht => (nomatch ht), fun t ht => (nomatch ht)⟩

/-- After the arbiter of a generator without a waiting strip no strip waits. -/
theorem State.generatorArbiter_waiting {s : State} (h : s.gen.waiting = none) :
    s.generatorArbiter.gen.waiting = none := by
  rcases s.generatorArbiter_cases with ⟨he, -⟩ | ⟨r, -, -, -, he⟩
  · rw [he]; exact h
  · rw [he]; rfl

/-- The arbiter of a free generator. -/
theorem Tallied.arbiter_placed {s : State} (h : Tallied [] s) (hg : s.gen = .free) : Placed s.generatorArbiter :=
  have hc := (h.core_of_free hg).arbiter
  ⟨hc.1, hc.2, State.generatorArbiter_waiting (by rw [hg]; rfl)⟩

/-! ### Requests that leave or drain (R28, R30, R31) -/

/-- The generator's request stops with nothing outstanding: it leaves, and the generator is free. -/
theorem Tallied.stop_leave {s : State} (h : Tallied [] s) {r : Request} (hcur : s.gen.current = some r.tag)
    (hr : r ∈ s.queue.requests) (hout : r.outstanding = 0) {q : Request} (hq : q.tag = r.tag) (o : LeaveOutcome) :
    Tallied [] (s.freeGenerator.leave q o) := by
  have hload : s.load [] r.tag = 0 := (h.queue.each r hr).outstanding.symm.trans hout
  refine h.record ((recordKeeps_freeGenerator s).trans (recordKeeps_leave _ q o)) ?_ fun hd => absurd hd (h.notHeld hcur)
  have hrem := h.queue.remove hload
  rw [if_pos hcur] at hrem
  rw [State.leave_queue, State.leave_gen, hq]
  exact hrem

/-- The generator's request stops with operations outstanding: it drains, and the generator is free. -/
theorem Tallied.stop_drain {s : State} (h : Tallied [] s) {r : Request} (hcur : s.gen.current = some r.tag)
    (hr : r ∈ s.queue.requests) (hout : r.outstanding ≠ 0) {f : Request → Request}
    (hf : ∀ q, (f q).viewport = q.viewport ∧ (f q).origin = q.origin)
    (hk : ∀ q, (f q).tag = q.tag ∧ (f q).items = q.items ∧ (f q).outstanding = q.outstanding ∧
      (f q).progress = q.progress ∧ (f q).itemsDone = q.itemsDone ∧ (f q).state = .draining) :
    Tallied [] (s.freeGenerator.changeRequest r.tag f) := by
  refine h.record ((recordKeeps_freeGenerator s).trans (recordKeeps_changeRequest _ r.tag hf)) ?_
    fun hd => absurd hd (h.notHeld hcur)
  refine h.queue.drain hcur (fun q => (hk q).1) (fun q => (hf q).2) (fun q => (hk q).2.2.2.2.2) fun q hq e hs => ?_
  obtain ⟨h1, h2, h3, h4, h5, h6⟩ := hk q
  have hqr : q = r := h.queue.unique hq hr e
  subst hqr
  exact ⟨h1 ▸ hs.tag, by simpa only [Request.itemsSound, h2] using hs.items, h3.trans hs.outstanding,
    by rw [h4, h5]; exact hs.item, by rw [h5, h2]; exact hs.done, fun e' => (nomatch h6.symm.trans e'),
    fun _ => by rw [h3]; exact Nat.pos_of_ne_zero hout⟩

theorem Tallied.endGeneration {s : State} (h : Tallied [] s) {r : Request} (hcur : s.gen.current = some r.tag)
    (hr : r ∈ s.queue.requests) : Placed (s.endGeneration r) := by
  unfold State.endGeneration
  dsimp only
  split
  next hout => exact (h.stop_leave hcur hr hout rfl .done).arbiter_placed (by simp)
  next hout =>
    exact (h.stop_drain hcur hr hout (f := fun q => { q with state := .draining }) (fun _ => ⟨rfl, rfl⟩)
      fun _ => ⟨rfl, rfl, rfl, rfl, rfl, rfl⟩).arbiter_placed (by simp)

/-! ### Items and codes that are done with (R27, R79, R83) -/

/-- The record of a RASTERING request with one item more completed. -/
theorem RequestSound.counted {n : Nat} {r : Request} (h : RequestSound n r) (hs : r.state = .rastering)
    (hitem : r.progress.item < r.items.length) :
    RequestSound n { r with itemsDone := r.itemsDone + 1, progress := ⟨r.progress.item + 1, .itemStart⟩ } where
  tag := h.tag
  items := h.items
  outstanding := h.outstanding
  item := congrArg (· + 1) h.item
  done := by rw [h.item] at hitem; exact hitem
  queued e := by rw [show r.state = _ from e] at hs; cases hs
  draining e := by rw [show r.state = _ from e] at hs; cases hs

theorem Tallied.finishItem {s : State} (h : Tallied [] s) {r : Request} (hcur : s.gen.current = some r.tag)
    (hr : r ∈ s.queue.requests) (hitem : r.progress.item < r.items.length) : Placed (s.finishItem r.tag) := by
  have hc : Tallied [] (s.changeRequest r.tag fun r =>
      { r with itemsDone := r.itemsDone + 1, progress := ⟨r.progress.item + 1, .itemStart⟩ }) :=
    h.changeCurrent hcur (fun _ => ⟨rfl, rfl⟩) (fun _ => rfl) (fun _ => rfl) fun q hq e hs => by
      have hqr : q = r := h.queue.unique hq hr e
      subst hqr
      exact hs.counted (h.rastering hr hcur) hitem
  have hmem := State.mem_changeRequest_self hr fun r =>
    { r with itemsDone := r.itemsDone + 1, progress := ⟨r.progress.item + 1, .itemStart⟩ }
  have hfound := hc.queue.request hmem
  unfold State.finishItem
  dsimp only at hfound ⊢
  rw [hfound]
  dsimp only
  split
  next hlt =>
    exact (hc.withGen (g := { Generator.free with current := some r.tag }) hcur.symm).placed_at hmem rfl
      (List.getElem?_eq_getElem hlt) rfl rfl fun t ht => (nomatch ht)
  next => exact hc.endGeneration hcur hmem

end Sys2Proof.Machine
end

