-- ==== Sys2Proof/Proofs/Drawing.lean ====
section
/-!
SUPPORT. The generator's events keep queue, generator and driver in agreement: examining strips, appending to the ring,
starting items and glyphs (R77 to R98).
-/

-- One proof at a time: side by side, the proofs' threads reserve more memory than the check allows.
set_option Elab.async false

namespace Sys2Proof.Machine

/-! ### Strips of the panel -/

theorem mem_panelStrips {columns stripRows : Nat} {t : Strip} :
    t ∈ panelStrips columns stripRows ↔ t.inside columns stripRows = true := by
  obtain ⟨c, k⟩ := t
  simp [panelStrips, Strip.inside]

theorem firstStrip_inside {columns stripRows : Nat} {c : Claim} {t : Strip}
    (h : firstStrip columns stripRows c = some t) : t.inside columns stripRows = true :=
  mem_panelStrips.1 (List.mem_of_find?_eq_some h)

theorem stripAfter_inside {columns stripRows : Nat} {c : Claim} {t u : Strip}
    (h : stripAfter columns stripRows c t = some u) : u.inside columns stripRows = true :=
  mem_panelStrips.1 (List.mem_of_find?_eq_some h)

/-! ### Places that fit (R83, R87) -/

/-- A strip of a graphic item fits with any latch-less generator that holds item values. -/
theorem placeFits_strip {g g' : Generator} {t u : Strip} {it : Item} (h : placeFits g (.strip t) it = true)
    (hl : g'.latch = g.latch) (hv : g'.values = g.values) : placeFits g' (.strip u) it = true := by
  cases it <;> simp_all [placeFits]

/-- A place within a cell fits a TEXT item whose code is latched. -/
theorem placeFits_cell {g : Generator} {i : Nat} {x y : Int} {wr : Bool} {t : Strip} {it : Item}
    (h : placeFits g (.cell i x y wr t) it = true) :
    ∃ font start codes, it = .text font start codes ∧ i < codes.length ∧ g.latch.isSome = true ∧
      g.values.isSome = true := by
  cases it <;> simp_all [placeFits]

/-- A place with a strip to examine fits only a generator that holds item values. -/
theorem placeFits_values {g : Generator} {p : Place} {t : Strip} {it : Item} (h : placeFits g p it = true)
    (ht : p.next = some t) : g.values.isSome = true := by
  cases p <;> cases it <;> simp_all [placeFits, Place.next]

/-- A place with a strip to examine fits whatever strip waits. -/
theorem placeFits_waiting {g : Generator} {p : Place} {t : Strip} {it : Item} (h : placeFits g p it = true)
    (ht : p.next = some t) (w : Option Strip) : placeFits { g with waiting := w } p it = true := by
  cases p <;> cases it <;> simp_all [placeFits, Place.next]

/-! ### Codes, cells and strips that are done with (R79, R82, R94, R96) -/

variable {s : State} {r : Request}

theorem Tallied.nextCode (h : Tallied [] s) (hcur : s.gen.current = some r.tag) (hr : r ∈ s.queue.requests)
    {font : Nat} {start : Option (Int × Int)} {codes : List Nat}
    (hit : r.items[r.progress.item]? = some (.text font start codes)) (hv : s.gen.values.isSome = true) (i : Nat) :
    Placed (s.nextCode r.tag codes.length i) := by
  unfold State.nextCode
  split
  next hi =>
    have hg := h.withGen (g := { s.gen with latch := none, waiting := none }) rfl
    exact hg.placed hr hcur (.glyphStart (i + 1)) hit (by simp [placeFits, hi, hv]) rfl fun t ht => (nomatch ht)
  next => exact h.finishItem hcur hr (List.getElem?_eq_some_iff.1 hit).1

theorem Tallied.endCell (h : Tallied [] s) (hcur : s.gen.current = some r.tag) (hr : r ∈ s.queue.requests)
    {font : Nat} {start : Option (Int × Int)} {codes : List Nat}
    (hit : r.items[r.progress.item]? = some (.text font start codes)) (hv : s.gen.values.isSome = true) (i : Nat)
    (l : Latch) (wrapped : Bool) : Placed (s.endCell r codes.length i l wrapped) := by
  have hc := cursorAfterCell_record (s.viewport r.viewport) l wrapped
  have hk := recordKeeps_moveCursor s ⟨r, hr, rfl⟩ hc.1 hc.2
  exact Tallied.nextCode (h.record hk h.queue h.heldQueued) hcur hr hit hv i

/-- The place moves on from strip `t` (R94, R96). -/
theorem Tallied.moveOn (h : Tallied [] s) (hcur : s.gen.current = some r.tag) (hr : r ∈ s.queue.requests)
    (hp : PlaceSound s.settings s.gen r) {it : Item} (hit : r.items[r.progress.item]? = some it) {t : Strip}
    (ht : r.progress.place.next = some t) (c : Claim) : Placed (s.moveOn r it c t) := by
  obtain ⟨it', hit', hfits⟩ := hp.item
  obtain rfl : it' = it := Option.some.inj (hit'.symm.trans hit)
  have hg := h.withGen (g := { s.gen with waiting := none }) rfl
  unfold State.moveOn
  cases hplace : r.progress.place with
  | itemStart => rw [hplace] at ht; cases ht
  | glyphStart i => rw [hplace] at ht; cases ht
  | strip u =>
    rw [hplace] at hfits
    cases hnext : stripAfter s.settings.columns s.settings.stripRows c t with
    | none =>
      simp only [hnext]
      exact hg.finishItem hcur hr (List.getElem?_eq_some_iff.1 hit).1
    | some u' =>
      simp only [hnext]
      refine hg.placed hr hcur (.strip u') hit (placeFits_strip hfits rfl rfl) rfl fun t' ht' => ?_
      cases ht'
      exact stripAfter_inside hnext
  | cell i x y wr u =>
    rw [hplace] at hfits
    obtain ⟨font, start, codes, rfl, hi, hlatch, hv⟩ := placeFits_cell hfits
    obtain ⟨l, hl⟩ := Option.isSome_iff_exists.1 hlatch
    cases hnext : stripAfter s.settings.columns s.settings.stripRows c t with
    | none =>
      have hg' := h.withGen (g := { s.gen with latch := some l, waiting := none }) rfl
      simp only [hnext, hl]
      exact hg'.endCell hcur hr hit hv i l wr
    | some u' =>
      simp only [hnext]
      refine hg.placed hr hcur (.cell i x y wr u') hit (by simp [placeFits, hi, hlatch, hv]) rfl fun t' ht' => ?_
      cases ht'
      exact stripAfter_inside hnext

/-! ### Appending (R92 to R96, R99) -/

/-- The operation an examination forms names no recorded dead dot (R12, R92). -/
theorem formOp_live (c : Claim) (rule : InkRule) (force : Bool) (dead : List DeadDot) (im : Image) (t : Strip) :
    AllLive dead t (formOp c rule force dead im t).named := by
  intro p _ hp
  by_contra hrec
  have hrec : recorded dead t.col (t.rowOf p) = true := by simpa using hrec
  have hleave : wantedAt c rule dead t p = .leave := by simp [wantedAt, hrec]
  simp [formOp, StripOp.named, maskOf_getLsbD, hleave, wantsSet, wantsClear] at hp

/-- An operation that is not empty, formed for a strip of the panel, is live and well formed (R95). -/
theorem formOp_opLive {set : Settings} {c : Claim} {rule : InkRule} {force : Bool} {dead : List DeadDot} {im : Image}
    {t : Strip} (hin : t.inside set.columns set.stripRows = true)
    (hne : (formOp c rule force dead im t).isEmpty = false) : OpLive set dead (formOp c rule force dead im t) :=
  ⟨⟨formOp_disjoint _ _ _ _ _ _, hne, hin⟩, formOp_live _ _ _ _ _ _⟩

/-- The unit with an operation at the ring's tail, committed and counted, before the sweep slot is looked at (R96). -/
def State.appended (s : State) (tag : Nat) (op : StripOp) : State :=
  { s.changeRequest tag Request.appended with ring := s.ring ++ [⟨tag, op⟩], image := commitOp s.image op }

/-- An append empties a sweep slot for the same strip, with the pass-over count (R99, R109). -/
theorem State.append_cases (s : State) (tag : Nat) (op : StripOp) :
    ((∀ w, s.sweep.slot = some w → w.strip ≠ op.strip) ∧ s.append tag op = s.appended tag op) ∨
      s.append tag op =
        { s.appended tag op with
          sweep := { s.sweep with slot := none }, driver := { s.driver with passOver := 0 } } := by
  unfold State.append
  dsimp only
  split
  next w hw =>
    by_cases e : w.strip = op.strip
    · simp only [e, decide_true, if_true]
      exact .inr rfl
    · refine .inl ⟨fun w' hw' => Option.some.inj (hw.symm.trans hw') ▸ e, ?_⟩
      simp only [e, decide_false, Bool.false_eq_true, if_false]
      rfl
  next hw => exact .inl ⟨fun w' hw' => (nomatch hw.symm.trans hw'), rfl⟩

/-- One operation more of its request is in flight. -/
theorem State.load_append (s : State) (tag : Nat) (op : StripOp) (c : Nat) :
    (s.append tag op).load [] c = s.load [] c + if c = tag then 1 else 0 := by
  have hhand : (s.append tag op).handTag = s.handTag := by
    rcases s.append_cases tag op with ⟨-, e⟩ | e <;> rw [e] <;> rfl
  have hring : (s.append tag op).ring = s.ring ++ [⟨tag, op⟩] := rfl
  by_cases e : c = tag
  · simp only [State.load, State.inFlight, hhand, hring, List.filter_append, List.length_append]
    simp [e]; omega
  · simp only [State.load, State.inFlight, hhand, hring, List.filter_append, List.length_append]
    simp [e, Ne.symm e]

/-- The dead dots stay UNKNOWN through the commit of a live operation (R9). -/
theorem deadSound_commit {im : Image} (him : ImageSound im) {c : Settings} {dead : List DeadDot} {op : StripOp}
    (hop : OpLive c dead op) {d : DeadDot} (hd : d ∈ dead) (hu : imageDot im d.x d.y = .unknown) :
    imageDot (commitOp im op) d.x d.y = .unknown := by
  have hnot : ¬(op.strip = stripOf d.x d.y ∧ op.named.getLsbD (d.y % 16) = true) := by
    rintro ⟨hs, hp⟩
    have hlive := hop.live (d.y % 16) (List.mem_range.2 (Nat.mod_lt _ (by decide))) hp
    have hrow : op.strip.rowOf (d.y % 16) = d.y := by
      rw [hs]; simp only [stripOf, Strip.rowOf]; omega
    have hrec : recorded dead op.strip.col (op.strip.rowOf (d.y % 16)) = true := by
      rw [hrow, hs, recorded, List.any_eq_true]
      exact ⟨d, hd, by simp [stripOf]⟩
    rw [hrec] at hlive
    cases hlive
  rw [imageDot_commitOp him.1 hop.sound.1, hu]
  simp only [StripOp.named, BitVec.getLsbD_or, Bool.or_eq_true, not_and, not_or] at hnot
  rw [if_neg fun e => (hnot e.1).1 e.2, if_neg fun e => (hnot e.1).2 e.2]

/-- The strips named after an append. -/
theorem State.namesStrip_appended (s : State) (tag : Nat) (op : StripOp) (u : Strip) :
    (s.appended tag op).namesStrip u = (s.namesStrip u || decide (op.strip = u)) := by
  simp only [State.namesStrip, State.appended, State.changeRequest_driver, List.any_append, List.any_cons,
    List.any_nil, Bool.or_false, Bool.or_right_comm]

/-- The driver's side through an append, slot and pass-over count aside (R9, R95). -/
theorem DriverFits.appended (h : DriverFits s) (him : ImageSound s.image) (tag : Nat) {op : StripOp}
    (hop : OpLive s.settings s.dead op) (hroom : s.ring.length < Config.ringSize)
    (hslot : ∀ w, s.sweep.slot = some w → w.strip ≠ op.strip) : DriverFits (s.appended tag op) where
  ring o ho := by
    rcases List.mem_append.1 ho with ho | ho
    · exact h.ring o ho
    · rw [List.mem_singleton.1 ho]; exact hop
  ringSize := by simpa [State.appended] using hroom
  hand := h.hand
  handState := h.handState
  slotEmpty := h.slotEmpty
  slot w hw := by
    obtain ⟨hwop, hcopy, hnames, hheld⟩ := h.slot w hw
    have hne := hslot w hw
    refine ⟨hwop, ?_, ?_, hheld⟩
    · have hget : imageGet (commitOp s.image op) w.strip = imageGet s.image w.strip := by
        rw [commitOp, imageGet_imageSet him.1, if_neg hne.symm]
      simp only [State.appended, sweepOp, hget]
      exact hcopy
    · rw [State.namesStrip_appended, hnames, decide_eq_false hne.symm, Bool.or_false]
  dead := by
    obtain ⟨hlen, hnodup, hall⟩ := h.dead
    exact ⟨hlen, hnodup, fun d hd => ⟨(hall d hd).1, (hall d hd).2.1, deadSound_commit him hop hd (hall d hd).2.2⟩⟩
  passOver := h.passOver
  level := h.level

/-- The driver's side without its slot (R109). -/
theorem DriverFits.emptySlot (h : DriverFits s) :
    DriverFits { s with sweep := { s.sweep with slot := none }, driver := { s.driver with passOver := 0 } } where
  ring := h.ring
  ringSize := h.ringSize
  hand := h.hand
  handState := h.handState
  slotEmpty _ := rfl
  slot w hw := by cases hw
  dead := h.dead
  passOver := Nat.zero_le _
  level := h.level

theorem DriverFits.append (h : DriverFits s) (him : ImageSound s.image) (tag : Nat) {op : StripOp}
    (hop : OpLive s.settings s.dead op) (hroom : s.ring.length < Config.ringSize) : DriverFits (s.append tag op) := by
  rcases s.append_cases tag op with ⟨hslot, e⟩ | e
  · rw [e]; exact h.appended him tag hop hroom hslot
  · rw [e]
    exact h.emptySlot.appended him tag hop hroom fun w hw => (nomatch hw)

/-- The tally through an append for the current request (R27, R96). -/
theorem Tallied.append (h : Tallied [] s) (hcur : s.gen.current = some r.tag) (hr : r ∈ s.queue.requests)
    {op : StripOp} (hop : OpLive s.settings s.dead op) (hroom : s.ring.length < Config.ringSize) :
    Tallied [] (s.append r.tag op) where
  queue := by
    refine h.queue.change r.tag (f := Request.appended) (fun _ => rfl) (fun _ => rfl) (fun _ => rfl)
      (fun c hc => by rw [State.load_append, if_neg hc, Nat.add_zero]) (fun q hq e => ?_) fun _ => ?_
    · have hs := h.queue.each q hq
      have hstate : q.state = .rastering := h.rastering hq (by rw [hcur, e])
      exact ⟨hs.tag, hs.items, by rw [State.load_append, if_pos rfl, ← e, ← hs.outstanding]; rfl, hs.item, hs.done,
        fun e' => (nomatch hstate.symm.trans e'), fun e' => (nomatch hstate.symm.trans e')⟩
    · exact ⟨r, hr, rfl, by rw [h.rastering hr hcur]; decide⟩
  driver := h.driver.append h.image r.tag hop hroom
  heldQueued hd := by
    have := (drawKeeps_append s r.tag hop.sound.1).driverFields.1
    exact absurd (this ▸ hd) (h.notHeld hcur)
  image := imageSound_commitOp h.image hop.sound.1
  settings := h.settings

/-! ### Examining a strip (R91 to R97) -/

/-- One examination of the next strip of the current item. -/
theorem Core.examine (h : Core [] s) (hcur : s.gen.current = some r.tag) (hr : r ∈ s.queue.requests) {it : Item}
    (hit : r.items[r.progress.item]? = some it) (v : ItemValues) {t : Strip} (ht : r.progress.place.next = some t) :
    Drawn (s.examine r it v t) := by
  have hp := h.gen.place r hr hcur
  unfold State.examine
  dsimp only
  split
  · exact (h.toTallied.moveOn hcur hr hp hit ht _).drawn
  next hne =>
    have hop := formOp_opLive (hp.inside t ht) (by simpa using hne)
    split
    next hroom =>
      have ha := h.toTallied.append hcur hr hop hroom
      exact (ha.moveOn (r := r.appended) hcur (State.mem_changeRequest_self hr Request.appended)
        ⟨hp.item, hp.inside, hp.waiting⟩ hit ht _).drawn
    next hfull =>
      refine ⟨⟨h.toTallied.withGen rfl, ⟨fun e => (nomatch hcur.symm.trans e), fun q hq hc => ?_⟩⟩,
        fun e => (nomatch hcur.symm.trans e), fun _ => le_antisymm h.driver.ringSize (Nat.not_lt.1 hfull)⟩
      rw [h.queue.unique hq hr (Option.some.inj (hc.symm.trans hcur))]
      obtain ⟨it', hit', hfits⟩ := hp.item
      exact ⟨⟨it', hit', placeFits_waiting hfits ht _⟩, hp.inside, fun u hu => ht.trans hu⟩

/-- The item in progress, from its parts. -/
theorem State.inProgress_eq {it : Item} {v : ItemValues} (hr : s.gen.current.bind s.request = some r)
    (hv : s.gen.values = some v) (hit : r.items[r.progress.item]? = some it) : s.inProgress = some (r, it, v) := by
  simp [State.inProgress, hr, hv, hit]

/-- A stalled generator examines its waiting strip again (R97). -/
theorem Core.reexamine (h : Core [] s) (hc : Chosen s) : Drawn s.reexamine := by
  cases hw : s.gen.waiting with
  | none =>
    have : s.reexamine = s := by simp [State.reexamine, hw]
    rw [this]
    exact ⟨h, hc, fun e => absurd hw e⟩
  | some t =>
    have hcur : ∃ c, s.gen.current = some c := by
      by_contra hn
      have := h.gen.free (Option.eq_none_iff_forall_ne_some.2 fun c hc => hn ⟨c, hc⟩)
      rw [this] at hw
      cases hw
    obtain ⟨c, hcur⟩ := hcur
    obtain ⟨r, hr, rfl⟩ := h.queue.named c hcur
    have hp := h.gen.place r hr hcur
    obtain ⟨it, hit, hfits⟩ := hp.item
    have ht := hp.waiting t hw
    obtain ⟨v, hv⟩ := Option.isSome_iff_exists.1 (placeFits_values hfits ht)
    have hin : s.inProgress = some (r, it, v) :=
      State.inProgress_eq (by rw [hcur]; exact h.queue.request hr) hv hit
    have : s.reexamine = s.examine r it v t := by simp only [State.reexamine, hw, hin]
    rw [this]
    exact h.examine hcur hr hit v ht

/-! ### Starting an item (R78, R85, R86, R88) -/

/-- A graphic item claims by itself: every item but TEXT, CURSOR and NEWLINE. -/
def Item.isGraphic : Item → Bool
  | .dot .. | .line .. | .box .. | .image .. | .clear => true
  | .text .. | .cursor .. | .newline _ => false

theorem Tallied.startGraphic (h : Tallied [] s) (hcur : s.gen.current = some r.tag) (hr : r ∈ s.queue.requests)
    {it : Item} (hit : r.items[r.progress.item]? = some it) (hgraphic : it.isGraphic = true)
    (hlatch : s.gen.latch = none) (hwait : s.gen.waiting = none) (hvalues : s.gen.values.isSome = true)
    (v : ItemValues) : Placed (s.startGraphic r it v) := by
  have hm : Tallied [] (s.changeRequest r.tag fun q => { q with clipped := q.clipped || it.isClipped v.rect }) :=
    h.mark hcur (fun _ => ⟨rfl, rfl⟩) fun _ => ⟨rfl, rfl, rfl, rfl, rfl, rfl⟩
  have hmem := State.mem_changeRequest_self hr fun q => { q with clipped := q.clipped || it.isClipped v.rect }
  have hitem : r.progress.item < r.items.length := (List.getElem?_eq_some_iff.1 hit).1
  unfold State.startGraphic
  dsimp only
  split
  · exact Tallied.finishItem (r := { r with clipped := r.clipped || it.isClipped v.rect }) hm hcur hmem hitem
  · split
    · exact Tallied.finishItem (r := { r with clipped := r.clipped || it.isClipped v.rect }) hm hcur hmem hitem
    next t hfirst =>
      refine Tallied.placed (r := { r with clipped := r.clipped || it.isClipped v.rect }) hm hmem hcur (.strip t) hit ?_
        hwait fun u hu => ?_
      · cases it <;> simp_all [placeFits, Item.isGraphic]
      · cases hu
        exact firstStrip_inside hfirst

/-- A TEXT item has a code (R63). -/
theorem RequestSound.textCodes {n : Nat} (h : RequestSound n r) {i font : Nat} {start : Option (Int × Int)}
    {codes : List Nat} (hit : r.items[i]? = some (.text font start codes)) : 0 < codes.length := by
  have hi := h.items
  simp only [Request.itemsSound, Bool.and_eq_true, List.all_eq_true] at hi
  have := hi.2 _ (List.mem_of_getElem? hit)
  simpa [List.length_pos_iff] using this

theorem Tallied.startText (h : Tallied [] s) (hcur : s.gen.current = some r.tag) (hr : r ∈ s.queue.requests)
    {font : Nat} {start : Option (Int × Int)} {codes : List Nat}
    (hit : r.items[r.progress.item]? = some (.text font start codes)) (hlatch : s.gen.latch = none)
    (hwait : s.gen.waiting = none) (hvalues : s.gen.values.isSome = true) (font' : Nat)
    (start' : Option (Int × Int)) : Placed (s.startText r font' start') := by
  have hcodes := (h.queue.each r hr).textCodes hit
  unfold State.startText
  split
  · have hfits : ∀ g : Generator, g = s.gen → placeFits g (.glyphStart 0) (.text font start codes) = true := by
      rintro g rfl
      simp [placeFits, hcodes, hlatch, hwait, hvalues]
    rcases start' with _ | ⟨x, y⟩
    · exact h.placed hr hcur (.glyphStart 0) hit (hfits _ rfl) hwait fun t ht => (nomatch ht)
    · have hk := recordKeeps_setCursor s ⟨r, hr, rfl⟩ x y
      exact (h.record hk h.queue h.heldQueued).placed hr hcur (.glyphStart 0) hit (hfits _ rfl) hwait
        fun t ht => (nomatch ht)
  · have hm : Tallied [] (s.changeRequest r.tag fun q => { q with missingGlyph := true }) :=
      h.mark hcur (fun _ => ⟨rfl, rfl⟩) fun _ => ⟨rfl, rfl, rfl, rfl, rfl, rfl⟩
    exact Tallied.finishItem (r := { r with missingGlyph := true }) hm hcur
      (State.mem_changeRequest_self hr fun q => { q with missingGlyph := true }) (List.getElem?_eq_some_iff.1 hit).1

theorem Core.startItem (h : Core [] s) (hcur : s.gen.current = some r.tag) (hr : r ∈ s.queue.requests) {it : Item}
    (hit : r.items[r.progress.item]? = some it) (hplace : r.progress.place = .itemStart) :
    Placed (s.startItem r it) := by
  obtain ⟨it', hit', hfits⟩ := (h.gen.place r hr hcur).item
  rw [hplace] at hfits
  have hfree : s.gen.latch = none ∧ s.gen.waiting = none := by
    simpa [placeFits] using hfits
  have hv : Tallied [] (s.withValues (s.readValues r)) := h.toTallied.withGen rfl
  have hitem : r.progress.item < r.items.length := (List.getElem?_eq_some_iff.1 hit).1
  have cursor : ∀ x y : Int, Placed (((s.withValues (s.readValues r)).setViewport r.viewport
      { s.viewport r.viewport with cx := x, cy := y }).finishItem r.tag) := fun x y =>
    have hk := recordKeeps_setCursor (s.withValues (s.readValues r)) ⟨r, hr, rfl⟩ x y
    Tallied.finishItem (hv.record hk hv.queue hv.heldQueued) hcur hr hitem
  rw [State.startItem_eq]
  cases it with
  | cursor x y => exact cursor x y
  | newline rows => exact cursor 0 _
  | text font start codes => exact hv.startText hcur hr hit hfree.1 hfree.2 rfl font start
  | dot | line | box | image | clear => exact hv.startGraphic hcur hr hit rfl hfree.1 hfree.2 rfl _

/-! ### Starting a glyph (R79 to R82) -/

theorem Core.startGlyph (h : Core [] s) (hcur : s.gen.current = some r.tag) (hr : r ∈ s.queue.requests)
    {font : Nat} {start : Option (Int × Int)} {codes : List Nat} {i : Nat}
    (hit : r.items[r.progress.item]? = some (.text font start codes)) (hplace : r.progress.place = .glyphStart i)
    (v : ItemValues) : Placed (s.startGlyph r v font codes i) := by
  obtain ⟨it', hit', hfits⟩ := (h.gen.place r hr hcur).item
  obtain rfl := Option.some.inj (hit'.symm.trans hit)
  rw [hplace] at hfits
  obtain ⟨⟨⟨hi, -⟩, hvalues⟩, hwait⟩ : ((i < codes.length ∧ s.gen.latch = none) ∧ s.gen.values.isSome = true) ∧
      s.gen.waiting = none := by simpa [placeFits] using hfits
  unfold State.startGlyph
  split
  · have hm : Tallied [] (s.changeRequest r.tag fun q => { q with missingGlyph := true }) :=
      h.mark hcur (fun _ => ⟨rfl, rfl⟩) fun _ => ⟨rfl, rfl, rfl, rfl, rfl, rfl⟩
    exact Tallied.nextCode (r := { r with missingGlyph := true }) hm hcur
      (State.mem_changeRequest_self hr fun q => { q with missingGlyph := true }) hit hvalues i
  · dsimp only
    generalize wrapsBefore v (s.viewport r.viewport) _ = wraps
    generalize (if wraps = true then (0 : Int) else _) = x
    generalize (if wraps = true then _ else (s.viewport r.viewport).cy) = y
    generalize Latch.mk _ _ _ _ = l
    have hm : Tallied [] (s.changeRequest r.tag fun q => { q with clipped := q.clipped || l.isClipped v.rect x y }) :=
      h.mark hcur (fun _ => ⟨rfl, rfl⟩) fun _ => ⟨rfl, rfl, rfl, rfl, rfl, rfl⟩
    have hmem := State.mem_changeRequest_self hr fun q =>
      { q with clipped := q.clipped || l.isClipped v.rect x y }
    split
    · exact Tallied.endCell (r := { r with clipped := r.clipped || l.isClipped v.rect x y }) hm hcur hmem hit hvalues
        i l wraps
    next t hfirst =>
      refine Tallied.placed (r := { r with clipped := r.clipped || l.isClipped v.rect x y })
        (hm.withGen (g := { s.gen with latch := some l }) rfl) hmem hcur (.cell i x y wraps t) hit
        (by simp [placeFits, hi, hvalues]) hwait fun u hu => ?_
      cases hu
      split at hfirst
      · cases hfirst
      · exact firstStrip_inside hfirst

/-! ### The generator's next event -/

/-- One event of the generator leaves it where it stays until the next. -/
theorem Drawn.generatorEvent (h : Drawn s) : Drawn s.generatorEvent := by
  unfold State.generatorEvent
  split
  next r hr hwait =>
    obtain ⟨hmem, hcur⟩ := State.currentRequest_some hr
    split
    next hit hplace => exact (h.startItem hcur hmem hit hplace).drawn
    next hit _ hplace => exact (h.startGlyph hcur hmem hit hplace _).drawn
    next hit _ hplace => exact h.examine hcur hmem hit _ (by rw [hplace]; rfl)
    next hit _ hplace => exact h.examine hcur hmem hit _ (by rw [hplace]; rfl)
    next => exact h
  next => exact h

end Sys2Proof.Machine
end

