-- ==== Sys2Proof/Proofs/Phases.lean ====
section
/-!
SUPPORT. Settled requests, the touch block beside the driver, the entry to HELD, the start of phases, and the driver's
arbiter: each leaves the unit steady (R29, R30, R108 to R112, R118 to R120).
-/

-- One proof at a time: side by side, the proofs' threads reserve more memory than the check allows.
set_option Elab.async false

namespace Sys2Proof.Machine

/-! ### Settling (R29, R30) -/

/-- Removing a tag's records after the change of the record under that tag. -/
theorem filter_map_change (l : List Request) (t : Nat) {f : Request → Request} (hf : ∀ r, (f r).tag = r.tag) :
    ((l.map fun r => if r.tag == t then f r else r).filter fun r => r.tag != t) = l.filter fun r => r.tag != t := by
  induction l with
  | nil => rfl
  | cons r l ih =>
    rw [List.map_cons, List.filter_cons, List.filter_cons, ih]
    by_cases e : r.tag = t
    · simp [e, hf]
    · simp [e]

variable {s : State}

/-- One operation of a tag is settled. -/
theorem State.load_cons (s : State) (t : Nat) (owed : List Nat) (c : Nat) :
    s.load (t :: owed) c = s.load owed c + if c = t then 1 else 0 := by
  simp only [State.load, List.count_cons, beq_iff_eq, Nat.add_assoc, eq_comm (a := t)]

/-- A DRAINING request with nothing left in flight leaves. -/
theorem QueueSound.drained {q : RequestQueue} {current : Option Nat} {load load' : Nat → Nat}
    (h : QueueSound q current load) {r : Request} (hr : r ∈ q.requests) (hd : r.state = .draining)
    (hother : ∀ c, c ≠ r.tag → load' c = load c) (hzero : load' r.tag = 0) :
    QueueSound { q with requests := q.requests.filter fun q => q.tag != r.tag } current load' := by
  refine h.filter (fun p hp hk => ?_) (fun p hp _ => h.rastering p hp) (fun c hc => ?_) fun c hc => ?_
  · rw [hother p.tag (by simpa using hk)]
    exact h.each p hp
  · obtain ⟨p, hp, rfl⟩ := h.named c hc
    refine ⟨p, hp, ?_, rfl⟩
    simp only [bne_iff_ne, ne_eq]
    intro e
    have := (h.rastering p hp).2 hc
    rw [h.unique hp hr e, hd] at this
    cases this
  · have hne : c ≠ r.tag := fun e => by rw [e, hzero] at hc; cases hc
    obtain ⟨p, hp, rfl, hs⟩ := h.working c (hother c hne ▸ hc)
    exact ⟨p, hp, by simpa using hne, rfl, hs⟩

/-- One operation that is gone is settled with its request (R30). -/
theorem Tallied.settleOne {t : Nat} {owed : List Nat} (h : Tallied (t :: owed) s) : Tallied owed (s.settleOne t) := by
  obtain ⟨r, hr, rfl, hs⟩ := h.queue.working t (by simp [State.load_cons])
  have hload : s.load (r.tag :: owed) r.tag = s.load owed r.tag + 1 := by simp [State.load_cons]
  have hother : ∀ c, c ≠ r.tag → s.load owed c = s.load (r.tag :: owed) c := fun c hc => by simp [State.load_cons, hc]
  have hout : r.outstanding = s.load owed r.tag + 1 := (h.queue.each r hr).outstanding.trans hload
  refine h.record (recordKeeps_settleOne s r.tag) ?_ fun hd => absurd (h.heldQueued hd r hr) hs
  unfold State.settleOne
  rw [h.queue.request hr]
  dsimp only
  split
  next hd =>
    rw [State.leave_queue, State.leave_gen, State.changeRequest_queue]
    dsimp only
    rw [filter_map_change _ _ (f := fun r => { r with outstanding := r.outstanding - 1 }) fun _ => rfl]
    exact h.queue.drained hr hd.1 hother (by omega)
  next hd =>
    refine h.queue.change r.tag (f := fun r => { r with outstanding := r.outstanding - 1 }) (fun _ => rfl)
      (fun _ => rfl) (fun _ => rfl) hother (fun p hp e => ?_) fun _ => ⟨r, hr, rfl, hs⟩
    obtain rfl := h.queue.unique hp hr e
    obtain ⟨htag, hitems, -, hitem, hdone, -, -⟩ := h.queue.each p hp
    exact ⟨htag, hitems, by simp [hout], hitem, hdone, fun e' => absurd e' hs,
      fun e' => Nat.pos_of_ne_zero fun e0 => hd ⟨e', e0⟩⟩

/-- The records after a settled operation are those before, outstanding counts aside. -/
theorem State.mem_settleOne {t : Nat} {q : Request} (hq : q ∈ (s.settleOne t).queue.requests) :
    ∃ r ∈ s.queue.requests, q = r ∨ q = { r with outstanding := r.outstanding - 1 } := by
  unfold State.settleOne at hq
  split at hq
  · exact ⟨q, hq, .inl rfl⟩
  · have hmem : q ∈ (s.changeRequest t fun r => { r with outstanding := r.outstanding - 1 }).queue.requests := by
      dsimp only at hq
      split at hq
      · rw [State.leave_queue] at hq
        exact (List.mem_filter.1 hq).1
      · exact hq
    obtain ⟨r, hr, rfl⟩ := State.mem_changeRequest.1 hmem
    refine ⟨r, hr, ?_⟩
    split
    · exact .inr rfl
    · exact .inl rfl

theorem Core.settleOne {t : Nat} {owed : List Nat} (h : Core (t :: owed) s) : Core owed (s.settleOne t) where
  toTallied := h.toTallied.settleOne
  gen := by
    refine ⟨by rw [State.settleOne_gen]; exact h.gen.free, fun q hq hc => ?_⟩
    rw [State.settleOne_gen] at hc ⊢
    rw [State.settleOne_settings]
    obtain ⟨r, hr, rfl | rfl⟩ := State.mem_settleOne hq
    · exact h.gen.place _ hr hc
    · have hp := h.gen.place r hr hc
      exact ⟨hp.item, hp.inside, hp.waiting⟩

theorem chosen_settleOne (h : Chosen s) (t : Nat) : Chosen (s.settleOne t) := by
  intro hc hd q hq
  rw [State.settleOne_gen] at hc
  rw [State.settleOne_driver] at hd
  obtain ⟨r, hr, rfl | rfl⟩ := State.mem_settleOne hq
  · exact h hc hd _ hr
  · exact h hc hd r hr

/-- Every operation that is gone is settled, one after another. -/
theorem Core.settleAll {l : List RingOp} (h : Core (l.map (·.tag)) s) (hc : Chosen s) :
    Core [] (l.foldl (fun u o => u.settleOne o.tag) s) ∧ Chosen (l.foldl (fun u o => u.settleOne o.tag) s) := by
  induction l generalizing s with
  | nil => exact ⟨h, hc⟩
  | cons o l ih => exact ih h.settleOne (chosen_settleOne hc _)

/-! ### The touch block beside the driver (R142, R143, R150) -/

/-- The touch block is sound whatever happens to other blocks, as long as settings, pulse and echo pool agree. -/
theorem TouchSound.congr {t : State} (h : TouchSound s) (htouch : t.touch = s.touch) (hset : t.settings = s.settings)
    (hpulse : t.pulseInProgress = s.pulseInProgress) (hecho : (t.pool .echo).length ≤ (s.pool .echo).length) :
    TouchSound t := by
  obtain ⟨hvoided, hx, hy, hbeams, hcounter, hcontact, hdue, hscan⟩ := h
  simp only [TouchSound, State.scannerFits, htouch, hset, hpulse]
  exact ⟨hvoided, hx, hy, hbeams, hcounter, hcontact, fun e => hecho.trans (hdue e), hscan⟩

theorem DrawKeeps.touchSound {t : State} (k : DrawKeeps s t) (h : TouchSound s) : TouchSound t :=
  h.congr k.touch k.settings (by rw [State.pulseInProgress, k.driverFields.1]; rfl) k.echoes

/-- The scanner is put in another state that fits. -/
theorem TouchSound.scanner {t : State} (h : TouchSound s) {x : Scanner}
    (htouch : t.touch = { s.touch with scanner := x })
    (hecho : (t.pool .echo).length ≤ (s.pool .echo).length) (hfits : t.scannerFits = true) : TouchSound t := by
  obtain ⟨hvoided, hx, hy, hbeams, hcounter, hcontact, hdue, -⟩ := h
  simp only [TouchSound, hfits, htouch, and_true]
  exact ⟨hvoided, hx, hy, hbeams, hcounter, hcontact, fun e => hecho.trans (hdue e)⟩

/-- The pulse in progress, if any, is over (R143). -/
theorem TouchSound.afterPulse {t : State} (h : TouchSound s)
    (htouch : t.touch = { s.touch with scanner := s.touch.scanner.afterPulse s.settings.scanPeriod })
    (hset : t.settings = s.settings) (hpulse : t.driver.state ≠ .pulse)
    (hecho : (t.pool .echo).length ≤ (s.pool .echo).length) : TouchSound t := by
  have hfits := h.2.2.2.2.2.2.2
  refine h.scanner htouch hecho ?_
  have hp : t.pulseInProgress = false := by simpa [State.pulseInProgress] using hpulse
  cases hsc : s.touch.scanner <;> simp_all [State.scannerFits, Scanner.afterPulse]

/-! ### The unit between two commands -/

/-- An IDLE driver has nothing ready to take (R108). -/
abbrev Settled (s : State) : Prop := s.driver.state = .idle → s.ring = [] ∧ s.sweep.slot = none

/-- No overcurrent input is high beside a pulse (R119). -/
abbrev Calm (s : State) : Prop := s.driver.state = .pulse → s.ocin = false

/-- The unit outside reset between two commands. -/
structure Steady (s : State) : Prop extends Drawn s where
  settled : Settled s
  calm : Calm s
  touch : TouchSound s

/-! ### The entry to HELD (R120) -/

/-- With an empty ring and an empty hand nothing is in flight. -/
theorem State.load_nothing (hring : s.ring = []) (hhand : s.driver.hand = none) (c : Nat) : s.load [] c = 0 := by
  simp [State.load, State.inFlight, State.handTag, hring, hhand]

/-- The dead-dot table's dots stay UNKNOWN while dots are lost (R5, R6, R9). -/
theorem deadSound_lost (h : DeadSound s) (him : ImageSound s.image) (t : Strip) (m : Mask) (ops : List RingOp) :
    DeadSound { s with image := loseOps (loseDots s.image t m) ops } := by
  obtain ⟨hlen, hnodup, hall⟩ := h
  exact ⟨hlen, hnodup, fun d hd => ⟨(hall d hd).1, (hall d hd).2.1,
    imageDot_loseOps_unknown (imageWf_loseDots him.1 _ _) _ (imageDot_loseDots_unknown him.1 _ _ (hall d hd).2.2)⟩⟩

theorem Core.heldWith {owed : List Nat} (h : Core owed s) (hd : Hand) : Core [] (s.heldWith hd) where
  queue := h.queue.onlyQueued.congr_load fun c => State.load_nothing rfl rfl c
  driver := by
    refine ⟨fun o ho => absurd ho List.not_mem_nil, Nat.zero_le _, fun _ e => (nomatch e), ?_, fun _ => rfl,
      fun _ e => (nomatch e), ?_, Nat.zero_le _, h.driver.level⟩
    · simp [State.heldWith]
    · exact deadSound_lost h.driver.dead h.image _ _ _
  heldQueued _ r hr := by simpa using (List.mem_filter.1 hr).2
  image := imageSound_loseOps (imageSound_loseDots h.image _ _) _
  settings := h.settings
  gen := ⟨fun _ => rfl, fun _ _ e => (nomatch e)⟩

theorem Core.enterHeld {owed : List Nat} (h : Core owed s) {hd : Hand} (hh : s.driver.hand = some hd)
    (ht : TouchSound s) : Steady s.enterHeld := by
  rw [State.enterHeld_eq hh h.queue.tags]
  exact ⟨⟨h.heldWith hd, fun _ e => absurd rfl e, fun e => absurd rfl e⟩, fun e => (nomatch e), fun e => (nomatch e),
    ht.afterPulse rfl rfl (fun e => (nomatch e)) (List.filter_sublist.filter _).length_le⟩

/-! ### The hand's record (R106, R110) -/

/-- The tag of an operation in hand; a sweep operation has none. -/
def Hand.tag (h : Hand) : Option Nat :=
  match h.source with
  | .ring tag => some tag
  | .sweep => none

theorem State.handTag_eq (s : State) : s.handTag = s.driver.hand.bind Hand.tag := by
  unfold State.handTag
  rcases s.driver.hand with _ | ⟨src, op, ph, a, b⟩
  · rfl
  · cases src <;> rfl

/-- What is in flight or not settled, in terms of ring and hand. -/
theorem State.load_eq (s : State) (owed : List Nat) (c : Nat) :
    s.load owed c =
      ((s.ring.filter fun o => o.tag == c).length + if s.driver.hand.bind Hand.tag = some c then 1 else 0) +
        owed.count c := by
  rw [State.load, State.inFlight, State.handTag_eq]

/-- The phase in hand is marked. -/
theorem Hand.mark_eq (h : Hand) (st : PhaseStatus) :
    (h.mark st).op = h.op ∧ (h.mark st).source = h.source ∧ (h.mark st).phase = h.phase := by
  unfold Hand.mark
  cases h.phase <;> exact ⟨rfl, rfl, rfl⟩

/-- The dots to come are those of the phases that are not begun or pulsing. -/
theorem Hand.toCome_iff (h : Hand) (p : Nat) :
    h.toCome.getLsbD p = true ↔
      (h.setStatus = .notBegun ∨ h.setStatus = .pulsing) ∧ h.op.setMask.getLsbD p = true ∨
        (h.clearStatus = .notBegun ∨ h.clearStatus = .pulsing) ∧ h.op.clearMask.getLsbD p = true := by
  have gate : ∀ (c : Prop) [Decidable c] (m : Mask),
      (if c then m else 0).getLsbD p = true ↔ c ∧ m.getLsbD p = true := fun c _ m => by
    by_cases hc : c <;> simp [hc]
  rw [Hand.toCome, BitVec.getLsbD_or, Bool.or_eq_true, gate, gate]

/-- The phase in hand is to come or pulsing, and stays in the record when it pulses or completes (R106). -/
theorem HandFits.mark {c : Settings} {dead : List DeadDot} {d d' : DriverState} {h : Hand} {st : PhaseStatus}
    (hf : HandFits c dead d h) (hd : d = .waitCharge ∨ d = .pulse) (hd' : d'.phaseStatus = some st)
    (hst : st = .pulsing ∨ st = .completed) : HandFits c dead d' (h.mark st) := by
  obtain ⟨hop, ⟨hset, hclear, hphase, hfirst, hsecond⟩, hlive⟩ := hf
  obtain ⟨src, op, phase, a, b⟩ := h
  have hstatus : (Hand.mk src op phase a b).status phase = .notBegun ∨
      (Hand.mk src op phase a b).status phase = .pulsing := by
    rcases hd with rfl | rfl
    · exact .inl (Option.some.inj hphase).symm
    · exact .inr (Option.some.inj hphase).symm
  refine ⟨by rw [(Hand.mark_eq _ st).1]; exact hop, ?_, fun p hp hm => ?_⟩
  · cases phase <;> rcases hstatus with e | e <;> rcases hst with rfl | rfl <;>
      simp_all [HandSound, Hand.mark, Hand.status]
  · rw [(Hand.mark_eq _ st).1]
    refine hlive p hp ?_
    rw [Hand.toCome_iff] at hm ⊢
    cases phase with
    | set => exact hm.imp_left fun hm => ⟨hstatus, hm.2⟩
    | clear => exact hm.imp_right fun hm => ⟨hstatus, hm.2⟩

/-- The driver goes on with the operation in hand: only its record, the charge and the scanner change. -/
theorem Core.setDriver {owed : List Nat} (h : Core owed s) {hd hd' : Hand} (hh : s.driver.hand = some hd)
    {d : Driver} {c : Charge} {x : Touch} (hh' : d.hand = some hd') (hsource : hd'.source = hd.source)
    (hop : hd'.op = hd.op) (hpass : d.passOver = s.driver.passOver) (hlevel : c.level ≤ Config.chargeMax)
    (hfits : HandFits s.settings s.dead d.state hd') :
    Core owed { s with driver := d, charge := c, touch := x } := by
  have hstate : d.state ≠ .idle ∧ d.state ≠ .held := by
    have hphase := hfits.record.2.2.1
    constructor <;> intro e <;> rw [e] at hphase <;> cases hphase
  refine ⟨⟨?_, ?_, fun e => absurd e hstate.2, h.image, h.settings⟩, ⟨h.gen.free, h.gen.place⟩⟩
  · refine h.queue.congr_load fun c => ?_
    rw [State.load_eq, State.load_eq, hh]
    dsimp only
    rw [hh', Option.bind_some, Option.bind_some, Hand.tag, Hand.tag, hsource]
  · refine ⟨h.driver.ring, h.driver.ringSize, fun _ e => ?_, ?_, fun e => hpass.trans (h.driver.slotEmpty e),
      fun w hw => ?_, h.driver.dead, by simpa [hpass] using h.driver.passOver, hlevel⟩
    · obtain rfl := Option.some.inj (hh'.symm.trans e)
      exact hfits
    · simp [hh', hstate.1, hstate.2]
    · obtain ⟨hwop, hcopy, hnames, -⟩ := h.driver.slot w hw
      refine ⟨hwop, hcopy, ?_, hstate.2⟩
      simp only [State.namesStrip, hh, hh', hop] at hnames ⊢
      exact hnames

/-! ### The start of a phase (R111, R112, R118, R119) -/

/-- A scanner that sees a pulse (R112). -/
def Scanner.seePulse : Scanner → Scanner
  | .scanning sc => .scanning { sc with sawPulse := true }
  | .quiet sc => .quiet { sc with sawPulse := true }
  | x => x

/-- The unit with the phase in hand pulsing (R112). -/
def State.pulsing (s : State) (h : Hand) : State :=
  { s with
    charge := { s.charge with level := s.charge.level - h.need }
    driver :=
      { s.driver with
        state := .pulse
        hand := some (h.mark .pulsing)
        pulseLength := some s.settings.pulseLength
        phaseGap := some s.settings.phaseGap }
    touch := { s.touch with scanner := s.touch.scanner.seePulse } }

theorem State.startPhase_eq (s : State) (h : Hand) :
    s.startPhase h = if s.ocin then (s.pulsing h).enterHeld else s.pulsing h := by
  have hnote : ∀ u : State, u.notePulse = { u with touch := { u.touch with scanner := u.touch.scanner.seePulse } } :=
    fun u => by
      unfold State.notePulse Scanner.seePulse
      cases hsc : u.touch.scanner <;> simp only [← hsc]
  unfold State.startPhase
  simp only [hnote]
  rfl

theorem Drawn.startPhase (h : Drawn s) (ht : TouchSound s) {hd : Hand} (hh : s.driver.hand = some hd)
    (hwait : s.driver.state = .waitCharge) (hquiet : s.quietPending = false) : Steady (s.startPhase hd) := by
  have hfits := (h.driver.hand hd hh).mark (d' := .pulse) (.inl hwait) rfl (.inl rfl)
  have hmark := Hand.mark_eq hd .pulsing
  have hcore : Core [] (s.pulsing hd) :=
    h.toCore.setDriver hh rfl hmark.2.1 hmark.1 rfl ((Nat.sub_le _ _).trans h.driver.level) hfits
  have htouch : TouchSound (s.pulsing hd) := by
    have hscan := ht.2.2.2.2.2.2.2
    refine ht.scanner rfl le_rfl ?_
    cases hsc : s.touch.scanner <;>
      simp_all [State.scannerFits, State.pulsing, Scanner.seePulse, State.quietPending]
  rw [State.startPhase_eq]
  split
  · exact hcore.enterHeld rfl htouch
  next hocin =>
    refine ⟨⟨hcore, fun hc _ => h.chosen hc (by rw [hwait]; decide), h.waits⟩, fun e => (nomatch e),
      fun _ => Bool.not_eq_true _ ▸ hocin, htouch⟩

theorem Drawn.tryPhase (h : Drawn s) (ht : TouchSound s) (hwait : s.driver.state = .waitCharge) : Steady s.tryPhase := by
  unfold State.tryPhase
  split
  next hnone =>
    have := h.driver.handState.2 hnone
    rw [hwait] at this
    rcases this with e | e <;> cases e
  next hd hh =>
    split
    next hready => exact h.startPhase ht hh hwait hready.2
    next =>
      have : s.driverState .waitCharge = s := by rw [State.driverState, ← hwait]
      rw [this]
      exact ⟨h, fun e => (nomatch hwait.symm.trans e), fun e => (nomatch hwait.symm.trans e), ht⟩

theorem Steady.retryPhase (h : Steady s) : Steady s.retryPhase := by
  unfold State.retryPhase
  split
  next hwait => exact h.toDrawn.tryPhase h.touch hwait
  next => exact h

/-! ### Taking an operation (R108 to R110) -/

/-- The dots of a taken operation that are to come are those it names. -/
theorem handOf_toCome (source : HandSource) (op : StripOp) {p : Nat} (h : (handOf source op).toCome.getLsbD p = true) :
    op.named.getLsbD p = true := by
  rw [StripOp.named, BitVec.getLsbD_or, Bool.or_eq_true]
  exact ((Hand.toCome_iff _ p).1 h).imp And.right And.right

/-- The hand of an operation that has just been taken (R110). -/
theorem handFits_handOf {c : Settings} {dead : List DeadDot} {op : StripOp} (h : OpLive c dead op)
    (source : HandSource) : HandFits c dead .waitCharge (handOf source op) where
  op := h.sound
  record := by
    have hne : ¬(op.setMask = 0 ∧ op.clearMask = 0) := fun e => by
      have := h.sound.2.1
      rw [(StripOp.isEmpty_iff op).2 e] at this
      cases this
    by_cases hset : op.setMask = 0 <;> by_cases hclear : op.clearMask = 0 <;>
      simp_all [HandSound, handOf, takenStatus, Hand.status, DriverState.phaseStatus]
  live p hp hm := h.live p hp (handOf_toCome source op hm)

/-- The unit with the ring head in hand. -/
theorem Drawn.ringTaken (h : Drawn s) (hidle : s.driver.state = .idle) {o : RingOp} {rest : List RingOp}
    (hring : s.ring = o :: rest) {n : Nat} (hn : n ≤ Config.passOverMax) (hslot : s.sweep.slot = none → n = 0) :
    Core [] { s with
      ring := rest
      driver := { s.driver with state := .waitCharge, hand := some (handOf (.ring o.tag) o.op), passOver := n } } := by
  have hnone : s.driver.hand = none := h.driver.handState.1 (.inl hidle)
  have hlive := h.driver.ring o (by rw [hring]; exact List.mem_cons_self)
  refine ⟨⟨h.queue.congr_load fun c => ?_, ?_, fun e => (nomatch e), h.image, h.settings⟩, ⟨h.gen.free, h.gen.place⟩⟩
  · rw [State.load_eq, State.load_eq, hnone, hring]
    simp only [Option.bind_some, Option.bind_none, Hand.tag, handOf, List.filter_cons, beq_iff_eq, Option.some.injEq]
    split <;> simp
  · refine ⟨fun q hq => h.driver.ring q (by rw [hring]; exact List.mem_cons_of_mem _ hq), ?_, fun _ e => ?_, ?_, hslot,
      fun w hw => ?_, h.driver.dead, hn, h.driver.level⟩
    · have := h.driver.ringSize
      rw [hring] at this
      exact (Nat.le_succ _).trans this
    · obtain rfl := Option.some.inj e
      exact handFits_handOf hlive _
    · simp
    · obtain ⟨hwop, hcopy, hnames, -⟩ := h.driver.slot w hw
      refine ⟨hwop, hcopy, ?_, fun e => (nomatch e)⟩
      rw [State.namesStrip, hring, hnone, List.any_cons, Bool.or_false] at hnames
      rw [← hnames, State.namesStrip, Bool.or_comm]
      rfl

theorem Drawn.takeRing (h : Drawn s) (ht : TouchSound s) (hidle : s.driver.state = .idle) {o : RingOp}
    {rest : List RingOp} (hring : s.ring = o :: rest) {n : Nat} (hn : n ≤ Config.passOverMax)
    (hslot : s.sweep.slot = none → n = 0) : Steady (s.takeRing o rest n) := by
  have hcore := h.ringTaken hidle hring hn hslot
  have hdrawn := hcore.reexamine fun hc _ => h.chosen hc (by rw [hidle]; decide)
  have hk := drawKeeps_reexamine { s with
    ring := rest
    driver := { s.driver with state := .waitCharge, hand := some (handOf (.ring o.tag) o.op), passOver := n } }
  refine hdrawn.tryPhase (hk.touchSound (ht.congr rfl rfl ?_ le_rfl)) (by rw [hk.driverFields.1])
  simp [State.pulseInProgress, hidle]

/-- A faithful copy of the image names no recorded dead dot (R9, R131). -/
theorem sweepOp_live (h : DeadSound s) (t : Strip) : AllLive s.dead t (sweepOp s.image t).named := by
  intro p hp hm
  by_contra hrec
  have hrec : recorded s.dead t.col (t.rowOf p) = true := by simpa using hrec
  obtain ⟨d, hd, hxy⟩ := List.any_eq_true.1 hrec
  obtain ⟨hx, hy⟩ : d.x = t.col ∧ d.y = t.rowOf p := by simpa using hxy
  have hu := (h.2.2 d hd).2.2
  rw [hx, hy, imageDot_rowOf _ _ (List.mem_range.1 hp), StripImage.dot_eq_unknown] at hu
  simp [sweepOp, StripOp.named, hu.1, hu.2] at hm

theorem Drawn.takeSweep (h : Drawn s) (ht : TouchSound s) (hidle : s.driver.state = .idle) {w : StripOp}
    (hw : s.sweep.slot = some w) : Steady (s.takeSweep w) := by
  have hnone : s.driver.hand = none := h.driver.handState.1 (.inl hidle)
  obtain ⟨hwop, hcopy, -, -⟩ := h.driver.slot w hw
  have hlive : OpLive s.settings s.dead w := ⟨hwop, by rw [hcopy]; exact sweepOp_live h.driver.dead w.strip⟩
  have hcore : Core [] { s with
      sweep := { s.sweep with slot := none }
      driver := { s.driver with state := .waitCharge, hand := some (handOf .sweep w), passOver := 0 } } := by
    refine ⟨⟨h.queue.congr_load fun c => ?_, ?_, fun e => (nomatch e), h.image, h.settings⟩,
      ⟨h.gen.free, h.gen.place⟩⟩
    · rw [State.load_eq, State.load_eq, hnone]
      rfl
    · refine ⟨h.driver.ring, h.driver.ringSize, fun _ e => ?_, by simp, fun _ => rfl, fun _ e => (nomatch e),
        h.driver.dead, Nat.zero_le _, h.driver.level⟩
      obtain rfl := Option.some.inj e
      exact handFits_handOf hlive _
  have hdrawn : Drawn _ := ⟨hcore, fun hc _ => h.chosen hc (by rw [hidle]; decide), h.waits⟩
  exact hdrawn.tryPhase (ht.congr rfl rfl (by simp [State.pulseInProgress, hidle]) le_rfl) rfl

/-- The driver's arbiter leaves an IDLE driver with nothing ready to take. -/
theorem Drawn.driverArbiter (h : Drawn s) (hcalm : Calm s) (ht : TouchSound s) : Steady s.driverArbiter := by
  unfold State.driverArbiter
  split
  next hidle =>
    split
    next hring hslot => exact ⟨h, fun _ => ⟨hring, hslot⟩, hcalm, ht⟩
    next hring hslot => exact h.takeRing ht hidle hring h.driver.passOver fun e => h.driver.slotEmpty e
    next hslot => exact h.takeSweep ht hidle hslot
    next hring hslot =>
      split
      next hn => exact h.takeRing ht hidle hring hn fun e => (nomatch hslot.symm.trans e)
      next => exact h.takeSweep ht hidle hslot
  next hbusy => exact ⟨h, fun e => absurd e hbusy, hcalm, ht⟩

/-! ### The ends of an operation and of a gap (R114, R115) -/

/-- With the hand emptied, the operation that was in it is still to settle. -/
theorem Core.handEmptied (h : Core [] s) {hd : Hand} (hh : s.driver.hand = some hd) :
    Core (match hd.source with
      | .ring tag => [tag]
      | .sweep => []) { s with driver := { s.driver with state := .idle, hand := none } } := by
  have hnotHeld : s.driver.state ≠ .held := fun e => by
    rw [h.driver.handState.1 (.inr e)] at hh
    cases hh
  refine ⟨⟨h.queue.congr_load fun c => ?_, ?_, fun e => (nomatch e), h.image, h.settings⟩, ⟨h.gen.free, h.gen.place⟩⟩
  · obtain ⟨src, op, ph, a, b⟩ := hd
    rw [State.load_eq, State.load_eq, hh]
    cases src <;> simp [Hand.tag, List.count_singleton]
  · refine ⟨h.driver.ring, h.driver.ringSize, fun _ e => (nomatch e), by simp, h.driver.slotEmpty, fun w hw => ?_,
      h.driver.dead, h.driver.passOver, h.driver.level⟩
    obtain ⟨hwop, hcopy, hnames, -⟩ := h.driver.slot w hw
    refine ⟨hwop, hcopy, ?_, fun e => (nomatch e)⟩
    simp only [State.namesStrip, Bool.or_eq_false_iff] at hnames ⊢
    exact ⟨hnames.1, trivial⟩

theorem Drawn.completeOp (h : Drawn s) (ht : TouchSound s) (hgap : s.driver.state = .gap) {hd : Hand}
    (hh : s.driver.hand = some hd) : Steady (s.completeOp hd) := by
  have hcore := h.toCore.handEmptied hh
  have hchosen : Chosen { s with driver := { s.driver with state := .idle, hand := none } } :=
    fun hc _ => h.chosen hc (by rw [hgap]; decide)
  have htouch : TouchSound { s with driver := { s.driver with state := .idle, hand := none } } :=
    ht.congr rfl rfl (by simp [State.pulseInProgress, hgap]) le_rfl
  unfold State.completeOp
  dsimp only
  split
  next tag hs =>
    rw [hs] at hcore
    have hk := recordKeeps_settleOne { s with driver := { s.driver with state := .idle, hand := none } } tag
    refine Drawn.driverArbiter ⟨hcore.settleOne, chosen_settleOne hchosen tag, fun e => ?_⟩ (fun e => ?_)
      (hk.draw.touchSound htouch)
    · rw [State.settleOne_gen] at e
      rw [State.settleOne_ring]
      exact h.waits e
    · rw [State.settleOne_driver] at e
      cases e
  next hs =>
    rw [hs] at hcore
    exact Drawn.driverArbiter ⟨hcore, hchosen, h.waits⟩ (fun e => (nomatch e)) htouch

/-- A phase is tried from any state: the state is set by the trial. -/
theorem State.tryPhase_waitCharge {h : Hand} (hh : s.driver.hand = some h) :
    (s.driverState .waitCharge).tryPhase = s.tryPhase := by
  unfold State.tryPhase
  simp only [State.driverState_driver, hh]
  rfl

/-- The clear phase of a hand whose set phase has completed (R114). -/
theorem HandFits.clearPhase {c : Settings} {dead : List DeadDot} {h : Hand} (hf : HandFits c dead .gap h)
    (hclear : h.clearStatus = .notBegun) : HandFits c dead .waitCharge { h with phase := .clear } := by
  obtain ⟨hop, ⟨hset, hclr, hphase, hfirst, hsecond⟩, hlive⟩ := hf
  refine ⟨hop, ⟨hset, hclr, congrArg some hclear.symm, fun e => (nomatch e), fun _ => ?_⟩, hlive⟩
  cases hp : h.phase with
  | set =>
    rw [hp] at hphase
    exact .inr (Option.some.inj hphase).symm
  | clear =>
    exact hsecond hp

theorem Drawn.gapEnds (h : Drawn s) (ht : TouchSound s) (hgap : s.driver.state = .gap) : Steady s.gapEnds := by
  unfold State.gapEnds
  split
  next hnone =>
    have := h.driver.handState.2 hnone
    rw [hgap] at this
    rcases this with e | e <;> cases e
  next hd hh =>
    split
    next hclear =>
      have hfits := h.driver.hand hd hh
      rw [hgap] at hfits
      have hcore : Core [] { s with
          driver := { s.driver with state := .waitCharge, hand := some { hd with phase := .clear } } } :=
        h.toCore.setDriver (hd' := { hd with phase := .clear }) (c := s.charge) (x := s.touch) hh rfl rfl rfl rfl
          h.driver.level (hfits.clearPhase hclear)
      rw [← State.tryPhase_waitCharge (h := { hd with phase := .clear }) rfl]
      refine Drawn.tryPhase ⟨hcore, fun hc _ => h.chosen hc (by rw [hgap]; decide), h.waits⟩
        (ht.congr rfl rfl ?_ le_rfl) rfl
      simp [State.pulseInProgress, hgap]
    next => exact h.completeOp ht hgap hh

end Sys2Proof.Machine
end

