-- ==== Sys2Proof/Proofs/Sensing.lean ====
section
/-!
SUPPORT. The end of a pulse keeps the unit steady: a dot found dead takes its place in the table, and ring, slot, image
and requests follow (R8 to R12, R101, R113, R114).
-/

-- One proof at a time: side by side, the proofs' threads reserve more memory than the check allows.
set_option Elab.async false

namespace Sys2Proof.Machine

variable {s : State}

/-! ### The ring through a strike (R101) -/

/-- What is recorded when one dot more is. -/
theorem recorded_append (dead : List DeadDot) (d : DeadDot) (x y : Nat) :
    recorded (dead ++ [d]) x y = (recorded dead x y || (d.x == x && d.y == y)) := by
  simp [recorded, List.any_append]

/-- Two positions of strips are one dot only when strip and position are the same (R1). -/
theorem sameDot {t u : Strip} {p q : Nat} (hp : p < 16) (hq : q < 16) (hcol : t.col = u.col)
    (hrow : t.rowOf p = u.rowOf q) : t = u ∧ p = q := by
  obtain ⟨c, k⟩ := t
  obtain ⟨c', k'⟩ := u
  simp only [Strip.rowOf, Strip.mk.injEq] at *
  omega

/-- A mask that named only live dots names only live dots when one dot more is recorded that it does not name. -/
theorem AllLive.record {dead : List DeadDot} {u t : Strip} {m : Mask} {p : Nat} (h : AllLive dead u m) (hp : p < 16)
    (hnot : u = t → m.getLsbD p = false) (source : SenseSource) :
    AllLive (dead ++ [⟨t.col, t.rowOf p, source⟩]) u m := by
  intro q hq hm
  rw [recorded_append, h q hq hm, Bool.false_or]
  by_contra hsame
  have hsame : t.col = u.col ∧ t.rowOf p = u.rowOf q := by simpa using hsame
  obtain ⟨rfl, rfl⟩ := sameDot hp (List.mem_range.1 hq) hsame.1 hsame.2
  rw [hnot rfl] at hm
  cases hm

/-- An operation that loses a dot keeps the rest of its masks (R101). -/
theorem StripOp.without_sub (op : StripOp) (p : Nat) {q : Nat} (h : (op.without p).named.getLsbD q = true) :
    op.named.getLsbD q = true := by
  simp only [StripOp.without, StripOp.named, BitVec.getLsbD_or, BitVec.getLsbD_and, Bool.or_eq_true,
    Bool.and_eq_true] at h ⊢
  exact h.imp And.left And.left

/-- An operation that a strike leaves in the ring is live when the dot is recorded (R12, R101). -/
theorem OpLive.struck {c : Settings} {dead : List DeadDot} {o o' : RingOp} {t : Strip} {p : Nat}
    (h : OpLive c dead o.op) (hp : p < 16) (ho : o.struck t p = some o') (source : SenseSource) :
    OpLive c (dead ++ [⟨t.col, t.rowOf p, source⟩]) o'.op := by
  have hnames := RingOp.struck_names hp ho
  obtain ⟨hleft, heq⟩ := RingOp.struck_some ho
  have hnot : o'.op.strip = t → o'.op.named.getLsbD p = false := fun e => by
    simpa [RingOp.names, e] using hnames
  cases hn : o.names t p with
  | false =>
    rw [hn] at heq
    obtain rfl : o' = o := by simpa using heq
    exact ⟨h.sound, h.live.record hp hnot source⟩
  | true =>
    rw [hn] at heq hleft
    obtain rfl : o' = ⟨o.tag, o.op.without p⟩ := by simpa using heq
    obtain ⟨hdisj, -, hinside⟩ := h.sound
    have hlive : AllLive dead o.op.strip (o.op.without p).named := fun q hq hm =>
      h.live q hq (o.op.without_sub p hm)
    refine ⟨⟨?_, by simpa using hleft, hinside⟩, hlive.record hp hnot source⟩
    rw [mask_disjoint_iff] at hdisj ⊢
    intro q hq
    simp only [StripOp.without, BitVec.getLsbD_and, Bool.and_eq_true] at hq ⊢
    rw [hdisj q hq.1, Bool.false_and]

/-- A strike leaves each operation's strip and tag. -/
theorem RingOp.struck_kept {o o' : RingOp} {t : Strip} {p : Nat} (ho : o.struck t p = some o') :
    o'.op.strip = o.op.strip ∧ o'.tag = o.tag := by
  obtain ⟨-, rfl⟩ := RingOp.struck_some ho
  split <;> exact ⟨rfl, rfl⟩

/-- Each operation of a tag stays in the ring or is removed (R101). -/
theorem length_struck (ring : List RingOp) (t : Strip) (p c : Nat) :
    ((ring.filterMap fun o => o.struck t p).filter fun o => o.tag == c).length +
        ((struckAway ring t p).map (·.tag)).count c =
      (ring.filter fun o => o.tag == c).length := by
  rw [struckAway_eq]
  induction ring with
  | nil => rfl
  | cons o ring ih =>
    by_cases hgone : o.names t p = true ∧ (o.op.without p).isEmpty = true
    · have hstr : o.struck t p = none := if_pos hgone
      rw [List.filterMap_cons_none (f := fun o => RingOp.struck o t p) hstr,
        List.filter_cons_of_pos (by simpa using hgone), List.map_cons, List.count_cons,
        List.filter_cons]
      simp only [beq_iff_eq]
      split
      next e => simp only [List.length_cons]; omega
      next e => omega
    · obtain ⟨o', hstr⟩ : ∃ o', o.struck t p = some o' := ⟨_, if_neg hgone⟩
      rw [List.filterMap_cons_some (f := fun o => RingOp.struck o t p) hstr,
        List.filter_cons_of_neg (a := o) (by simpa using hgone), List.filter_cons,
        List.filter_cons, (RingOp.struck_kept hstr).2]
      split
      · simp only [List.length_cons]; omega
      · exact ih

/-- A ring from which a strike removes nothing keeps its length. -/
theorem length_struck_none {ring : List RingOp} {t : Strip} {p : Nat}
    (h : ¬∃ o ∈ ring, o.names t p = true ∧ (o.op.without p).isEmpty = true) :
    (ring.filterMap fun o => o.struck t p).length = ring.length := by
  induction ring with
  | nil => rfl
  | cons o ring ih =>
    rw [List.filterMap_cons_some (f := fun o => RingOp.struck o t p) 
      (if_neg fun e => h ⟨o, List.mem_cons_self, e⟩), List.length_cons, List.length_cons,
      ih fun ⟨o', ho', e⟩ => h ⟨o', List.mem_cons_of_mem _ ho', e⟩]

/-! ### A dot found dead (R9 to R12) -/

/-- The sweep's copy of another strip does not see a lost dot. -/
theorem sweepOp_loseDots {im : Image} (him : imageWf im = true) {t u : Strip} (h : u ≠ t) (m : Mask) :
    sweepOp (loseDots im t m) u = sweepOp im u := by
  simp only [sweepOp, loseDots, imageGet_imageSet him, if_neg h.symm]

/-- A slot beside a hand stands for another strip. -/
theorem SlotFits.strip_ne {w : StripOp} (h : SlotFits s w) {hd : Hand} (hh : s.driver.hand = some hd) :
    w.strip ≠ hd.op.strip := fun e => by
  have := h.unnamed
  rw [State.namesStrip, hh, e] at this
  simp at this

/-- The dead-dot table with one dot more (R9, R10). -/
theorem deadSound_record (h : DeadSound s) (him : ImageSound s.image) {t : Strip} {p : Nat} (hp : p < 16)
    (hin : t.inside s.settings.columns s.settings.stripRows = true) (hroom : s.dead.length < Config.deadSize)
    (hnew : recorded s.dead t.col (t.rowOf p) = false) (source : SenseSource) :
    DeadSound (s.recordDead t source p) := by
  obtain ⟨hlen, hnodup, hall⟩ := h
  refine ⟨by simpa [State.recordDead] using hroom, ?_, fun d hd => ?_⟩
  · rw [State.recordDead, List.map_append]
    refine List.nodup_append.2 ⟨hnodup, by simp, fun a ha b hb e => ?_⟩
    obtain ⟨d, hd, rfl⟩ := List.mem_map.1 ha
    have hb : b = (t.col, t.rowOf p) := by simpa using hb
    rw [hb, Prod.mk.injEq] at e
    have : recorded s.dead t.col (t.rowOf p) = true := List.any_eq_true.2 ⟨d, hd, by simp [e.1, e.2]⟩
    rw [hnew] at this
    cases this
  · change _ ∧ _ ∧ imageDot (loseDots s.image t (BitVec.twoPow 16 p)) d.x d.y = _
    rw [imageDot_loseOne him.1 t hp]
    rcases List.mem_append.1 hd with hd | hd
    · obtain ⟨hx, hy, hu⟩ := hall d hd
      exact ⟨hx, hy, by rw [hu, ite_self]⟩
    · obtain rfl := List.mem_singleton.1 hd
      simp only [Strip.inside, Bool.and_eq_true, decide_eq_true_eq] at hin
      refine ⟨hin.1, ?_, if_pos ⟨rfl, rfl⟩⟩
      simp only [Strip.rowOf, State.recordDead]
      omega

/-- The strips named after a strike were named before it. -/
theorem State.namesStrip_struck (t : Strip) (source : SenseSource) (p : Nat) {u : Strip} (h : s.namesStrip u = false) :
    ((s.recordDead t source p).struck t p).namesStrip u = false := by
  rw [State.namesStrip, Bool.or_eq_false_iff] at h ⊢
  refine ⟨List.any_eq_false.2 fun o' ho' => ?_, h.2⟩
  obtain ⟨o, ho, hstr⟩ := List.mem_filterMap.1 ho'
  rw [(RingOp.struck_kept hstr).1]
  exact List.any_eq_false.1 h.1 o ho

theorem DriverFits.struck (h : DriverFits s) (him : ImageSound s.image) {hd : Hand} (hh : s.driver.hand = some hd)
    {p : Nat} (hp : p < 16) (hcome : hd.toCome.getLsbD p = false) (hroom : s.dead.length < Config.deadSize)
    (hnew : recorded s.dead hd.op.strip.col (hd.op.strip.rowOf p) = false) (source : SenseSource) :
    DriverFits ((s.recordDead hd.op.strip source p).struck hd.op.strip p) where
  ring o' ho' := by
    obtain ⟨o, ho, hstr⟩ := List.mem_filterMap.1 ho'
    exact (h.ring o ho).struck hp hstr source
  ringSize := (List.length_filterMap_le _ _).trans h.ringSize
  hand _ e := by
    obtain rfl := Option.some.inj (hh.symm.trans e)
    obtain ⟨hop, hrec, hlive⟩ := h.hand hd hh
    exact ⟨hop, hrec, hlive.record hp (fun _ => hcome) source⟩
  handState := h.handState
  slotEmpty := h.slotEmpty
  slot w hw := by
    have hslot := h.slot w hw
    refine ⟨hslot.op, ?_, State.namesStrip_struck _ source p hslot.unnamed, hslot.notHeld⟩
    change w = sweepOp (loseDots s.image _ _) w.strip
    rw [sweepOp_loseDots him.1 (hslot.strip_ne hh)]
    exact hslot.copy
  dead := deadSound_record h.dead him hp (h.hand hd hh).op.2.2 hroom hnew source
  passOver := h.passOver
  level := h.level

/-- The core after a strike, the removed operations not settled yet. -/
theorem Core.struck (h : Core [] s) {hd : Hand} (hh : s.driver.hand = some hd) (hheld : s.driver.state ≠ .held)
    {p : Nat} (hp : p < 16) (hcome : hd.toCome.getLsbD p = false) (hroom : s.dead.length < Config.deadSize)
    (hnew : recorded s.dead hd.op.strip.col (hd.op.strip.rowOf p) = false) (source : SenseSource) :
    Core ((struckAway s.ring hd.op.strip p).map (·.tag))
      ((s.recordDead hd.op.strip source p).struck hd.op.strip p) where
  queue := by
    have hload : ∀ c, ((s.recordDead hd.op.strip source p).struck hd.op.strip p).load
        ((struckAway s.ring hd.op.strip p).map (·.tag)) c = s.load [] c := fun c => by
      have := length_struck s.ring hd.op.strip p c
      rw [State.load_eq, State.load_eq, ← this]
      exact Nat.add_right_comm _ _ _
    refine QueueSound.congr_load ?_ hload
    refine h.queue.map (fun _ => rfl) (fun _ => rfl) (fun r hr => ?_) h.queue.rastering h.queue.named h.queue.working
    obtain ⟨htag, hitems, hout, hitem, hdone, hq, hdr⟩ := h.queue.each r hr
    exact ⟨htag, hitems, hout, hitem, hdone, hq, hdr⟩
  driver := h.driver.struck h.image hh hp hcome hroom hnew source
  heldQueued e := absurd e hheld
  image := imageSound_loseDots h.image _ _
  settings := h.settings
  gen := by
    refine ⟨h.gen.free, fun q hq hc => ?_⟩
    obtain ⟨r, hr, rfl⟩ := List.mem_map.1 hq
    have hpl := h.gen.place r hr hc
    exact ⟨hpl.item, hpl.inside, hpl.waiting⟩

theorem chosen_struck (h : Chosen s) (t : Strip) (source : SenseSource) (p : Nat) :
    Chosen ((s.recordDead t source p).struck t p) := by
  intro hc hd q hq
  obtain ⟨r, hr, rfl⟩ := List.mem_map.1 hq
  exact h hc hd r hr

/-- A dot is lost while the table is full (R11). -/
theorem Core.lostOne {owed : List Nat} (h : Core owed s) {hd : Hand} (hh : s.driver.hand = some hd) (m : Mask) :
    Core owed { s with image := loseDots s.image hd.op.strip m } where
  queue := h.queue
  driver := by
    refine ⟨h.driver.ring, h.driver.ringSize, h.driver.hand, h.driver.handState, h.driver.slotEmpty, fun w hw => ?_,
      ?_, h.driver.passOver, h.driver.level⟩
    · have hslot := h.driver.slot w hw
      refine ⟨hslot.op, ?_, hslot.unnamed, hslot.notHeld⟩
      rw [sweepOp_loseDots h.image.1 (hslot.strip_ne hh)]
      exact hslot.copy
    · obtain ⟨hlen, hnodup, hall⟩ := h.driver.dead
      exact ⟨hlen, hnodup, fun d hd => ⟨(hall d hd).1, (hall d hd).2.1,
        imageDot_loseDots_unknown h.image.1 _ _ (hall d hd).2.2⟩⟩
  heldQueued := h.heldQueued
  image := imageSound_loseDots h.image _ _
  settings := h.settings
  gen := ⟨h.gen.free, h.gen.place⟩

/-! ### The dead-dot table through a strike -/

theorem State.reexamine_dead (s : State) : s.reexamine.dead = s.dead := by
  unfold State.reexamine
  split
  next t r it v _ hp =>
    have hv : s.NamesViewport r.viewport := ⟨r, (State.currentRequest_some (State.inProgress_some hp).1).1, rfl⟩
    unfold State.examine
    dsimp only
    split
    · exact (recordKeeps_moveOn _ _ _ _ _ hv).dead
    · split
      · have hv' : (s.append r.tag (formOp (r.progress.place.claim s.gen.latch v it) v.rule v.force s.dead s.image
            t)).NamesViewport r.viewport := hv.changeRequest r.tag (f := Request.appended) fun _ => rfl
        exact (recordKeeps_moveOn _ _ _ _ _ hv').dead
      · rfl
  next => rfl

theorem State.strike_dead (s : State) (t : Strip) (p : Nat) : (s.strike t p).dead = s.dead := by
  rw [State.strike_eq]
  split
  · rw [State.reexamine_dead, (RecordKeeps.foldl (fun u (o : RingOp) => recordKeeps_settleOne u o.tag) _ _).dead]
    rfl
  · rfl

/-- The strike of a newly recorded dot of the strip in hand. -/
theorem Drawn.strike (h : Drawn s) {hd : Hand} (hh : s.driver.hand = some hd) (hheld : s.driver.state ≠ .held)
    {p : Nat} (hp : p < 16) (hcome : hd.toCome.getLsbD p = false) (hroom : s.dead.length < Config.deadSize)
    (hnew : recorded s.dead hd.op.strip.col (hd.op.strip.rowOf p) = false) (source : SenseSource) :
    Drawn ((s.recordDead hd.op.strip source p).strike hd.op.strip p) := by
  have hcore := h.toCore.struck hh hheld hp hcome hroom hnew source
  have hchosen := chosen_struck h.chosen hd.op.strip source p
  rw [State.strike_eq]
  split
  · have hsettled := Core.settleAll hcore hchosen
    exact hsettled.1.reexamine hsettled.2
  next hnone =>
    have hnil : struckAway s.ring hd.op.strip p = [] := by
      rw [struckAway_eq, List.filter_eq_nil_iff]
      exact fun o ho e => hnone ⟨o, ho, by simpa using e⟩
    rw [hnil] at hcore
    exact ⟨hcore, hchosen, fun e => (length_struck_none hnone).trans (h.waits e)⟩

/-! ### The sense result (R8) -/

/-- The unit in the gap, with the positions of the strip in hand that are still to be found dead. -/
structure Sensed (t : Strip) (l : List Nat) (s : State) : Prop extends Drawn s where
  gap : s.driver.state = .gap
  touch : TouchSound s
  hand : ∃ hd, s.driver.hand = some hd ∧ hd.op.strip = t ∧ ∀ p ∈ l, hd.toCome.getLsbD p = false
  fresh : ∀ p ∈ l, p < 16 ∧ recorded s.dead t.col (t.rowOf p) = false

theorem Sensed.foundDead {t : Strip} {p : Nat} {l : List Nat} (h : Sensed t (p :: l) s) (hnotin : p ∉ l)
    (source : SenseSource) : Sensed t l (s.foundDead t source p) := by
  obtain ⟨hd, hh, rfl, hcome⟩ := h.hand
  obtain ⟨hp, hnew⟩ := h.fresh p List.mem_cons_self
  have hk := drawKeeps_foundDead s hd.op.strip source p
  obtain ⟨hstate, hhand, -⟩ := hk.driverFields
  have hlater : ∀ q ∈ l, q < 16 ∧ recorded s.dead hd.op.strip.col (hd.op.strip.rowOf q) = false :=
    fun q hq => h.fresh q (List.mem_cons_of_mem _ hq)
  refine ⟨?_, hstate.trans h.gap, hk.touchSound h.touch,
    ⟨hd, hhand.trans hh, rfl, fun q hq => hcome q (List.mem_cons_of_mem _ hq)⟩, fun q hq => ⟨(hlater q hq).1, ?_⟩⟩
  · rw [State.foundDead_eq]
    split
    next hroom =>
      exact h.toDrawn.strike hh (by rw [h.gap]; decide) hp (hcome p List.mem_cons_self) hroom hnew source
    next =>
      exact ⟨(h.toCore.lostOne hh _).offer (.dot hd.op.strip.col (hd.op.strip.rowOf p) source false), h.chosen, h.waits⟩
  · rw [State.foundDead_eq]
    split
    · rw [State.strike_dead, State.recordDead, recorded_append, (hlater q hq).2, Bool.false_or]
      by_contra hsame
      have hsame : hd.op.strip.rowOf p = hd.op.strip.rowOf q := by simpa using hsame
      obtain ⟨-, rfl⟩ := sameDot hp (hlater q hq).1 rfl hsame
      exact hnotin hq
    · exact (hlater q hq).2

theorem Sensed.foldl {t : Strip} {l : List Nat} (h : Sensed t l s) (hl : l.Nodup) (source : SenseSource) :
    Sensed t [] (l.foldl (fun u p => u.foundDead t source p) s) := by
  induction l generalizing s with
  | nil => exact h
  | cons p l ih =>
    obtain ⟨hnotin, hl⟩ := List.nodup_cons.1 hl
    exact ih (h.foundDead hnotin source) hl

/-! ### The end of a pulse (R113, R114) -/

/-- The dots of the phase that pulses are live, and no longer to come once it is completed (R12, R106). -/
theorem HandFits.pulsed {c : Settings} {dead : List DeadDot} {h : Hand} (hf : HandFits c dead .pulse h) {p : Nat}
    (hp : p < 16) (hm : (h.op.mask h.phase).getLsbD p = true) :
    recorded dead h.op.strip.col (h.op.strip.rowOf p) = false ∧ (h.mark .completed).toCome.getLsbD p = false := by
  obtain ⟨⟨hdisj, -, -⟩, ⟨-, -, hphase, -, hsecond⟩, hlive⟩ := hf
  have hstatus : h.status h.phase = .pulsing := (Option.some.inj hphase).symm
  rw [mask_disjoint_iff] at hdisj
  have hnot : ∀ b : Bool, b ≠ true → b = false := fun b => by simp
  cases hph : h.phase with
  | set =>
    rw [hph] at hm hstatus
    have hclear : h.op.clearMask.getLsbD p = false := hdisj p hm
    refine ⟨hlive p (List.mem_range.2 hp) ((Hand.toCome_iff h p).2 (.inl ⟨.inr hstatus, hm⟩)), hnot _ fun e => ?_⟩
    rw [Hand.toCome_iff, Hand.mark, hph] at e
    simp [hclear] at e
  | clear =>
    rw [hph] at hm hstatus
    refine ⟨hlive p (List.mem_range.2 hp) ((Hand.toCome_iff h p).2 (.inr ⟨.inr hstatus, hm⟩)), hnot _ fun e => ?_⟩
    rw [Hand.toCome_iff, Hand.mark, hph] at e
    rcases hsecond hph with e' | e' <;> simp [e'] at e

theorem Steady.pulseEnds (h : Steady s) (hpulse : s.driver.state = .pulse) (sense : Mask) :
    Steady (s.pulseEnds sense) := by
  obtain ⟨hd, hh⟩ : ∃ hd, s.driver.hand = some hd := by
    by_contra hn
    have := h.driver.handState.2 (Option.eq_none_iff_forall_ne_some.2 fun hd e => hn ⟨hd, e⟩)
    rw [hpulse] at this
    rcases this with e | e <;> cases e
  have hfits := h.driver.hand hd hh
  rw [hpulse] at hfits
  have hmark := Hand.mark_eq hd .completed
  have hcore : Core [] (s.pulseEnded hd) :=
    h.toCore.setDriver (c := s.charge) hh rfl hmark.2.1 hmark.1 rfl h.driver.level
      (hfits.mark (d' := .gap) (.inr rfl) rfl (.inr rfl))
  have hbit : ∀ p ∈ deadPositions (hd.op.mask hd.phase) sense, p < 16 ∧ (hd.op.mask hd.phase).getLsbD p = true :=
    fun p hp => by
      simp only [deadPositions, List.mem_filter, List.mem_range, Bool.and_eq_true] at hp
      exact ⟨hp.1, hp.2.1⟩
  have hstart : Sensed hd.op.strip (deadPositions (hd.op.mask hd.phase) sense) (s.pulseEnded hd) := by
    refine ⟨⟨hcore, fun hc _ => h.chosen hc (by rw [hpulse]; decide), h.waits⟩, rfl,
      h.touch.afterPulse rfl rfl (fun e => (nomatch e)) le_rfl, ⟨_, rfl, by rw [hmark.1], fun p hp => ?_⟩,
      fun p hp => ⟨(hbit p hp).1, ?_⟩⟩
    · exact (hfits.pulsed (hbit p hp).1 (hbit p hp).2).2
    · exact (hfits.pulsed (hbit p hp).1 (hbit p hp).2).1
  have hsensed : Sensed hd.op.strip [] ((s.pulseEnded hd).senseResult hd sense) :=
    hstart.foldl (List.nodup_range.filter _) hd.senseSource
  rw [State.pulseEnds_eq hh]
  split
  · exact hsensed.toDrawn.gapEnds hsensed.touch hsensed.gap
  · exact ⟨hsensed.toDrawn, fun e => (nomatch hsensed.gap.symm.trans e), fun e => (nomatch hsensed.gap.symm.trans e),
      hsensed.touch⟩

end Sys2Proof.Machine
end

