-- ==== Sys2Proof/Proofs/Sweeping.lean ====
section
/-!
SUPPORT. The generator's turn, the recharge step and the sweep keep the unit steady (R91, R108, R117, R128 to R131); what
a change beside queue, generator and driver leaves as it is; requests that join.
-/

-- One proof at a time: side by side, the proofs' threads reserve more memory than the check allows.
set_option Elab.async false

namespace Sys2Proof.Machine

variable {s t : State}

/-! ### Changes beside queue, generator and driver -/

/-- The blocks that the core speaks of are the same. -/
structure SameWork (s t : State) : Prop where
  settings : t.settings = s.settings
  image : t.image = s.image
  dead : t.dead = s.dead
  queue : t.queue = s.queue
  gen : t.gen = s.gen
  ring : t.ring = s.ring
  driver : t.driver = s.driver
  slot : t.sweep.slot = s.sweep.slot
  level : s.charge.level ≤ Config.chargeMax → t.charge.level ≤ Config.chargeMax

theorem SameWork.core {owed : List Nat} (k : SameWork s t) (h : Core owed s) : Core owed t where
  queue := by
    rw [k.queue, k.gen, State.load_congr k.ring (by rw [k.driver])]
    exact h.queue
  driver := h.driver.congr k.settings k.ring k.dead k.driver k.slot k.image (k.level h.driver.level)
  heldQueued := by rw [k.driver, k.queue]; exact h.heldQueued
  image := by rw [k.image]; exact h.image
  settings := by rw [k.settings]; exact h.settings
  gen := ⟨by rw [k.gen]; exact h.gen.free, by rw [k.queue, k.gen, k.settings]; exact h.gen.place⟩

theorem SameWork.drawn (k : SameWork s t) (h : Drawn s) : Drawn t where
  toCore := k.core h.toCore
  chosen := by rw [Chosen, k.gen, k.driver, k.queue]; exact h.chosen
  waits := by rw [WaitsForRoom, k.gen, k.ring]; exact h.waits

/-- The unit stays steady when neither its work nor its touch block changes, nor its overcurrent input. -/
theorem SameWork.steady (k : SameWork s t) (h : Steady s) (htouch : t.touch = s.touch) (hocin : t.ocin = s.ocin) :
    Steady t where
  toDrawn := k.drawn h.toDrawn
  settled := by rw [Settled, k.driver, k.ring, k.slot]; exact h.settled
  calm := by rw [Calm, k.driver, hocin]; exact h.calm
  touch := h.touch.congr htouch k.settings (by rw [State.pulseInProgress, k.driver]; rfl)
    (by rw [State.pool, k.queue]; rfl)

/-! ### The generator's turn and the recharge step (R91, R108, R117) -/

theorem Steady.stripExamination (h : Steady s) : Steady s.generatorEvent.driverArbiter := by
  have hk := drawKeeps_generatorEvent s
  refine h.toDrawn.generatorEvent.driverArbiter ?_ (hk.touchSound h.touch)
  rw [Calm, hk.driverFields.1, hk.ocin]
  exact h.calm

theorem Steady.recharge (h : Steady s) : Steady s.recharge := by
  have hk : SameWork s { s with charge := ⟨min (s.charge.level + 1) Config.chargeMax, s.settings.rechargePeriod⟩ } :=
    ⟨rfl, rfl, rfl, rfl, rfl, rfl, rfl, rfl, fun _ => Nat.min_le_right _ _⟩
  exact (hk.steady h rfl rfl).retryPhase

/-! ### The sweep (R128 to R131) -/

/-- The sweep operation for a strip of the panel with a known dot is well formed. -/
theorem opSound_sweepOp {c : Settings} {im : Image} (him : ImageSound im) {u : Strip}
    (hin : u.inside c.columns c.stripRows = true) {p : Nat} (hknown : (imageGet im u).known.getLsbD p = true) :
    OpSound c (sweepOp im u) := by
  refine ⟨imageGet_disjoint him u, ?_, hin⟩
  by_contra hempty
  have hempty := (StripOp.isEmpty_iff _).1 (Bool.not_eq_false _ ▸ hempty)
  simp only [sweepOp] at hempty
  simp [StripImage.known, hempty.1, hempty.2] at hknown

theorem Steady.sweepFill (h : Steady s) {u : Strip} (hheld : s.driver.state ≠ .held)
    (hin : u.inside s.settings.columns s.settings.stripRows = true) (hskip : s.sweepSkips u = false) :
    Steady (s.sweepFill u) := by
  simp only [State.sweepSkips, Bool.or_eq_false_iff, Bool.not_eq_false', List.any_eq_true, Bool.and_eq_true] at hskip
  obtain ⟨hnames, p, -, hknown, -⟩ := hskip
  have hcore : Core [] { s with sweep := { s.sweep with
      slot := some (sweepOp s.image u)
      cursor := nextInSweep s.settings.columns s.settings.stripRows u } } := by
    refine ⟨⟨h.queue, ⟨h.driver.ring, h.driver.ringSize, h.driver.hand, h.driver.handState, fun e => (nomatch e),
      fun w hw => ?_, h.driver.dead, h.driver.passOver, h.driver.level⟩, h.heldQueued, h.image, h.settings⟩,
      ⟨h.gen.free, h.gen.place⟩⟩
    obtain rfl := Option.some.inj hw
    exact ⟨opSound_sweepOp h.image hin hknown, rfl, hnames, hheld⟩
  exact Drawn.driverArbiter ⟨hcore, h.chosen, h.waits⟩ h.calm (h.touch.congr rfl rfl rfl le_rfl)

theorem mem_sweepOrder {columns stripRows : Nat} {cursor u : Strip} (h : u ∈ sweepOrder columns stripRows cursor) :
    u.inside columns stripRows = true := by
  rw [← mem_panelStrips]
  rcases List.mem_append.1 h with h | h <;> exact (List.mem_filter.1 h).1

theorem Steady.sweepLooks (h : Steady s) : Steady s.sweepLooks := by
  unfold State.sweepLooks
  split
  · exact h
  next hlook =>
    split
    · exact h
    next u hfind =>
      exact h.sweepFill (fun e => hlook (.inl e)) (mem_sweepOrder (List.mem_of_find?_eq_some hfind))
        (by simpa using List.find?_some hfind)

theorem Steady.sweepExpires (h : Steady s) : Steady s.sweepExpires := by
  have htimer : ∀ timer, Steady { s with sweep := { s.sweep with timer := timer } } := fun timer =>
    have hk : SameWork s { s with sweep := { s.sweep with timer := timer } } :=
      ⟨rfl, rfl, rfl, rfl, rfl, rfl, rfl, rfl, id⟩
    hk.steady h rfl rfl
  unfold State.sweepExpires
  split
  · exact h
  · split
    · exact htimer none
    · exact (htimer _).sweepLooks

/-! ### The generator arbiter and requests that join (R19 to R25) -/

/-- The arbiter lets no generator wait that did not wait. -/
theorem waitsForRoom_arbiter (h : WaitsForRoom s) : WaitsForRoom s.generatorArbiter := by
  rcases s.generatorArbiter_cases with ⟨he, -⟩ | ⟨r, -, -, -, he⟩
  · rw [he]; exact h
  · rw [he]; exact fun e => absurd rfl e

/-- The arbiter makes the choice that a change of the queue has left open. -/
theorem Core.arbiter_drawn (h : Core [] s) (hw : WaitsForRoom s) : Drawn s.generatorArbiter :=
  ⟨h.arbiter.1, h.arbiter.2, waitsForRoom_arbiter hw⟩

/-- A request joins where its pool has room. -/
theorem Core.joinRequest (h : Core [] s) {o : Origin} {v : Nat} {c : RuleChoice} {f : Bool} {its : List Item}
    (hhost : o = .host → (s.pool .host).length < Config.hostPool)
    (hecho : o = .echo → (s.pool .echo).length < Config.echoPool)
    (hitems : ∀ r : Request, r.items = its → r.itemsSound = true) : Core [] (s.joinRequest o v c f its) := by
  have hqueue : QueueSound (s.joinRequest o v c f its).queue s.gen.current (s.load []) :=
    h.queue.join (r := ⟨s.nextTag, o, v, c, f, its, .queued, .start, 0, 0, 0, false, false, false, false⟩) hhost hecho
      rfl rfl ⟨inCount_freeNumber _ h.queue.counter, hitems _ rfl, rfl, rfl, Nat.zero_le _, fun _ => ⟨rfl, rfl, rfl⟩,
        fun e => (nomatch e)⟩
  have hmem : ∀ r ∈ (s.joinRequest o v c f its).queue.requests, r ∈ s.queue.requests ∨ r.state = .queued := by
    intro r hr
    rw [State.joinRequest_queue] at hr
    rcases List.mem_append.1 hr with hr | hr
    · exact .inl hr
    · rw [List.mem_singleton.1 hr]; exact .inr rfl
  refine ⟨⟨hqueue, h.driver.congr rfl rfl rfl rfl rfl rfl h.driver.level, fun hd r hr => ?_, h.image, h.settings⟩,
    ⟨h.gen.free, fun r hr hc => ?_⟩⟩
  · exact (hmem r hr).elim (h.heldQueued hd r) id
  · rcases hmem r hr with hold | hq
    · exact h.gen.place r hold hc
    · have := (hqueue.rastering r hr).2 hc
      rw [hq] at this
      cases this

end Sys2Proof.Machine
end

