-- ==== Sys2Proof/Proofs/Touching.lean ====
section
/-!
SUPPORT. The end of a scan keeps the unit steady: beams, contact and echoes within their ranges, the scanner in agreement
with the driver (R136 to R150).
-/

-- One proof at a time: side by side, the proofs' threads reserve more memory than the check allows.
set_option Elab.async false

namespace Sys2Proof.Machine

variable {s t : State}

/-! ### The touch block without its scanner -/

/-- A contact in its ranges, whose release echo, if due, finds room beside `echoes` echo requests (R138, R139,
R150). -/
structure ContactFits (echoes : Nat) (c : Contact) : Prop where
  number : c.number < 256
  sinceReport : c.sinceReport ≤ Config.scanCountMax
  due : c.releaseEchoDue = true → echoes ≤ 1

/-- The contact state in its ranges beside `echoes` echo requests (R137, R139, R150). -/
structure ContactSound (echoes : Nat) (c : ContactState) : Prop where
  inRange : contactInRange c = true
  due : c.echoDue = true → echoes ≤ 1

/-- The touch block is sound, whatever its scanner does. -/
structure TouchCounts (s : State) : Prop where
  voided : s.touch.voided ≤ Config.voidedMax
  xBeams : s.touch.xBeams.length = Config.xBeamMax
  yBeams : s.touch.yBeams.length = Config.yBeamMax
  broken : ∀ b ∈ s.touch.xBeams ++ s.touch.yBeams, b.broken ≤ Config.brokenMax
  counter : s.touch.contactCounter < 256
  contact : ContactSound (s.pool .echo).length s.touch.contact

theorem touchSound_iff : TouchSound s ↔ TouchCounts s ∧ s.scannerFits = true :=
  ⟨fun ⟨h1, h2, h3, h4, h5, h6, h7, h8⟩ => ⟨⟨h1, h2, h3, h4, h5, ⟨h6, h7⟩⟩, h8⟩,
    fun ⟨⟨h1, h2, h3, h4, h5, ⟨h6, h7⟩⟩, h8⟩ => ⟨h1, h2, h3, h4, h5, h6, h7, h8⟩⟩

theorem contactSound_none (echoes : Nat) : ContactSound echoes .none := ⟨rfl, fun e => (nomatch e)⟩

theorem contactSound_arming {n : Nat} (h1 : 1 ≤ n) (h2 : n ≤ Config.confirmMax) (echoes x y : Nat) :
    ContactSound echoes (.arming x y n) := ⟨by simp [contactInRange, h1, h2], fun e => (nomatch e)⟩

theorem contactSound_down {echoes : Nat} {c : Contact} : ContactSound echoes (.down c) ↔ ContactFits echoes c :=
  ⟨fun ⟨h1, h2⟩ => by
    simp only [contactInRange, Bool.and_eq_true, decide_eq_true_eq] at h1
    exact ⟨h1.1, h1.2, h2⟩,
  fun ⟨h1, h2, h3⟩ => ⟨by simp [contactInRange, h1, h2], h3⟩⟩

theorem contactSound_releasing {echoes : Nat} {c : Contact} {n : Nat} :
    ContactSound echoes (.releasing c n) ↔ ContactFits echoes c ∧ 1 ≤ n ∧ n ≤ Config.confirmMax :=
  ⟨fun ⟨h1, h2⟩ => by
    simp only [contactInRange, Bool.and_eq_true, decide_eq_true_eq] at h1
    exact ⟨⟨h1.1.1.1, h1.1.1.2, h2⟩, h1.1.2, h1.2⟩,
  fun ⟨⟨h1, h2, h3⟩, h4, h5⟩ => ⟨by simp [contactInRange, h1, h2, h4, h5], h3⟩⟩

/-- The scan count since the last report stays in its range (R138). -/
theorem ContactFits.counted {echoes : Nat} {c : Contact} (h : ContactFits echoes c) : ContactFits echoes c.counted :=
  ⟨h.number, Nat.min_le_right _ _, h.due⟩

/-- The touch block with another contact. -/
theorem TouchCounts.contactState (h : TouchCounts s) {c : ContactState} {n : Nat} (hn : n < 256)
    (ht : t.touch = { s.touch with contact := c, contactCounter := n })
    (hc : ContactSound (t.pool .echo).length c) : TouchCounts t where
  voided := by rw [ht]; exact h.voided
  xBeams := by rw [ht]; exact h.xBeams
  yBeams := by rw [ht]; exact h.yBeams
  broken := by rw [ht]; exact h.broken
  counter := by rw [ht]; exact hn
  contact := by rw [ht]; exact hc

/-! ### What the contact leaves as it is -/

/-- What the contact's operations leave as it is: the driver's side, and of the touch block all but contact and counter.
The generator may take an echo. -/
structure ContactKeeps (s t : State) : Prop where
  drawn : Drawn s → Drawn t
  settings : t.settings = s.settings
  ocin : t.ocin = s.ocin
  ring : t.ring = s.ring
  sweep : t.sweep = s.sweep
  driver : t.driver = s.driver
  touch : t.touch = { s.touch with contact := t.touch.contact, contactCounter := t.touch.contactCounter }

theorem ContactKeeps.refl (s : State) : ContactKeeps s s := ⟨id, rfl, rfl, rfl, rfl, rfl, rfl⟩

theorem ContactKeeps.trans {u : State} (h : ContactKeeps s t) (k : ContactKeeps t u) : ContactKeeps s u where
  drawn := k.drawn ∘ h.drawn
  settings := k.settings.trans h.settings
  ocin := k.ocin.trans h.ocin
  ring := k.ring.trans h.ring
  sweep := k.sweep.trans h.sweep
  driver := k.driver.trans h.driver
  touch := by rw [k.touch, h.touch]

/-- A change of contact, counter and reports alone. -/
theorem ContactKeeps.free
    (h : t = { s with
      touch := { s.touch with contact := t.touch.contact, contactCounter := t.touch.contactCounter }
      reports := t.reports }) : ContactKeeps s t := by
  rw [h]
  exact ⟨fun hd => SameWork.drawn (s := s) ⟨rfl, rfl, rfl, rfl, rfl, rfl, rfl, rfl, id⟩ hd, rfl, rfl, rfl, rfl, rfl, rfl⟩

/-- An echo joins where the echo pool has room (R24, R25). -/
theorem contactKeeps_joinEcho (h : (s.pool .echo).length < Config.echoPool) (r : Rect) :
    ContactKeeps s (s.joinEcho r) := by
  refine ⟨fun hd => ?_, by simp [State.joinEcho], by simp [State.joinEcho], by simp [State.joinEcho],
    by simp [State.joinEcho], by simp [State.joinEcho], by simp [State.joinEcho]⟩
  refine Core.arbiter_drawn (hd.toCore.joinRequest (fun e => (nomatch e)) (fun _ => h) fun q hq => ?_) hd.waits
  simp [Request.itemsSound, hq]

theorem joinEcho_touch (s : State) (r : Rect) : (s.joinEcho r).touch = s.touch := by simp [State.joinEcho]

/-- An echo that joins is one request more in its pool. -/
theorem joinEcho_pool (s : State) (r : Rect) : ((s.joinEcho r).pool .echo).length ≤ (s.pool .echo).length + 1 := by
  refine (recordKeeps_generatorArbiter _).echoes.trans ?_
  rw [State.pool, State.joinRequest_queue, List.filter_append, List.length_append]
  exact Nat.le_refl _

/-! ### Press and release (R137, R139, R149, R150) -/

/-- The echo at a press joins only where the pool has room; in HOLD mode only in an empty pool (R149). -/
theorem State.pressEchoes_room {mode : EchoMode} (h : s.pressEchoes mode = true) :
    (s.pool .echo).length < Config.echoPool ∧ (mode = .hold → (s.pool .echo).length = 0) := by
  cases mode with
  | none => cases h
  | press =>
    simp only [State.pressEchoes, Bool.and_eq_true, decide_eq_true_eq] at h
    exact ⟨h.2, fun e => (nomatch e)⟩
  | hold =>
    simp only [State.pressEchoes, Bool.and_eq_true, List.isEmpty_iff] at h
    rw [h.2]
    exact ⟨by decide, fun _ => rfl⟩

/-- The contact a press makes, before its echo joins. -/
def State.contacted (s : State) (c : Contact) : State :=
  { s with touch := { s.touch with contact := .down c, contactCounter := (s.touch.contactCounter + 1) % 256 } }

/-- A press: the contact is made, its echo joins where one is due, and the press is reported. -/
theorem State.press_eq (s : State) (x y : Nat) :
    ∃ c : Contact, ∃ r : Report, ∃ echo : Bool, c.number = s.touch.contactCounter ∧ c.sinceReport = 0 ∧
      (echo = true → (s.pool .echo).length < Config.echoPool) ∧
      (c.releaseEchoDue = true → (s.pool .echo).length = 0) ∧
      s.press x y = (match echo, c.captured with
        | true, some q => (s.contacted c).joinEcho q
        | _, _ => s.contacted c).offer r := by
  refine ⟨⟨s.touch.contactCounter, x, y, 0, ((hitTest s.zones x y).map (·.1)).getD 0,
    (hitTest s.zones x y).map (·.2.rect), ((hitTest s.zones x y).map (·.2.echo)).getD .none,
    s.pressEchoes (((hitTest s.zones x y).map (·.2.echo)).getD .none) &&
      ((hitTest s.zones x y).map (·.2.echo)).getD .none == .hold⟩, _, _, rfl, rfl,
    fun e => (State.pressEchoes_room e).1, fun e => ?_, rfl⟩
  simp only [Bool.and_eq_true, beq_iff_eq] at e
  exact (State.pressEchoes_room e.1).2 e.2

/-- The contact's operations keep the counts and what they leave as it is. -/
structure ContactStep (s t : State) : Prop where
  keeps : ContactKeeps s t
  counts : TouchCounts s → TouchCounts t

theorem contactStep_press (s : State) (x y : Nat) : ContactStep s (s.press x y) := by
  obtain ⟨c, r, echo, hnumber, hsince, hroom, hdue, heq⟩ := s.press_eq x y
  rw [heq]
  have hfree : ContactKeeps s (s.contacted c) := .free rfl
  have hfits : ∀ h : TouchCounts s, ∀ u : State, (c.releaseEchoDue = true → (u.pool .echo).length ≤ 1) →
      ContactSound (u.pool .echo).length (.down c) := fun h u hu =>
    contactSound_down.2 ⟨hnumber ▸ h.counter, by rw [hsince]; exact Nat.zero_le _, hu⟩
  split
  next q _ =>
    have hjoin : ContactKeeps (s.contacted c) ((s.contacted c).joinEcho q) :=
      contactKeeps_joinEcho (s := s.contacted c) (hroom rfl) q
    refine ⟨(hfree.trans hjoin).trans (.free rfl), fun h => ?_⟩
    refine h.contactState (c := .down c) (Nat.mod_lt _ (by decide)) (joinEcho_touch _ _) (hfits h _ fun e => ?_)
    have := joinEcho_pool (s.contacted c) q
    rw [show (s.contacted c).pool .echo = s.pool .echo from rfl, hdue e] at this
    exact this
  next =>
    refine ⟨hfree.trans (.free rfl), fun h => ?_⟩
    exact h.contactState (c := .down c) (Nat.mod_lt _ (by decide)) rfl (hfits h _ fun e => (hdue e).trans_le (by decide))

theorem contactStep_release (s : State) (c : Contact) : ContactStep s (s.release c) := by
  have none_sound : ∀ t : State, t.touch = { s.touch with contact := .none } → TouchCounts s → TouchCounts t :=
    fun t ht h => h.contactState h.counter ht (contactSound_none _)
  unfold State.release
  dsimp only
  split
  next q hecho _ =>
    simp only [Bool.and_eq_true, decide_eq_true_eq] at hecho
    exact ⟨(contactKeeps_joinEcho hecho.2 q).trans (.free rfl), none_sound _ (by simp [joinEcho_touch])⟩
  next => exact ⟨.free rfl, none_sound _ rfl⟩

theorem contactStep_setContact (s : State) {c : ContactState}
    (hc : TouchCounts s → ContactSound (s.pool .echo).length c) :
    ContactStep s (s.setContact c) :=
  ⟨.free rfl, fun h => h.contactState h.counter rfl (hc h)⟩

theorem contactStep_pressTest (s : State) (x y : Nat) {n : Nat} (hn : 1 ≤ n) : ContactStep s (s.pressTest x y n) := by
  unfold State.pressTest
  dsimp only
  split
  · exact contactStep_press s x y
  · exact contactStep_setContact s fun _ => contactSound_arming (le_min hn (by decide)) (Nat.min_le_right _ _) _ x y

theorem contactStep_releaseTest (s : State) {c : Contact}
    (hc : TouchCounts s → ContactFits (s.pool .echo).length c) {n : Nat} (hn : 1 ≤ n) :
    ContactStep s (s.releaseTest c n) := by
  unfold State.releaseTest
  dsimp only
  split
  · exact contactStep_release s c
  · exact contactStep_setContact s fun h =>
      contactSound_releasing.2 ⟨hc h, le_min hn (by decide), Nat.min_le_right _ _⟩

theorem contactStep_moveCheck (s : State) {c : Contact}
    (hc : TouchCounts s → ContactFits (s.pool .echo).length c) (x y : Nat) :
    ContactStep s (s.moveCheck c x y) := by
  unfold State.moveCheck
  split
  · refine ⟨.free rfl, fun h => h.contactState h.counter rfl (contactSound_down.2 ?_)⟩
    exact ⟨(hc h).number, Nat.zero_le _, (hc h).due⟩
  · exact contactStep_setContact s fun h => contactSound_down.2 (hc h)

/-- Whatever the outcome of a scan, the contact stays in its ranges (R136). -/
theorem contactStep_outcome (s : State) (o : ScanOutcome) : ContactStep s (s.contactStep o) := by
  have hdown : ∀ c, s.touch.contact = .down c → TouchCounts s → ContactFits (s.pool .echo).length c.counted :=
    fun c e h => (contactSound_down.1 (e ▸ h.contact)).counted
  have hrel : ∀ c n, s.touch.contact = .releasing c n → TouchCounts s →
      ContactFits (s.pool .echo).length c.counted ∧ 1 ≤ n ∧ n ≤ Config.confirmMax := fun c n e h => by
    obtain ⟨hc, hn⟩ := contactSound_releasing.1 (e ▸ h.contact)
    exact ⟨hc.counted, hn⟩
  unfold State.contactStep
  split
  · exact contactStep_pressTest s _ _ (le_refl 1)
  · exact ⟨.refl s, id⟩
  · exact contactStep_setContact s fun _ => contactSound_none _
  · split
    · exact contactStep_pressTest s _ _ (Nat.le_add_left 1 _)
    · exact contactStep_pressTest s _ _ (le_refl 1)
  · exact ⟨.refl s, id⟩
  next c e => exact contactStep_releaseTest s (hdown c e) (le_refl 1)
  next c x y e => exact contactStep_moveCheck s (hdown c e) x y
  next c e _ _ => exact contactStep_setContact s fun h => contactSound_down.2 (hdown c e h)
  next c n e => exact contactStep_releaseTest s (fun h => (hrel c n e h).1) (Nat.le_add_left 1 _)
  next c n x y e => exact contactStep_moveCheck s (fun h => (hrel c n e h).1) x y
  next c n e _ _ => exact contactStep_setContact s fun h => contactSound_releasing.2 (hrel c n e h)

/-! ### The end of a scan (R141 to R144) -/

/-- The broken count of a beam after a scan (R144). -/
theorem beamStep_broken (limit : Nat) (b : Beam) (broken : Bool) :
    (beamStep limit b broken).1.broken = if broken then min (b.broken + 1) Config.brokenMax else 0 := by
  unfold beamStep
  generalize (if broken = true then min (b.broken + 1) Config.brokenMax else 0) = count
  dsimp only
  split
  · rfl
  · split <;> rfl

/-- The broken counts of an axis stay in their range (R144). -/
theorem beamsStep_sound {beams : List Beam} (h : ∀ b ∈ beams, b.broken ≤ Config.brokenMax) (limit number : Nat)
    (broken : Nat → Bool) : ∀ b ∈ beamsStep limit number beams broken, b.broken ≤ Config.brokenMax := by
  intro b hb
  simp only [beamsStep, List.mem_mapIdx] at hb
  obtain ⟨i, hi, rfl⟩ := hb
  split
  · rw [beamStep_broken]
    split
    · exact Nat.min_le_right _ _
    · exact Nat.zero_le _
  · exact h _ (List.getElem_mem hi)

theorem length_beamsStep (limit number : Nat) (beams : List Beam) (broken : Nat → Bool) :
    (beamsStep limit number beams broken).length = beams.length := List.length_mapIdx

/-- What the evaluation of a scan keeps, and its counts: no scan is voided now (R142). -/
theorem evaluateScan_step (s : State) (xb : BitVec 48) (yb : BitVec 24) (hd : Drawn s) (ht : TouchCounts s) :
    Drawn (s.evaluateScan xb yb) ∧ TouchCounts (s.evaluateScan xb yb) ∧
      (s.evaluateScan xb yb).touch.voided = 0 ∧ (s.evaluateScan xb yb).driver = s.driver ∧
      (s.evaluateScan xb yb).ring = s.ring ∧ (s.evaluateScan xb yb).sweep = s.sweep ∧
      (s.evaluateScan xb yb).ocin = s.ocin ∧ (s.evaluateScan xb yb).settings = s.settings := by
  let u : State := { s with touch := { s.touch with
      xBeams := beamsStep s.settings.blockedLimit s.settings.xBeams s.touch.xBeams xb.getLsbD
      yBeams := beamsStep s.settings.blockedLimit s.settings.yBeams s.touch.yBeams yb.getLsbD
      voided := 0 } }
  let v : State := (beamReports .x s.settings.blockedLimit s.settings.xBeams s.touch.xBeams xb.getLsbD ++
      beamReports .y s.settings.blockedLimit s.settings.yBeams s.touch.yBeams yb.getLsbD).foldl State.offer u
  obtain ⟨o, ho⟩ : ∃ o, s.evaluateScan xb yb = v.contactStep o := ⟨_, rfl⟩
  have hv : ∃ q, v = { u with reports := q } := by
    have hall : ∀ (l : List Report) (u : State), ∃ q, l.foldl State.offer u = { u with reports := q } := by
      intro l
      induction l with
      | nil => exact fun u => ⟨u.reports, rfl⟩
      | cons r l ih => exact fun u => ih (u.offer r)
    exact hall _ u
  obtain ⟨q, hq⟩ := hv
  have hcounts : TouchCounts v := by
    rw [hq]
    refine ⟨Nat.zero_le _, (length_beamsStep _ _ _ _).trans ht.xBeams, (length_beamsStep _ _ _ _).trans ht.yBeams,
      fun b hb => ?_, ht.counter, ht.contact⟩
    rcases List.mem_append.1 hb with hb | hb
    · exact beamsStep_sound (fun b hb => ht.broken b (List.mem_append_left _ hb)) _ _ _ b hb
    · exact beamsStep_sound (fun b hb => ht.broken b (List.mem_append_right _ hb)) _ _ _ b hb
  have hk : SameWork s v := by rw [hq]; exact ⟨rfl, rfl, rfl, rfl, rfl, rfl, rfl, rfl, id⟩
  have hstep := contactStep_outcome v o
  rw [ho]
  refine ⟨hstep.keeps.drawn (hk.drawn hd), hstep.counts hcounts, ?_, hstep.keeps.driver.trans hk.driver,
    hstep.keeps.ring.trans hk.ring, hstep.keeps.sweep.trans ?_, hstep.keeps.ocin.trans ?_,
    hstep.keeps.settings.trans hk.settings⟩
  · rw [hstep.keeps.touch, hq]
  · rw [hq]
  · rw [hq]

/-- After an evaluated scan the next scan starts. -/
theorem Steady.nextScan (h : Steady s) (hon : s.settings.touchEnable = 1) (xb : BitVec 48) (yb : BitVec 24) :
    Steady ((s.evaluateScan xb yb).setScanner (.scanning (s.evaluateScan xb yb).newScan)) := by
  obtain ⟨hd, hc, hvoided, hdriver, hring, hsweep, hocin, hset⟩ :=
    evaluateScan_step s xb yb h.toDrawn (touchSound_iff.1 h.touch).1
  have hk : SameWork (s.evaluateScan xb yb)
      ((s.evaluateScan xb yb).setScanner (.scanning (s.evaluateScan xb yb).newScan)) :=
    ⟨rfl, rfl, rfl, rfl, rfl, rfl, rfl, rfl, id⟩
  refine ⟨hk.drawn hd, ?_, ?_,
    touchSound_iff.2 ⟨⟨hc.voided, hc.xBeams, hc.yBeams, hc.broken, hc.counter, hc.contact⟩, ?_⟩⟩
  · simp only [Settled, State.setScanner_driver, State.setScanner_ring, State.setScanner_sweep, hdriver, hring, hsweep]
    exact h.settled
  · simp only [Calm, State.setScanner_driver, State.setScanner_ocin, hdriver, hocin]
    exact h.calm
  · simp [State.scannerFits, hset, hon, hvoided, Config.voidedMax, State.newScan, State.pulseInProgress]

/-- A scanner that is not OFF works with touch enabled (R151). -/
theorem TouchSound.enabled (h : TouchSound s) (hoff : s.touch.scanner ≠ .off) : s.settings.touchEnable = 1 := by
  have hfits := (touchSound_iff.1 h).2
  cases hsc : s.touch.scanner <;> simp_all [State.scannerFits]

theorem Steady.voidScan (h : Steady s) (hon : s.settings.touchEnable = 1) : Steady s.voidScan := by
  have hc := (touchSound_iff.1 h.touch).1
  have hset : ∀ x : Scanner, ∀ n, n ≤ Config.voidedMax →
      State.scannerFits { s with touch := { s.touch with voided := n, scanner := x } } = true →
      Steady { s with touch := { s.touch with voided := n, scanner := x } } := fun x n hn hfits => by
    have hk : SameWork s { s with touch := { s.touch with voided := n, scanner := x } } :=
      ⟨rfl, rfl, rfl, rfl, rfl, rfl, rfl, rfl, id⟩
    exact ⟨hk.drawn h.toDrawn, h.settled, h.calm,
      touchSound_iff.2 ⟨⟨hn, hc.xBeams, hc.yBeams, hc.broken, hc.counter, hc.contact⟩, hfits⟩⟩
  have hle : min (s.touch.voided + 1) Config.voidedMax ≤ Config.voidedMax := Nat.min_le_right _ _
  unfold State.voidScan
  dsimp only
  split
  · split
    next hp => exact hset .quietWait _ hle (by simpa [State.scannerFits, hon, State.pulseInProgress] using hp)
    next hp => exact hset (.quiet _) _ hle (by simpa [State.scannerFits, hon, State.pulseInProgress] using hp)
  next hn =>
    refine hset (.scanning _) _ hle ?_
    have hlt := lt_of_le_of_ne hle hn
    simp [State.scannerFits, hon, hlt, State.newScan, State.pulseInProgress]

theorem Steady.scanEnds (h : Steady s) (xb : BitVec 48) (yb : BitVec 24) : Steady (s.scanEnds xb yb) := by
  unfold State.scanEnds
  split
  · exact h
  · exact h
  next sc hsc =>
    have hon := h.touch.enabled (by rw [hsc]; exact fun e => (nomatch e))
    split
    · exact h.voidScan hon
    · exact h.nextScan hon xb yb
  next sc hsc => exact (h.nextScan (h.touch.enabled (by rw [hsc]; exact fun e => (nomatch e))) xb yb).retryPhase

end Sys2Proof.Machine
end

