-- ==== Sys2Proof/Proofs/Messages.lean ====
section
/-!
SUPPORT. Every message, restart and reset keeps the unit steady (R22, R33 to R39, R123, R177, R180 to R187).
-/

-- One proof at a time: side by side, the proofs' threads reserve more memory than the check allows.
set_option Elab.async false

namespace Sys2Proof.Machine

variable {s t : State}

/-! ### Changes beside the work (R45, R70 to R76, R148, R160, R161) -/

/-- Only link, viewports, glyph store, zones, reports and waiting commands differ. -/
abbrev Beside (s t : State) : Prop :=
  t = { s with
    link := t.link, viewports := t.viewports, store := t.store, zones := t.zones, reports := t.reports
    pending := t.pending }

theorem Beside.sameWork (h : Beside s t) : SameWork s t := by
  rw [h]
  exact ⟨rfl, rfl, rfl, rfl, rfl, rfl, rfl, rfl, id⟩

theorem Beside.steady (k : Beside s t) (h : Steady s) : Steady t :=
  k.sameWork.steady h (by rw [k]) (by rw [k])

theorem beside_setViewportMessage (s : State) (p : List Byte) : Beside s (setViewportMessage s p).1 := by
  unfold setViewportMessage
  split
  · rfl
  · split
    · rfl
    · unfold undefineViewport
      split
      · rfl
      · split <;> rfl

theorem beside_setFontMessage (s : State) (p : List Byte) : Beside s (setFontMessage s p).1 := by
  unfold setFontMessage
  split
  · rfl
  · dsimp only
    split <;> rfl

theorem beside_dropFontMessage (s : State) (p : List Byte) : Beside s (dropFontMessage s p).1 := by
  unfold dropFontMessage
  dsimp only
  split
  · rfl
  · split <;> rfl

theorem beside_loadGlyphMessage (s : State) (p : List Byte) : Beside s (loadGlyphMessage s p).1 := by
  unfold loadGlyphMessage
  dsimp only
  split
  · rfl
  · split
    · rfl
    · split
      · rfl
      · split
        · rfl
        · split <;> rfl

theorem beside_dropGlyphMessage (s : State) (p : List Byte) : Beside s (dropGlyphMessage s p).1 := by
  unfold dropGlyphMessage
  dsimp only
  split
  · rfl
  · split <;> rfl

theorem beside_setZoneMessage (s : State) (p : List Byte) : Beside s (setZoneMessage s p).1 := by
  unfold setZoneMessage
  dsimp only
  split
  · rfl
  · split
    · rfl
    · split <;> rfl

theorem beside_subscribeMessage (s : State) (p : List Byte) : Beside s (subscribeMessage s p).1 := by
  unfold subscribeMessage
  dsimp only
  split <;> rfl

/-! ### DRAW (R22, R23, R61 to R63) -/

/-- A TEXT item that a DRAW carries has a code (R63). -/
theorem itemOf_text {kind : Nat} {f : List Byte} {font : Nat} {start : Option (Int × Int)} {codes : List Nat}
    (h : itemOf kind f = some (.text font start codes)) : codes ≠ [] := by
  unfold itemOf at h
  split at h
  case h_4 =>
    split at h
    · unfold textItem at h
      dsimp only at h
      split at h
      · cases h
      · split at h
        next hcodes =>
          cases h
          intro e
          rw [List.map_eq_nil_iff] at e
          simp [e] at hcodes
        next => cases h
    · cases h
  case h_3 =>
    split at h
    · unfold boxItem at h
      dsimp only at h
      split at h
      · split at h <;> cases h
      · cases h
    · cases h
  case h_5 =>
    split at h
    · unfold imageItem at h
      dsimp only at h
      split at h <;> cases h
    · cases h
  case h_9 => cases h
  all_goals split at h <;> cases h

/-- The walk gives as many items as it was asked for, each read from a kind and its field bytes (R62). -/
theorem walkItems_ok {n i : Nat} {p : List Byte} {its : List Item} (h : walkItems n i p = .ok its) :
    its.length = n ∧ ∀ it ∈ its, ∃ kind f, itemOf kind f = some it := by
  induction n generalizing i p its with
  | zero =>
    cases p with
    | nil => cases h; exact ⟨rfl, fun it hit => absurd hit List.not_mem_nil⟩
    | cons b p => cases h
  | succ n ih =>
    match p with
    | [] | [_] => cases h
    | kind :: len :: rest =>
      unfold walkItems at h
      split at h
      · cases h
      · split at h
        · cases h
        next item hitem =>
          split at h
          · cases h
          next items hitems =>
            cases h
            obtain ⟨hlen, hall⟩ := ih hitems
            refine ⟨congrArg (· + 1) hlen, fun it hit => ?_⟩
            rcases List.mem_cons.1 hit with rfl | hit
            · exact ⟨_, _, hitem⟩
            · exact hall it hit

/-- An accepted DRAW carries 1 to 16 items, each TEXT with a code (R61, R63). -/
theorem parseDraw_items {vs : List Viewport} {p : List Byte} {d : DrawForm} (h : parseDraw vs p = .ok d) (r : Request)
    (hr : r.items = d.items) : r.itemsSound = true := by
  unfold parseDraw at h
  dsimp only at h
  split at h
  · split at h
    · cases h
    · split at h
      next hcount =>
        split at h
        · cases h
        next items hitems =>
          cases h
          obtain ⟨hlen, hall⟩ := walkItems_ok hitems
          simp only [Request.itemsSound, hr, Bool.and_eq_true, decide_eq_true_eq, List.all_eq_true, hlen]
          refine ⟨hcount.2, fun it hit => ?_⟩
          obtain ⟨kind, f, hitem⟩ := hall it hit
          split
          · simpa using itemOf_text hitem
          · rfl
      next => cases h
  · cases h

/-- Records change, and the generator is where it stays: nothing else of the unit has moved. -/
theorem Steady.record (h : Steady s) (k : RecordKeeps s t) (hd : Drawn t) : Steady t where
  toDrawn := hd
  settled := by rw [Settled, k.driver, k.ring, k.sweep]; exact h.settled
  calm := by rw [Calm, k.driver, k.ocin]; exact h.calm
  touch := k.draw.touchSound h.touch

theorem Steady.drawMessage (h : Steady s) (p : List Byte) : Steady (drawMessage s p).1 := by
  unfold Machine.drawMessage
  split
  · exact h
  next d hd =>
    split
    · exact h
    next hheld =>
      split
      · exact h
      next hroom =>
        have hjoin : Core [] (s.joinRequest .host d.viewport d.rule d.force d.items) :=
          h.toCore.joinRequest (fun _ => Nat.lt_of_not_le hroom) (fun e => (nomatch e)) (parseDraw_items hd)
        have hk := recordKeeps_generatorArbiter (s.joinRequest .host d.viewport d.rule d.force d.items)
        refine ⟨hjoin.arbiter_drawn h.waits, ?_, ?_, hk.draw.touchSound (h.touch.congr rfl rfl rfl ?_)⟩
        · rw [Settled, hk.driver, hk.ring, hk.sweep]
          exact h.settled
        · rw [Calm, hk.driver, hk.ocin]
          exact h.calm
        · rw [State.pool, State.joinRequest_queue, List.filter_append]
          simp [State.pool]

/-! ### CANCEL (R33 to R36) -/

theorem Core.cancelOne (h : Core [] s) (hw : WaitsForRoom s) {r : Request} (hr : r ∈ s.queue.requests) :
    Core [] (s.cancelOne r) ∧ WaitsForRoom (s.cancelOne r) := by
  have hsound := h.queue.each r hr
  unfold State.cancelOne
  split
  next hs =>
    have hcur : s.gen.current ≠ some r.tag := fun e => by
      have := (h.queue.rastering r hr).2 e
      rw [hs] at this
      cases this
    have hload : s.load [] r.tag = 0 := hsound.outstanding.symm.trans (hsound.queued hs).1
    have hmem : ∀ q ∈ (s.leave r .cancelled).queue.requests, q ∈ s.queue.requests := fun q hq => by
      rw [State.leave_queue] at hq
      exact (List.mem_filter.1 hq).1
    refine ⟨⟨h.toTallied.record (recordKeeps_leave s r .cancelled) ?_ fun hd q hq => h.heldQueued hd q (hmem q hq), ?_⟩,
      ?_⟩
    · have hrem := h.queue.remove hload
      rw [if_neg hcur] at hrem
      rw [State.leave_queue, State.leave_gen]
      exact hrem
    · refine ⟨by rw [State.leave_gen]; exact h.gen.free, fun q hq hc => ?_⟩
      rw [State.leave_gen] at hc ⊢
      rw [State.leave_settings]
      exact h.gen.place q (hmem q hq) hc
    · rw [WaitsForRoom, State.leave_gen, State.leave_ring]
      exact hw
  next hs =>
    have hcur := (h.queue.rastering r hr).1 hs
    split
    next hout =>
      refine ⟨(h.toTallied.stop_leave hcur hr hout rfl .cancelled).core_of_free (by simp), fun e => absurd ?_ e⟩
      rw [State.leave_gen]
      rfl
    next hout =>
      exact ⟨(h.toTallied.stop_drain hcur hr hout (f := fun q => { q with state := .draining, cancelMark := true })
        (fun _ => ⟨rfl, rfl⟩) fun _ => ⟨rfl, rfl, rfl, rfl, rfl, rfl⟩).core_of_free rfl, fun e => absurd rfl e⟩
  next => exact ⟨h, hw⟩

/-- A cancelled request leaves the others' records as they are. -/
theorem State.mem_cancelOne {r q : Request} (hq : q ∈ s.queue.requests) (hne : q.tag ≠ r.tag) :
    q ∈ (s.cancelOne r).queue.requests := by
  have hleave : ∀ u : State, u.queue = s.queue → q ∈ (u.leave r .cancelled).queue.requests := fun u hu => by
    rw [State.leave_queue, hu]
    exact List.mem_filter.2 ⟨hq, by simpa using hne⟩
  unfold State.cancelOne
  split
  · exact hleave s rfl
  · split
    · exact hleave _ rfl
    · exact State.mem_changeRequest.2 ⟨q, hq, by rw [if_neg hne]⟩
  · exact hq

theorem Core.cancelAll {l : List Request} (h : Core [] s) (hw : WaitsForRoom s) (hl : ∀ r ∈ l, r ∈ s.queue.requests)
    (hn : (l.map (·.tag)).Nodup) : Core [] (l.foldl State.cancelOne s) ∧ WaitsForRoom (l.foldl State.cancelOne s) := by
  induction l generalizing s with
  | nil => exact ⟨h, hw⟩
  | cons r l ih =>
    obtain ⟨hfresh, hn⟩ := List.nodup_cons.1 hn
    obtain ⟨hcore, hwaits⟩ := h.cancelOne hw (hl r List.mem_cons_self)
    refine ih hcore hwaits (fun q hq => State.mem_cancelOne (hl q (List.mem_cons_of_mem _ hq)) fun e => ?_) hn
    exact hfresh (List.mem_map.2 ⟨q, hq, e⟩)

theorem Steady.cancelAllForm (h : Steady s) : Steady (cancelAllForm s).1 := by
  have hsub : (((s.pool .host).filter fun r => r.state != .draining).map (·.tag)).Nodup :=
    h.queue.tags.sublist ((List.filter_sublist.trans List.filter_sublist).map _)
  obtain ⟨hcore, hwaits⟩ := h.toCore.cancelAll (l := (s.pool .host).filter fun r => r.state != .draining) h.waits
    (fun r hr => (List.mem_filter.1 (List.mem_filter.1 hr).1).1) hsub
  exact h.record ((RecordKeeps.foldl recordKeeps_cancelOne _ s).trans (recordKeeps_generatorArbiter _))
    (hcore.arbiter_drawn hwaits)

theorem Steady.cancelMessage (h : Steady s) (p : List Byte) : Steady (cancelMessage s p).1 := by
  unfold Machine.cancelMessage
  split
  · exact h.cancelAllForm
  · unfold cancelTag
    split
    · exact h
    next r hr =>
      split
      · exact h
      · obtain ⟨hcore, hwaits⟩ := h.toCore.cancelOne h.waits (List.mem_of_find?_eq_some hr)
        exact h.record ((recordKeeps_cancelOne s r).trans (recordKeeps_generatorArbiter _)) (hcore.arbiter_drawn hwaits)

/-! ### RESUME (R123) -/

theorem Steady.resumeMessage (h : Steady s) : Steady (resumeMessage s).1 := by
  unfold Machine.resumeMessage
  split
  next hheld =>
    have hnone : s.driver.hand = none := h.driver.handState.1 (.inr hheld)
    have hcore : Core [] (s.driverState .idle) := by
      refine ⟨⟨h.queue.congr_load fun c =>
          congrFun (State.load_congr (s := s) (t := s.driverState .idle) rfl rfl []) c,
        ⟨h.driver.ring, h.driver.ringSize, fun hd e => ?_, ?_, h.driver.slotEmpty, fun w hw => ?_, h.driver.dead,
          h.driver.passOver, h.driver.level⟩, fun e => (nomatch e), h.image, h.settings⟩, ⟨h.gen.free, h.gen.place⟩⟩
      · exact absurd (hnone.symm.trans e) (by simp)
      · simp [hnone]
      · exact absurd hheld (h.driver.slot w hw).notHeld
    have hk := recordKeeps_generatorArbiter (s.driverState .idle)
    have htouch : TouchSound (s.driverState .idle) :=
      h.touch.congr rfl rfl (by simp [State.pulseInProgress, hheld]) le_rfl
    refine (hcore.arbiter_drawn h.waits).driverArbiter ?_ (hk.draw.touchSound htouch)
    rw [Calm, hk.driver]
    exact fun e => (nomatch e)
  next => exact h

/-! ### FORGET DEAD DOT (R18) -/

theorem recorded_filter {dead : List DeadDot} {f : DeadDot → Bool} {x y : Nat} (h : recorded dead x y = false) :
    recorded (dead.filter f) x y = false := by
  simp only [recorded, List.any_eq_false] at h ⊢
  exact fun d hd => h d (List.mem_filter.1 hd).1

/-- With dots forgotten the live dots are live still. -/
theorem AllLive.forget {dead : List DeadDot} {u : Strip} {m : Mask} (h : AllLive dead u m) (f : DeadDot → Bool) :
    AllLive (dead.filter f) u m := fun p hp hm => recorded_filter (h p hp hm)

theorem Steady.forget (h : Steady s) (f : DeadDot → Bool) : Steady { s with dead := s.dead.filter f } := by
  have hcore : Core [] { s with dead := s.dead.filter f } := by
    refine ⟨⟨h.queue, ⟨fun o ho => ?_, h.driver.ringSize, fun hd e => ?_, h.driver.handState, h.driver.slotEmpty,
      fun w hw => ?_, ?_, h.driver.passOver, h.driver.level⟩, h.heldQueued, h.image, h.settings⟩,
      ⟨h.gen.free, h.gen.place⟩⟩
    · exact ⟨(h.driver.ring o ho).sound, (h.driver.ring o ho).live.forget f⟩
    · obtain ⟨hop, hrec, hlive⟩ := h.driver.hand hd e
      exact ⟨hop, hrec, hlive.forget f⟩
    · obtain ⟨hop, hcopy, hnames, hheld⟩ := h.driver.slot w hw
      exact ⟨hop, hcopy, hnames, hheld⟩
    · obtain ⟨hlen, hnodup, hall⟩ := h.driver.dead
      exact ⟨(List.length_filter_le _ _).trans hlen, hnodup.sublist (List.filter_sublist.map _),
        fun d hd => hall d (List.mem_filter.1 hd).1⟩
  exact ⟨⟨hcore, h.chosen, h.waits⟩, h.settled, h.calm, h.touch.congr rfl rfl rfl le_rfl⟩

theorem Steady.forgetDeadDotMessage (h : Steady s) (p : List Byte) : Steady (forgetDeadDotMessage s p).1 := by
  unfold Machine.forgetDeadDotMessage
  dsimp only
  split
  · exact h
  · split
    · exact h
    · split
      · exact h.forget _
      · exact h

/-! ### CONFIGURE (R151, R152, R180 to R184) -/

/-- The driver's side under other settings of the same shape. -/
theorem Drawn.withSettings (h : Drawn s) {new : Settings} (hnew : SettingsSound new)
    (hcol : new.columns = s.settings.columns) (hrow : new.stripRows = s.settings.stripRows) :
    Drawn { s with settings := new } := by
  have hop : ∀ op : StripOp, OpSound s.settings op → OpSound new op := fun op ho => by
    simp only [OpSound, hcol, hrow]
    exact ho
  refine ⟨⟨⟨h.queue, ⟨fun o ho => ?_, h.driver.ringSize, fun hd e => ?_, h.driver.handState, h.driver.slotEmpty,
    fun w hw => ?_, ?_, h.driver.passOver, h.driver.level⟩, h.heldQueued, h.image, hnew⟩,
    ⟨h.gen.free, fun r hr hc => ?_⟩⟩, h.chosen, h.waits⟩
  · exact ⟨hop _ (h.driver.ring o ho).sound, (h.driver.ring o ho).live⟩
  · obtain ⟨ho, hrec, hlive⟩ := h.driver.hand hd e
    exact ⟨hop _ ho, hrec, hlive⟩
  · obtain ⟨ho, hcopy, hnames, hheld⟩ := h.driver.slot w hw
    exact ⟨hop _ ho, hcopy, hnames, hheld⟩
  · obtain ⟨hlen, hnodup, hall⟩ := h.driver.dead
    refine ⟨hlen, hnodup, fun d hd => ?_⟩
    rw [hcol, hrow]
    exact hall d hd
  · obtain ⟨hitem, hin, hwait⟩ := h.gen.place r hr hc
    refine ⟨hitem, fun u hu => ?_, hwait⟩
    rw [hcol, hrow]
    exact hin u hu

/-- A geometry change with no work in flight (R182, R184). -/
theorem Drawn.geometryChange (h : Drawn s) {new : Settings} (hnew : SettingsSound new)
    (hrequests : s.queue.requests = []) (hring : s.ring = []) (hhand : s.driver.hand = none) :
    Drawn (State.geometryChange { s with settings := new }) := by
  have hfree : s.gen = .free := h.gen.free (by
    by_contra hn
    obtain ⟨c, hc⟩ := Option.ne_none_iff_exists'.1 hn
    obtain ⟨r, hr, -⟩ := h.queue.named c hc
    rw [hrequests] at hr
    cases hr)
  have hnone : ∀ r ∈ s.queue.requests, False := fun r hr => by rw [hrequests] at hr; cases hr
  refine ⟨⟨⟨h.queue.congr_load fun c =>
      congrFun (State.load_congr (s := s) (t := State.geometryChange { s with settings := new }) rfl rfl []) c,
    ⟨fun o ho => ?_, h.driver.ringSize, fun hd e => ?_, h.driver.handState, fun _ => rfl, fun w hw => (nomatch hw), ?_,
      Nat.zero_le _, h.driver.level⟩, fun _ r hr => (hnone r hr).elim, ?_, hnew⟩,
    ⟨fun _ => hfree, fun r hr _ => (hnone r hr).elim⟩⟩, fun _ _ r hr => (hnone r hr).elim, fun e => ?_⟩
  · exact absurd (hring ▸ ho : o ∈ []) List.not_mem_nil
  · exact absurd (hhand.symm.trans e) (by simp)
  · exact ⟨Nat.zero_le _, List.nodup_nil, fun d hd => absurd hd List.not_mem_nil⟩
  · exact ⟨rfl, fun e he => absurd he List.not_mem_nil⟩
  · exact absurd (by rw [show (State.geometryChange { s with settings := new }).gen = s.gen from rfl, hfree]; rfl) e

/-- The touch block as a restart leaves it (R145, R151, R152). -/
theorem touchSound_restartTouch (hcounter : s.touch.contactCounter < 256) (hset : SettingsSound s.settings) :
    TouchSound s.restartTouch := by
  refine touchSound_iff.2 ⟨⟨Nat.zero_le _, List.length_replicate, List.length_replicate, fun b hb => ?_, hcounter,
    contactSound_none _⟩, ?_⟩
  · have : b = .clear := by
      rcases List.mem_append.1 hb with hb | hb <;> exact (List.mem_replicate.1 hb).2
    rw [this]
    exact Nat.zero_le _
  · rcases hset.touchEnable with e | e <;>
      simp [State.scannerFits, State.restartTouch, State.newScan, State.pulseInProgress, e, Config.voidedMax]

/-- A shape change, or a change of touch enable, reaches the scanner (R151). -/
theorem touchAffected_false {old new : Settings} (h : touchAffected old new = false) :
    old.touchEnable = new.touchEnable ∧ old.shapeDiffers new = false := by
  simp only [touchAffected, Bool.or_eq_false_iff, bne_eq_false_iff_eq] at h
  exact h.1

theorem Steady.applySettings (h : Steady s) {new : Settings} (hnew : SettingsSound new)
    (hwork : s.settings.shapeDiffers new = true → s.workEmpty = true) : Steady (s.applySettings new) := by
  have hreshaped : Drawn (s.reshaped new) ∧ Settled (s.reshaped new) ∧ Calm (s.reshaped new) ∧
      (s.reshaped new).settings = new ∧ (s.reshaped new).touch = s.touch := by
    unfold State.reshaped
    split
    next hd =>
      obtain ⟨hrequests, hring, hhand⟩ := s.workEmpty_iff.1 (hwork hd)
      exact ⟨h.toDrawn.geometryChange hnew hrequests hring hhand, fun e => ⟨hring, rfl⟩, h.calm, rfl, rfl⟩
    next hd =>
      obtain ⟨hcol, hrow⟩ := Settings.shape_eq (by simpa using hd)
      exact ⟨h.toDrawn.withSettings hnew hcol hrow, h.settled, h.calm, rfl, rfl⟩
  obtain ⟨hdrawn, hsettled, hcalm, hset, htouch⟩ := hreshaped
  have hretouched : Steady ((s.reshaped new).retouched s.settings new) := by
    unfold State.retouched
    split
    next =>
      have hk : SameWork (s.reshaped new) (s.reshaped new).restartTouch :=
        ⟨rfl, rfl, rfl, rfl, rfl, rfl, rfl, rfl, id⟩
      exact ⟨hk.drawn hdrawn, hsettled, hcalm, touchSound_restartTouch
        (by rw [htouch]; exact (touchSound_iff.1 h.touch).1.counter) (by rw [hset]; exact hnew)⟩
    next haff =>
      obtain ⟨henable, hshape⟩ := touchAffected_false (by simpa using haff)
      have heq : s.reshaped new = { s with settings := new } := by simp [State.reshaped, hshape]
      rw [heq] at hdrawn hsettled hcalm ⊢
      obtain ⟨hcounts, hfits⟩ := touchSound_iff.1 h.touch
      refine ⟨hdrawn, hsettled, hcalm, touchSound_iff.2 ⟨hcounts.contactState (c := s.touch.contact) hcounts.counter rfl
        hcounts.contact, ?_⟩⟩
      simpa only [State.scannerFits, State.pulseInProgress, ← henable] using hfits
  have htimer : Steady ((s.reshaped new).retouched s.settings new).startSweepTimer := by
    unfold State.startSweepTimer
    split
    · split
      · exact hretouched
      · exact SameWork.steady (s := (s.reshaped new).retouched s.settings new)
          ⟨rfl, rfl, rfl, rfl, rfl, rfl, rfl, rfl, id⟩ hretouched rfl rfl
    · exact hretouched
  rw [State.applySettings_eq]
  dsimp only
  split
  · exact htimer.retryPhase
  · exact htimer

theorem Steady.configureMessage (h : Steady s) (p : List Byte) : Steady (configureMessage s p).1 := by
  rcases configureMessage_cases s p with e | ⟨new, e, hnew, hwork⟩
  · rw [e]; exact h
  · rw [e]; exact h.applySettings (hnew h.settings) hwork

/-! ### Every message (R175) -/

theorem Steady.ownerCarriesOut (h : Steady s) (k : MsgKind) (p : List Byte) : Steady (ownerCarriesOut k s p).1 := by
  cases k with
  | query | restart | listDeadDots => exact h
  | configure => exact h.configureMessage p
  | draw => exact h.drawMessage p
  | cancel => exact h.cancelMessage p
  | resume => exact h.resumeMessage
  | setViewport => exact (beside_setViewportMessage s p).steady h
  | getViewport => exact (getViewportMessage_state s p).symm ▸ h
  | setFont => exact (beside_setFontMessage s p).steady h
  | dropFont => exact (beside_dropFontMessage s p).steady h
  | loadGlyph => exact (beside_loadGlyphMessage s p).steady h
  | dropGlyph => exact (beside_dropGlyphMessage s p).steady h
  | readImage => exact (readImageMessage_state s p).symm ▸ h
  | forgetDeadDot => exact h.forgetDeadDotMessage p
  | setZone => exact (beside_setZoneMessage s p).steady h
  | collect => exact Beside.steady rfl h
  | subscribe => exact (beside_subscribeMessage s p).steady h

theorem Steady.carryOut (h : Steady s) (kind : Byte) (p : List Byte) : Steady (carryOut kind s p).1 := by
  unfold Machine.carryOut
  split
  · exact h
  · split
    · exact h.ownerCarriesOut _ p
    · exact h

/-! ### Restarts and the end of a full reset (R177, R186, R187) -/

/-- The unit with an empty queue, ring, hand and slot, and a free generator. -/
theorem core_of_empty {n : Nat} (hqueue : s.queue = ⟨[], n⟩) (hn : InCount n) (hgen : s.gen = .free)
    (hring : s.ring = []) (hhand : s.driver.hand = none) (hstate : s.driver.state = .idle) (hslot : s.sweep.slot = none)
    (hpass : s.driver.passOver = 0) (hdead : DeadSound s) (hlevel : s.charge.level ≤ Config.chargeMax)
    (himage : ImageSound s.image) (hset : SettingsSound s.settings) : Drawn s := by
  have hnone : ∀ r ∈ s.queue.requests, False := fun r hr => by rw [hqueue] at hr; cases hr
  refine ⟨⟨⟨?_, ⟨fun o ho => ?_, ?_, fun hd e => ?_, ?_, fun _ => hpass, fun w hw => ?_, hdead, ?_, hlevel⟩,
    fun _ r hr => (hnone r hr).elim, himage, hset⟩, ⟨fun _ => hgen, fun r hr _ => (hnone r hr).elim⟩⟩,
    fun _ _ r hr => (hnone r hr).elim, fun e => ?_⟩
  · rw [hqueue, hgen]
    exact QueueSound.empty hn fun c => State.load_nothing hring hhand c
  · exact absurd (hring ▸ ho : o ∈ []) List.not_mem_nil
  · rw [hring]; exact Nat.zero_le _
  · exact absurd (hhand.symm.trans e) (by simp)
  · simp [hstate, hhand]
  · exact absurd (hslot.symm.trans hw) (by simp)
  · rw [hpass]; exact Nat.zero_le _
  · exact absurd (by rw [hgen]; rfl) e

theorem Steady.restart (h : Steady s) (cache : Option (Byte × List Byte)) : Steady (s.restart cache) := by
  have hk := ((keeps_cutShort s).trans (keeps_flush _)).trans (keeps_driverState _ .idle)
  have htouch : s.cutShort.touch = s.touch ∧ s.cutShort.queue = s.queue ∧ s.cutShort.dead = s.dead ∧
      s.cutShort.driver.hand = none ∧ s.cutShort.charge = s.charge ∧
      ∀ x y, imageDot s.image x y = .unknown → imageDot s.cutShort.image x y = .unknown := by
    unfold State.cutShort
    split
    next hn => exact ⟨rfl, rfl, rfl, hn, rfl, fun _ _ e => e⟩
    next => exact ⟨rfl, rfl, rfl, rfl, rfl, fun _ _ e => imageDot_loseDots_unknown h.image.1 _ _ e⟩
  obtain ⟨htouch, hqueue, hdeads, hhand, hcharge, hdot⟩ := htouch
  have himage := (keeps_cutShort s).image h.image
  have hset : (s.restart cache).settings = s.settings := hk.settings
  have hdrawn : Drawn (s.restart cache) := by
    refine core_of_empty (n := s.queue.tagCounter) ?_ h.queue.counter rfl rfl hhand rfl rfl rfl ⟨?_, ?_, fun d hd => ?_⟩
      ?_ (imageSound_loseOps himage _) (by rw [hset]; exact h.settings)
    · change RequestQueue.mk [] s.cutShort.queue.tagCounter = _
      rw [hqueue]
    · change s.cutShort.dead.length ≤ _
      rw [hdeads]; exact h.driver.dead.1
    · change (s.cutShort.dead.map _).Nodup
      rw [hdeads]; exact h.driver.dead.2.1
    · rw [hset]
      obtain ⟨hx, hy, hu⟩ := h.driver.dead.2.2 d (by rw [← hdeads]; exact hd)
      exact ⟨hx, hy, imageDot_loseOps_unknown himage.1 _ (hdot _ _ hu)⟩
    · change s.cutShort.charge.level ≤ _
      rw [hcharge]; exact h.driver.level
  refine ⟨hdrawn, fun _ => ⟨rfl, rfl⟩, fun e => (nomatch e), touchSound_restartTouch ?_ ?_⟩
  · change s.cutShort.touch.contactCounter < 256
    rw [htouch]; exact (touchSound_iff.1 h.touch).1.counter
  · exact hset ▸ h.settings

theorem steady_afterFullReset (ads : BitVec 5) (brs : BitVec 2) (ocin : Bool) (cs : List Instr) :
    Steady (.afterFullReset ads brs ocin cs) := by
  refine ⟨core_of_empty (n := 1) rfl ⟨le_rfl, by decide⟩ rfl rfl rfl rfl rfl rfl
    ⟨Nat.zero_le _, List.nodup_nil, fun d hd => absurd hd List.not_mem_nil⟩ (Nat.zero_le _)
    ⟨rfl, fun e he => absurd he List.not_mem_nil⟩ settingsSound_default, fun _ => ⟨rfl, rfl⟩, fun e => (nomatch e),
    touchSound_iff.2 ⟨⟨Nat.zero_le _, List.length_replicate, List.length_replicate, fun b hb => ?_, Nat.zero_lt_succ _,
      contactSound_none _⟩, rfl⟩⟩
  have : b = .clear := by
    rcases List.mem_append.1 hb with hb | hb <;> exact (List.mem_replicate.1 hb).2
  rw [this]
  exact Nat.zero_le _

end Sys2Proof.Machine
end

