-- ==== Sys2Proof/Proofs/UnitKept.lean ====
section
/-!
SUPPORT. The statement about the whole unit: a steady unit is a sound one outside reset, and every command keeps it so
(R2 to R187; log 20).
-/

-- One proof at a time: side by side, the proofs' threads reserve more memory than the check allows.
set_option Elab.async false

namespace Sys2Proof.Machine

variable {s t : State}

/-! ### Frames and characters (R171 to R177) -/

theorem beside_setRx (s : State) (rx : Receiver) : Beside s (s.setRx rx) := rfl

theorem Steady.setRx (h : Steady s) (rx : Receiver) : Steady (s.setRx rx) := (beside_setRx s rx).steady h

theorem Steady.execute (h : Steady s) (own : Nat) (seq kind : Byte) (p : List Byte) :
    Steady (s.execute own seq kind p) := by
  rw [State.execute_eq]
  exact Beside.steady rfl (h.carryOut kind p)

theorem Steady.takeAddressed (h : Steady s) (own : Nat) (seq kind : Byte) (p : List Byte) :
    Steady (s.takeAddressed own seq kind p) := by
  unfold State.takeAddressed
  split
  · exact h
  · split
    · split
      · exact Beside.steady rfl h
      · exact h.execute own seq kind p
    · exact h.execute own seq kind p

theorem Steady.takeBroadcast (h : Steady s) (kind : Byte) (p : List Byte) : Steady (s.takeBroadcast kind p) := by
  unfold State.takeBroadcast
  split
  · split
    · exact h.restart none
    · exact h
  · split
    · exact h.cancelAllForm
    · exact h
  · exact h

theorem Steady.frameArrives (h : Steady s) (good : Bool) (dest src seq kind : Byte) (p : List Byte) :
    Steady (s.frameArrives good dest src seq kind p) := by
  have hhunt := h.setRx .hunt
  unfold State.frameArrives
  dsimp only
  split
  · exact hhunt
  · split
    · exact hhunt
    · split
      · exact hhunt.takeBroadcast kind p
      · split
        · split
          · exact hhunt.takeAddressed _ seq kind p
          · exact hhunt
        · exact hhunt

theorem Steady.bodyByte (h : Steady s) (bytes : List Byte) (crc : BitVec 16) (b : Byte) :
    Steady (s.bodyByte bytes crc b) := by
  unfold State.bodyByte
  dsimp only
  split
  · exact h.setRx _
  · split
    · exact h.setRx _
    · split
      · exact h.frameArrives _ _ _ _ _ _
      · exact h.setRx _

theorem Steady.receive (h : Steady s) (c : Option Byte) : Steady (s.receive c) := by
  unfold State.receive
  split
  · split
    · exact h.setRx _
    · exact h
  · exact h
  · exact h.setRx _
  · exact h.setRx _
  · split
    · exact h.setRx _
    · split
      · exact h.setRx _
      · exact h.bodyByte _ _ _
  · split
    · exact h.setRx _
    · exact h.bodyByte _ _ _

theorem Steady.addressedFrame (h : Steady s) (seq kind : Byte) (p : List Byte) :
    Steady (s.addressedFrame seq kind p) := by
  unfold State.addressedFrame
  split
  · exact h
  · split
    · split
      · exact h.setRx _
      · exact h.frameArrives _ _ _ _ _ _
    · exact h.setRx _

theorem Steady.broadcastFrame (h : Steady s) (seq kind : Byte) (p : List Byte) :
    Steady (s.broadcastFrame seq kind p) := by
  unfold State.broadcastFrame
  split
  · exact h
  · split
    · exact h.setRx _
    · exact h.frameArrives _ _ _ _ _ _

theorem Steady.replyStarts (h : Steady s) : Steady s.replyStarts := by
  unfold State.replyStarts
  split
  · exact Beside.steady rfl h
  · exact h

theorem Steady.replyEnds (h : Steady s) : Steady s.replyEnds := by
  unfold State.replyEnds
  split
  · have hidle : Steady { s with link := { s.link with tx := .idle, rx := .hunt } } := Beside.steady rfl h
    dsimp only
    split
    · exact hidle.restart _
    · exact hidle
  · exact h

/-! ### Every command -/

/-- Outside reset the unit is steady. -/
abbrev Awake (s : State) : Prop := s.inReset = false → Steady s

/-- An operation that keeps the unit steady, and does nothing in reset. -/
theorem Awake.unit (h : Awake s) (ht : Steady s → Steady t) (hr : s.inReset = true → t = s) : Awake t := by
  cases hreset : s.inReset with
  | false => exact fun _ => ht (h hreset)
  | true =>
    rw [hr hreset]
    exact h

theorem Awake.unlessReset (h : Awake s) {f : State → State} (hf : Steady s → Steady (f s)) :
    Awake (s.unlessReset f) := by
  refine h.unit (fun hs => ?_) fun hr => by rw [State.unlessReset, if_pos hr]
  unfold State.unlessReset
  split
  · exact hs
  · exact hf hs

/-- In reset the unit listens to nothing (R187). -/
theorem State.listening_reset (h : s.inReset = true) : s.listening = false := by
  simp [State.listening, h]

theorem awake_overcurrent (h : Awake s) (level : Bool) :
    Awake (if s.inReset = false ∧ s.driver.state = .pulse then ({ s with ocin := level } : State).enterHeld
      else { s with ocin := level }) := by
  have hk : SameWork s { s with ocin := level } := ⟨rfl, rfl, rfl, rfl, rfl, rfl, rfl, rfl, id⟩
  split
  next hp =>
    have hs := h hp.1
    obtain ⟨hd, hh⟩ : ∃ hd, s.driver.hand = some hd := by
      refine Option.ne_none_iff_exists'.1 fun hn => ?_
      have := hs.driver.handState.2 hn
      rw [hp.2] at this
      rcases this with e | e <;> cases e
    exact fun _ => (hk.core hs.toCore).enterHeld hh (hs.touch.congr rfl rfl rfl le_rfl)
  next hp =>
    exact fun hr => ⟨hk.drawn (h hr).toDrawn, (h hr).settled, fun e => absurd ⟨hr, e⟩ hp,
      (h hr).touch.congr rfl rfl rfl le_rfl⟩

/-- Every command keeps the unit steady outside reset. -/
theorem awake_exec {i : Instr} (h : Awake s) (he : exec i s = .next t) : Awake t := by
  cases i with
  | broadcastRestart | broadcastCancel =>
    cases he
    exact h.unit (fun hs => hs.broadcastFrame _ _ _) fun hr => if_pos (State.listening_reset hr)
  | receiverGapTimeout =>
    cases he
    refine h.unit (fun hs => ?_) fun hr => if_neg (by simp [State.listening_reset hr])
    split
    · exact hs.setRx .hunt
    · exact hs
  | replyStart => cases he; exact h.unlessReset Steady.replyStarts
  | replyEnd => cases he; exact h.unlessReset Steady.replyEnds
  | fullResetEntry cause =>
    cases he
    split
    · exact fun hr => (nomatch hr)
    · exact h
  | fullResetExit ads brs =>
    cases he
    split
    · exact fun _ => steady_afterFullReset _ _ _ _
    · exact h
  | overcurrent level => cases he; exact awake_overcurrent h level
  | rechargeStep => cases he; exact h.unlessReset Steady.recharge
  | pulseEnd sense =>
    cases he
    refine h.unlessReset fun hs => ?_
    split
    next hp => exact hs.pulseEnds hp sense
    next => exact hs
  | gapEnd =>
    cases he
    refine h.unlessReset fun hs => ?_
    split
    next hg => exact hs.toDrawn.gapEnds hs.touch hg
    next => exact hs
  | stripExamination => cases he; exact h.unlessReset Steady.stripExamination
  | sweepExpiry => cases he; exact h.unlessReset Steady.sweepExpires
  | scanEnd xb yb => cases he; exact h.unlessReset fun hs => hs.scanEnds xb yb
  | characterReceived data stop =>
    cases he
    refine h.unit (fun hs => ?_) fun hr => if_neg (by simp [State.listening_reset hr])
    split
    · exact hs.receive _
    · exact hs
  | frameDropped body =>
    cases he
    refine h.unit (fun hs => ?_) fun hr => if_neg (by simp [State.listening_reset hr])
    split
    · exact hs.setRx .hunt
    · exact hs
  | query | configure | restart | draw | cancel | cancelAll | resume | setViewportDefine | setViewportUndefine
  | getViewport | setFont | dropFont | loadGlyph | dropGlyph | readImage | listDeadDots | forgetDeadDot | setZoneDefine
  | setZoneUndefine | collect | subscribe | unknownKind =>
    cases he
    exact h.unit (fun hs => hs.addressedFrame _ _ _) fun hr => if_pos (State.listening_reset hr)

theorem awake_step (h : Awake s) (he : step s = .next t) : Awake t := by
  unfold step at he
  split at he
  · cases he; exact h
  next c rest _ =>
    have hrest : Awake { s with pending := rest } := fun hr => Beside.steady rfl (h hr)
    exact awake_exec hrest he

/-! ### A sound queue, in the words of the statement -/

/-- Work in flight belongs to a request that is RASTERING or DRAINING. -/
theorem State.atWork_iff (s : State) (c : Nat) :
    s.atWork c = true ↔ ∃ r ∈ s.queue.requests, r.tag = c ∧ r.state ≠ .queued := by
  simp [State.atWork]

theorem State.inFlight_pos (s : State) (c : Nat) :
    0 < s.inFlight c ↔ (∃ o ∈ s.ring, o.tag = c) ∨ s.handTag = some c := by
  unfold State.inFlight
  by_cases hh : s.handTag = some c
  · simp [hh]
  · simp [hh, List.length_pos_iff_exists_mem]

/-- The RASTERING request is the generator's, request by request and as a list (R25, R29). -/
theorem rastering_iff {l : List Request} {current : Option Nat} (hn : (l.map (·.tag)).Nodup) :
    (l.filter fun r => r.state == .rastering).map (·.tag) = current.toList ↔
      (∀ r ∈ l, r.state = .rastering ↔ current = some r.tag) ∧ ∀ c, current = some c → ∃ r ∈ l, r.tag = c := by
  constructor
  · intro h
    have hmem : ∀ c, current = some c ↔ ∃ r ∈ l, r.state = .rastering ∧ r.tag = c := fun c => by
      rw [← Option.mem_toList, ← h]
      simp [and_assoc]
    refine ⟨fun r hr => ⟨fun hs => (hmem r.tag).2 ⟨r, hr, hs, rfl⟩, fun hc => ?_⟩, fun c hc => ?_⟩
    · obtain ⟨q, hq, hs, e⟩ := (hmem r.tag).1 hc
      exact List.inj_on_of_nodup_map hn hq hr e ▸ hs
    · obtain ⟨r, hr, -, e⟩ := (hmem c).1 hc
      exact ⟨r, hr, e⟩
  · rintro ⟨hrast, hnamed⟩
    have hfilter : (l.filter fun r => r.state == .rastering) = l.filter fun r => decide (current = some r.tag) :=
      List.filter_congr fun r hr => by rw [Bool.eq_iff_iff, beq_iff_eq, decide_eq_true_eq]; exact hrast r hr
    rw [hfilter]
    cases current with
    | none => simp
    | some c =>
      obtain ⟨r, hr, rfl⟩ := hnamed c rfl
      have htags : ((l.filter fun q => decide (some r.tag = some q.tag)).map (·.tag)) =
          (l.map (·.tag)).filter fun c => c == r.tag := by
        rw [List.filter_map]
        refine congrArg _ (List.filter_congr fun q _ => ?_)
        rw [Bool.eq_iff_iff]
        simp only [Function.comp_apply, decide_eq_true_eq, beq_iff_eq, Option.some.injEq]
        exact eq_comm
      rw [htags, List.filter_beq, List.count_eq_one_of_mem hn (List.mem_map_of_mem (f := fun q : Request => q.tag) hr)]
      rfl

theorem workSound_of_steady (h : Steady s) : WorkSound s := by
  obtain ⟨htags, hcounter, hhosts, hechoes, heach, hrast, hnamed, hworking⟩ := h.queue
  have hload : ∀ c, s.load [] c = s.inFlight c := fun c => rfl
  refine ⟨⟨htags, fun r hr => (heach r hr).tag, hcounter, hhosts, hechoes, fun r hr => (heach r hr).items⟩,
    (rastering_iff htags).2 ⟨hrast, hnamed⟩, fun r hr => (heach r hr).outstanding,
    fun r hr => ⟨(heach r hr).item, (heach r hr).done⟩, fun r hr => (heach r hr).queued,
    fun r hr => (heach r hr).draining, fun o ho => ?_, fun c hc => ?_, h.driver.ringSize, h.driver.handState,
    h.heldQueued, h.chosen⟩
  · exact (s.atWork_iff _).2 (hworking _ ((s.inFlight_pos _).2 (.inl ⟨o, ho, rfl⟩)))
  · exact (s.atWork_iff _).2 (hworking _ ((s.inFlight_pos _).2 (.inr (Option.mem_toList.1 hc))))

theorem queueSound_of_work (h : WorkSound s) : QueueSound s.queue s.gen.current (s.load []) := by
  obtain ⟨⟨htags, htag, hcounter, hhosts, hechoes, hitems⟩, hrast, hout, hitem, hqueued, hdraining, hring, hhand, -, -, -,
    -⟩ := h
  obtain ⟨hrast, hnamed⟩ := (rastering_iff htags).1 hrast
  refine ⟨htags, hcounter, hhosts, hechoes, fun r hr => ⟨htag r hr, hitems r hr, hout r hr, (hitem r hr).1, (hitem r hr).2,
    hqueued r hr, hdraining r hr⟩, hrast, hnamed, fun c hc => ?_⟩
  rcases (s.inFlight_pos c).1 hc with ⟨o, ho, rfl⟩ | e
  · exact (s.atWork_iff _).1 (hring o ho)
  · exact (s.atWork_iff _).1 (hhand c (Option.mem_toList.2 e))

/-! ### A sound generator and driver, in the words of the statement -/

/-- The strip the generator examines next is that of its request. -/
theorem State.nextStrip_eq {r : Request} (hcur : s.gen.current = some r.tag) (hreq : s.request r.tag = some r) :
    s.nextStrip = r.progress.place.next := by
  simp [State.nextStrip, State.progress, hcur, hreq]

theorem State.itemFits_iff {r : Request} (hreq : s.request r.tag = some r) :
    s.itemFits r.tag = true ↔
      ∃ it, r.items[r.progress.item]? = some it ∧ placeFits s.gen r.progress.place it = true := by
  simp [State.itemFits, hreq, Option.any_eq_true]

theorem generatorSound_iff (hq : QueueSound s.queue s.gen.current (s.load [])) :
    GeneratorSound s ↔ GeneratorFits s ∧ WaitsForRoom s := by
  cases hcur : s.gen.current with
  | none =>
    have hnext : s.nextStrip = none := by simp [State.nextStrip, State.progress, hcur]
    constructor
    · rintro ⟨hfree, -⟩
      have hfree := hfree hcur
      exact ⟨⟨fun _ => hfree, fun r _ hc => (nomatch hcur.symm.trans hc)⟩, fun e => absurd (by rw [hfree]; rfl) e⟩
    · rintro ⟨hfits, -⟩
      have hfree := hfits.free hcur
      refine ⟨fun _ => hfree, fun c hc => ?_, fun u hu => ?_, fun u hu => ?_⟩
      · rw [hcur] at hc; cases hc
      · rw [hnext] at hu; cases hu
      · rw [hfree] at hu; cases hu
  | some c =>
    obtain ⟨r, hr, rfl⟩ := hq.named c hcur
    have hreq := hq.request hr
    have hnext := State.nextStrip_eq hcur hreq
    constructor
    · rintro ⟨-, hitem, hin, hwait⟩
      simp only [Option.mem_toList] at hitem hin hwait
      refine ⟨⟨fun e => (nomatch hcur.symm.trans e), fun q hqm hc => ?_⟩, fun e => ?_⟩
      · obtain rfl := hq.unique hqm hr (Option.some.inj (hc.symm.trans hcur))
        exact ⟨(State.itemFits_iff hreq).1 (hitem _ hcur), fun u hu => hin u (hnext.trans hu),
          fun u hu => hnext.symm.trans (hwait u hu).1⟩
      · obtain ⟨u, hu⟩ := Option.ne_none_iff_exists'.1 e
        exact (hwait u hu).2
    · rintro ⟨hfits, hwaits⟩
      obtain ⟨hitem, hin, hwait⟩ := hfits.place r hr hcur
      simp only [GeneratorSound, Option.mem_toList]
      refine ⟨fun e => (nomatch hcur.symm.trans e), fun c hc => ?_, fun u hu => hin u (hnext.symm.trans hu),
        fun u hu => ⟨hnext.trans (hwait u hu), hwaits fun e => (nomatch e.symm.trans hu)⟩⟩
      obtain rfl := Option.some.inj (hcur.symm.trans hc)
      exact (State.itemFits_iff hreq).2 hitem

theorem driverSound_of_steady (h : Steady s) : DriverSound s := by
  obtain ⟨hring, hsize, hhand, hstate, hempty, hslot, hdead, hpass, hlevel⟩ := h.driver
  refine ⟨fun o ho => ⟨(hring o ho).sound, (hring o ho).live⟩, fun hd hh => ?_, ⟨hempty, fun w hw => ?_⟩, hdead, hpass,
    fun e => (h.settled e).1, hlevel⟩
  · obtain ⟨hop, hrec, hlive⟩ := hhand hd (Option.mem_toList.1 hh)
    exact ⟨hop, hrec, hlive⟩
  · have hw := Option.mem_toList.1 hw
    obtain ⟨hop, hcopy, hnames, hheld⟩ := hslot w hw
    exact ⟨hop, hcopy, hnames, fun e => (nomatch (h.settled e).2.symm.trans hw), hheld⟩

theorem driverFits_of_sound (h : DriverSound s) (hsize : s.ring.length ≤ Config.ringSize)
    (hstate : s.driver.state = .idle ∨ s.driver.state = .held ↔ s.driver.hand = none) : DriverFits s ∧ Settled s := by
  obtain ⟨hring, hhand, ⟨hempty, hslot⟩, hdead, hpass, hidle, hlevel⟩ := h
  refine ⟨⟨fun o ho => ⟨(hring o ho).1, (hring o ho).2⟩, hsize, fun hd hh => ?_, hstate, hempty, fun w hw => ?_, hdead,
    hpass, hlevel⟩, fun e => ⟨hidle e, ?_⟩⟩
  · obtain ⟨hop, hrec, hlive⟩ := hhand hd (Option.mem_toList.2 hh)
    exact ⟨hop, hrec, hlive⟩
  · obtain ⟨hop, hcopy, hnames, -, hheld⟩ := hslot w (Option.mem_toList.2 hw)
    exact ⟨hop, hcopy, hnames, hheld⟩
  · by_contra hn
    obtain ⟨w, hw⟩ := Option.ne_none_iff_exists'.1 hn
    exact (hslot w (Option.mem_toList.2 hw)).2.2.2.1 e

/-- Outside reset, with image and settings sound, the sound unit is the steady one. -/
theorem steady_iff (himage : ImageSound s.image) (hset : SettingsSound s.settings) :
    Steady s ↔ WorkSound s ∧ GeneratorSound s ∧ DriverSound s ∧ TouchSound s ∧ Calm s := by
  constructor
  · intro h
    exact ⟨workSound_of_steady h, (generatorSound_iff h.queue).2 ⟨h.gen, h.waits⟩, driverSound_of_steady h, h.touch,
      h.calm⟩
  · rintro ⟨hwork, hgen, hdriver, htouch, hcalm⟩
    have hq := queueSound_of_work hwork
    obtain ⟨hfits, hwaits⟩ := (generatorSound_iff hq).1 hgen
    obtain ⟨-, -, -, -, -, -, -, -, hsize, hstate, hheld, hchosen⟩ := hwork
    obtain ⟨hdfits, hsettled⟩ := driverFits_of_sound hdriver hsize hstate
    exact ⟨⟨⟨⟨hq, hdfits, hheld, himage, hset⟩, hfits⟩, hchosen, hwaits⟩, hsettled, hcalm, htouch⟩

/-- Settles O3: the blocks are kept one by one (`blocksKept_step`), and outside reset every command keeps the unit steady
(`awake_step`), which is what the statement asks of the blocks together (`steady_iff`). -/
theorem everyStepKeepsUnitSound : Obligations.EveryStepKeepsUnitSound := by
  intro s t hsound hstep
  obtain ⟨⟨hstore, hreports, himage, hlink, hpanel⟩, hwork⟩ := hsound
  have hawake : Awake s := fun hr => (steady_iff himage hpanel.1).2 (hwork hr)
  have hblocks := blocksKept_step hstep
  refine ⟨⟨hblocks.store hstore, hblocks.reports hreports, hblocks.image himage, hblocks.link hlink,
    hblocks.panel hpanel⟩, fun hr => ?_⟩
  exact (steady_iff (hblocks.image himage) (hblocks.panel hpanel).1).1 (awake_step hawake hstep hr)

end Sys2Proof.Machine
end

