-- ==== Sys2Proof/Proofs/WorkAgrees.lean ====
section
/-!
SUPPORT. Queue, generator, ring and hand agree (`WorkSound`), whatever image, masks, panel and touch block hold: what
that says of a state, and that the generator's events keep it (R19 to R31, R77 to R98).
-/

-- One proof at a time: side by side, the proofs' threads reserve more memory than the check allows.
set_option Elab.async false

namespace Sys2Proof.Machine

variable {s t : State} {r : Request} {owed : List Nat}

/-! ### Agreement -/

/-- The blocks that the work in flight is read from. -/
structure WorkView where
  queue : RequestQueue
  current : Option Nat
  ring : List RingOp
  driver : DriverState
  hand : Option Hand

/-- The work in flight of a unit. -/
def State.work (s : State) : WorkView := ⟨s.queue, s.gen.current, s.ring, s.driver.state, s.driver.hand⟩

theorem State.work_eq_iff :
    t.work = s.work ↔ t.queue = s.queue ∧ t.gen.current = s.gen.current ∧ t.ring = s.ring ∧
      t.driver.state = s.driver.state ∧ t.driver.hand = s.driver.hand :=
  WorkView.mk.injEq .. ▸ Iff.rfl

/-- Queue, generator, ring and hand agree while the operations of the tags `owed` are gone but not settled yet (R30). -/
structure Agree (owed : List Nat) (s : State) : Prop where
  queue : QueueSound s.queue s.gen.current (s.load owed)
  ringSize : s.ring.length ≤ Config.ringSize
  handState : s.driver.state = .idle ∨ s.driver.state = .held ↔ s.driver.hand = none
  heldQueued : s.driver.state = .held → ∀ r ∈ s.queue.requests, r.state = .queued

/-- They agree, nothing is owed, and the generator arbiter has made its choice (R25). -/
structure InStep (s : State) : Prop extends Agree [] s where
  chosen : Chosen s

/-- To be in step is what `WorkSound` asks. -/
theorem inStep_iff_workSound : InStep s ↔ WorkSound s := by
  constructor
  · intro h
    obtain ⟨htags, hcounter, hhosts, hechoes, heach, hrast, hnamed, hworking⟩ := h.queue
    refine ⟨⟨htags, fun r hr => (heach r hr).tag, hcounter, hhosts, hechoes, fun r hr => (heach r hr).items⟩,
      (rastering_iff htags).2 ⟨hrast, hnamed⟩, fun r hr => (heach r hr).outstanding,
      fun r hr => ⟨(heach r hr).item, (heach r hr).done⟩, fun r hr => (heach r hr).queued,
      fun r hr => (heach r hr).draining, fun o ho => ?_, fun c hc => ?_, h.ringSize, h.handState, h.heldQueued,
      h.chosen⟩
    · exact (s.atWork_iff _).2 (hworking _ ((s.inFlight_pos _).2 (.inl ⟨o, ho, rfl⟩)))
    · exact (s.atWork_iff _).2 (hworking _ ((s.inFlight_pos _).2 (.inr (Option.mem_toList.1 hc))))
  · intro h
    have hqueue := queueSound_of_work h
    obtain ⟨-, -, -, -, -, -, -, -, hsize, hhand, hheld, hchosen⟩ := h
    exact ⟨⟨hqueue, hsize, hhand, hheld⟩, hchosen⟩

/-- Agreement is a matter of the work in flight alone. -/
theorem Agree.of_work (h : Agree owed s) (e : t.work = s.work) : Agree owed t := by
  obtain ⟨hqueue, hcur, hring, hstate, hhand⟩ := State.work_eq_iff.1 e
  refine ⟨?_, ?_, ?_, ?_⟩
  · rw [hqueue, hcur, State.load_congr hring hhand]; exact h.queue
  · rw [hring]; exact h.ringSize
  · rw [hstate, hhand]; exact h.handState
  · rw [hstate, hqueue]; exact h.heldQueued

theorem InStep.of_work (h : InStep s) (e : t.work = s.work) : InStep t where
  toAgree := h.toAgree.of_work e
  chosen := by
    obtain ⟨hqueue, hcur, -, hstate, -⟩ := State.work_eq_iff.1 e
    rw [Chosen, hqueue, hcur, hstate]; exact h.chosen

/-- Queue and generator change, and stay sound for the same operations in flight. -/
theorem Agree.records {owed' : List Nat} (h : Agree owed s) (hring : t.ring = s.ring) (hdriver : t.driver = s.driver)
    (hq : QueueSound t.queue t.gen.current (s.load owed'))
    (hh : s.driver.state = .held → ∀ r ∈ t.queue.requests, r.state = .queued) : Agree owed' t where
  queue := by rw [State.load_congr hring (by rw [hdriver])]; exact hq
  ringSize := by rw [hring]; exact h.ringSize
  handState := by rw [hdriver]; exact h.handState
  heldQueued := by rw [hdriver]; exact hh

/-- While the generator works the driver is not HELD. -/
theorem Agree.notHeld (h : Agree owed s) {c : Nat} (hc : s.gen.current = some c) : s.driver.state ≠ .held := fun hd => by
  obtain ⟨r, hr, rfl⟩ := h.queue.named c hc
  have hq := h.heldQueued hd r hr
  rw [(h.queue.rastering r hr).2 hc] at hq
  cases hq

/-- A generator at work has no choice to make. -/
theorem Agree.inStep_of_current (h : Agree [] s) {c : Nat} (hc : s.gen.current = some c) : InStep s :=
  ⟨h, fun e => (nomatch hc.symm.trans e)⟩

/-- With an operation in hand the driver is neither IDLE nor HELD. -/
theorem Agree.busy (h : Agree owed s) {hd : Hand} (hh : s.driver.hand = some hd) :
    s.driver.state ≠ .idle ∧ s.driver.state ≠ .held := by
  have hnot : ¬(s.driver.state = .idle ∨ s.driver.state = .held) := fun e => (nomatch hh.symm.trans (h.handState.1 e))
  exact not_or.1 hnot

/-- Outside IDLE and HELD there is an operation in hand. -/
theorem Agree.hand (h : Agree owed s) (hidle : s.driver.state ≠ .idle) (hheld : s.driver.state ≠ .held) :
    ∃ hd, s.driver.hand = some hd :=
  Option.ne_none_iff_exists'.1 fun hn => (h.handState.2 hn).elim hidle hheld

/-- The generator arbiter makes the choice that a change of the queue has left open (R25, R26). -/
theorem Agree.arbiter (h : Agree [] s) : InStep s.generatorArbiter := by
  rcases s.generatorArbiter_cases with ⟨he, hn⟩ | ⟨r, hr, hfree, hheld, he⟩
  · rw [he]
    exact ⟨h, fun hc hd => State.arbiterChoice_none (hn hc hd)⟩
  · obtain ⟨hmem, hqueued⟩ := State.arbiterChoice_some hr
    have hqueue : QueueSound s.queue none (s.load []) := hfree ▸ h.queue
    rw [he]
    refine ⟨h.records rfl rfl (hqueue.choose (fun _ => rfl) (fun _ => rfl) (fun _ => rfl) ⟨r, hmem, rfl⟩
      fun q hq e hs => ?_) fun hd => absurd hd hheld, fun hc => (nomatch hc)⟩
    obtain rfl := h.queue.unique hq hmem e
    exact hs.start hqueued

/-! ### The request in hand of the generator -/

/-- The generator works on an item of the request `r`. -/
structure OnItem (s : State) (r : Request) : Prop extends Agree [] s where
  current : s.gen.current = some r.tag
  mem : r ∈ s.queue.requests
  item : r.progress.item < r.items.length

/-- The generator's next event finds its request at an item. -/
theorem Agree.onItem (h : Agree [] s) {it : Item} (hr : s.gen.current.bind s.request = some r)
    (hit : r.items[r.progress.item]? = some it) : OnItem s r where
  toAgree := h
  current := (State.currentRequest_some hr).2
  mem := (State.currentRequest_some hr).1
  item := (List.getElem?_eq_some_iff.1 hit).1

theorem OnItem.of_work (h : OnItem s r) (e : t.work = s.work) : OnItem t r where
  toAgree := h.toAgree.of_work e
  current := (State.work_eq_iff.1 e).2.1.trans h.current
  mem := (State.work_eq_iff.1 e).1 ▸ h.mem
  item := h.item

theorem OnItem.setViewport (h : OnItem s r) (id : Nat) (v : Viewport) : OnItem (s.setViewport id v) r :=
  h.of_work rfl

theorem OnItem.rastering (h : OnItem s r) : r.state = .rastering := (h.queue.rastering r h.mem).2 h.current

/-- The record of the generator's request is changed, its state kept. -/
theorem OnItem.change (h : OnItem s r) {f : Request → Request} (htag : ∀ q, (f q).tag = q.tag)
    (horigin : ∀ q, (f q).origin = q.origin) (hstate : ∀ q, (f q).state = q.state)
    (hsound : RequestSound (s.load [] r.tag) r → RequestSound (s.load [] r.tag) (f r)) :
    Agree [] (s.changeRequest r.tag f) := by
  refine h.toAgree.records rfl rfl (h.queue.changeKeep r.tag htag horigin hstate fun q hq e hs => ?_)
    fun hd => absurd hd (h.notHeld h.current)
  obtain rfl := h.queue.unique hq h.mem e
  exact hsound hs

/-- What no count speaks of is changed in the record of the generator's request: its marks, or its place. -/
theorem OnItem.mark (h : OnItem s r) {f : Request → Request} (horigin : ∀ q, (f q).origin = q.origin)
    (hf : ∀ q, (f q).tag = q.tag ∧ (f q).items = q.items ∧ (f q).outstanding = q.outstanding ∧
      (f q).progress.item = q.progress.item ∧ (f q).itemsDone = q.itemsDone ∧ (f q).state = q.state) :
    OnItem (s.changeRequest r.tag f) (f r) := by
  obtain ⟨htag, hitems, hout, hitem, hdone, hstate⟩ := hf r
  refine ⟨h.change (fun q => (hf q).1) horigin (fun q => (hf q).2.2.2.2.2) fun hs =>
    hs.marked h.rastering htag hitems hout hitem hdone hstate, by rw [htag]; exact h.current,
    State.mem_changeRequest_self h.mem f, ?_⟩
  rw [hitem, hitems]; exact h.item

/-- The generator takes another place in the item. -/
theorem OnItem.setPlace (h : OnItem s r) (p : Place) : InStep (s.setPlace r.tag p) :=
  (h.mark (f := fun q => { q with progress := { q.progress with place := p } }) (fun _ => rfl)
    fun _ => ⟨rfl, rfl, rfl, rfl, rfl, rfl⟩).toAgree.inStep_of_current h.current

/-! ### Ends of items, codes and requests (R27, R28, R79 to R83, R98) -/

/-- The generator's request stops with nothing outstanding: it leaves, and the generator is free. -/
theorem Agree.stop_leave (h : Agree [] s) (hcur : s.gen.current = some r.tag) (hr : r ∈ s.queue.requests)
    (hout : r.outstanding = 0) (o : LeaveOutcome) : Agree [] (s.freeGenerator.leave r o) := by
  have hload : s.load [] r.tag = 0 := (h.queue.each r hr).outstanding.symm.trans hout
  refine h.records (by simp) (by simp) ?_ fun hd => absurd hd (h.notHeld hcur)
  have hrem := h.queue.remove hload
  rw [if_pos hcur] at hrem
  rw [State.leave_queue, State.leave_gen]
  exact hrem

/-- The generator's request stops with operations outstanding: it drains, and the generator is free. -/
theorem Agree.stop_drain (h : Agree [] s) (hcur : s.gen.current = some r.tag) (hr : r ∈ s.queue.requests)
    (hout : r.outstanding ≠ 0) {f : Request → Request} (horigin : ∀ q, (f q).origin = q.origin)
    (hf : ∀ q, (f q).tag = q.tag ∧ (f q).items = q.items ∧ (f q).outstanding = q.outstanding ∧
      (f q).progress = q.progress ∧ (f q).itemsDone = q.itemsDone ∧ (f q).state = .draining) :
    Agree [] (s.freeGenerator.changeRequest r.tag f) := by
  refine h.records rfl rfl (h.queue.drain hcur (fun q => (hf q).1) horigin (fun q => (hf q).2.2.2.2.2) ?_)
    fun hd => absurd hd (h.notHeld hcur)
  intro q hq e hs
  obtain rfl := h.queue.unique hq hr e
  obtain ⟨htag, hitems, hsame, hprogress, hdone, hstate⟩ := hf q
  exact ⟨htag ▸ hs.tag, by simpa only [Request.itemsSound, hitems] using hs.items, hsame.trans hs.outstanding,
    by rw [hprogress, hdone]; exact hs.item, by rw [hdone, hitems]; exact hs.done,
    fun e' => (nomatch hstate.symm.trans e'), fun _ => by rw [hsame]; exact Nat.pos_of_ne_zero hout⟩

theorem Agree.endGeneration (h : Agree [] s) (hcur : s.gen.current = some r.tag) (hr : r ∈ s.queue.requests) :
    InStep (s.endGeneration r) := by
  unfold State.endGeneration
  dsimp only
  split
  next hout => exact (h.stop_leave hcur hr hout .done).arbiter
  next hout =>
    exact (h.stop_drain hcur hr hout (f := fun q => { q with state := .draining }) (fun _ => rfl)
      fun _ => ⟨rfl, rfl, rfl, rfl, rfl, rfl⟩).arbiter

theorem OnItem.finishItem (h : OnItem s r) : InStep (s.finishItem r.tag) := by
  have hcounted := h.change
    (f := fun r => { r with itemsDone := r.itemsDone + 1, progress := ⟨r.progress.item + 1, .itemStart⟩ })
    (fun _ => rfl) (fun _ => rfl) (fun _ => rfl) fun hs => hs.counted h.rastering h.item
  have hmem := State.mem_changeRequest_self h.mem fun r =>
    { r with itemsDone := r.itemsDone + 1, progress := ⟨r.progress.item + 1, .itemStart⟩ }
  have hfound := hcounted.queue.request hmem
  unfold State.finishItem
  dsimp only at hfound ⊢
  rw [hfound]
  dsimp only
  split
  · exact (hcounted.inStep_of_current h.current).of_work (State.work_eq_iff.2 ⟨rfl, h.current.symm, rfl, rfl, rfl⟩)
  · exact hcounted.endGeneration h.current hmem

theorem OnItem.nextCode (h : OnItem s r) (codes i : Nat) : InStep (s.nextCode r.tag codes i) := by
  unfold State.nextCode
  split
  · exact (h.setPlace _).of_work rfl
  · exact h.finishItem

theorem OnItem.endCell (h : OnItem s r) (codes i : Nat) (l : Latch) (wrapped : Bool) :
    InStep (s.endCell r codes i l wrapped) :=
  (h.setViewport _ _).nextCode codes i

/-! ### Examining a strip (R91 to R97) -/

/-- The place moves on, the record of the generator's request having been changed to `q` (R94, R96). -/
theorem OnItem.moveOn {q : Request} (h : OnItem s q) (htag : q.tag = r.tag) (it : Item) (c : Claim) (u : Strip) :
    InStep (s.moveOn r it c u) := by
  have hg : OnItem { s with gen := { s.gen with waiting := none } } q := h.of_work rfl
  unfold State.moveOn
  dsimp only
  rw [← htag]
  split
  · exact hg.setPlace _
  · unfold State.endCell
    rw [← htag]
    exact (hg.setViewport _ _).nextCode _ _
  · exact hg.nextCode _ _
  · exact hg.setPlace _
  · exact hg.finishItem

/-- An operation is appended for the generator's request (R27, R96). -/
theorem OnItem.append (h : OnItem s r) (op : StripOp) (hroom : s.ring.length < Config.ringSize) :
    OnItem (s.append r.tag op) r.appended where
  queue := by
    refine h.queue.change r.tag (f := Request.appended) (fun _ => rfl) (fun _ => rfl) (fun _ => rfl)
      (fun c hc => by rw [State.load_append, if_neg hc, Nat.add_zero]) (fun q hq e => ?_) fun _ =>
      ⟨r, h.mem, rfl, by rw [h.rastering]; decide⟩
    obtain rfl := h.queue.unique hq h.mem e
    have hs := h.queue.each q hq
    exact ⟨hs.tag, hs.items, by rw [State.load_append, if_pos rfl, ← hs.outstanding]; rfl, hs.item, hs.done,
      fun e' => (nomatch h.rastering.symm.trans e'), fun e' => (nomatch h.rastering.symm.trans e')⟩
  ringSize := by simpa [State.append] using hroom
  handState := by
    rcases s.append_cases r.tag op with ⟨-, e⟩ | e <;> rw [e] <;> exact h.handState
  heldQueued hd := by
    refine absurd (a := s.driver.state = .held) ?_ (h.notHeld h.current)
    rcases s.append_cases r.tag op with ⟨-, e⟩ | e <;> rw [e] at hd <;> exact hd
  current := h.current
  mem := State.mem_changeRequest_self h.mem Request.appended
  item := h.item

theorem OnItem.examine (h : OnItem s r) (it : Item) (v : ItemValues) (u : Strip) : InStep (s.examine r it v u) := by
  unfold State.examine
  dsimp only
  split
  · exact h.moveOn rfl it _ u
  · split
    next hroom => exact (h.append _ hroom).moveOn rfl it _ u
    next => exact (h.toAgree.inStep_of_current h.current).of_work rfl

/-- A stalled generator examines its waiting strip again (R97). -/
theorem InStep.reexamine (h : InStep s) : InStep s.reexamine := by
  unfold State.reexamine
  split
  next hp =>
    obtain ⟨hr, -, hit⟩ := State.inProgress_some hp
    exact (h.toAgree.onItem hr hit).examine _ _ _
  next => exact h

/-! ### Starting items and glyphs (R78 to R82, R85 to R88) -/

theorem OnItem.startGraphic (h : OnItem s r) (it : Item) (v : ItemValues) : InStep (s.startGraphic r it v) := by
  have hm : OnItem (s.changeRequest r.tag fun q => { q with clipped := q.clipped || it.isClipped v.rect })
      { r with clipped := r.clipped || it.isClipped v.rect } :=
    h.mark (fun _ => rfl) fun _ => ⟨rfl, rfl, rfl, rfl, rfl, rfl⟩
  unfold State.startGraphic
  dsimp only
  split
  · exact hm.finishItem
  · split
    · exact hm.finishItem
    · exact hm.setPlace _

/-- The glyph that a code lacks is marked. -/
theorem OnItem.missing (h : OnItem s r) :
    OnItem (s.changeRequest r.tag fun q => { q with missingGlyph := true }) { r with missingGlyph := true } :=
  h.mark (fun _ => rfl) fun _ => ⟨rfl, rfl, rfl, rfl, rfl, rfl⟩

theorem OnItem.startText (h : OnItem s r) (font : Nat) (start : Option (Int × Int)) :
    InStep (s.startText r font start) := by
  unfold State.startText
  split
  · cases start with
    | none => exact h.setPlace _
    | some p => exact (h.setViewport _ _).setPlace _
  · exact h.missing.finishItem

theorem OnItem.startItem (h : OnItem s r) (it : Item) : InStep (s.startItem r it) := by
  have hv : OnItem (s.withValues (s.readValues r)) r := h.of_work rfl
  rw [State.startItem_eq]
  cases it with
  | cursor x y => exact (hv.setViewport _ _).finishItem
  | newline rows => exact (hv.setViewport _ _).finishItem
  | text font start codes => exact hv.startText font start
  | dot | line | box | image | clear => exact hv.startGraphic _ _

theorem OnItem.startGlyph (h : OnItem s r) (v : ItemValues) (font : Nat) (codes : List Nat) (i : Nat) :
    InStep (s.startGlyph r v font codes i) := by
  unfold State.startGlyph
  split
  · exact h.missing.nextCode _ _
  · dsimp only
    generalize wrapsBefore v (s.viewport r.viewport) _ = wraps
    generalize (if wraps = true then (0 : Int) else _) = x
    generalize (if wraps = true then _ else (s.viewport r.viewport).cy) = y
    generalize Latch.mk _ _ _ _ = l
    have hm : OnItem (s.changeRequest r.tag fun q => { q with clipped := q.clipped || l.isClipped v.rect x y })
        { r with clipped := r.clipped || l.isClipped v.rect x y } :=
      h.mark (fun _ => rfl) fun _ => ⟨rfl, rfl, rfl, rfl, rfl, rfl⟩
    split
    · exact hm.endCell _ _ _ _
    · exact (hm.setPlace _).of_work rfl

/-- One event of the generator (R91). -/
theorem InStep.generatorEvent (h : InStep s) : InStep s.generatorEvent := by
  unfold State.generatorEvent
  split
  next r hr _ =>
    split
    next hit _ => exact (h.toAgree.onItem hr hit).startItem _
    next hit _ _ => exact (h.toAgree.onItem hr hit).startGlyph _ _ _ _
    next hit _ _ => exact (h.toAgree.onItem hr hit).examine _ _ _
    next hit _ _ => exact (h.toAgree.onItem hr hit).examine _ _ _
    next => exact h
  next => exact h

end Sys2Proof.Machine
end

