-- ==== Sys2Proof/Proofs/WorkDriven.lean ====
section
/-!
SUPPORT. The driver's events keep queue, generator, ring and hand in agreement: settled requests, phases, taken
operations, the entry to HELD, and dots found dead (R8 to R12, R29, R30, R101, R106 to R120).
-/

-- One proof at a time: side by side, the proofs' threads reserve more memory than the check allows.
set_option Elab.async false

namespace Sys2Proof.Machine

variable {s t : State} {owed : List Nat}

/-! ### Settling (R29, R30) -/

/-- One operation that is gone is settled with its request (R30). -/
theorem Agree.settleOne {c : Nat} (h : Agree (c :: owed) s) : Agree owed (s.settleOne c) := by
  obtain ⟨r, hr, rfl, hs⟩ := h.queue.working c (by simp [State.load_cons])
  have hload : s.load (r.tag :: owed) r.tag = s.load owed r.tag + 1 := by simp [State.load_cons]
  have hother : ∀ c, c ≠ r.tag → s.load owed c = s.load (r.tag :: owed) c := fun c hc => by simp [State.load_cons, hc]
  have hout : r.outstanding = s.load owed r.tag + 1 := (h.queue.each r hr).outstanding.trans hload
  refine h.records (by simp) (by simp) ?_ fun hd => absurd (h.heldQueued hd r hr) hs
  unfold State.settleOne
  rw [h.queue.request hr]
  dsimp only
  split
  next hd =>
    rw [State.leave_queue, State.leave_gen, State.changeRequest_queue]
    dsimp only
    rw [filter_map_change _ _ (f := fun r => { r with outstanding := r.outstanding - 1 }) fun _ => rfl]
    exact h.queue.drained hr hd.1 hother (by omega)
  next hd =>
    refine h.queue.change r.tag (f := fun r => { r with outstanding := r.outstanding - 1 }) (fun _ => rfl)
      (fun _ => rfl) (fun _ => rfl) hother (fun q hq e => ?_) fun _ => ⟨r, hr, rfl, hs⟩
    obtain rfl := h.queue.unique hq hr e
    have hq := h.queue.each q hq
    exact { hq with
      outstanding := by simp [hout]
      queued := fun e' => absurd e' hs
      draining := fun e' => Nat.pos_of_ne_zero fun e0 => hd ⟨e', e0⟩ }

/-- Every operation that is gone is settled, one after another (R30, R101). -/
theorem Agree.settleAll {l : List RingOp} (h : Agree (l.map (·.tag)) s) (hc : Chosen s) :
    InStep (l.foldl (fun u o => u.settleOne o.tag) s) := by
  induction l generalizing s with
  | nil => exact ⟨h, hc⟩
  | cons o l ih => exact ih h.settleOne (chosen_settleOne hc _)

/-! ### Phases and the entry to HELD (R111, R112, R118 to R120) -/

theorem Agree.enterHeld (h : Agree owed s) {hd : Hand} (hh : s.driver.hand = some hd) : InStep s.enterHeld := by
  rw [State.enterHeld_eq hh h.queue.tags]
  refine ⟨⟨h.queue.onlyQueued.congr_load fun c => State.load_nothing rfl rfl c, Nat.zero_le _, ?_, fun _ r hr => ?_⟩,
    fun _ e => absurd rfl e⟩
  · simp [State.heldWith]
  · simpa using (List.mem_filter.1 hr).2

/-- The driver goes on with the operation in hand: its state and the phase record change. -/
theorem InStep.goOn (h : InStep s) {hd hd' : Hand} (hh : s.driver.hand = some hd) (hsource : hd'.source = hd.source)
    {d : DriverState} (hidle : d ≠ .idle) (hheld : d ≠ .held)
    (e : t.work = ⟨s.queue, s.gen.current, s.ring, d, some hd'⟩) : InStep t := by
  have htag : hd'.tag = hd.tag := by unfold Hand.tag; rw [hsource]
  have hgoes : InStep { s with driver := { s.driver with state := d, hand := some hd' } } := by
    refine ⟨⟨h.queue.congr_load fun c => ?_, h.ringSize, ?_, fun e => absurd e hheld⟩,
      fun hc _ => h.chosen hc (h.busy hh).2⟩
    · rw [State.load_eq, State.load_eq, hh]
      simp only [Option.bind_some, htag]
    · simp [hidle, hheld]
  exact hgoes.of_work e

theorem InStep.startPhase (h : InStep s) {hd : Hand} (hh : s.driver.hand = some hd) : InStep (s.startPhase hd) := by
  have hpulse : InStep (s.pulsing hd) :=
    h.goOn hh (Hand.mark_eq hd .pulsing).2.1 (d := .pulse) (by decide) (by decide) rfl
  rw [State.startPhase_eq]
  split
  · exact hpulse.toAgree.enterHeld rfl
  · exact hpulse

/-- The phase in hand is tried; with an empty hand there is none. -/
theorem InStep.tryPhase (h : InStep s) : InStep s.tryPhase := by
  unfold State.tryPhase
  split
  next => exact h
  next hd hh =>
    split
    · exact h.startPhase hh
    · exact h.goOn hh rfl (d := .waitCharge) (by decide) (by decide) (by rw [← hh]; rfl)

theorem InStep.retryPhase (h : InStep s) : InStep s.retryPhase := by
  unfold State.retryPhase
  split
  · exact h.tryPhase
  · exact h

/-! ### Taking and completing an operation (R108 to R110, R114, R115) -/

theorem InStep.takeRing (h : InStep s) (hidle : s.driver.state = .idle) {o : RingOp} {rest : List RingOp}
    (hring : s.ring = o :: rest) (n : Nat) : InStep (s.takeRing o rest n) := by
  have hnone : s.driver.hand = none := h.handState.1 (.inl hidle)
  have htaken : InStep { s with
      ring := rest
      driver := { s.driver with state := .waitCharge, hand := some (handOf (.ring o.tag) o.op), passOver := n } } := by
    refine ⟨⟨h.queue.congr_load fun c => ?_, ?_, by simp, fun e => (nomatch e)⟩,
      fun hc _ => h.chosen hc (by rw [hidle]; decide)⟩
    · rw [State.load_eq, State.load_eq, hnone, hring]
      simp only [Option.bind_some, Option.bind_none, Hand.tag, handOf, List.filter_cons, beq_iff_eq, Option.some.injEq]
      split <;> simp
    · have := h.ringSize
      rw [hring] at this
      exact (Nat.le_succ _).trans this
  exact htaken.reexamine.tryPhase

theorem InStep.takeSweep (h : InStep s) (hidle : s.driver.state = .idle) (w : StripOp) : InStep (s.takeSweep w) := by
  have hnone : s.driver.hand = none := h.handState.1 (.inl hidle)
  have htaken : InStep { s with
      sweep := { s.sweep with slot := none }
      driver := { s.driver with state := .waitCharge, hand := some (handOf .sweep w), passOver := 0 } } := by
    refine ⟨⟨h.queue.congr_load fun c => ?_, h.ringSize, by simp, fun e => (nomatch e)⟩,
      fun hc _ => h.chosen hc (by rw [hidle]; decide)⟩
    rw [State.load_eq, State.load_eq, hnone]
    rfl
  exact htaken.tryPhase

theorem InStep.driverArbiter (h : InStep s) : InStep s.driverArbiter := by
  unfold State.driverArbiter
  split
  next hidle =>
    split
    next => exact h
    next hring _ => exact h.takeRing hidle hring _
    next => exact h.takeSweep hidle _
    next hring _ =>
      split
      · exact h.takeRing hidle hring _
      · exact h.takeSweep hidle _
  next => exact h

/-- With the hand emptied, the operation that was in it is still to settle. -/
theorem Agree.handEmptied (h : Agree [] s) {hd : Hand} (hh : s.driver.hand = some hd) :
    Agree hd.tag.toList { s with driver := { s.driver with state := .idle, hand := none } } := by
  refine ⟨h.queue.congr_load fun c => ?_, h.ringSize, by simp, fun e => (nomatch e)⟩
  rw [State.load_eq, State.load_eq, hh]
  obtain ⟨src, op, ph, a, b⟩ := hd
  cases src <;> simp [Hand.tag, List.count_singleton]

theorem InStep.completeOp (h : InStep s) {hd : Hand} (hh : s.driver.hand = some hd) : InStep (s.completeOp hd) := by
  have hempty := h.toAgree.handEmptied hh
  have hchosen : Chosen { s with driver := { s.driver with state := .idle, hand := none } } :=
    fun hc _ => h.chosen hc (h.busy hh).2
  unfold State.completeOp
  dsimp only
  unfold Hand.tag at hempty
  split
  next hs =>
    rw [hs] at hempty
    exact InStep.driverArbiter ⟨hempty.settleOne, chosen_settleOne hchosen _⟩
  next hs =>
    rw [hs] at hempty
    exact InStep.driverArbiter ⟨hempty, hchosen⟩

theorem InStep.gapEnds (h : InStep s) (hgap : s.driver.state = .gap) : InStep s.gapEnds := by
  unfold State.gapEnds
  split
  next => exact h
  next hd hh =>
    split
    · exact (h.goOn hh (hd' := { hd with phase := .clear }) rfl (d := .gap) (by decide) (by decide)
        (by rw [← hgap]; rfl)).tryPhase
    · exact h.completeOp hh

/-! ### Dots found dead (R8 to R12, R101) -/

/-- A strike flags requests and takes operations from the ring, which are then owed. -/
theorem Agree.struck (h : Agree [] s) (hheld : s.driver.state ≠ .held) (u : Strip) (p : Nat) :
    Agree ((struckAway s.ring u p).map (·.tag)) (s.struck u p) where
  queue := by
    have hload : ∀ c, (s.struck u p).load ((struckAway s.ring u p).map (·.tag)) c = s.load [] c := fun c => by
      rw [State.load_eq, State.load_eq, ← length_struck s.ring u p c]
      exact Nat.add_right_comm _ _ _
    refine QueueSound.congr_load ?_ hload
    refine h.queue.map (fun _ => rfl) (fun _ => rfl) (fun r hr => ?_) h.queue.rastering h.queue.named h.queue.working
    obtain ⟨htag, hitems, hout, hitem, hdone, hq, hdr⟩ := h.queue.each r hr
    exact ⟨htag, hitems, hout, hitem, hdone, hq, hdr⟩
  ringSize := (List.length_filterMap_le _ _).trans h.ringSize
  handState := h.handState
  heldQueued e := absurd e hheld

theorem InStep.strike (h : InStep s) (hheld : s.driver.state ≠ .held) (u : Strip) (p : Nat) :
    InStep (s.strike u p) := by
  have hagree := h.toAgree.struck hheld u p
  have hchosen : Chosen (s.struck u p) := fun hc hd q hq => by
    obtain ⟨r, hr, rfl⟩ := List.mem_map.1 hq
    exact h.chosen hc hd r hr
  rw [State.strike_eq]
  split
  · exact (hagree.settleAll hchosen).reexamine
  next hnone =>
    have hnil : struckAway s.ring u p = [] := by
      rw [struckAway_eq, List.filter_eq_nil_iff]
      exact fun o ho e => hnone ⟨o, ho, by simpa using e⟩
    rw [hnil] at hagree
    exact ⟨hagree, hchosen⟩

theorem InStep.foundDead (h : InStep s) (hheld : s.driver.state ≠ .held) (u : Strip) (source : SenseSource) (p : Nat) :
    InStep (s.foundDead u source p) := by
  rw [State.foundDead_eq]
  split
  · exact InStep.strike (s := s.recordDead u source p) (h.of_work rfl) hheld u p
  · exact h.of_work rfl

/-- The dots of a sense result are found dead one after another; the driver stays in its gap (R8). -/
theorem InStep.foundAll (h : InStep s) (hgap : s.driver.state = .gap) (u : Strip) (source : SenseSource)
    (l : List Nat) :
    InStep (l.foldl (fun s p => s.foundDead u source p) s) ∧
      (l.foldl (fun s p => s.foundDead u source p) s).driver.state = .gap := by
  induction l generalizing s with
  | nil => exact ⟨h, hgap⟩
  | cons p l ih =>
    exact ih (h.foundDead (by rw [hgap]; decide) u source p)
      ((drawKeeps_foundDead s u source p).driverFields.1.trans hgap)

theorem InStep.pulseEnds (h : InStep s) (sense : Mask) : InStep (s.pulseEnds sense) := by
  cases hh : s.driver.hand with
  | none => simpa [State.pulseEnds, hh] using h
  | some hd =>
    have hended : InStep (s.pulseEnded hd) :=
      h.goOn hh (Hand.mark_eq hd .completed).2.1 (d := .gap) (by decide) (by decide) rfl
    obtain ⟨hsensed, hgap⟩ := hended.foundAll rfl hd.op.strip hd.senseSource (deadPositions (hd.op.mask hd.phase) sense)
    rw [State.pulseEnds_eq hh]
    split
    · exact hsensed.gapEnds hgap
    · exact hsensed

/-! ### Recharge and sweep (R117, R128 to R131) -/

theorem InStep.recharge (h : InStep s) : InStep s.recharge := InStep.retryPhase (h.of_work rfl)

theorem InStep.sweepExpires (h : InStep s) : InStep s.sweepExpires := by
  unfold State.sweepExpires
  split
  · exact h
  · split
    · exact h.of_work rfl
    · unfold State.sweepLooks
      split
      · exact h.of_work rfl
      · split
        · exact h.of_work rfl
        · exact InStep.driverArbiter (h.of_work rfl)

end Sys2Proof.Machine
end

