-- ==== Sys2Proof/Proofs/WorkKept.lean ====
section
/-!
SUPPORT. Scans, messages, restarts and the link keep queue, generator, ring and hand in agreement, and so does every step
(R22 to R39, R123, R136 to R150, R165 to R187).
-/

-- One proof at a time: side by side, the proofs' threads reserve more memory than the check allows.
set_option Elab.async false

namespace Sys2Proof.Machine

variable {s t : State}

/-! ### Requests that join, and the end of a scan (R19 to R25, R136 to R150) -/

/-- A request joins where its pool has room, and the generator arbiter chooses. -/
theorem InStep.join (h : InStep s) {o : Origin} {v : Nat} {c : RuleChoice} {f : Bool} {its : List Item}
    (hhost : o = .host → (s.pool .host).length < Config.hostPool)
    (hecho : o = .echo → (s.pool .echo).length < Config.echoPool)
    (hitems : ∀ r : Request, r.items = its → r.itemsSound = true) :
    InStep (s.joinRequest o v c f its).generatorArbiter := by
  have hqueue : QueueSound (s.joinRequest o v c f its).queue s.gen.current (s.load []) :=
    h.queue.join (r := ⟨s.nextTag, o, v, c, f, its, .queued, .start, 0, 0, 0, false, false, false, false⟩) hhost hecho
      rfl rfl ⟨inCount_freeNumber _ h.queue.counter, hitems _ rfl, rfl, rfl, Nat.zero_le _, fun _ => ⟨rfl, rfl, rfl⟩,
        fun e => (nomatch e)⟩
  refine Agree.arbiter (h.toAgree.records rfl rfl hqueue fun hd r hr => ?_)
  rw [State.joinRequest_queue] at hr
  rcases List.mem_append.1 hr with hr | hr
  · exact h.heldQueued hd r hr
  · rw [List.mem_singleton.1 hr]

theorem InStep.joinEcho (h : InStep s) (hroom : (s.pool .echo).length < Config.echoPool) (q : Rect) :
    InStep (s.joinEcho q) :=
  h.join (fun e => (nomatch e)) (fun _ => hroom) fun r hr => by simp [Request.itemsSound, hr]

theorem InStep.press (h : InStep s) (x y : Nat) : InStep (s.press x y) := by
  obtain ⟨c, r, echo, -, -, hroom, -, heq⟩ := s.press_eq x y
  have hmade : InStep (s.contacted c) := h.of_work rfl
  rw [heq]
  split
  next q _ => exact (hmade.joinEcho (hroom rfl) q).of_work rfl
  next => exact hmade.of_work rfl

theorem InStep.release (h : InStep s) (c : Contact) : InStep (s.release c) := by
  have closed : ∀ (u : State) (r : Report), InStep u → InStep (((u.offer r).clearCoalesce).setContact .none) :=
    fun _ _ hu => hu.of_work (State.work_eq_iff.2 (by simp))
  unfold State.release
  dsimp only
  split
  next q hecho _ =>
    simp only [Bool.and_eq_true, decide_eq_true_eq] at hecho
    exact closed _ _ (h.joinEcho hecho.2 q)
  next => exact closed _ _ h

theorem InStep.pressTest (h : InStep s) (x y n : Nat) : InStep (s.pressTest x y n) := by
  unfold State.pressTest
  dsimp only
  split
  · exact h.press x y
  · exact h.of_work rfl

theorem InStep.releaseTest (h : InStep s) (c : Contact) (n : Nat) : InStep (s.releaseTest c n) := by
  unfold State.releaseTest
  dsimp only
  split
  · exact h.release c
  · exact h.of_work rfl

theorem InStep.moveCheck (h : InStep s) (c : Contact) (x y : Nat) : InStep (s.moveCheck c x y) := by
  unfold State.moveCheck
  split <;> exact h.of_work rfl

theorem InStep.contactStep (h : InStep s) (o : ScanOutcome) : InStep (s.contactStep o) := by
  unfold State.contactStep
  split
  · exact h.pressTest _ _ _
  · exact h
  · exact h.of_work rfl
  · split
    · exact h.pressTest _ _ _
    · exact h.pressTest _ _ _
  · exact h
  · exact h.releaseTest _ _
  · exact h.moveCheck _ _ _
  · exact h.of_work rfl
  · exact h.releaseTest _ _
  · exact h.moveCheck _ _ _
  · exact h.of_work rfl

/-- Offered reports leave the work in flight as it is. -/
theorem InStep.offerAll (h : InStep s) (l : List Report) : InStep (l.foldl State.offer s) := by
  induction l generalizing s with
  | nil => exact h
  | cons r l ih => exact ih (h.of_work rfl)

theorem InStep.evaluateScan (h : InStep s) (xb : BitVec 48) (yb : BitVec 24) : InStep (s.evaluateScan xb yb) := by
  unfold State.evaluateScan
  refine (InStep.offerAll ?_ _).contactStep _
  exact h.of_work rfl

theorem InStep.scanEnds (h : InStep s) (xb : BitVec 48) (yb : BitVec 24) : InStep (s.scanEnds xb yb) := by
  unfold State.scanEnds
  split
  · exact h
  · exact h
  · split
    · unfold State.voidScan
      dsimp only
      split
      · split <;> exact h.of_work rfl
      · exact h.of_work rfl
    · exact (h.evaluateScan xb yb).of_work rfl
  · exact InStep.retryPhase ((h.evaluateScan xb yb).of_work rfl)

/-! ### DRAW, CANCEL and RESUME (R22, R33 to R36, R123) -/

theorem InStep.drawMessage (h : InStep s) (p : List Byte) : InStep (drawMessage s p).1 := by
  unfold Machine.drawMessage
  split
  · exact h
  next d hd =>
    split
    · exact h
    · split
      · exact h
      next hroom => exact h.join (fun _ => Nat.lt_of_not_le hroom) (fun e => (nomatch e)) (parseDraw_items hd)

theorem Agree.cancelOne (h : Agree [] s) {r : Request} (hr : r ∈ s.queue.requests) : Agree [] (s.cancelOne r) := by
  have hsound := h.queue.each r hr
  unfold State.cancelOne
  split
  next hs =>
    have hcur : s.gen.current ≠ some r.tag := fun e => (nomatch hs.symm.trans ((h.queue.rastering r hr).2 e))
    have hload : s.load [] r.tag = 0 := hsound.outstanding.symm.trans (hsound.queued hs).1
    have hrem := h.queue.remove hload
    rw [if_neg hcur] at hrem
    refine h.records (by simp) (by simp) ?_ fun hd q hq => h.heldQueued hd q ?_
    · rw [State.leave_queue, State.leave_gen]
      exact hrem
    · rw [State.leave_queue] at hq
      exact (List.mem_filter.1 hq).1
  next hs =>
    have hcur := (h.queue.rastering r hr).1 hs
    split
    next hout => exact h.stop_leave hcur hr hout .cancelled
    next hout =>
      exact h.stop_drain hcur hr hout (f := fun q => { q with state := .draining, cancelMark := true }) (fun _ => rfl)
        fun _ => ⟨rfl, rfl, rfl, rfl, rfl, rfl⟩
  next => exact h

theorem Agree.cancelAll {l : List Request} (h : Agree [] s) (hl : ∀ r ∈ l, r ∈ s.queue.requests)
    (hn : (l.map (·.tag)).Nodup) : Agree [] (l.foldl State.cancelOne s) := by
  induction l generalizing s with
  | nil => exact h
  | cons r l ih =>
    obtain ⟨hfresh, hn⟩ := List.nodup_cons.1 hn
    refine ih (h.cancelOne (hl r List.mem_cons_self)) (fun q hq => ?_) hn
    exact State.mem_cancelOne (hl q (List.mem_cons_of_mem _ hq)) fun e => hfresh (List.mem_map.2 ⟨q, hq, e⟩)

theorem InStep.cancelMessage (h : InStep s) (p : List Byte) : InStep (cancelMessage s p).1 := by
  unfold Machine.cancelMessage
  split
  · refine (h.toAgree.cancelAll (l := (s.pool .host).filter fun r => r.state != .draining)
      (fun r hr => (List.mem_filter.1 (List.mem_filter.1 hr).1).1) ?_).arbiter
    exact h.queue.tags.sublist ((List.filter_sublist.trans List.filter_sublist).map _)
  · unfold cancelTag
    split
    · exact h
    next r hr =>
      split
      · exact h
      · exact (h.toAgree.cancelOne (List.mem_of_find?_eq_some hr)).arbiter

theorem InStep.resumeMessage (h : InStep s) : InStep (resumeMessage s).1 := by
  unfold Machine.resumeMessage
  split
  next hheld =>
    have hnone : s.driver.hand = none := h.handState.1 (.inr hheld)
    have hidle : Agree [] (s.driverState .idle) :=
      ⟨h.queue.congr_load fun c => congrFun (State.load_congr (s := s) (t := s.driverState .idle) rfl rfl []) c,
        h.ringSize, by simp [hnone], fun e => (nomatch e)⟩
    exact hidle.arbiter.driverArbiter
  next => exact h

/-! ### CONFIGURE and the other messages (R175, R180 to R184) -/

theorem InStep.applySettings (h : InStep s) (new : Settings) : InStep (s.applySettings new) := by
  have hreshaped : (s.reshaped new).work = s.work := by unfold State.reshaped; split <;> rfl
  have hretouched : ∀ u : State, (u.retouched s.settings new).work = u.work := fun u => by
    unfold State.retouched; split <;> rfl
  have htimer : ∀ u : State, u.startSweepTimer.work = u.work := fun u => by
    unfold State.startSweepTimer
    split
    · split <;> rfl
    · rfl
  have hset : InStep ((s.reshaped new).retouched s.settings new).startSweepTimer :=
    h.of_work ((htimer _).trans ((hretouched _).trans hreshaped))
  rw [State.applySettings_eq]
  dsimp only
  split
  · exact hset.retryPhase
  · exact hset

theorem InStep.ownerCarriesOut (h : InStep s) (k : MsgKind) (p : List Byte) : InStep (ownerCarriesOut k s p).1 := by
  have beside : ∀ {t}, Beside s t → InStep t := fun hb => h.of_work (by rw [hb]; rfl)
  cases k with
  | query | restart | listDeadDots => exact h
  | configure =>
    rcases configureMessage_cases s p with e | ⟨new, e, -, -⟩
    · exact e.symm ▸ h
    · exact e.symm ▸ h.applySettings new
  | draw => exact h.drawMessage p
  | cancel => exact h.cancelMessage p
  | resume => exact h.resumeMessage
  | setViewport => exact beside (beside_setViewportMessage s p)
  | getViewport => exact (getViewportMessage_state s p).symm ▸ h
  | setFont => exact beside (beside_setFontMessage s p)
  | dropFont => exact beside (beside_dropFontMessage s p)
  | loadGlyph => exact beside (beside_loadGlyphMessage s p)
  | dropGlyph => exact beside (beside_dropGlyphMessage s p)
  | readImage => exact (readImageMessage_state s p).symm ▸ h
  | forgetDeadDot =>
    refine h.of_work ?_
    simp only [Machine.ownerCarriesOut, forgetDeadDotMessage]
    repeat' split
    all_goals rfl
  | setZone => exact beside (beside_setZoneMessage s p)
  | collect => exact h.of_work rfl
  | subscribe => exact beside (beside_subscribeMessage s p)

/-! ### Restarts and the end of a full reset (R39, R186, R187) -/

/-- No request, no operation in the ring or in the hand, an IDLE driver and a free generator. -/
theorem inStep_empty {n : Nat} (hn : InCount n) (e : t.work = ⟨⟨[], n⟩, none, [], .idle, none⟩) : InStep t := by
  injection e with hqueue hcur hring hstate hhand
  refine ⟨⟨?_, by simp [hring], by simp [hstate, hhand], ?_⟩, ?_⟩
  · rw [hqueue, hcur]
    exact QueueSound.empty hn fun c => State.load_nothing hring hhand c
  · simp [hqueue]
  · simp [Chosen, hqueue]

theorem InStep.restart (h : InStep s) (cache : Option (Byte × List Byte)) : InStep (s.restart cache) := by
  have hcut : s.cutShort.queue = s.queue ∧ s.cutShort.driver.hand = none := by
    unfold State.cutShort
    split
    next hn => exact ⟨rfl, hn⟩
    next => exact ⟨rfl, rfl⟩
  have hwork : (s.restart cache).work = ⟨⟨[], s.cutShort.queue.tagCounter⟩, none, [], .idle, s.cutShort.driver.hand⟩ := rfl
  rw [hcut.1, hcut.2] at hwork
  exact inStep_empty h.queue.counter hwork

/-! ### What the link can do (R171 to R177) -/

/-- What a frame, a character or a reply's end comes to: nothing beside the link, one message carried out, or a
restart. -/
inductive LinkEffect (s : State) : State → Prop
  | quiet (l : Link) : LinkEffect s { s with link := l }
  | message (l l' : Link) (k : MsgKind) (p : List Byte) :
    LinkEffect s { (Machine.ownerCarriesOut k { s with link := l } p).1 with link := l' }
  | restart (l : Link) (cache : Option (Byte × List Byte)) : LinkEffect s (State.restart { s with link := l } cache)

theorem linkEffect_execute (s : State) (l : Link) (own : Nat) (seq kind : Byte) (p : List Byte) :
    LinkEffect s (State.execute { s with link := l } own seq kind p) := by
  rw [State.execute_eq]
  unfold Machine.carryOut
  split
  · exact .quiet _
  · split
    · exact .message _ _ _ _
    · exact .quiet _

theorem linkEffect_takeAddressed (s : State) (l : Link) (own : Nat) (seq kind : Byte) (p : List Byte) :
    LinkEffect s (State.takeAddressed { s with link := l } own seq kind p) := by
  unfold State.takeAddressed
  split
  · exact .quiet _
  · split
    · split
      · exact .quiet _
      · exact linkEffect_execute s l own seq kind p
    · exact linkEffect_execute s l own seq kind p

theorem linkEffect_takeBroadcast (s : State) (l : Link) (kind : Byte) (p : List Byte) :
    LinkEffect s (State.takeBroadcast { s with link := l } kind p) := by
  unfold State.takeBroadcast
  split
  · split
    · exact .restart _ _
    · exact .quiet _
  · split
    next hall =>
      have hcancel : Machine.ownerCarriesOut .cancel { s with link := l } p = cancelAllForm { s with link := l } :=
        if_pos hall.2
      rw [← hcancel]
      exact .message l _ .cancel p
    · exact .quiet _
  · exact .quiet _

theorem linkEffect_frameArrives (s : State) (good : Bool) (dest src seq kind : Byte) (p : List Byte) :
    LinkEffect s (s.frameArrives good dest src seq kind p) := by
  unfold State.frameArrives
  dsimp only
  split
  · exact .quiet _
  · split
    · exact .quiet _
    · split
      · exact linkEffect_takeBroadcast s _ kind p
      · split
        · split
          · exact linkEffect_takeAddressed s _ _ seq kind p
          · exact .quiet _
        · exact .quiet _

theorem linkEffect_bodyByte (s : State) (bytes : List Byte) (crc : BitVec 16) (b : Byte) :
    LinkEffect s (s.bodyByte bytes crc b) := by
  unfold State.bodyByte
  dsimp only
  split
  · exact .quiet _
  · split
    · exact .quiet _
    · split
      · exact linkEffect_frameArrives _ _ _ _ _ _ _
      · exact .quiet _

theorem linkEffect_receive (s : State) (c : Option Byte) : LinkEffect s (s.receive c) := by
  unfold State.receive
  split
  · split <;> exact .quiet _
  · exact .quiet _
  · exact .quiet _
  · exact .quiet _
  · split
    · exact .quiet _
    · split
      · exact .quiet _
      · exact linkEffect_bodyByte _ _ _ _
  · split
    · exact .quiet _
    · exact linkEffect_bodyByte _ _ _ _

theorem linkEffect_addressedFrame (s : State) (seq kind : Byte) (p : List Byte) :
    LinkEffect s (s.addressedFrame seq kind p) := by
  unfold State.addressedFrame
  split
  · exact .quiet _
  · split
    · split
      · exact .quiet _
      · exact linkEffect_frameArrives _ _ _ _ _ _ _
    · exact .quiet _

theorem linkEffect_broadcastFrame (s : State) (seq kind : Byte) (p : List Byte) :
    LinkEffect s (s.broadcastFrame seq kind p) := by
  unfold State.broadcastFrame
  split
  · exact .quiet _
  · split
    · exact .quiet _
    · exact linkEffect_frameArrives _ _ _ _ _ _ _

theorem linkEffect_replyStarts (s : State) : LinkEffect s s.replyStarts := by
  unfold State.replyStarts
  split <;> exact .quiet _

theorem linkEffect_replyEnds (s : State) : LinkEffect s s.replyEnds := by
  unfold State.replyEnds
  split
  · dsimp only
    split
    · exact .restart _ _
    · exact .quiet _
  · exact .quiet _

theorem InStep.link (h : InStep s) (k : LinkEffect s t) : InStep t := by
  cases k with
  | quiet l => exact h.of_work rfl
  | message l l' k p => exact (InStep.ownerCarriesOut (s := { s with link := l }) (h.of_work rfl) k p).of_work rfl
  | restart l cache => exact InStep.restart (s := { s with link := l }) (h.of_work rfl) cache

/-! ### Every step -/

/-- Outside reset the unit is in step. -/
abbrev AwakeInStep (s : State) : Prop := s.inReset = false → InStep s

/-- What keeps the unit in step, and does nothing in reset. -/
theorem AwakeInStep.act (h : AwakeInStep s) (ht : InStep s → InStep t) (hr : s.inReset = true → t = s) :
    AwakeInStep t := by
  cases hreset : s.inReset with
  | false => exact fun _ => ht (h hreset)
  | true => rw [hr hreset]; exact h

theorem AwakeInStep.unlessReset (h : AwakeInStep s) {f : State → State} (hf : InStep s → InStep (f s)) :
    AwakeInStep (s.unlessReset f) := by
  unfold State.unlessReset
  split
  · exact h
  next hr => exact fun _ => hf (h (by simpa using hr))

theorem awakeInStep_overcurrent (h : AwakeInStep s) (level : Bool) :
    AwakeInStep (if s.inReset = false ∧ s.driver.state = .pulse then ({ s with ocin := level } : State).enterHeld
      else { s with ocin := level }) := by
  split
  next hp =>
    have hs := h hp.1
    obtain ⟨hd, hh⟩ := hs.hand (by rw [hp.2]; decide) (by rw [hp.2]; decide)
    have hlevel : InStep { s with ocin := level } := hs.of_work rfl
    exact fun _ => hlevel.toAgree.enterHeld hh
  next => exact fun hr => (h hr).of_work rfl

/-- Every command keeps the unit in step outside reset. -/
theorem awakeInStep_exec {i : Instr} (h : AwakeInStep s) (he : exec i s = .next t) : AwakeInStep t := by
  cases i with
  | broadcastRestart | broadcastCancel =>
    cases he
    exact h.act (fun hs => hs.link (linkEffect_broadcastFrame _ _ _ _)) fun hr => if_pos (State.listening_reset hr)
  | receiverGapTimeout | frameDropped =>
    cases he
    refine h.act (fun hs => ?_) fun hr => if_neg (by simp [State.listening_reset hr])
    split <;> exact hs.of_work rfl
  | replyStart => cases he; exact h.unlessReset fun hs => hs.link (linkEffect_replyStarts s)
  | replyEnd => cases he; exact h.unlessReset fun hs => hs.link (linkEffect_replyEnds s)
  | fullResetEntry cause =>
    cases he
    split
    · exact fun hr => (nomatch hr)
    · exact h
  | fullResetExit ads brs =>
    cases he
    split
    · exact fun _ => inStep_empty ⟨le_rfl, by decide⟩ rfl
    · exact h
  | overcurrent level => cases he; exact awakeInStep_overcurrent h level
  | rechargeStep => cases he; exact h.unlessReset InStep.recharge
  | pulseEnd sense =>
    cases he
    refine h.unlessReset fun hs => ?_
    split
    · exact hs.pulseEnds sense
    · exact hs
  | gapEnd =>
    cases he
    refine h.unlessReset fun hs => ?_
    split
    next hgap => exact hs.gapEnds hgap
    next => exact hs
  | stripExamination => cases he; exact h.unlessReset fun hs => hs.generatorEvent.driverArbiter
  | sweepExpiry => cases he; exact h.unlessReset InStep.sweepExpires
  | scanEnd xb yb => cases he; exact h.unlessReset fun hs => hs.scanEnds xb yb
  | characterReceived data stop =>
    cases he
    refine h.act (fun hs => ?_) fun hr => if_neg (by simp [State.listening_reset hr])
    split
    · exact hs.link (linkEffect_receive _ _)
    · exact hs
  | query | configure | restart | draw | cancel | cancelAll | resume | setViewportDefine | setViewportUndefine
  | getViewport | setFont | dropFont | loadGlyph | dropGlyph | readImage | listDeadDots | forgetDeadDot | setZoneDefine
  | setZoneUndefine | collect | subscribe | unknownKind =>
    cases he
    exact h.act (fun hs => hs.link (linkEffect_addressedFrame _ _ _ _)) fun hr => if_pos (State.listening_reset hr)

/-- Settles O5: `WorkSound` is to be in step (`inStep_iff_workSound`), and every command keeps the unit in step outside
reset. -/
theorem everyStepKeepsWorkSound : Obligations.EveryStepKeepsWorkSound := by
  intro s t hsound hstep hreset
  have hs : AwakeInStep s := fun hr => inStep_iff_workSound.2 (hsound hr)
  have ht : AwakeInStep t := by
    unfold step at hstep
    split at hstep
    · cases hstep; exact hs
    next c rest _ =>
      have hrest : AwakeInStep { s with pending := rest } := fun hr => (hs hr).of_work rfl
      exact awakeInStep_exec hrest hstep
  exact inStep_iff_workSound.1 (ht hreset)

end Sys2Proof.Machine
end

