-- ==== Sys2Proof/Proofs/QueueRules.lean ====
section
/-!
SUPPORT. Statements about the request queue by itself: numbers in use, the generator arbiter, settled requests, the end
of generation, and echoes at a press and a release (R20 to R30, R98, R114, R115, R139, R149, R150, R156).
-/

-- One proof at a time: side by side, the proofs' threads reserve more memory than the check allows.
set_option Elab.async false

namespace Sys2Proof.Machine

variable {s : State} {pre post : List Request} {r : Request}

/-! ### Numbers that pass over those in use (R21, R156) -/

/-- The search stands some steps after its start, and every number it left behind is in use. -/
theorem firstFree_iterate (used : List Nat) (fuel n : Nat) :
    ∃ k ≤ fuel, firstFree used fuel n = nextNumber^[k] n ∧ ∀ j < k, nextNumber^[j] n ∈ used := by
  induction fuel generalizing n with
  | zero => exact ⟨0, le_rfl, rfl, fun j hj => absurd hj (Nat.not_lt_zero j)⟩
  | succ fuel ih =>
    unfold firstFree
    split
    next hn =>
      obtain ⟨k, hk, heq, hall⟩ := ih (nextNumber n)
      refine ⟨k + 1, Nat.succ_le_succ hk, heq, fun j hj => ?_⟩
      cases j with
      | zero => simpa using hn
      | succ j => exact hall j (Nat.lt_of_succ_lt_succ hj)
    next => exact ⟨0, Nat.zero_le _, rfl, fun j hj => absurd hj (Nat.not_lt_zero j)⟩

/-- One of the numbers that a counter gives next is not in use. -/
theorem exists_iterate_free {used : List Nat} {n : Nat} (h : InCount n) (hlen : used.length < 65535) :
    ∃ i ≤ used.length, nextNumber^[i] n ∉ used := by
  by_contra hnone
  have hall : ∀ i ∈ List.range (used.length + 1), nextNumber^[i] n ∈ used := fun i hi => by
    by_contra hfree
    exact hnone ⟨i, Nat.le_of_lt_succ (List.mem_range.1 hi), hfree⟩
  have hnodup : ((List.range (used.length + 1)).map fun i => nextNumber^[i] n).Nodup := by
    refine List.Nodup.map_on (fun i hi j hj hij => ?_) List.nodup_range
    rw [List.mem_range] at hi hj
    rw [nextNumber_iterate h, nextNumber_iterate h] at hij
    omega
  have hsub : ((List.range (used.length + 1)).map fun i => nextNumber^[i] n) ⊆ used := fun x hx => by
    obtain ⟨i, hi, rfl⟩ := List.mem_map.1 hx
    exact hall i hi
  have := (hnodup.subperm hsub).length_le
  simp at this

/-- Settles O21: the search (`firstFree_iterate`) stops before it has tried more numbers than are in use. -/
theorem numbersPassOverThoseInUse : Obligations.NumbersPassOverThoseInUse := by
  intro used counter hcount hlen
  obtain ⟨k, -, heq, hall⟩ := firstFree_iterate used (used.length + 1) counter
  obtain ⟨i, hi, hfree⟩ := exists_iterate_free hcount hlen
  have hk : k ≤ i := Nat.le_of_not_lt fun hik => hfree (hall i hik)
  refine ⟨freeNumber_fresh hcount hlen, inCount_freeNumber used hcount, k, hk.trans hi, heq, hall, fun n hn => ?_⟩
  unfold nextNumber
  exact if_congr ⟨fun h => le_antisymm hn.2 h, fun h => h.ge⟩ rfl rfl

/-! ### The generator arbiter (R25, R26) -/

/-- The first request of a queue that satisfies `f`. -/
theorem find?_split {f : Request → Bool} (hpre : ∀ q ∈ pre, ¬f q = true) (hr : f r = true) :
    (pre ++ r :: post).find? f = some r := by
  rw [List.find?_append, List.find?_eq_none.2 hpre, List.find?_cons_of_pos hr]
  rfl

/-- The arbiter's choice is the oldest QUEUED echo. -/
theorem State.arbiterChoice_echo (hs : s.queue.requests = pre ++ r :: post) (hq : r.state = .queued)
    (ho : r.origin = .echo) (hpre : ∀ q ∈ pre, ¬(q.state = .queued ∧ q.origin = .echo)) :
    s.arbiterChoice = some r := by
  have : (s.queue.requests.find? fun r => r.state == .queued && r.origin == .echo) = some r :=
    hs ▸ find?_split (by simpa using hpre) (by simp [hq, ho])
  simp [State.arbiterChoice, this]

/-- Without a QUEUED echo the arbiter's choice is the oldest QUEUED request. -/
theorem State.arbiterChoice_host (hs : s.queue.requests = pre ++ r :: post) (hq : r.state = .queued)
    (hecho : ∀ q ∈ s.queue.requests, ¬(q.state = .queued ∧ q.origin = .echo)) (hpre : ∀ q ∈ pre, q.state ≠ .queued) :
    s.arbiterChoice = some r := by
  have hnone : (s.queue.requests.find? fun r => r.state == .queued && r.origin == .echo) = none :=
    List.find?_eq_none.2 (by simpa using hecho)
  have : (s.queue.requests.find? fun r => r.state == .queued) = some r :=
    hs ▸ find?_split (by simpa using hpre) (by simp [hq])
  simp [State.arbiterChoice, hnone, this]

/-- The arbiter leaves the unit as it is: the generator is at work, the driver HELD, or nothing is QUEUED. -/
theorem State.generatorArbiter_idle
    (h : s.gen.current ≠ none ∨ s.driver.state = .held ∨ ∀ q ∈ s.queue.requests, q.state ≠ .queued) :
    s.generatorArbiter = s := by
  rcases s.generatorArbiter_cases with ⟨he, -⟩ | ⟨r, hr, hfree, hheld, -⟩
  · exact he
  · obtain ⟨hmem, hqueued⟩ := State.arbiterChoice_some hr
    exact (h.elim (absurd hfree) fun h => h.elim (fun e => absurd e hheld) fun h => absurd hqueued (h r hmem))

/-- The arbiter hands the free generator its choice (R25, R26). -/
theorem State.generatorArbiter_takes (hs : s.queue.requests = pre ++ r :: post)
    (hn : (s.queue.requests.map (·.tag)).Nodup) (hfree : s.gen.current = none) (hheld : s.driver.state ≠ .held)
    (hr : s.arbiterChoice = some r) :
    s.generatorArbiter =
      { s with
        queue := { s.queue with requests := pre ++ { r with state := .rastering, progress := ⟨0, .itemStart⟩ } :: post }
        gen := ⟨some r.tag, none, none, none⟩ } := by
  rcases s.generatorArbiter_cases with ⟨-, he⟩ | ⟨q, hq, -, -, he⟩
  · rw [he hfree hheld] at hr
    cases hr
  · obtain rfl := Option.some.inj (hr.symm.trans hq)
    rw [he, State.changeRequest_split _ hs hn]
    rfl

/-- Settles O22, by the arbiter's choice among echoes and then among all requests. -/
theorem generatorArbiterPrefersEchoes : Obligations.GeneratorArbiterPrefersEchoes := by
  intro s hn
  refine ⟨fun pre r post hfree hheld hs hq hfirst => ?_, State.generatorArbiter_idle⟩
  refine State.generatorArbiter_takes hs hn hfree hheld ?_
  rcases hfirst with ⟨ho, hpre⟩ | ⟨ho, hpre, hpost⟩
  · exact State.arbiterChoice_echo hs hq ho hpre
  · refine State.arbiterChoice_host hs hq (fun q hmem => ?_) hpre
    rw [hs] at hmem
    rcases List.mem_append.1 hmem with hmem | hmem
    · exact fun e => hpre q hmem e.1
    · rcases List.mem_cons.1 hmem with rfl | hmem
      · rw [ho]; exact fun e => (nomatch e.2)
      · exact hpost q hmem

/-! ### The end of generation (R27, R28, R98) -/

/-- The strip under examination is that of the generator's request, whether in its own event or when room appears. -/
theorem examinedAs_of_examine {it : Item} {v : ItemValues} {t : Strip} (hw : Working s pre r post it)
    (hv : s.gen.values = some v) (hplace : r.progress.place = .strip t) : ExaminedAs s t (s.examine r it v t) := by
  obtain ⟨hs, hn, hcur, hit⟩ := hw
  have hbind : s.gen.current.bind s.request = some r := by rw [hcur]; exact State.request_split hs hn
  refine ⟨fun hwait hr => ?_, fun hwait => ?_⟩
  · have hevent : s.generatorEvent = s.examine r it v t := by
      simp [State.generatorEvent, hbind, hwait, hit, hv, hplace]
    simp [exec, execStripExamination, State.unlessReset, hr, hevent]
  · simp [State.reexamine, hwait, State.inProgress_eq hbind hv hit]

/-- An item finished at its last strip (R94, R96). -/
theorem State.moveOn_lastStrip {it : Item} {c : Claim} {t : Strip} {q : Request} (htag : q.tag = r.tag)
    (hs : s.queue.requests = pre ++ q :: post) (hn : (s.queue.requests.map (·.tag)).Nodup)
    (hplace : r.progress.place = .strip t)
    (hlast : stripAfter s.settings.columns s.settings.stripRows c t = none) :
    s.moveOn r it c t = itemFinished s pre q post := by
  have hfinish : s.moveOn r it c t = State.finishItem { s with gen := { s.gen with waiting := none } } r.tag := by
    simp only [State.moveOn, hplace, hlast]
  rw [hfinish, ← htag]
  exact State.finishItem_split hs hn

/-- Settles O46: the examination passes or appends (`State.append_split`), and the item is finished
(`State.finishItem_split`). -/
theorem generationEndsAfterTheLastItem : Obligations.GenerationEndsAfterTheLastItem := by
  intro s pre r post it v t hw hv hplace hlast op hroom
  have hexamined := examinedAs_of_examine hw hv hplace
  obtain ⟨hs, hn, hcur, hit⟩ := hw
  have hclaim : r.progress.place.claim s.gen.latch v it = itemClaim v.rect it := by
    rw [hplace]; cases s.gen.latch <;> rfl
  have hexamine : s.examine r it v t =
      if op.isEmpty then s.moveOn r it (itemClaim v.rect it) t
      else if s.ring.length < Config.ringSize then (s.append r.tag op).moveOn r it (itemClaim v.rect it) t
      else { s with gen := { s.gen with waiting := some t } } := by
    simp only [State.examine, hclaim]; rfl
  suffices h : s.examine r it v t = itemFinished (stripDone s r.tag op) pre (r.afterStrip op) post from h ▸ hexamined
  rw [hexamine]
  cases hempty : op.isEmpty with
  | true =>
    have hmasks := (StripOp.isEmpty_iff op).1 hempty
    rw [if_pos rfl, State.moveOn_lastStrip rfl hs hn hplace hlast, stripDone, if_pos hmasks, Request.afterStrip,
      if_pos hmasks]
  | false =>
    have hmasks : ¬(op.setMask = 0 ∧ op.clearMask = 0) := fun e => by
      rw [(StripOp.isEmpty_iff op).2 e] at hempty
      cases hempty
    have hn' : ((pre ++ r.appended :: post).map (·.tag)).Nodup := tags_split (r := r) (by rwa [hs] at hn) rfl
    rw [if_neg (by decide), if_pos (show s.ring.length < Config.ringSize from hroom hmasks),
      State.append_split op hempty hs hn, Request.afterStrip, if_neg hmasks]
    have hsettings : (stripDone s r.tag op).settings = s.settings := by rw [stripDone, if_neg hmasks]
    have hqueue : (stripDone s r.tag op).queue = s.queue := by rw [stripDone, if_neg hmasks]
    have hmoved := State.moveOn_lastStrip (r := r) (q := r.appended) (it := it) (c := itemClaim v.rect it)
      (s := { stripDone s r.tag op with queue := { s.queue with requests := pre ++ r.appended :: post } }) rfl rfl hn'
      hplace (by rw [hsettings]; exact hlast)
    rw [hmoved]
    simp only [itemFinished, hqueue]

/-! ### Settled requests and the end of a gap (R29, R114, R115) -/

/-- One operation of a request is settled: its outstanding count falls, or it leaves (R29, R30). -/
theorem State.settleOne_split (hs : s.queue.requests = pre ++ r :: post) (hn : (s.queue.requests.map (·.tag)).Nodup) :
    s.settleOne r.tag =
      if r.state = .draining ∧ r.outstanding ≤ 1 then
        { s with
          queue := { s.queue with requests := pre ++ post }
          reports :=
            if r.origin = .host then s.reports.offer (r.completion (if r.cancelMark then .cancelled else .done))
            else s.reports }
      else
        { s with queue := { s.queue with requests := pre ++ { r with outstanding := r.outstanding - 1 } :: post } } := by
  have hleft := State.leave_split (s := { s with
    queue := { s.queue with requests := pre ++ { r with outstanding := r.outstanding - 1 } :: post } })
    (r := { r with outstanding := r.outstanding - 1 }) rfl (tags_split (r := r) (by rwa [hs] at hn) rfl)
  dsimp only at hleft
  unfold State.settleOne
  rw [State.request_split hs hn, State.changeRequest_split _ hs hn]
  simp only [Nat.sub_eq_zero_iff_le]
  refine ite_congr rfl (fun _ => ?_) fun _ => rfl
  simp only [State.leave, hleft]
  split <;> rfl

/-- Settles O53. -/
theorem gapEndsInClearPhaseOrCompletion : Obligations.GapEndsInClearPhaseOrCompletion := by
  intro s
  refine ⟨?_, fun h => ?_, fun pre r post hs hn => State.settleOne_split hs hn⟩
  · intro h hr hgap hh free
    rw [exec_gapEnd hr hgap]
    unfold State.gapEnds
    rw [hh]
    dsimp only
    split
    · rfl
    · unfold State.completeOp
      cases h.source <;> rfl
  · simp only [exec, execGapEnd, State.unlessReset]
    split
    · rfl
    next hr => rw [if_neg (h.resolve_left hr)]

end Sys2Proof.Machine
end

