-- ==== Sys2Proof/Proofs/Echoes.lean ====
section
/-!
SUPPORT. A press and a release as whole next states: the zone that is captured, the echo that joins, and the report
(R24, R139, R149, R150).
-/

-- One proof at a time: side by side, the proofs' threads reserve more memory than the check allows.
set_option Elab.async false

namespace Sys2Proof.Machine

variable {s : State}

/-! ### The zone that holds a position (R139) -/

/-- The lowest-numbered defined zone that holds the position is hit. -/
theorem hitTest_split {pre post : List Zone} {z : Zone} {x y : Nat}
    (hpre : ∀ w ∈ pre, ¬(w.defined = true ∧ w.rect.holds x y = true)) (hd : z.defined = true)
    (hh : z.rect.holds x y = true) : hitTest (pre ++ z :: post) x y = some (pre.length + 1, z) := by
  have hnone : (pre.zipIdx.find? fun w => w.1.defined && w.1.rect.holds x y) = none :=
    List.find?_eq_none.2 fun w hw => by simpa using hpre w.1 (List.fst_mem_of_mem_zipIdx hw)
  simp [hitTest, List.zipIdx_append, List.find?_append, hnone, hd, hh]

/-- No defined zone holds the position. -/
theorem hitTest_none {zones : List Zone} {x y : Nat}
    (h : ∀ z ∈ zones, ¬(z.defined = true ∧ z.rect.holds x y = true)) : hitTest zones x y = none := by
  have hnone : (zones.zipIdx.find? fun w => w.1.defined && w.1.rect.holds x y) = none :=
    List.find?_eq_none.2 fun w hw => by simpa using h w.1 (List.fst_mem_of_mem_zipIdx hw)
  simp [hitTest, hnone]

/-! ### Echoes (R24, R149) -/

/-- When the echo at a press joins (R149). -/
theorem State.pressEchoes_eq (s : State) (mode : EchoMode) :
    s.pressEchoes mode = decide (s.driver.state ≠ .held ∧
      ((mode = .press ∧ (s.pool .echo).length < 2) ∨ (mode = .hold ∧ (s.pool .echo).length = 0))) := by
  rw [Bool.eq_iff_iff]
  cases mode <;> simp [State.pressEchoes, Config.echoPool, List.isEmpty_iff]

/-- The record of an echo over a captured rectangle, as it joins (R24). -/
def State.echoRequest (s : State) (q : Rect) : Request :=
  ⟨s.nextTag, .echo, 0, .explicit ⟨.invert, .leave⟩, false, [.box q.x q.y q.w q.h .filled], .queued, ⟨0, .itemStart⟩, 0,
    0, 0, false, false, false, false⟩

/-- An echo joins at the newest end, and the generator arbiter chooses (R24, R25). -/
theorem State.joinEcho_eq (s : State) (q : Rect) :
    s.joinEcho q = State.generatorArbiter
      { s with queue := ⟨s.queue.requests ++ [s.echoRequest q], nextNumber s.nextTag⟩ } := rfl

/-- The unit after a press that captures this zone, with this rectangle and echo mode (R139). -/
def State.pressed (s : State) (x y zone : Nat) (captured : Option Rect) (mode : EchoMode) : State :=
  let echo := s.pressEchoes mode
  let made := s.contacted ⟨s.touch.contactCounter, x, y, 0, zone, captured, mode, echo && mode == .hold⟩
  State.offer (match echo, captured with
    | true, some q => made.joinEcho q
    | _, _ => made) (.press s.touch.contactCounter x y zone echo)

theorem State.press_hit {x y zone : Nat} {z : Zone} (h : hitTest s.zones x y = some (zone, z)) :
    s.press x y = s.pressed x y zone (some z.rect) z.echo := by
  unfold State.press
  rw [h]
  rfl

theorem State.press_miss {x y : Nat} (h : hitTest s.zones x y = none) : s.press x y = s.pressed x y 0 none .none := by
  unfold State.press
  rw [h]
  rfl

/-- The unit when a contact has ended: the RELEASE offered, the coalescing reference cleared, and no contact (R137). -/
theorem State.released_eq (u : State) (r : Report) :
    ((u.offer r).clearCoalesce).setContact .none =
      { u with
        reports := { u.reports.offer r with coalesce := none }
        touch := { u.touch with contact := .none } } := by
  simp only [State.offer, State.clearCoalesce, State.setContact]

/-- Settles O59: the zone hit decides the press, the captured rectangle and the due mark the release. -/
theorem pressAndReleaseEchoTheCapturedZone : Obligations.PressAndReleaseEchoTheCapturedZone := by
  intro s box echoed n made ended
  have hjoin : ∀ (q : Rect) (u : State), u.queue = s.queue → u.joinEcho q = echoed q u := fun q u hu => by
    have hbox : u.echoRequest q = box q := by simp only [State.echoRequest, State.nextTag, hu]; rfl
    have htag : u.nextTag = s.nextTag := by simp only [State.nextTag, hu]
    rw [State.joinEcho_eq, hu, hbox, htag]
  have hended : ∀ (q : Rect) (d : Contact) (inside echo : Bool),
      (((if echo then s.joinEcho q else s).offer (.release d.number d.x d.y d.zone inside echo)).clearCoalesce).setContact
        .none = ended (if echo then echoed q s else s) d inside echo := fun q d inside echo => by
    rw [State.released_eq, hjoin q s rfl]
    have hreports : (if echo then echoed q s else s).reports = s.reports := by split <;> simp [echoed]
    have htouch : (if echo then echoed q s else s).touch = s.touch := by split <;> simp [echoed]
    rw [hreports, htouch]
  refine ⟨?_, fun x y hnone => ?_, ?_, fun d hcap hdue => ?_⟩
  · intro x y pre z post hzones hpre hd hh pool echo contact
    have hecho : s.pressEchoes z.echo = echo := s.pressEchoes_eq z.echo
    have hhit := hitTest_split (post := post) hpre hd hh
    rw [← hzones] at hhit
    rw [State.press_hit hhit]
    unfold State.pressed
    rw [hecho]
    have hmade : s.contacted ⟨n, x, y, 0, pre.length + 1, some z.rect, z.echo, echo && z.echo == .hold⟩ = contact := rfl
    dsimp only
    rw [hmade, ← hjoin z.rect contact rfl]
    cases echo <;> rfl
  · rw [State.press_miss (hitTest_none hnone)]
    rfl
  · intro d q hcap hroom echo
    have hinside : d.insideMark d.x d.y = q.holds d.x d.y := by simp [Contact.insideMark, hcap]
    have hecho : (d.releaseEchoDue && decide (s.driver.state ≠ .held) &&
        decide ((s.pool .echo).length < Config.echoPool)) = echo := by
      cases hdue : d.releaseEchoDue with
      | false => simp [echo, hdue]
      | true => simp [echo, hdue, Config.echoPool, hroom hdue]
    unfold State.release
    dsimp only
    rw [hecho, hinside, hcap, ← hended]
    cases echo <;> rfl
  · have hinside : d.insideMark d.x d.y = false := by simp [Contact.insideMark, hcap]
    unfold State.release
    dsimp only
    rw [hdue, hinside]
    rfl

end Sys2Proof.Machine
end

