-- ==== Sys2Proof/Proofs/CancelAndRestart.lean ====
section
/-!
SUPPORT. CANCEL by the state of the request, its all form as one change of queue, generator and reports, and what a restart
keeps and empties (R33, R35, R36, R39, R103, R124, R173, R177, R186).
-/

-- One proof at a time: side by side, the proofs' threads reserve more memory than the check allows.
set_option Elab.async false

namespace Sys2Proof.Machine

variable {s : State} {pre post : List Request} {r : Request}

/-! ### Frames beside the link (R172 to R175) -/

/-- The generator arbiter does not see the link. -/
theorem State.generatorArbiter_withLink (s : State) (l : Link) :
    State.generatorArbiter { s with link := l } = { s.generatorArbiter with link := l } := by
  have hchoice : State.arbiterChoice { s with link := l } = s.arbiterChoice := rfl
  unfold State.generatorArbiter
  rw [hchoice]
  dsimp only
  split
  · rfl
  · split <;> rfl

/-- A message whose owner does not see the link: its state and its reply. -/
theorem addressedFrame_owner {t : State} {own : Nat} {seq : Byte} (k : MsgKind) {p : List Byte} {reply : Reply}
    (h : FreshFrame s own seq) (ha : k.accepts p.length = true) (hr : k ≠ .restart) (ht : t.link = s.link)
    (hk : ∀ l : Link, ownerCarriesOut k { s with link := l } p = ({ t with link := l }, reply)) :
    s.addressedFrame seq k.code p = t.replied own seq k.code reply := by
  rw [addressedFrame_message k p _ reply h ha (hk _) rfl hr, ← ht]

/-- A broadcast frame of a kind, in a unit that listens. -/
theorem broadcastFrame_taken (seq : Byte) (k : MsgKind) {p : List Byte} (hr : s.inReset = false)
    (hs : s.isSending = false) (hp : p.length ≤ 200) :
    s.broadcastFrame seq k.code p = (s.setRx .hunt).takeBroadcast k.code p := by
  have hlen : ¬Config.payloadMax < p.length := Nat.not_lt.2 hp
  simp [State.broadcastFrame, State.listening, hr, hs, hlen, State.frameArrives]

/-! ### CANCEL with a tag (R33) -/

/-- The record of a request that drains because it was cancelled (R33). -/
def Request.cancelled (r : Request) : Request := { r with state := .draining, cancelMark := true }

/-- The unit after a host request has left CANCELLED (R31, R33). -/
theorem State.leave_host (hs : s.queue.requests = pre ++ r :: post) (hn : (s.queue.requests.map (·.tag)).Nodup)
    (hh : r.origin = .host) (o : LeaveOutcome) :
    s.leave r o =
      { s with
        queue := { s.queue with requests := pre ++ post }
        reports := s.reports.offer (r.completion o) } := by
  simp only [State.leave, State.leave_split hs hn, hh, if_true]
  rfl

/-- The host request under a tag (R33). -/
theorem State.hostRequest_split (hs : s.queue.requests = pre ++ r :: post) (hn : (s.queue.requests.map (·.tag)).Nodup)
    (hh : r.origin = .host) : s.hostRequest r.tag = some r := by
  have hne := tag_ne (hs ▸ hn)
  unfold State.hostRequest
  rw [hs]
  exact find?_split (fun q hq => by simp [hne q (List.mem_append_left _ hq)]) (by simp [hh])

/-- A host request that is QUEUED or RASTERING is cancelled, and the generator arbiter chooses. -/
theorem cancelTag_split (hs : s.queue.requests = pre ++ r :: post) (hn : (s.queue.requests.map (·.tag)).Nodup)
    (hh : r.origin = .host) :
    cancelTag s r.tag =
      if r.state = .draining then (s, plainReply .tooLate) else ((s.cancelOne r).generatorArbiter, okReply []) := by
  unfold cancelTag
  rw [State.hostRequest_split hs hn hh]

/-- A CANCEL frame with a tag. -/
theorem exec_cancel {t : State} {own tag : Nat} {seq : Byte} {reply : Reply} (h : FreshFrame s own seq)
    (htag : InCount tag) (ht : t.link = s.link)
    (hk : ∀ l : Link, cancelTag { s with link := l } tag = ({ t with link := l }, reply)) :
    exec (.cancel seq [byte tag, byte (tag / 256)]) s = .next (t.replied own seq 0x11 reply) := by
  have hfield : field16 [byte tag, byte (tag / 256)] 0 = tag := le16_bytes (Nat.lt_succ_of_le htag.2)
  refine congrArg Host.Outcome.next (addressedFrame_owner .cancel h rfl (by decide) ht fun l => ?_)
  rw [← hk l]
  simp only [ownerCarriesOut, cancelMessage, hfield]
  rw [if_neg (Nat.ne_of_gt htag.1)]

/-- A CANCEL frame that reaches a host request not DRAINING yet: `u` is what it makes of the unit. -/
theorem exec_cancel_reached {own tag : Nat} {seq : Byte} (h : FreshFrame s own seq) (htag : InCount tag)
    (hn : (s.queue.requests.map (·.tag)).Nodup) (hs : s.queue.requests = pre ++ r :: post) (hr : r.tag = tag)
    (hh : r.origin = .host) (hd : r.state ≠ .draining) {u : State} (hu : u.link = s.link)
    (hone : ∀ l : Link, State.cancelOne { s with link := l } r = { u with link := l }) :
    exec (.cancel seq [byte tag, byte (tag / 256)]) s = .next (u.generatorArbiter.replied own seq 0x11 [0x00]) := by
  subst hr
  refine exec_cancel h htag (by simpa using hu) fun l => ?_
  rw [cancelTag_split (s := { s with link := l }) hs hn hh, if_neg hd, hone l, State.generatorArbiter_withLink]
  rfl

/-- Settles O23, by the state of the host request under the tag (`cancelTag_split`). -/
theorem cancelActsByTheRequestsState : Obligations.CancelActsByTheRequestsState := by
  intro s own seq tag hfresh htag hn
  refine ⟨?_, fun hecho => ?_⟩
  · intro pre r post hs hr hh left stopped
    have hleave : ∀ (st : State) (l : Link), st.queue = s.queue → st.reports = s.reports →
        State.leave { st with link := l } r .cancelled = { left st with link := l } := fun st l hq hrep => by
      rw [State.leave_host (s := { st with link := l }) (by exact hq ▸ hs) (by exact hq ▸ hn) hh]
      simp only [left, hq, hrep, Request.completion, hr]
    refine ⟨fun hq => ⟨?_, fun hbusy => ?_⟩, fun hrast hout => ?_, fun hrast hout => ?_, fun hd => ?_⟩
    · exact exec_cancel_reached hfresh htag hn hs hr hh (by rw [hq]; decide) rfl fun l => by
        simp only [State.cancelOne, hq]
        exact hleave s l rfl rfl
    · exact State.generatorArbiter_idle (hbusy.imp_right .inl)
    · exact exec_cancel_reached hfresh htag hn hs hr hh (by rw [hrast]; decide) rfl fun l => by
        simp only [State.cancelOne, hrast, hout, if_true]
        exact hleave stopped l rfl rfl
    · exact exec_cancel_reached hfresh htag hn hs hr hh (by rw [hrast]; decide) rfl fun l => by
        simp only [State.cancelOne, hrast, if_neg hout]
        rw [State.changeRequest_split (s := State.freeGenerator { s with link := l }) _ hs hn]
        rfl
    · subst hr
      exact exec_cancel hfresh htag rfl fun l => by
        rw [cancelTag_split (s := { s with link := l }) hs hn hh, if_pos hd]
        rfl
  · refine exec_cancel hfresh htag rfl fun l => ?_
    have hnone : State.hostRequest { s with link := l } tag = none :=
      List.find?_eq_none.2 fun q hq => by
        simp only [Bool.and_eq_true, beq_iff_eq, not_and]
        intro e
        rw [hecho q hq e]
        decide
    unfold cancelTag
    rw [hnone]
    rfl

/-! ### The all form (R35, R36) -/

/-- A CANCEL makes the request leave: it is QUEUED, or RASTERING with nothing outstanding (R33). -/
def Request.leavesCancelled (r : Request) : Bool := r.state == .queued || (r.state == .rastering && r.outstanding == 0)

/-- A CANCEL makes the request drain: it is RASTERING with operations outstanding (R33). -/
def Request.drainsCancelled (r : Request) : Bool := r.state == .rastering && r.outstanding != 0

/-- What is left of a record when the requests of `l` are cancelled. -/
def cancelledBy (l : List Request) (q : Request) : Option Request :=
  if l.any fun r => r.leavesCancelled && r.tag == q.tag then none
  else some (if l.any fun r => r.drainsCancelled && r.tag == q.tag then q.cancelled else q)

theorem cancelledBy_nil : cancelledBy [] = some := rfl

/-- Cancelling one more request first. -/
theorem cancelledBy_cons (r : Request) (l : List Request) (q : Request) :
    cancelledBy (r :: l) q = (cancelledBy [r] q).bind (cancelledBy l) := by
  by_cases hleaves : (r.leavesCancelled && r.tag == q.tag) = true
  · simp only [cancelledBy, List.any_cons, hleaves, Bool.true_or, if_true, Option.bind_none]
  · by_cases hdrains : (r.drainsCancelled && r.tag == q.tag) = true <;>
      simp [cancelledBy, Request.cancelled, hleaves, hdrains]

/-- What is left of a queue when a request that leaves is cancelled. -/
theorem filterMap_cancelledBy_leaves (h : r.leavesCancelled = true) (l : List Request) :
    l.filterMap (cancelledBy [r]) = l.filter fun q => q.tag != r.tag := by
  rw [← List.filterMap_eq_filter]
  refine List.filterMap_congr fun q _ => ?_
  by_cases e : q.tag = r.tag
  · simp [cancelledBy, h, e, Option.guard]
  · simp [cancelledBy, h, e, Ne.symm e, Option.guard, Request.drainsCancelled]

/-- What is left of a queue when a request that stays is cancelled. -/
theorem filterMap_cancelledBy_stays (h : r.leavesCancelled = false) (l : List Request) :
    l.filterMap (cancelledBy [r]) = l.map fun q => if r.drainsCancelled && r.tag == q.tag then q.cancelled else q := by
  rw [← List.filterMap_eq_map]
  refine List.filterMap_congr fun q _ => ?_
  simp [cancelledBy, h]

/-- The unit after one request is cancelled. -/
theorem State.cancelOne_eq (s : State) (r : Request) :
    s.cancelOne r =
      { s with
        gen := if r.state = .rastering then .free else s.gen
        queue := { s.queue with requests := s.queue.requests.filterMap (cancelledBy [r]) }
        reports := if r.leavesCancelled && r.origin == .host then s.reports.offer (r.completion .cancelled)
          else s.reports } := by
  cases hst : r.state with
  | queued =>
    have hl : r.leavesCancelled = true := by simp [Request.leavesCancelled, hst]
    rw [filterMap_cancelledBy_leaves hl]
    by_cases hh : r.origin = .host <;> simp [State.cancelOne, State.leave, State.offer, hst, hl, hh]
  | rastering =>
    by_cases hout : r.outstanding = 0
    · have hl : r.leavesCancelled = true := by simp [Request.leavesCancelled, hst, hout]
      rw [filterMap_cancelledBy_leaves hl]
      by_cases hh : r.origin = .host <;>
        simp [State.cancelOne, State.leave, State.offer, State.freeGenerator, hst, hout, hl, hh]
    · have hl : r.leavesCancelled = false := by simp [Request.leavesCancelled, hst, hout]
      have hd : r.drainsCancelled = true := by simp [Request.drainsCancelled, hst, hout]
      rw [filterMap_cancelledBy_stays hl]
      simp [State.cancelOne, State.freeGenerator, State.changeRequest, Request.cancelled, hst, hout, hl, hd,
        BEq.comm (a := r.tag)]
  | draining =>
    have hl : r.leavesCancelled = false := by simp [Request.leavesCancelled, hst]
    rw [filterMap_cancelledBy_stays hl]
    simp [State.cancelOne, Request.drainsCancelled, hst, hl]

/-- The unit after several requests are cancelled one after another. -/
theorem foldl_cancelOne (l : List Request) (s : State) :
    l.foldl State.cancelOne s =
      { s with
        gen := if l.any fun r => r.state == .rastering then .free else s.gen
        queue := { s.queue with requests := s.queue.requests.filterMap (cancelledBy l) }
        reports := (l.filter fun r => r.leavesCancelled && r.origin == .host).foldl
          (fun q r => q.offer (r.completion .cancelled)) s.reports } := by
  induction l generalizing s with
  | nil => simp [cancelledBy_nil]
  | cons r l ih =>
    have hqueue : (s.queue.requests.filterMap (cancelledBy [r])).filterMap (cancelledBy l) =
        s.queue.requests.filterMap (cancelledBy (r :: l)) := by
      rw [List.filterMap_filterMap]
      exact List.filterMap_congr fun q _ => (cancelledBy_cons r l q).symm
    rw [List.foldl_cons, ih, State.cancelOne_eq]
    simp only [hqueue, List.any_cons, List.filter_cons]
    by_cases hr : r.state = .rastering <;> by_cases hl : (r.leavesCancelled && r.origin == .host) = true <;>
      simp [hr, hl]

/-- The host requests the all form reaches: all but the DRAINING ones (R35). -/
def State.cancellable (s : State) : List Request := (s.pool .host).filter fun r => r.state != .draining

theorem mem_cancellable {q : Request} :
    q ∈ s.cancellable ↔ q ∈ s.queue.requests ∧ q.origin = .host ∧ q.state ≠ .draining := by
  simp only [State.cancellable, State.pool, List.mem_filter, beq_iff_eq, bne_iff_ne, and_assoc]

/-- With distinct tags, a test of some reached request with a record's tag is a test of the record itself. -/
theorem any_cancellable_tag (hn : (s.queue.requests.map (·.tag)).Nodup) {q : Request} (hq : q ∈ s.queue.requests)
    {f : Request → Bool} (hf : ∀ r, f r = true → r.state ≠ .draining) :
    (s.cancellable.any fun r => f r && r.tag == q.tag) = (q.origin == .host && f q) := by
  rw [Bool.eq_iff_iff]
  simp only [List.any_eq_true, mem_cancellable, Bool.and_eq_true, beq_iff_eq]
  constructor
  · rintro ⟨r, ⟨hr, hh, -⟩, hfr, htag⟩
    rw [← List.inj_on_of_nodup_map hn hr hq htag]
    exact ⟨hh, hfr⟩
  · rintro ⟨hh, hfq⟩
    exact ⟨q, ⟨hq, hh, hf q hfq⟩, hfq, rfl⟩

/-- Of the reached requests, those with a property no DRAINING request has. -/
theorem filter_cancellable (s : State) {f : Request → Bool} (hf : ∀ r, f r = true → r.state ≠ .draining) :
    s.cancellable.filter f = s.queue.requests.filter fun r => r.origin == .host && f r := by
  simp only [State.cancellable, State.pool, List.filter_filter]
  refine List.filter_congr fun r _ => ?_
  rw [Bool.eq_iff_iff]
  simp only [Bool.and_eq_true, bne_iff_ne]
  exact ⟨fun ⟨hfr, _, hh⟩ => ⟨hh, hfr⟩, fun ⟨hh, hfr⟩ => ⟨hfr, hf r hfr, hh⟩⟩

theorem Request.leavesCancelled_reached (r : Request) (h : r.leavesCancelled = true) : r.state ≠ .draining := by
  rintro hd
  simp [Request.leavesCancelled, hd] at h

theorem Request.drainsCancelled_reached (r : Request) (h : r.drainsCancelled = true) : r.state ≠ .draining := by
  rintro hd
  simp [Request.drainsCancelled, hd] at h

/-- The queue after the all form: a host request leaves, drains marked, or stays as it is. -/
theorem filterMap_cancelledBy_cancellable (hn : (s.queue.requests.map (·.tag)).Nodup) :
    s.queue.requests.filterMap (cancelledBy s.cancellable) =
      (s.queue.requests.filter fun r => !(r.origin == .host && r.leavesCancelled)).map fun r =>
        if r.origin == .host && r.state == .rastering then r.cancelled else r := by
  rw [← List.filterMap_eq_map, ← List.filterMap_eq_filter, List.filterMap_filterMap]
  refine List.filterMap_congr fun q hq => ?_
  rw [cancelledBy, any_cancellable_tag hn hq Request.leavesCancelled_reached,
    any_cancellable_tag hn hq Request.drainsCancelled_reached]
  by_cases hgoes : (q.origin == .host && q.leavesCancelled) = true
  · simp [hgoes, Option.guard]
  · have hdrains : (q.origin == .host && q.drainsCancelled) = (q.origin == .host && q.state == .rastering) := by
      rw [Bool.eq_iff_iff]
      simp only [Request.drainsCancelled, Bool.and_eq_true, beq_iff_eq, bne_iff_ne]
      refine ⟨fun ⟨hh, hst, _⟩ => ⟨hh, hst⟩, fun ⟨hh, hst⟩ => ⟨hh, hst, fun hout => hgoes ?_⟩⟩
      simp [Request.leavesCancelled, hh, hst, hout]
    simp [hgoes, Option.guard, hdrains]

/-- The unit after the all form (R35). -/
theorem cancelAllForm_state (hn : (s.queue.requests.map (·.tag)).Nodup) : (cancelAllForm s).1 = cancelledAll s := by
  have hstops : (s.cancellable.any fun r => r.state == .rastering) =
      s.queue.requests.any fun r => r.origin == .host && r.state == .rastering := by
    simp only [List.any_eq_not_all_not, State.cancellable, State.pool, List.all_filter]
    congr 1
    refine List.all_congr rfl fun r => ?_
    cases r.origin <;> cases r.state <;> rfl
  have hgoes : (s.cancellable.filter fun r => r.leavesCancelled && r.origin == .host) =
      s.queue.requests.filter fun r => r.origin == .host && r.leavesCancelled := by
    rw [filter_cancellable s fun r h => r.leavesCancelled_reached (Bool.and_eq_true _ _ ▸ h).1]
    refine List.filter_congr fun r _ => ?_
    cases r.origin <;> cases r.leavesCancelled <;> rfl
  show (s.cancellable.foldl State.cancelOne s).generatorArbiter = cancelledAll s
  rw [foldl_cancelOne, hstops, hgoes, filterMap_cancelledBy_cancellable hn]
  rfl

/-- The counts of the all form's reply: the host requests reached, and the DRAINING ones (R35). -/
theorem cancelAllForm_reply (s : State) :
    (cancelAllForm s).2 =
      let drains := (s.queue.requests.filter fun r => r.origin == .host && r.state == .draining).length
      [0x00, byte ((s.pool .host).length - drains), byte drains] := by
  have hsum : (s.pool .host).length =
      s.cancellable.length + (s.queue.requests.filter fun r => r.origin == .host && r.state == .draining).length := by
    rw [List.length_eq_length_filter_add (fun r : Request => r.state != .draining), ← State.cancellable]
    congr 2
    rw [State.pool, List.filter_filter]
    exact List.filter_congr fun r _ => by cases r.origin <;> cases r.state <;> rfl
  show [0x00, byte s.cancellable.length, byte ((s.pool .host).length - s.cancellable.length)] = _
  rw [hsum]
  simp

theorem cancelledAll_withLink (s : State) (l : Link) :
    cancelledAll { s with link := l } = { cancelledAll s with link := l } := by
  unfold cancelledAll
  dsimp only
  rw [← State.generatorArbiter_withLink]

theorem cancelledAll_link (s : State) : (cancelledAll s).link = s.link := by
  simp [cancelledAll]

/-- Settles O24, by the all form as one change of queue, generator and reports (`cancelAllForm_state`). -/
theorem cancelAllReachesEveryHostRequest : Obligations.CancelAllReachesEveryHostRequest := by
  intro s own seq hn drains
  refine ⟨fun hfresh => ?_, fun hawake hquiet => ⟨?_, fun a b hab => ?_⟩⟩
  · refine congrArg Host.Outcome.next
      (addressedFrame_owner .cancel hfresh rfl (by decide) (cancelledAll_link s) fun l => ?_)
    rw [← cancelledAll_withLink]
    exact Prod.ext (cancelAllForm_state (s := { s with link := l }) hn) (cancelAllForm_reply _)
  · refine congrArg Host.Outcome.next ?_
    rw [broadcastFrame_taken seq .cancel hawake hquiet (by simp), ← cancelledAll_withLink]
    exact cancelAllForm_state (s := s.setRx .hunt) hn
  · have hfield : field16 [a, b] 0 ≠ 0 := by
      intro h
      have hzero : a.toNat = 0 ∧ b.toNat = 0 := by
        simp only [field16, le16, field, List.getD_cons_zero, List.getD_cons_succ] at h
        omega
      exact hab.elim (fun ha => ha (BitVec.eq_of_toNat_eq hzero.1)) fun hb => hb (BitVec.eq_of_toNat_eq hzero.2)
    refine congrArg Host.Outcome.next ?_
    rw [broadcastFrame_taken seq .cancel hawake hquiet (by simp)]
    simp [State.takeBroadcast, msgKindOf_code, hfield, State.setRx]

/-! ### A restart (R39, R103, R124, R164, R177, R186) -/

/-- Scanning starts afresh with no pulse in progress (R145, R152). -/
theorem State.restartTouch_idle (h : s.driver.state = .idle) :
    s.restartTouch =
      { s with
        touch := s.touch.fresh (s.settings.touchEnable == 1) s.settings.scanPeriod false
        reports := { s.reports with coalesce := none } } := by
  have hpulse : s.pulseInProgress = false := by simp [State.pulseInProgress, h]
  by_cases ht : s.settings.touchEnable = 1 <;>
    simp [State.restartTouch, State.clearCoalesce, State.newScan, Touch.fresh, hpulse, ht]

/-- The image after the operation in hand is cut short (R6). -/
def State.imageCutShort (s : State) : Image :=
  match s.driver.hand with
  | some h => loseDots s.image h.op.strip h.lost
  | none => s.image

theorem State.cutShort_eq (s : State) :
    s.cutShort = { s with image := s.imageCutShort, driver := { s.driver with hand := none } } := by
  cases hhand : s.driver.hand with
  | none =>
    simp only [State.cutShort, State.imageCutShort, hhand]
    rw [← hhand]
  | some h => simp only [State.cutShort, State.imageCutShort, hhand]

/-- What a restart keeps and empties (R186). -/
theorem State.restart_eq (s : State) (cache : Option (Byte × List Byte)) : s.restart cache = restartedState s cache := by
  unfold State.restart
  rw [State.cutShort_eq]
  exact State.restartTouch_idle rfl

/-- Settles O16, by the table of R186 as one state (`State.restart_eq`). -/
theorem restartKeepsAndEmpties : Obligations.RestartKeepsAndEmpties := by
  intro s own seq
  refine ⟨fun hfresh => ?_, fun reply hawake htx => ?_, fun hawake hquiet => ?_⟩
  · exact congrArg Host.Outcome.next
      (addressedFrame_carried 0x03 [] (s.setRx .hunt) [0x00] hfresh (by simp) rfl rfl)
  · have hends : s.replyEnds = restartedState s s.link.cache := by
      simp only [State.replyEnds, htx, if_true, State.restart_eq]
      rfl
    exact congrArg Host.Outcome.next (by simp [State.unlessReset, hawake, hends])
  · refine congrArg Host.Outcome.next ?_
    rw [broadcastFrame_taken seq .restart hawake hquiet (by simp)]
    exact State.restart_eq (s.setRx .hunt) none

end Sys2Proof.Machine
end

