-- ==== Sys2Proof/Proofs/Draw.lean ====
section
/-!
SUPPORT. The form checks of a DRAW as one walk over its header and its items, what reads back and what is refused, and
the request that joins (R20 to R25, R61 to R63, R191).
-/

-- One proof at a time: side by side, the proofs' threads reserve more memory than the check allows.
set_option Elab.async false

namespace Sys2Proof.Machine

variable {s : State}

/-! ### One item (R63, R191) -/

theorem coordinateFits_iff {i : Int} : coordinateFits i = true ↔ -32768 ≤ i ∧ i ≤ 32767 := by
  simp [coordinateFits]

/-- A coordinate is read back from the two bytes that carry it. -/
theorem signed16_of_fits {i : Int} (h : coordinateFits i = true) :
    signed16 (byte (i % 65536).toNat) (byte ((i % 65536).toNat / 256)) = i :=
  signed16_bytes (coordinateFits_iff.1 h).1 (coordinateFits_iff.1 h).2

/-- A byte that carries a number below 256. -/
theorem byte_toNat_of_lt {n : Nat} (h : n < 256) : (byte n).toNat = n := by
  rw [byte_toNat, Nat.mod_eq_of_lt h]

/-- Codes are read back from the bytes that carry them. -/
theorem map_toNat_map_byte {codes : List Nat} (h : ∀ c ∈ codes, c < 256) :
    (codes.map byte).map (·.toNat) = codes := by
  rw [List.map_map]
  exact (List.map_congr_left fun c hc => byte_toNat_of_lt (h c hc)).trans (List.map_id codes)

/-- An item in range is read back from the kind and the fields that carry it. -/
theorem itemOf_encode {it : Item} (h : it.fits = true) : itemOf it.kindCode.toNat it.fieldBytes = some it := by
  cases it with
  | dot x y | cursor x y =>
    obtain ⟨hx, hy⟩ : coordinateFits x = true ∧ coordinateFits y = true := by simpa [Item.fits] using h
    simp [itemOf, Item.kindCode, Item.fieldBytes, signed16Bytes, le16Bytes, fieldSigned, field, signed16_of_fits hx,
      signed16_of_fits hy]
  | line x0 y0 x1 y1 =>
    obtain ⟨⟨⟨hx0, hy0⟩, hx1⟩, hy1⟩ : ((coordinateFits x0 = true ∧ coordinateFits y0 = true) ∧
      coordinateFits x1 = true) ∧ coordinateFits y1 = true := by simpa [Item.fits] using h
    simp [itemOf, Item.kindCode, Item.fieldBytes, signed16Bytes, le16Bytes, fieldSigned, field, signed16_of_fits hx0,
      signed16_of_fits hy0, signed16_of_fits hx1, signed16_of_fits hy1]
  | box x y w ht style =>
    obtain ⟨⟨hx, hy⟩, hsize⟩ : (coordinateFits x = true ∧ coordinateFits y = true) ∧
      1 ≤ w ∧ w ≤ 4096 ∧ 1 ≤ ht ∧ ht ≤ 4096 := by simpa [Item.fits] using h
    have hw : le16 (byte w) (byte (w / 256)) = w := le16_bytes (by omega)
    have hh : le16 (byte ht) (byte (ht / 256)) = ht := le16_bytes (by omega)
    cases style <;>
      simp [itemOf, boxItem, Item.kindCode, Item.fieldBytes, BoxStyle.code, signed16Bytes, le16Bytes, fieldSigned,
        field16, fieldNat, field, signed16_of_fits hx, signed16_of_fits hy, hw, hh, hsize]
  | text font start codes =>
    obtain ⟨⟨⟨hfont, hlo, hhi⟩, hcodes⟩, hstart⟩ : ((font ≤ 7 ∧ 1 ≤ codes.length ∧ codes.length ≤ 64) ∧
      ∀ c ∈ codes, c < 256) ∧ ∀ xy ∈ start, coordinateFits xy.1 = true ∧ coordinateFits xy.2 = true := by
      cases start <;> simpa [Item.fits] using h
    have hfontByte : (byte font).toNat = font := byte_toNat_of_lt (by omega)
    have hread := map_toNat_map_byte hcodes
    cases start with
    | none =>
      simp [itemOf, textItem, Item.kindCode, Item.fieldBytes, fieldNat, field, hfontByte, hfont, hlo, hhi, hread]
    | some xy =>
      obtain ⟨hx, hy⟩ := hstart xy rfl
      simp [itemOf, textItem, Item.kindCode, Item.fieldBytes, signed16Bytes, le16Bytes, fieldSigned, fieldNat, field,
        signed16_of_fits hx, signed16_of_fits hy, hfontByte, hfont, hlo, hhi, hread]
  | image x y w ht data =>
    obtain ⟨⟨hx, hy⟩, hwlo, hwhi, hhlo, hhhi, hdata⟩ : (coordinateFits x = true ∧ coordinateFits y = true) ∧
      1 ≤ w ∧ w ≤ 240 ∧ 1 ≤ ht ∧ ht ≤ 64 ∧ data.length = w * columnBytes ht := by simpa [Item.fits] using h
    have hw : (byte w).toNat = w := byte_toNat_of_lt (by omega)
    have hh : (byte ht).toNat = ht := byte_toNat_of_lt (by omega)
    simp [itemOf, imageItem, Item.kindCode, Item.fieldBytes, signed16Bytes, le16Bytes, fieldSigned, fieldNat, field,
      signed16_of_fits hx, signed16_of_fits hy, hw, hh, hwlo, hwhi, hhlo, hhhi, hdata, Nat.add_comm 6]
  | clear => rfl
  | newline rows =>
    obtain ⟨hlo, hhi⟩ : 1 ≤ rows ∧ rows ≤ 64 := by simpa [Item.fits] using h
    have hrows : (byte rows).toNat = rows := byte_toNat_of_lt (by omega)
    simp [itemOf, Item.kindCode, Item.fieldBytes, fieldNat, field, hrows, hlo, hhi]

/-- A BOX of the right length whose sizes or style fail (R63). -/
theorem boxItem_refused {f : List Byte} (h : itemRefused 3 f) (hn : f.length = 9) : boxItem f = none := by
  replace h : f.length ≠ 9 ∨ field16 f 4 = 0 ∨ 4096 < field16 f 4 ∨ field16 f 6 = 0 ∨ 4096 < field16 f 6 ∨
    1 < fieldNat f 8 := h
  unfold boxItem
  dsimp only
  split
  next hsize =>
    have hstyle : 1 < fieldNat f 8 := by omega
    split
    case h_3 => rfl
    all_goals omega
  next => rfl

/-- A TEXT whose font, flag or number of codes fails (R63). -/
theorem textItem_refused {f : List Byte} (h : itemRefused 4 f) (hn : 2 ≤ f.length) : textItem f = none := by
  replace h : f.length < 3 ∨ 7 < fieldNat f 0 ∨ 1 < fieldNat f 1 ∨ (fieldNat f 1 = 0 ∧ 66 < f.length) ∨
    (fieldNat f 1 = 1 ∧ (f.length < 7 ∨ 70 < f.length)) := h
  have hcount : ∀ k, (f.drop k).length = f.length - k := fun k => List.length_drop
  unfold textItem
  dsimp only
  rcases hflag : fieldNat f 1 with _ | _ | n
  · simp only [hcount]
    exact if_neg (by omega)
  · by_cases hstart : 6 ≤ f.length
    · simp only [hstart, if_true, hcount]
      exact if_neg (by omega)
    · simp only [hstart, if_false]
  · rfl

/-- An IMAGE whose sizes or data length fails (R63). -/
theorem imageItem_refused {f : List Byte} (h : itemRefused 5 f) (hn : 6 ≤ f.length) : imageItem f = none := by
  replace h : f.length < 6 ∨ fieldNat f 4 = 0 ∨ 240 < fieldNat f 4 ∨ fieldNat f 5 = 0 ∨ 64 < fieldNat f 5 ∨
    f.length ≠ 6 + fieldNat f 4 * columnBytes (fieldNat f 5) := h
  refine if_neg fun hok => ?_
  omega

/-- A NEWLINE of the wrong length, or whose rows fail (R63). -/
theorem newline_refused {f : List Byte} (h : itemRefused 8 f) :
    ¬(f.length = 1 ∧ 1 ≤ fieldNat f 0 ∧ fieldNat f 0 ≤ 64) := by
  replace h : f.length ≠ 1 ∨ fieldNat f 0 = 0 ∨ 64 < fieldNat f 0 := h
  omega

/-- An item whose kind, length or field fails is not read (R62, R63). -/
theorem itemOf_refused {kind : Nat} {f : List Byte} (h : itemRefused kind f) : itemOf kind f = none := by
  unfold itemOf
  split
  case h_1 | h_2 | h_6 | h_7 => exact if_neg h
  case h_3 => exact ite_eq_right_iff.2 (boxItem_refused h)
  case h_4 => exact ite_eq_right_iff.2 (textItem_refused h)
  case h_5 => exact ite_eq_right_iff.2 (imageItem_refused h)
  case h_8 => exact if_neg (newline_refused h)
  case h_9 => rfl

/-! ### The walk over the items (R62) -/

/-- The walk over an item that passes. -/
theorem walkItems_item {it : Item} (h : it.fits = true) (hlen : it.fieldBytes.length < 256) (n i : Nat)
    (rest : List Byte) :
    walkItems (n + 1) i (it.encode ++ rest) = (walkItems n (i + 1) rest).map (it :: ·) := by
  have hread : itemOf it.kindCode.toNat ((it.fieldBytes ++ rest).take it.fieldBytes.length) = some it := by
    rw [List.take_left, itemOf_encode h]
  have hfits : ¬(it.fieldBytes ++ rest).length < it.fieldBytes.length := by simp
  simp only [Item.encode, List.cons_append, walkItems, byte_toNat_of_lt hlen, hread, List.drop_left, if_neg hfits]
  cases walkItems n (i + 1) rest <;> rfl

/-- The walk over items that pass comes to what follows them. -/
theorem walkItems_passed {passed : List Item} (h : ∀ it ∈ passed, it.fits = true)
    (hlen : (passed.flatMap Item.encode).length < 256) (n i : Nat) (rest : List Byte) :
    walkItems (passed.length + n) i (passed.flatMap Item.encode ++ rest) =
      (walkItems n (i + passed.length) rest).map (passed ++ ·) := by
  induction passed generalizing i with
  | nil =>
    rw [List.length_nil, Nat.zero_add, Nat.add_zero]
    show walkItems n i rest = _
    cases walkItems n i rest <;> rfl
  | cons it passed ih =>
    rw [List.flatMap_cons, List.length_append] at hlen
    have hit : it.fieldBytes.length < 256 := by
      have : it.encode.length = it.fieldBytes.length + 2 := rfl
      omega
    rw [List.flatMap_cons, List.append_assoc, List.length_cons, Nat.add_right_comm,
      walkItems_item (h it List.mem_cons_self) hit,
      ih (fun it hit => h it (List.mem_cons_of_mem _ hit)) (by omega), Nat.add_right_comm i, Nat.add_assoc i]
    cases walkItems n (i + (passed.length + 1)) rest <;> rfl

/-! ### The header (R61) -/

theorem actionOf_eq_none_iff {n : Nat} : actionOf n = none ↔ 3 < n := by
  match n with
  | 0 | 1 | 2 | 3 => simp [actionOf]
  | n + 4 => simp [actionOf]

/-- The rule source fails, or it is explicit and an action fails (R61). -/
theorem ruleChoiceOf_eq_none_iff {source ink ground : Nat} :
    ruleChoiceOf source ink ground = none ↔ 1 < source ∨ (source = 1 ∧ (3 < ink ∨ 3 < ground)) := by
  match source with
  | 0 => simp [ruleChoiceOf]
  | 1 =>
    rw [ruleChoiceOf, Option.map_eq_none_iff, inkRuleOf, ← actionOf_eq_none_iff, ← actionOf_eq_none_iff]
    cases actionOf ink <;> cases actionOf ground <;> simp
  | n + 2 => simp [ruleChoiceOf]

/-- A header field of a DRAW fails its check (R61, R62). -/
def headerFails (viewports : List Viewport) (vp source ink ground force count : Byte) : Prop :=
  ¬(vp.toNat ≤ 7 ∧ (viewports.getD vp.toNat .undefined).defined = true) ∨ 1 < source.toNat ∨
    (source = 1 ∧ (3 < ink.toNat ∨ 3 < ground.toNat)) ∨ 1 < force.toNat ∨ count = 0 ∨ 16 < count.toNat

variable {viewports : List Viewport} {vp source ink ground force count : Byte}

theorem parseDraw_headerFails (h : headerFails viewports vp source ink ground force count) (p : List Byte) :
    parseDraw viewports ([vp, source, ink, ground, force, count] ++ p) = .error (badFieldReply 0xFF) := by
  simp only [parseDraw, fieldNat, field, List.cons_append, List.getD_cons_zero, List.getD_cons_succ]
  by_cases hvp : vp.toNat ≤ 7 ∧ (viewports.getD vp.toNat .undefined).defined = true
  · rw [if_pos hvp]
    cases hrule : ruleChoiceOf source.toNat ink.toNat ground.toNat with
    | none => rfl
    | some rule =>
      have hsource : ¬(1 < source.toNat ∨ (source.toNat = 1 ∧ (3 < ink.toNat ∨ 3 < ground.toNat))) := by
        rw [← ruleChoiceOf_eq_none_iff, hrule]
        exact Option.some_ne_none rule
      have hone : source = 1 → source.toNat = 1 := fun e => e ▸ rfl
      have hzero : count = 0 → count.toNat = 0 := fun e => e ▸ rfl
      refine if_neg fun hok => ?_
      rcases h with h | h | h | h | h | h
      · exact h hvp
      · exact hsource (.inl h)
      · exact hsource (.inr (h.imp_left hone))
      · omega
      · have := hzero h
        omega
      · omega
  · rw [if_neg hvp]

/-- With a header that passes, the form of a DRAW is that of its items. -/
theorem parseDraw_items_eq {rule : RuleChoice} (hvp : vp.toNat ≤ 7)
    (hd : (viewports.getD vp.toNat .undefined).defined = true)
    (hrule : ruleChoiceOf source.toNat ink.toNat ground.toNat = some rule) (hforce : force.toNat ≤ 1)
    (hlo : 1 ≤ count.toNat) (hhi : count.toNat ≤ 16) (p : List Byte) :
    parseDraw viewports ([vp, source, ink, ground, force, count] ++ p) =
      (walkItems count.toNat 0 p).map fun items => ⟨vp.toNat, rule, force.toNat == 1, items⟩ := by
  simp only [parseDraw, fieldNat, field, List.cons_append, List.nil_append, List.getD_cons_zero, List.getD_cons_succ,
    List.drop_succ_cons, List.drop_zero, hrule]
  rw [if_pos ⟨hvp, hd⟩, if_pos ⟨hforce, hlo, hhi⟩]
  cases walkItems count.toNat 0 p <;> rfl

/-- A header that passes carries a rule choice. -/
theorem exists_rule_of_not_headerFails (h : ¬headerFails viewports vp source ink ground force count) :
    ∃ rule, ruleChoiceOf source.toNat ink.toNat ground.toNat = some rule := by
  rw [← Option.ne_none_iff_exists']
  intro hnone
  rcases ruleChoiceOf_eq_none_iff.1 hnone with hs | ⟨hs, hact⟩
  · exact h (.inr (.inl hs))
  · exact h (.inr (.inr (.inl ⟨BitVec.eq_of_toNat_eq hs, hact⟩)))

/-- With a header that passes, a failure in the walk over the items is the failure of the form. -/
theorem parseDraw_walk_error (h : ¬headerFails viewports vp source ink ground force count) {p : List Byte} {e : Reply}
    (hwalk : walkItems count.toNat 0 p = .error e) :
    parseDraw viewports ([vp, source, ink, ground, force, count] ++ p) = .error e := by
  obtain ⟨rule, hrule⟩ := exists_rule_of_not_headerFails h
  simp only [headerFails, not_or, not_not, not_lt] at h
  obtain ⟨⟨hvp, hd⟩, -, -, hforce, hcount, hhi⟩ := h
  have hlo : count.toNat ≠ 0 := fun e => hcount (BitVec.eq_of_toNat_eq e)
  rw [parseDraw_items_eq hvp hd hrule hforce (Nat.pos_of_ne_zero hlo) hhi, hwalk]
  rfl

/-- The walk over items that pass, to a failure in what follows them. -/
theorem walkItems_passed_error {passed : List Item} (h : ∀ it ∈ passed, it.fits = true) {n k : Nat} {p rest : List Byte}
    {e : Reply} (hp : p = passed.flatMap Item.encode ++ rest) (hlen : p.length ≤ 194) (hk : passed.length + n = k)
    (hwalk : walkItems n passed.length rest = .error e) : walkItems k 0 p = .error e := by
  subst hk hp
  rw [List.length_append] at hlen
  rw [walkItems_passed h (by omega), Nat.zero_add, hwalk]
  rfl

/-! ### DRAW (R22, R23) -/

/-- A DRAW that is refused: the reply, and nothing else. -/
theorem exec_draw_refused {own : Nat} {seq : Byte} {p : List Byte} {e : Reply} (h : FreshFrame s own seq)
    (hlo : 6 ≤ p.length) (hhi : p.length ≤ 200)
    (hk : ∀ l : Link, drawMessage { s with link := l } p = ({ s with link := l }, e)) :
    exec (.draw seq p) s = .next (s.replied own seq 0x10 e) :=
  congrArg Host.Outcome.next
    (addressedFrame_owner .draw h (by simp [MsgKind.accepts, hlo, hhi]) (by decide) rfl hk)

theorem exec_draw_badForm {own : Nat} {seq : Byte} {p : List Byte} {e : Reply} (h : FreshFrame s own seq)
    (hlo : 6 ≤ p.length) (hhi : p.length ≤ 200) (hp : parseDraw s.viewports p = .error e) :
    exec (.draw seq p) s = .next (s.replied own seq 0x10 e) :=
  exec_draw_refused h hlo hhi fun l => by simp only [drawMessage, hp]

/-- Settles O19: the header, then the walk over the items, then the driver and the host pool. -/
theorem drawIsRefusedInOrder : Obligations.DrawIsRefusedInOrder := by
  intro s own seq vp source ink ground force count p hfresh hlen run badHeader
  have hlo : 6 ≤ ([vp, source, ink, ground, force, count] ++ p).length := by simp
  have hhi : ([vp, source, ink, ground, force, count] ++ p).length ≤ 200 := by simp; omega
  have hform : ∀ {e}, parseDraw s.viewports ([vp, source, ink, ground, force, count] ++ p) = .error e →
      run = .next (s.replied own seq 0x10 e) := exec_draw_badForm hfresh hlo hhi
  refine ⟨fun hbad => hform (parseDraw_headerFails hbad p), fun hgood passed rest hfits hp => ?_, fun d hd => ⟨?_, ?_⟩⟩
  · have hwalk : ∀ {n e}, passed.length + n = count.toNat → walkItems n passed.length rest = .error e →
        run = .next (s.replied own seq 0x10 e) := fun hn hw =>
      hform (parseDraw_walk_error hgood (walkItems_passed_error hfits hp hlen hn hw))
    refine ⟨fun hcount hrest => ?_, fun hmore => ?_⟩
    · obtain ⟨b, rest, rfl⟩ := List.exists_cons_of_ne_nil hrest
      exact hwalk (n := 0) hcount rfl
    · obtain ⟨n, hn⟩ : ∃ n, passed.length + (n + 1) = count.toNat := ⟨count.toNat - passed.length - 1, by omega⟩
      refine ⟨fun hshort => hwalk hn ?_, fun kind len fields hrest => ⟨fun hshort => ?_, fun hin hbad => ?_⟩⟩
      · match rest, hshort with
        | [], _ | [_], _ => rfl
      · exact hwalk hn (by rw [hrest, walkItems, if_pos hshort]; rfl)
      · refine hwalk hn ?_
        rw [hrest, walkItems, if_neg (Nat.not_lt.2 hin), itemOf_refused hbad]
        rfl
  · exact fun hheld => exec_draw_refused hfresh hlo hhi fun l => by
      simp only [drawMessage, hd, hheld, if_true]
      rfl
  · exact fun hheld hfull => exec_draw_refused hfresh hlo hhi fun l => by
      simp only [drawMessage, hd, hheld, if_false]
      exact if_pos hfull

/-! ### A DRAW that joins (R20 to R25) -/

theorem actionOf_code (a : Action) : actionOf a.code = some a := by cases a <;> rfl

theorem action_code_byte (a : Action) : (byte a.code).toNat = a.code := by cases a <;> rfl

/-- The rule choice is read back from the header bytes that carry it. -/
theorem RuleChoice.headerBytes_read (rule : RuleChoice) :
    ∃ source ink ground : Byte, rule.headerBytes = [source, ink, ground] ∧
      ruleChoiceOf source.toNat ink.toNat ground.toNat = some rule := by
  cases rule with
  | viewport => exact ⟨0, 0, 0, rfl, rfl⟩
  | explicit r =>
    refine ⟨1, byte r.ink.code, byte r.ground.code, rfl, ?_⟩
    rw [action_code_byte, action_code_byte]
    show (inkRuleOf r.ink.code r.ground.code).map RuleChoice.explicit = _
    simp [inkRuleOf, actionOf_code]

/-- The payload of a drawing that fits is read back as that drawing (R61, R62, R191). -/
theorem parseDraw_encode {d : DrawForm} (h : d.fits = true)
    (hd : (viewports.getD d.viewport .undefined).defined = true) : parseDraw viewports d.encode = .ok d := by
  obtain ⟨⟨hvp, hlo, hhi, hlen⟩, hitems⟩ : (d.viewport ≤ 7 ∧ 1 ≤ d.items.length ∧ d.items.length ≤ 16 ∧
    d.encode.length ≤ 200) ∧ ∀ it ∈ d.items, it.fits = true := by simpa [DrawForm.fits] using h
  obtain ⟨source, ink, ground, hbytes, hrule⟩ := d.rule.headerBytes_read
  have hencode : d.encode = [byte d.viewport, source, ink, ground, boolByte d.force, byte d.items.length] ++
      d.items.flatMap Item.encode := by simp [DrawForm.encode, hbytes]
  have hvpByte : (byte d.viewport).toNat = d.viewport := byte_toNat_of_lt (by omega)
  have hcount : (byte d.items.length).toNat = d.items.length := byte_toNat_of_lt (by omega)
  have hforce : (boolByte d.force).toNat ≤ 1 ∧ ((boolByte d.force).toNat == 1) = d.force := by
    cases d.force <;> decide
  have hbody : (d.items.flatMap Item.encode).length < 256 := by
    rw [hencode, List.length_append] at hlen
    omega
  have hwalk : walkItems d.items.length 0 (d.items.flatMap Item.encode) = .ok d.items := by
    have := walkItems_passed hitems hbody 0 0 []
    simpa [walkItems, Except.map] using this
  rw [hencode, parseDraw_items_eq (by rwa [hvpByte]) (by rwa [hvpByte]) hrule hforce.1 (by rwa [hcount])
    (by rwa [hcount]), hcount, hwalk, hvpByte, hforce.2]
  rfl

/-- A change of the request that joined last, under a fresh tag, changes its record alone. -/
theorem changeRequest_joined {q : List Request} {r : Request} {counter : Nat} (hr : r.tag ∉ q.map (·.tag))
    (f : Request → Request) :
    State.changeRequest { s with queue := ⟨q ++ [r], counter⟩ } r.tag f =
      { s with queue := ⟨q ++ [f r], counter⟩ } := by
  have hkeep : q.map (fun x => if x.tag == r.tag then f x else x) = q :=
    (List.map_congr_left fun x hx => by
      have hne : x.tag ≠ r.tag := fun e => hr (e ▸ List.mem_map_of_mem hx)
      simp [hne]).trans (List.map_id q)
  simp only [State.changeRequest, List.map_append, hkeep, List.map_singleton, beq_self_eq_true, if_true]

/-- A QUEUED request that has joined behind requests none of which is QUEUED is the arbiter's choice. -/
theorem arbiterChoice_joined {q : List Request} {r : Request} {counter : Nat} (hr : r.state = .queued)
    (hh : r.origin = .host) (hq : ∀ x ∈ q, x.state ≠ .queued) :
    State.arbiterChoice { s with queue := ⟨q ++ [r], counter⟩ } = some r := by
  refine State.arbiterChoice_host rfl hr (fun x hx => ?_) hq
  rcases List.mem_append.1 hx with hx | hx
  · exact fun e => hq x hx e.1
  · rw [List.mem_singleton.1 hx, hh]
    exact fun e => nomatch e.2

/-- The generator, free, takes the one QUEUED request as it joins (R25, R26). -/
theorem generatorArbiter_joined {q : List Request} {r : Request} {counter : Nat} (hr : r.state = .queued)
    (hh : r.origin = .host) (hq : ∀ x ∈ q, x.state ≠ .queued) (htag : r.tag ∉ q.map (·.tag))
    (hfree : s.gen.current = none) (hheld : s.driver.state ≠ .held) :
    State.generatorArbiter { s with queue := ⟨q ++ [r], counter⟩ } =
      { s with
        queue := ⟨q ++ [{ r with state := .rastering, progress := ⟨0, .itemStart⟩ }], counter⟩
        gen := ⟨some r.tag, none, none, none⟩ } := by
  have hchoice := arbiterChoice_joined (s := s) (counter := counter) hr hh hq
  rcases State.generatorArbiter_cases { s with queue := ⟨q ++ [r], counter⟩ } with ⟨-, hnone⟩ | ⟨x, hx, -, -, htakes⟩
  · rw [hnone hfree hheld] at hchoice
    cases hchoice
  · obtain rfl := Option.some.inj (hchoice.symm.trans hx)
    rw [htakes, changeRequest_joined htag]
    rfl

/-- Settles O20: the payload is read back (`parseDraw_encode`), the record joins, and the arbiter chooses. -/
theorem drawJoinsTheQueue : Obligations.DrawJoinsTheQueue := by
  intro s own seq d hfresh hfits hd hheld hpool hlen hcounter tag r joined
  have htag : r.tag ∉ s.queue.requests.map (·.tag) := freeNumber_fresh hcounter (by simp; omega)
  refine ⟨?_, fun current hcur => State.generatorArbiter_idle (.inl ?_), fun hfree hq => ?_⟩
  · have hlo : 6 ≤ d.encode.length := by
      obtain ⟨source, ink, ground, hbytes, -⟩ := d.rule.headerBytes_read
      simp [DrawForm.encode, hbytes]
    have hhi : d.encode.length ≤ 200 := by
      simp only [DrawForm.fits, Bool.and_eq_true, decide_eq_true_eq] at hfits
      exact hfits.1.2.2.2
    refine congrArg Host.Outcome.next
      (addressedFrame_owner .draw hfresh (by simp [MsgKind.accepts, hlo, hhi]) (by decide) (by simp [joined])
        fun l => ?_)
    have hread : parseDraw s.viewports d.encode = .ok d := parseDraw_encode hfits hd
    rw [← State.generatorArbiter_withLink]
    simp only [ownerCarriesOut, drawMessage, hread, hheld, if_false]
    exact if_neg (Nat.not_le.2 hpool)
  · show s.gen.current ≠ none
    rw [hcur]
    exact Option.some_ne_none current
  · exact generatorArbiter_joined rfl rfl hq htag hfree hheld

end Sys2Proof.Machine
end

