-- ==== Sys2Proof/Proofs/ViewportTable.lean ====
section
/-!
SUPPORT. The messages that write the viewport table, the fields of three messages checked in index order, the ignored
action bytes of a DRAW, and the geometry change (R44 to R46, R61, R70, R148, R180 to R184).
-/

-- One proof at a time: side by side, the proofs' threads reserve more memory than the check allows.
set_option Elab.async false

namespace Sys2Proof.Machine

variable {s : State} {own : Nat} {seq : Byte}

/-! ### The ignored action bytes of a DRAW (R61) -/

/-- With the rule source VIEWPORT the two action bytes are not read. -/
theorem parseDraw_viewportRule (viewports : List Viewport) (vp ink ground : Byte) (rest : List Byte) :
    parseDraw viewports ([vp, 0, ink, ground] ++ rest) = parseDraw viewports ([vp, 0, 0, 0] ++ rest) := by
  simp [parseDraw, fieldNat, field, ruleChoiceOf]

/-- Settles O18: the payload is read back (`parseDraw_encode`), and what stands in the action bytes beside the rule
source VIEWPORT is not read (`parseDraw_viewportRule`). -/
theorem drawPayloadReadsBack : Obligations.DrawPayloadReadsBack := by
  intro viewports d hfits hd
  have hread := parseDraw_encode hfits hd
  refine ⟨hread, fun ink ground hrule => ?_⟩
  have hencode : d.encode = [byte d.viewport, 0, 0, 0] ++ d.encode.drop 4 := by
    simp [DrawForm.encode, hrule, RuleChoice.headerBytes]
  rw [parseDraw_viewportRule, ← hencode, hread]

/-! ### Checks in index order (R44, R70, R148) -/

/-- Checks whose indices count up from `k`, each failing where `bad` says so: the first bad index is answered. -/
theorem firstFailing_index {bad : Nat → Prop} {l : List (Nat × Bool)} {k i : Nat}
    (hindex : l.map (·.1) = List.range' k l.length) (hbad : ∀ e ∈ l, e.2 = false ↔ bad e.1)
    (hend : ∀ n, ¬bad (n + (k + l.length))) (hk : k ≤ i) (h : bad i) (hfirst : ∀ j < i, ¬bad j) :
    firstFailing l = some i := by
  induction l generalizing k with
  | nil =>
    obtain ⟨n, rfl⟩ := Nat.exists_eq_add_of_le' hk
    exact absurd h (hend n)
  | cons e l ih =>
    obtain ⟨j, ok⟩ := e
    rw [List.map_cons, List.length_cons, List.range'_succ, List.cons.injEq] at hindex
    obtain ⟨rfl, hindex⟩ := hindex
    obtain ⟨he, hl⟩ := List.forall_mem_cons.1 hbad
    rcases Nat.eq_or_lt_of_le hk with rfl | hlt
    · obtain rfl : ok = false := he.2 h
      rfl
    · obtain rfl : ok = true := Bool.eq_true_of_not_eq_false fun hok => hfirst _ hlt (he.1 hok)
      refine ih hindex hl (fun n => ?_) hlt
      rw [Nat.add_right_comm]
      exact hend n

/-- A message refused by its field checks: the reply with the failing index, and nothing else. -/
theorem addressedFrame_badField (k : MsgKind) {p : List Byte} {i : Nat} (h : FreshFrame s own seq)
    (ha : k.accepts p.length = true) (hr : k ≠ .restart)
    (hk : ∀ l : Link, ownerCarriesOut k { s with link := l } p = ({ s with link := l }, badFieldReply i)) :
    s.addressedFrame seq k.code p = s.replied own seq k.code [0x03, byte i] :=
  addressedFrame_owner k h ha hr rfl hk

theorem byte_eq_zero_iff (b : Byte) : b = 0 ↔ b.toNat = 0 :=
  ⟨fun e => by simp [e], fun e => BitVec.eq_of_toNat_eq (by simpa using e)⟩

theorem byte_eq_one_iff (b : Byte) : b = 1 ↔ b.toNat = 1 :=
  ⟨fun e => by simp [e], fun e => BitVec.eq_of_toNat_eq (by simpa using e)⟩

/-- A code from 3 on names no echo mode (R188). -/
theorem echoModeOf_isSome_iff (n : Nat) : (echoModeOf n).isSome = false ↔ 2 < n := by
  match n with
  | 0 | 1 | 2 => simp [echoModeOf]
  | n + 3 => simp [echoModeOf]

/-- The checks of a SET ZONE in the order of R148, each with its index. -/
def setZoneChecks (c : Settings) (p : List Byte) : List (Nat × Bool) :=
  let define := fieldNat p 1 == 1
  [(0, decide (1 ≤ fieldNat p 0 ∧ fieldNat p 0 ≤ 16)), (1, decide (fieldNat p 1 ≤ 1)),
    (2, !define || decide (fieldNat p 2 < c.columns)), (3, !define || decide (fieldNat p 3 < 16 * c.stripRows)),
    (4, !define || decide (1 ≤ fieldNat p 4 ∧ fieldNat p 2 + fieldNat p 4 ≤ c.columns)),
    (5, !define || decide (1 ≤ fieldNat p 5 ∧ fieldNat p 3 + fieldNat p 5 ≤ 16 * c.stripRows)),
    (6, !define || (echoModeOf (fieldNat p 6)).isSome)]

/-- A SET ZONE that fails a check of R148. -/
theorem setZoneMessage_badField {p : List Byte} {i : Nat} (h : firstFailing (setZoneChecks s.settings p) = some i) :
    setZoneMessage s p = (s, badFieldReply i) := by
  unfold setZoneChecks at h
  simp only [setZoneMessage, h]

/-- Settles O28: each message's checks stand in index order and fail where the statement's table says so, so the first
bad index is answered (`firstFailing_index`). -/
theorem fieldsAreCheckedInOrder : Obligations.FieldsAreCheckedInOrder := by
  intro s own seq hfresh
  refine ⟨?_, ?_, ?_⟩
  · intro id op x y w h ink ground wrap given c0 c1 c2 c3 bad i hbad hfirst p
    have hchecks : firstFailing (setViewportChecks s.settings p) = some i := by
      refine firstFailing_index (bad := bad) (k := 0) rfl ?_ (fun n h => h) (Nat.zero_le i) hbad hfirst
      simp only [setViewportChecks, p, bad, List.forall_mem_cons, fieldNat, field, List.getD_cons_zero,
        List.getD_cons_succ, byte_eq_zero_iff, byte_eq_one_iff, ne_eq, decide_eq_false_iff_not,
        Bool.or_eq_false_iff, Bool.not_eq_false', Bool.and_eq_true, beq_iff_eq, bne_iff_ne]
      refine ⟨?_, ?_, ?_, ?_, ?_, ?_, ?_, ?_, ?_, ?_, List.forall_mem_nil _⟩ <;> omega
    have hrun := addressedFrame_badField .setViewport (p := p) hfresh rfl (by decide) (i := i) fun l => by
      simp only [ownerCarriesOut, setViewportMessage, hchecks]
    exact ⟨congrArg Host.Outcome.next hrun, congrArg Host.Outcome.next hrun⟩
  · intro id op x y w h echo bad i hbad hfirst p
    have hchecks : firstFailing (setZoneChecks s.settings p) = some i := by
      refine firstFailing_index (bad := bad) (k := 0) rfl ?_ (fun n h => h) (Nat.zero_le i) hbad hfirst
      simp only [setZoneChecks, p, bad, List.forall_mem_cons, fieldNat, field, List.getD_cons_zero,
        List.getD_cons_succ, byte_eq_zero_iff, byte_eq_one_iff, decide_eq_false_iff_not,
        Bool.or_eq_false_iff, Bool.not_eq_false', beq_iff_eq, echoModeOf_isSome_iff]
      refine ⟨?_, ?_, ?_, ?_, ?_, ?_, trivial, List.forall_mem_nil _⟩ <;> omega
    have hrun := addressedFrame_badField .setZone (p := p) hfresh rfl (by decide) fun l =>
      setZoneMessage_badField (s := { s with link := l }) hchecks
    exact ⟨congrArg Host.Outcome.next hrun, congrArg Host.Outcome.next hrun⟩
  · intro id height spacing gap given code bad i hbad hfirst
    have hchecks : firstFailing (setFontChecks [id, height, spacing, gap, given, code]) = some i := by
      refine firstFailing_index (bad := bad) (k := 0) rfl ?_ (fun n h => h) (Nat.zero_le i) hbad hfirst
      simp only [setFontChecks, bad, List.forall_mem_cons, fieldNat, field, List.getD_cons_zero,
        List.getD_cons_succ, byte_eq_zero_iff, decide_eq_false_iff_not]
      refine ⟨?_, ?_, ?_, ?_, ?_, List.forall_mem_nil _⟩ <;> omega
    exact congrArg Host.Outcome.next (addressedFrame_badField .setFont hfresh rfl (by decide) fun l => by
      simp only [ownerCarriesOut, setFontMessage, hchecks])

/-! ### SET VIEWPORT (R44, R45, R46) -/

/-- A SET VIEWPORT that passes its checks defines or undefines (R45, R46). -/
theorem setViewportMessage_checked {p : List Byte} (h : firstFailing (setViewportChecks s.settings p) = none) :
    setViewportMessage s p = if fieldNat p 1 = 1 then defineViewport s p else undefineViewport s (fieldNat p 0) := by
  simp only [setViewportMessage, h]

/-- An UNDEFINE of viewports 1 to 7 passes the checks of R44. -/
theorem setViewportChecks_undefine (c : Settings) {id : Byte} (hlo : 1 ≤ id.toNat) (hhi : id.toNat ≤ 7)
    (rest : List Byte) : firstFailing (setViewportChecks c ([id, 0] ++ rest)) = none := by
  have hid : id.toNat ≠ 0 := Nat.ne_of_gt hlo
  simp [setViewportChecks, firstFailing, fieldNat, field, hhi, hid]

/-- A frame that undefines viewports 1 to 7: `t` and `reply` are what R46 makes of the unit. -/
theorem exec_setViewport_undefine {t : State} {reply : Reply} {id : Byte} {rest : List Byte}
    (h : FreshFrame s own seq) (hlo : 1 ≤ id.toNat) (hhi : id.toNat ≤ 7) (hlen : rest.length = 12)
    (ht : t.link = s.link)
    (hk : ∀ l : Link, undefineViewport { s with link := l } id.toNat = ({ t with link := l }, reply)) :
    exec (.setViewportUndefine seq ([id, 0] ++ rest)) s = .next (t.replied own seq 0x20 reply) := by
  refine congrArg Host.Outcome.next
    (addressedFrame_owner .setViewport h (by simp [MsgKind.accepts, hlen]) (by decide) ht fun l => ?_)
  rw [← hk l]
  exact setViewportMessage_checked (s := { s with link := l }) (setViewportChecks_undefine _ hlo hhi rest)

/-- Settles O27, by the three rows of R46: undefined, named by a request in the queue, and neither. -/
theorem setViewportUndefinesUnlessInUse : Obligations.SetViewportUndefinesUnlessInUse := by
  intro s own seq id rest hfresh hlo hhi hlen run
  have hdefined : ∀ l : Link, (s.viewport id.toNat).defined = true →
      ¬(State.viewport { s with link := l } id.toNat).defined = false := fun l hdef => by
    rw [Bool.not_eq_false]; exact hdef
  have huse : ∀ l : Link, State.viewportInUse { s with link := l } id.toNat = true ↔
      ∃ r ∈ s.queue.requests, r.viewport = id.toNat := fun l => by simp [State.viewportInUse]
  refine ⟨fun hundef => ?_, fun hdef hin => ?_, fun hdef hout => ?_⟩
  · exact exec_setViewport_undefine hfresh hlo hhi hlen rfl fun l => if_pos hundef
  · exact exec_setViewport_undefine hfresh hlo hhi hlen rfl fun l =>
      (if_neg (hdefined l hdef)).trans (if_pos ((huse l).2 hin))
  · have hfree : ∀ l : Link, ¬State.viewportInUse { s with link := l } id.toNat = true := fun l h => by
      obtain ⟨r, hr, he⟩ := (huse l).1 h
      exact hout r hr he
    exact exec_setViewport_undefine hfresh hlo hhi hlen rfl fun l =>
      (if_neg (hdefined l hdef)).trans (if_neg (hfree l))

/-- A yes/no field reads back (R188). -/
theorem boolByte_toNat (b : Bool) : (boolByte b).toNat = b.toNat := by cases b <;> rfl

/-- The bytes of a DEFINE (R190). -/
def definePayload (id x y w h : Byte) (ink ground : Action) (wrap given : Bool) (cx cy : Int) : List Byte :=
  [id, 1, x, y, w, h, byte ink.code, byte ground.code, boolByte wrap, boolByte given] ++ signed16Bytes cx ++
    signed16Bytes cy

section

variable {id x y w h : Byte} {ink ground : Action} {wrap given : Bool} {cx cy : Int}

/-- A DEFINE whose id and rectangle suit the panel passes the checks of R44. -/
theorem setViewportChecks_define {c : Settings} (hid : id.toNat ≤ 7)
    (hrect : id ≠ 0 → 1 ≤ w.toNat ∧ x.toNat + w.toNat ≤ c.columns ∧
      1 ≤ h.toNat ∧ y.toNat + h.toNat ≤ 16 * c.stripRows) :
    firstFailing (setViewportChecks c (definePayload id x y w h ink ground wrap given cx cy)) = none := by
  rw [ne_eq, byte_eq_zero_iff] at hrect
  have hcode : ∀ a : Action, a.code ≤ 3 := fun a => by cases a <;> decide
  have hbool : ∀ b : Bool, b.toNat ≤ 1 := Bool.toNat_le
  simp only [firstFailing_none, setViewportChecks, definePayload, List.cons_append, fieldNat, field,
    List.getD_cons_zero, List.getD_cons_succ, List.forall_mem_cons, action_code_byte, boolByte_toNat]
  by_cases hz : id.toNat = 0
  · simp [hz, hcode, hbool]
  · obtain ⟨hw, hx, hh, hy⟩ := hrect hz
    have hx' : x.toNat < c.columns := by omega
    have hy' : y.toNat < 16 * c.stripRows := by omega
    simp [hid, hw, hx, hx', hh, hy, hy', hcode, hbool]

/-- The record that a DEFINE leaves, from the fields it carries (R45). -/
theorem definedViewport_payload (old : Viewport) (hcx : coordinateFits cx = true) (hcy : coordinateFits cy = true) :
    definedViewport old (definePayload id x y w h ink ground wrap given cx cy) =
      ⟨true, if id = 0 then old.rect else ⟨x.toNat, y.toNat, w.toNat, h.toNat⟩, ⟨ink, ground⟩, wrap,
        if given then cx else if old.defined then old.cx else 0,
        if given then cy else if old.defined then old.cy else 0⟩ := by
  simp only [byte_eq_zero_iff id]
  simp [definedViewport, definePayload, fieldNat, fieldSigned, field, action_code_byte, boolByte_toNat,
    inkRuleOf, actionOf_code, signed16Bytes, le16Bytes, signed16_of_fits hcx, signed16_of_fits hcy]

end

/-- Settles O26: the checks pass (`setViewportChecks_define`), and the record is read off the fields
(`definedViewport_payload`). -/
theorem setViewportDefinesItsRecord : Obligations.SetViewportDefinesItsRecord := by
  intro s own seq id x y w h ink ground wrap given cx cy hfresh hid hcx hcy hrect old
  refine congrArg Host.Outcome.next
    (addressedFrame_owner .setViewport (p := definePayload id x y w h ink ground wrap given cx cy) hfresh rfl
      (by decide) rfl fun l => ?_)
  refine (setViewportMessage_checked (s := { s with link := l }) (setViewportChecks_define hid hrect)).trans ?_
  rw [← definedViewport_payload old hcx hcy]
  rfl

/-! ### The geometry change (R151, R180 to R184) -/

theorem length_configurePayload (pairs : List (Nat × Nat)) : (configurePayload pairs).length = 3 * pairs.length := by
  simp [configurePayload, List.length_flatMap]
  omega

/-- The pairs of a CONFIGURE are read back from the payload that carries them (R190). -/
theorem configPairs_payload {pairs : List (Nat × Nat)} (h : ∀ e ∈ pairs, e.1 < 256 ∧ e.2 < 65536) :
    configPairs (configurePayload pairs) = pairs := by
  induction pairs with
  | nil => rfl
  | cons e pairs ih =>
    obtain ⟨⟨hid, hv⟩, hrest⟩ := List.forall_mem_cons.1 h
    show ((byte e.1).toNat, le16 (byte e.2) (byte (e.2 / 256))) :: configPairs (configurePayload pairs) = _
    rw [byte_toNat_of_lt hid, le16_bytes hv, ih hrest]

/-- No pair fails when each value lies in its setting's range (R180). -/
theorem firstBadPair_of_inRange {pairs : List (Nat × Nat)} (h : ∀ e ∈ pairs, settingInRange e.1 e.2 = true)
    (i : Nat) : firstBadPair i pairs = none := by
  induction pairs generalizing i with
  | nil => rfl
  | cons e pairs ih =>
    obtain ⟨he, hrest⟩ := List.forall_mem_cons.1 h
    simp only [firstBadPair, he, if_true]
    exact ih hrest _

/-- Scanning starts afresh, or stops, with the contact dropped (R145, R151, R152). -/
theorem State.restartTouch_eq (s : State) :
    s.restartTouch =
      { s with
        touch := s.touch.fresh (s.settings.touchEnable == 1) s.settings.scanPeriod s.pulseInProgress
        reports := { s.reports with coalesce := none } } := by
  by_cases ht : s.settings.touchEnable = 1 <;>
    simp [State.restartTouch, State.clearCoalesce, State.newScan, Touch.fresh, ht]

/-- The sweep timer after a change of settings (R128). -/
theorem State.startSweepTimer_eq (s : State) :
    s.startSweepTimer =
      { s with
        sweep :=
          { s.sweep with
            timer := if s.sweep.timer = none ∧ s.settings.sweepInterval ≠ 0 then some s.settings.sweepInterval
              else s.sweep.timer } } := by
  rcases htimer : s.sweep.timer with _ | n
  · by_cases hi : s.settings.sweepInterval = 0
    · have hkeep : { s.sweep with timer := none } = s.sweep := by rw [← htimer]
      simp only [State.startSweepTimer, htimer, hi, if_true, ne_eq, not_true_eq_false, and_false, if_false, hkeep]
    · simp only [State.startSweepTimer, htimer, hi, if_false, ne_eq, not_false_eq_true, and_self, if_true]
  · have hkeep : { s.sweep with timer := some n } = s.sweep := by rw [← htimer]
    simp only [State.startSweepTimer, htimer, reduceCtorEq, false_and, if_false, hkeep]

/-- A driver with an empty hand has no phase to try when the quiet block is lifted (R118). -/
theorem State.retryPhase_emptyHand (lifted : Bool) (h : s.driver.hand = none) :
    (if lifted then s.retryPhase else s) = s := by
  cases lifted <;> simp [State.retryPhase, State.tryPhase, h]

/-- The unit after a geometry change to the settings `new` (R184). -/
def State.geometryChanged (s : State) (new : Settings) : State :=
  { s with
    settings := new
    image := []
    dead := []
    viewports := freshViewports new.columns new.stripRows
    zones := List.replicate Config.zoneCount .undefined
    driver := { s.driver with passOver := 0 }
    sweep :=
      ⟨⟨0, 0⟩, none, if s.sweep.timer = none ∧ new.sweepInterval ≠ 0 then some new.sweepInterval else s.sweep.timer⟩
    touch := s.touch.fresh (new.touchEnable == 1) new.scanPeriod s.pulseInProgress
    reports := { s.reports with coalesce := none } }

/-- A change of the panel's shape reshapes the unit; with the hand empty no phase is tried after it (R118, R184). -/
theorem State.applySettings_shape {new : Settings} (hshape : s.settings.shapeDiffers new = true)
    (hhand : s.driver.hand = none) : s.applySettings new = s.geometryChanged new := by
  have htouch : touchAffected s.settings new = true := by simp [touchAffected, hshape]
  have hrest : ((s.reshaped new).retouched s.settings new).startSweepTimer = s.geometryChanged new := by
    simp only [State.reshaped, State.retouched, hshape, htouch, if_true]
    rw [State.startSweepTimer_eq, State.restartTouch_eq]
    rfl
  simp only [State.applySettings_eq, hrest]
  exact State.retryPhase_emptyHand _ hhand

/-- A CONFIGURE that passes its three checks (R180 to R182). -/
theorem configureMessage_accepted {pairs : List (Nat × Nat)} (hfit : PairsFit pairs)
    (hrange : ∀ e ∈ pairs, settingInRange e.1 e.2 = true)
    (hbeams : (settingsAfter s.settings pairs).beamsInside = true) (hempty : s.workEmpty = true) :
    configureMessage s (configurePayload pairs) = (s.applySettings (settingsAfter s.settings pairs), okReply []) := by
  have hnew : s.settings.putAll pairs = settingsAfter s.settings pairs := rfl
  simp only [configureMessage, configPairs_payload hfit.2.2, firstBadPair_of_inRange hrange, hnew, hbeams, hempty,
    Bool.true_eq_false, if_false, and_false]

/-- Settles O15: the pairs pass, the work in flight is empty, and the change of shape resets the panel
(`State.applySettings_shape`). -/
theorem geometryChangeResetsThePanel : Obligations.GeometryChangeResetsThePanel := by
  intro s own seq pairs hfresh hfit hrange new hbeams hshape hqueue hring hhand
  have haccepts : MsgKind.configure.accepts (configurePayload pairs).length = true := by
    obtain ⟨hlo, hhi, -⟩ := hfit
    rw [length_configurePayload]
    simp only [MsgKind.accepts, Bool.and_eq_true, decide_eq_true_eq, beq_iff_eq]
    omega
  have hdiffers : s.settings.shapeDiffers new = true := by
    simp only [Settings.shapeDiffers, Bool.or_eq_true, bne_iff_ne]
    exact hshape.imp Ne.symm Ne.symm
  have hempty : ∀ l : Link, State.workEmpty { s with link := l } = true := fun l => by
    simp [State.workEmpty, hqueue, hring, hhand]
  refine congrArg Host.Outcome.next
    (addressedFrame_owner .configure (t := s.geometryChanged new) hfresh haccepts (by decide) rfl fun l => ?_)
  exact (configureMessage_accepted (s := { s with link := l }) hfit hrange hbeams (hempty l)).trans
    (congrArg (·, okReply []) (State.applySettings_shape (s := { s with link := l }) hdiffers hhand))

end Sys2Proof.Machine
end

