-- ==== Sys2Proof/Proofs/Claims.lean ====
section
/-!
SUPPORT. Which dots the graphic items and a glyph cell claim, and the clipping test against what they claim (R52 to R58,
R81).
-/

-- One proof at a time: side by side, the proofs' threads reserve more memory than the check allows.
set_option Elab.async false

namespace Sys2Proof.Machine

/-! ### Rectangles of dots -/

theorem covers_iff {x y u v : Int} {w h : Nat} :
    covers x y w h u v = true ↔ x ≤ u ∧ u < x + w ∧ y ≤ v ∧ v < y + h := by
  simp only [covers, Bool.and_eq_true, decide_eq_true_eq, and_assoc]

/-- The dots of a rectangle are its columns and rows counted from its corner. -/
theorem exists_dot_iff {x y u v : Int} {w h : Nat} {P : Nat → Nat → Prop} :
    (∃ i < w, ∃ j < h, (u = x + i ∧ v = y + j) ∧ P i j) ↔
      covers x y w h u v = true ∧ P (u - x).toNat (v - y).toNat := by
  rw [covers_iff]
  constructor
  · rintro ⟨i, hi, j, hj, ⟨rfl, rfl⟩, hP⟩
    rw [add_sub_cancel_left, add_sub_cancel_left, Int.toNat_natCast, Int.toNat_natCast]
    exact ⟨by omega, hP⟩
  · rintro ⟨hin, hP⟩
    exact ⟨(u - x).toNat, by omega, (v - y).toNat, by omega, by omega, hP⟩

/-! ### The dots of a line (R54) -/

/-- Some steps from one coordinate toward another. -/
def toward (a b : Int) (n : Nat) : Int := if a ≤ b then a + n else a - n

theorem add_stepSign_mul (a b : Int) (n : Nat) : a + stepSign a b * n = toward a b n := by
  unfold stepSign toward
  split <;> omega

theorem toward_zero (a b : Int) : toward a b 0 = a := by
  unfold toward
  split <;> omega

theorem toward_distance (a b : Int) : toward a b (b - a).natAbs = b := by
  unfold toward
  split <;> omega

theorem natAbs_toward_sub (a b : Int) (n : Nat) : (toward a b n - a).natAbs = n := by
  unfold toward
  split <;> omega

/-- The short steps at the start of a line: none. -/
theorem shortSteps_zero (short long : Nat) : (2 * 0 * short + long) / (2 * long) = 0 := by
  rw [Nat.div_eq_zero_iff]
  omega

/-- The short steps at the end of a line: all of them. -/
theorem shortSteps_long {short long : Nat} (h : short ≤ long) : (2 * long * short + long) / (2 * long) = short := by
  rcases Nat.eq_zero_or_pos long with rfl | hpos
  · omega
  · rw [Nat.mul_add_div (by omega), Nat.div_eq_of_lt (by omega), Nat.add_zero]

section

variable {x0 y0 x1 y1 u v : Int} {i : Nat}

/-- The i-th dot of a line whose long axis is x. -/
theorem lineDot_wide (h : (y1 - y0).natAbs ≤ (x1 - x0).natAbs) :
    lineDot x0 y0 x1 y1 i =
      (toward x0 x1 i,
        toward y0 y1 ((2 * i * (y1 - y0).natAbs + (x1 - x0).natAbs) / (2 * (x1 - x0).natAbs))) := by
  simp only [lineDot, if_pos h, max_eq_left h, min_eq_right h, add_stepSign_mul]

/-- The i-th dot of a line whose long axis is y. -/
theorem lineDot_tall (h : ¬(y1 - y0).natAbs ≤ (x1 - x0).natAbs) :
    lineDot x0 y0 x1 y1 i =
      (toward x0 x1 ((2 * i * (x1 - x0).natAbs + (y1 - y0).natAbs) / (2 * (y1 - y0).natAbs)),
        toward y0 y1 i) := by
  have h' := Nat.le_of_not_le h
  simp only [lineDot, if_neg h, max_eq_right h', min_eq_left h', add_stepSign_mul]

/-- The long coordinate of a line's dot gives its index. -/
theorem lineDot_index (h : lineDot x0 y0 x1 y1 i = (u, v)) :
    (if (y1 - y0).natAbs ≤ (x1 - x0).natAbs then (u - x0).natAbs else (v - y0).natAbs) = i := by
  by_cases hw : (y1 - y0).natAbs ≤ (x1 - x0).natAbs
  · rw [lineDot_wide hw, Prod.mk.injEq] at h
    rw [if_pos hw, ← h.1, natAbs_toward_sub]
  · rw [lineDot_tall hw, Prod.mk.injEq] at h
    rw [if_neg hw, ← h.2, natAbs_toward_sub]

/-- A line's dots are those of its stepping. -/
theorem onLine_iff : onLine x0 y0 x1 y1 u v = true ↔ ∃ i ≤ lineLength x0 y0 x1 y1, lineDot x0 y0 x1 y1 i = (u, v) := by
  simp only [onLine, Bool.and_eq_true, decide_eq_true_eq, beq_iff_eq]
  constructor
  · exact fun ⟨hi, hdot⟩ => ⟨_, hi, hdot⟩
  · rintro ⟨i, hi, hdot⟩
    rw [lineDot_index hdot]
    exact ⟨hi, hdot⟩

/-- A line starts at its start. -/
theorem lineDot_zero : lineDot x0 y0 x1 y1 0 = (x0, y0) := by
  by_cases hw : (y1 - y0).natAbs ≤ (x1 - x0).natAbs
  · rw [lineDot_wide hw, shortSteps_zero, toward_zero, toward_zero]
  · rw [lineDot_tall hw, shortSteps_zero, toward_zero, toward_zero]

/-- A line ends at its end. -/
theorem lineDot_lineLength : lineDot x0 y0 x1 y1 (lineLength x0 y0 x1 y1) = (x1, y1) := by
  by_cases hw : (y1 - y0).natAbs ≤ (x1 - x0).natAbs
  · rw [lineDot_wide hw, lineLength, max_eq_left hw, shortSteps_long hw, toward_distance, toward_distance]
  · have hw' := Nat.le_of_not_le hw
    rw [lineDot_tall hw, lineLength, max_eq_right hw', shortSteps_long hw', toward_distance, toward_distance]

/-- A LINE claims its dots as ink (R54). -/
theorem line_ink_iff {rect : Rect} : (Item.line x0 y0 x1 y1).classAt rect u v = some .ink ↔
    ∃ i ≤ lineLength x0 y0 x1 y1, lineDot x0 y0 x1 y1 i = (u, v) := by
  rw [← onLine_iff]
  simp [Item.classAt]

end

/-- Settles O40: the dots of the stepping, read along the long axis (`lineDot_wide`, `lineDot_tall`); the two ends are
its first and its last dot. -/
theorem lineClaimsItsSteps : Obligations.LineClaimsItsSteps := by
  intro rect x0 y0 x1 y1 u v dx dy step
  refine ⟨line_ink_iff.trans ?_, ?_, line_ink_iff.2 ⟨0, Nat.zero_le _, lineDot_zero⟩,
    line_ink_iff.2 ⟨_, le_rfl, lineDot_lineLength⟩⟩
  · by_cases hw : dy ≤ dx
    · rw [if_pos hw, lineLength, max_eq_left hw]
      refine exists_congr fun i => and_congr_right fun _ => ?_
      rw [lineDot_wide hw, Prod.mk.injEq]
      exact and_congr eq_comm eq_comm
    · rw [if_neg hw, lineLength, max_eq_right (Nat.le_of_not_le hw)]
      refine exists_congr fun i => and_congr_right fun _ => ?_
      rw [lineDot_tall hw, Prod.mk.injEq, and_comm]
      exact and_congr eq_comm eq_comm
  · simp [Item.classAt]

/-! ### The dots of the other items and of a cell (R52, R53, R55 to R57, R81) -/

/-- The class of a pattern's bit: 1 as ink and 0 as ground. -/
def bitClass (b : Bool) : DotClass := if b then .ink else .ground

theorem bitClass_ink_iff {b : Bool} : bitClass b = .ink ↔ b = true := by cases b <;> simp [bitClass]

theorem bitClass_ground_iff {b : Bool} : bitClass b = .ground ↔ b = false := by cases b <;> simp [bitClass]

theorem some_bitClass (b : Bool) : some (bitClass b) = if b then some .ink else some .ground := by cases b <;> rfl

/-- What a pattern of w by h dots at (x, y) claims at (u, v). -/
def patternClass (x y : Int) (w h : Nat) (bit : Nat → Nat → Bool) (u v : Int) : Option DotClass :=
  if covers x y w h u v then some (bitClass (bit (u - x).toNat (v - y).toNat)) else none

section

variable {rect : Rect} {x y u v : Int} {w h : Nat} {bit : Nat → Nat → Bool}

theorem patternClass_ink_iff : patternClass x y w h bit u v = some .ink ↔
    ∃ i < w, ∃ j < h, (u = x + i ∧ v = y + j) ∧ bit i j = true := by
  rw [exists_dot_iff (P := fun i j => bit i j = true)]
  by_cases hin : covers x y w h u v = true <;> simp [patternClass, hin, bitClass_ink_iff]

theorem patternClass_ground_iff : patternClass x y w h bit u v = some .ground ↔
    ∃ i < w, ∃ j < h, (u = x + i ∧ v = y + j) ∧ bit i j = false := by
  rw [exists_dot_iff (P := fun i j => bit i j = false)]
  by_cases hin : covers x y w h u v = true <;> simp [patternClass, hin, bitClass_ground_iff]

theorem patternClass_ne_none_iff : patternClass x y w h bit u v ≠ none ↔ covers x y w h u v = true := by
  by_cases hin : covers x y w h u v = true <;> simp [patternClass, hin]

/-- The dot in column i and row j is on the border of a box of w by h (R55). -/
def onBorder (w h i j : Nat) : Bool := i = 0 ∨ i = w - 1 ∨ j = 0 ∨ j = h - 1

theorem filled_classAt : (Item.box x y w h .filled).classAt rect u v = patternClass x y w h (fun _ _ => true) u v := rfl

theorem outline_classAt : (Item.box x y w h .outline).classAt rect u v = patternClass x y w h (onBorder w h) u v := by
  unfold patternClass
  by_cases hin : covers x y w h u v = true
  · have hborder : (u = x ∨ u = x + w - 1 ∨ v = y ∨ v = y + h - 1) ↔
        onBorder w h (u - x).toNat (v - y).toNat = true := by
      rw [covers_iff] at hin
      rw [onBorder, decide_eq_true_eq]
      omega
    simp only [Item.classAt, hin, if_true, hborder, some_bitClass]
  · simp only [Item.classAt, if_neg hin]

theorem image_classAt {data : List Byte} :
    (Item.image x y w h data).classAt rect u v = patternClass x y w h (bitmapDot h data) u v := by
  simp only [Item.classAt, patternClass, some_bitClass]

theorem clear_classAt :
    Item.clear.classAt rect u v = patternClass 0 0 rect.w rect.h (fun _ _ => false) u v := by
  simp only [Item.classAt, patternClass, bitClass, Bool.false_eq_true, if_false]

/-- The bit of a cell's column i and row j; a spacing column has none set (R81). -/
def Latch.cellBit (l : Latch) (i j : Nat) : Bool := (l.columns.getD i 0).getLsbD j

theorem Latch.classAt_eq (l : Latch) : l.classAt x y u v = patternClass x y l.cellWidth l.height l.cellBit u v := by
  simp only [Latch.classAt, patternClass, some_bitClass, Latch.cellBit]

theorem Latch.cellBit_spacing (l : Latch) {i : Nat} (h : l.columns.length ≤ i) (j : Nat) : l.cellBit i j = false := by
  rw [Latch.cellBit, List.getD_eq_default _ _ h]
  exact BitVec.getLsbD_zero

end

/-- Settles O41: but for the DOT, each item and the cell claim a pattern of dots, by its bits (`patternClass_ink_iff`,
`patternClass_ground_iff`). -/
theorem itemsAndCellsClaimTheirDots : Obligations.ItemsAndCellsClaimTheirDots := by
  intro rect u v ink ground dotAt
  refine ⟨fun x y => ?_, fun x y w h => ⟨?_, ?_, ?_, ?_⟩, fun x y w h data => ⟨?_, ?_⟩, ⟨?_, ?_⟩, fun _ _ _ => rfl,
    fun _ _ => rfl, fun _ => rfl, fun l x y => ⟨?_, ?_⟩⟩
  · simp [ink, ground, dotAt, Item.classAt]
  · simp only [ink, filled_classAt, patternClass_ink_iff, and_true, dotAt]
  · simp only [ground, filled_classAt, patternClass_ground_iff, Bool.true_eq_false, and_false, exists_false,
      not_false_eq_true]
  · simp only [ink, outline_classAt, patternClass_ink_iff, onBorder, decide_eq_true_eq, dotAt]
  · simp only [ground, outline_classAt, patternClass_ground_iff, onBorder, decide_eq_false_iff_not]
    refine exists_congr fun i => and_congr_right fun hi => exists_congr fun j => and_congr_right fun hj =>
      and_congr_right fun _ => ?_
    omega
  · simp only [ink, image_classAt, patternClass_ink_iff]
    exact Iff.rfl
  · simp only [ground, image_classAt, patternClass_ground_iff]
    exact Iff.rfl
  · simp only [ink, clear_classAt, patternClass_ink_iff, Bool.false_eq_true, and_false, exists_false, not_false_eq_true]
  · simp only [ground, clear_classAt, patternClass_ground_iff, and_true, dotAt]
  · rw [l.classAt_eq, patternClass_ink_iff]
    constructor
    · rintro ⟨i, -, j, hj, hdot, hon⟩
      have hcolumn : i < l.columns.length := by
        by_contra hge
        rw [l.cellBit_spacing (Nat.le_of_not_lt hge)] at hon
        cases hon
      exact ⟨i, hcolumn, j, hj, hdot, hon⟩
    · exact fun ⟨i, hi, hrest⟩ => ⟨i, Nat.lt_add_right _ hi, hrest⟩
  · rw [l.classAt_eq, patternClass_ground_iff]
    refine exists_congr fun i => and_congr_right fun _ => exists_congr fun j => and_congr_right fun _ =>
      and_congr_right fun _ => ⟨fun hoff _ => hoff, fun hoff => ?_⟩
    exact (Nat.lt_or_ge i l.columns.length).elim hoff (l.cellBit_spacing · j)

/-! ### The clipping test (R58, R81) -/

/-- A claim that names the dots a and b and reaches no further than they do. -/
def Spans (c : Claim) (a b : Int × Int) : Prop :=
  c a.1 a.2 ≠ none ∧ c b.1 b.2 ≠ none ∧
    ∀ u v, c u v ≠ none → min a.1 b.1 ≤ u ∧ u ≤ max a.1 b.1 ∧ min a.2 b.2 ≤ v ∧ v ≤ max a.2 b.2

/-- The corners of the smallest rectangle around a claim lie inside exactly when every claimed dot does. -/
theorem Spans.outside_iff {c : Claim} {a b : Int × Int} (h : Spans c a b) (rect : Rect) :
    (!(covers 0 0 rect.w rect.h (min a.1 b.1) (min a.2 b.2) && covers 0 0 rect.w rect.h (max a.1 b.1) (max a.2 b.2))) =
        true ↔
      ∃ u v : Int, c u v ≠ none ∧ ¬(0 ≤ u ∧ u < rect.w ∧ 0 ≤ v ∧ v < rect.h) := by
  obtain ⟨ha, hb, hwithin⟩ := h
  rw [Bool.not_eq_true', Bool.and_eq_false_iff, ← Bool.not_eq_true, ← Bool.not_eq_true, covers_iff, covers_iff]
  constructor
  · intro hout
    by_cases hina : 0 ≤ a.1 ∧ a.1 < rect.w ∧ 0 ≤ a.2 ∧ a.2 < rect.h
    · exact ⟨b.1, b.2, hb, by omega⟩
    · exact ⟨a.1, a.2, ha, hina⟩
  · rintro ⟨u, v, hc, hout⟩
    have := hwithin u v hc
    omega

/-- The clipping test of a pattern that has a dot: it spans its two corners. -/
theorem patternClass_outside_iff {x y : Int} {w h : Nat} (hw : 1 ≤ w) (hh : 1 ≤ h) (bit : Nat → Nat → Bool)
    (rect : Rect) :
    (!(covers 0 0 rect.w rect.h x y && covers 0 0 rect.w rect.h (x + w - 1) (y + h - 1))) = true ↔
      ∃ u v : Int, patternClass x y w h bit u v ≠ none ∧ ¬(0 ≤ u ∧ u < rect.w ∧ 0 ≤ v ∧ v < rect.h) := by
  have hspans : Spans (patternClass x y w h bit) (x, y) (x + w - 1, y + h - 1) := by
    simp only [Spans, patternClass_ne_none_iff, covers_iff]
    exact ⟨by omega, by omega, fun u v hin => by omega⟩
  have hx : x ≤ x + w - 1 := by omega
  have hy : y ≤ y + h - 1 := by omega
  have hclip := hspans.outside_iff rect
  rwa [min_eq_left hx, min_eq_left hy, max_eq_right hx, max_eq_right hy] at hclip

theorem toward_between {a b : Int} {n : Nat} (h : n ≤ (b - a).natAbs) :
    min a b ≤ toward a b n ∧ toward a b n ≤ max a b := by
  unfold toward
  split <;> omega

/-- The short steps of a line never pass its end. -/
theorem shortSteps_le {i short long : Nat} (hi : i ≤ long) (h : short ≤ long) :
    (2 * i * short + long) / (2 * long) ≤ short := by
  calc (2 * i * short + long) / (2 * long) ≤ (2 * long * short + long) / (2 * long) := by gcongr
    _ = short := shortSteps_long h

/-- A line spans its two ends. -/
theorem line_spans (rect : Rect) (x0 y0 x1 y1 : Int) :
    Spans ((Item.line x0 y0 x1 y1).classAt rect) (x0, y0) (x1, y1) := by
  have hink : ∀ u v, (Item.line x0 y0 x1 y1).classAt rect u v ≠ none ↔
      ∃ i ≤ lineLength x0 y0 x1 y1, lineDot x0 y0 x1 y1 i = (u, v) := fun u v => by
    rw [← onLine_iff]
    simp [Item.classAt]
  refine ⟨(hink _ _).2 ⟨0, Nat.zero_le _, lineDot_zero⟩, (hink _ _).2 ⟨_, le_rfl, lineDot_lineLength⟩,
    fun u v hc => ?_⟩
  obtain ⟨i, hi, hdot⟩ := (hink u v).1 hc
  rw [← and_assoc]
  by_cases hw : (y1 - y0).natAbs ≤ (x1 - x0).natAbs
  · rw [lineLength, max_eq_left hw] at hi
    rw [lineDot_wide hw, Prod.mk.injEq] at hdot
    rw [← hdot.1, ← hdot.2]
    exact ⟨toward_between hi, toward_between (shortSteps_le hi hw)⟩
  · have hw' := Nat.le_of_not_le hw
    rw [lineLength, max_eq_right hw'] at hi
    rw [lineDot_tall hw, Prod.mk.injEq] at hdot
    rw [← hdot.1, ← hdot.2]
    exact ⟨toward_between (shortSteps_le hi hw'), toward_between hi⟩

/-- A DOT spans itself. -/
theorem dot_spans (rect : Rect) (x y : Int) : Spans ((Item.dot x y).classAt rect) (x, y) (x, y) := by
  simp [Spans, Item.classAt]

/-- The clipping test of an item whose fields lie in their ranges (R58). -/
theorem Item.isClipped_iff {it : Item} (hfits : it.fits = true) (rect : Rect) :
    it.isClipped rect = true ↔
      ∃ u v : Int, it.classAt rect u v ≠ none ∧ ¬(0 ≤ u ∧ u < rect.w ∧ 0 ≤ v ∧ v < rect.h) := by
  cases it with
  | dot x y =>
    have hclip := (dot_spans rect x y).outside_iff rect
    rwa [min_self, min_self, max_self, max_self] at hclip
  | line x0 y0 x1 y1 => exact (line_spans rect x0 y0 x1 y1).outside_iff rect
  | box x y w h style =>
    obtain ⟨-, hw, -, hh, -⟩ : (coordinateFits x = true ∧ coordinateFits y = true) ∧
      1 ≤ w ∧ w ≤ 4096 ∧ 1 ≤ h ∧ h ≤ 4096 := by simpa [Item.fits] using hfits
    cases style with
    | filled =>
      simp only [filled_classAt]
      exact patternClass_outside_iff hw hh _ rect
    | outline =>
      simp only [outline_classAt]
      exact patternClass_outside_iff hw hh _ rect
  | image x y w h data =>
    obtain ⟨-, hw, -, hh, -⟩ : (coordinateFits x = true ∧ coordinateFits y = true) ∧
      1 ≤ w ∧ w ≤ 240 ∧ 1 ≤ h ∧ h ≤ 64 ∧ data.length = w * columnBytes h := by simpa [Item.fits] using hfits
    simp only [image_classAt]
    exact patternClass_outside_iff hw hh _ rect
  | clear =>
    simp only [clear_classAt, patternClass_ne_none_iff, covers_iff, Item.isClipped, Item.corners, Bool.false_eq_true,
      false_iff]
    rintro ⟨u, v, hin, hout⟩
    omega
  | text font start codes | cursor x y | newline rows => simp [Item.isClipped, Item.corners, Item.classAt]

/-- What is left of a claim inside a rectangle of the panel (R58). -/
theorem clipTo_eq (rect : Rect) (c : Claim) (x y : Int) :
    clipTo rect c x y =
      if rect.x ≤ x ∧ x < rect.x + rect.w ∧ rect.y ≤ y ∧ y < rect.y + rect.h then c x y else none := by
  simp only [clipTo, Rect.holdsInt, covers_iff]

/-- Settles O42: an item spans two dots of its own, a cell its two corners, and the test is made on the rectangle around
them (`Spans.outside_iff`). -/
theorem clippingTestFindsDotsOutside : Obligations.ClippingTestFindsDotsOutside := by
  refine fun rect => ⟨fun it hfits => ⟨Item.isClipped_iff hfits rect, fun x y => clipTo_eq rect _ x y⟩,
    fun l x y => ⟨fun hcolumns hheight => ?_, fun a b => clipTo_eq rect _ a b⟩⟩
  simp only [l.classAt_eq]
  exact patternClass_outside_iff (Nat.le_add_right_of_le hcolumns) hheight _ rect

end Sys2Proof.Machine
end

