-- ==== Sys2Proof/Proofs/ItemEvents.lean ====
section
/-!
SUPPORT. Two events of the generator on the request it works on: the end of a glyph cell and the start of an item (R47,
R48, R58, R78, R82, R83, R85, R86, R88, R96).
-/

-- One proof at a time: side by side, the proofs' threads reserve more memory than the check allows.
set_option Elab.async false

namespace Sys2Proof.Machine

variable {s : State} {pre post : List Request} {r : Request} {it : Item}

/-! ### The generator's event (R87, R91) -/

/-- The generator works on the request at its place in the queue (R87). -/
theorem working_request (hw : Working s pre r post it) : s.gen.current.bind s.request = some r := by
  obtain ⟨hs, hn, hcur, -⟩ := hw
  rw [hcur]
  exact State.request_split hs hn

/-- Outside reset the command is the generator's event and the driver's take after it (log 12). -/
theorem exec_stripExamination (hr : s.inReset = false) :
    exec .stripExamination s = .next s.generatorEvent.driverArbiter := by
  simp [exec, execStripExamination, State.unlessReset, hr]

/-! ### Codes that are done with (R79, R82, R83) -/

/-- What a code that is done with makes of the unit depends neither on the waiting strip nor on the requests that stood
in the queue. -/
theorem codeDone_withRequests (s : State) (l : List Request) (codes : List Nat) (i : Nat) :
    codeDone { s with gen := { s.gen with waiting := none }, queue := { s.queue with requests := l } } pre r post codes
      i = codeDone s pre r post codes i := by
  unfold codeDone
  split <;> rfl

/-! ### The examination of a strip with room in the ring (R91 to R96) -/

/-- The strip the place names is examined, whether in the generator's own event or when room appears. -/
theorem examinedAs_of_next {v : ItemValues} {t : Strip} (hw : Working s pre r post it) (hv : s.gen.values = some v)
    (hnext : r.progress.place.next = some t) : ExaminedAs s t (s.examine r it v t) := by
  have hbind := working_request hw
  obtain ⟨-, -, -, hit⟩ := hw
  refine ⟨fun hwait hr => ?_, fun hwait => ?_⟩
  · have hevent : s.generatorEvent = s.examine r it v t := by
      cases hplace : r.progress.place with
      | itemStart | glyphStart i => rw [hplace] at hnext; cases hnext
      | strip u | cell i x y wrapped u =>
        obtain rfl : u = t := by rw [hplace] at hnext; exact Option.some.inj hnext
        simp [State.generatorEvent, hbind, hwait, hit, hv, hplace]
    rw [exec_stripExamination hr, hevent]
  · simp [State.reexamine, hwait, State.inProgress_eq hbind hv hit]

section

variable (s) (tag : Nat) (op : StripOp)

@[simp] theorem stripDone_settings : (stripDone s tag op).settings = s.settings := by
  unfold stripDone; dsimp only; split <;> rfl
@[simp] theorem stripDone_viewports : (stripDone s tag op).viewports = s.viewports := by
  unfold stripDone; dsimp only; split <;> rfl
@[simp] theorem stripDone_gen : (stripDone s tag op).gen = s.gen := by
  unfold stripDone; dsimp only; split <;> rfl
@[simp] theorem stripDone_queue : (stripDone s tag op).queue = s.queue := by
  unfold stripDone; dsimp only; split <;> rfl

end

@[simp] theorem Request.afterStrip_tag (r : Request) (op : StripOp) : (r.afterStrip op).tag = r.tag := by
  unfold Request.afterStrip; split <;> rfl

/-- A strip whose operation is empty or finds room is done with, and the place moves on (R94, R96). -/
theorem State.examine_room {v : ItemValues} {t : Strip} {c : Claim} (hs : s.queue.requests = pre ++ r :: post)
    (hn : (s.queue.requests.map (·.tag)).Nodup) (hc : r.progress.place.claim s.gen.latch v it = c)
    (hroom : ¬((formOp c v.rule v.force s.dead s.image t).setMask = 0 ∧
      (formOp c v.rule v.force s.dead s.image t).clearMask = 0) → s.ring.length < 32) :
    s.examine r it v t =
      let op := formOp c v.rule v.force s.dead s.image t
      State.moveOn { stripDone s r.tag op with
        queue := { (stripDone s r.tag op).queue with requests := pre ++ r.afterStrip op :: post } } r it c t := by
  subst hc
  generalize hop : formOp (r.progress.place.claim s.gen.latch v it) v.rule v.force s.dead s.image t = op at hroom ⊢
  simp only [State.examine, hop, stripDone_queue]
  by_cases hmasks : op.setMask = 0 ∧ op.clearMask = 0
  · rw [if_pos ((StripOp.isEmpty_iff op).2 hmasks), stripDone, if_pos hmasks, Request.afterStrip, if_pos hmasks, ← hs]
  · have hdue : op.isEmpty = false := by rw [← Bool.not_eq_true, StripOp.isEmpty_iff]; exact hmasks
    have hfits : s.ring.length < Config.ringSize := hroom hmasks
    rw [if_neg (by rw [hdue]; exact Bool.false_ne_true), if_pos hfits, State.append_split op hdue hs hn,
      Request.afterStrip, if_neg hmasks]

/-! ### The end of a cell (R82, R83) -/

/-- The cursor that a cell's end leaves, coordinate by coordinate (R82). -/
theorem cursorAfterCell_eq (vp : Viewport) (l : Latch) (wrapped : Bool) :
    cursorAfterCell vp l wrapped =
      { vp with
        cx := min ((if wrapped then 0 else vp.cx) + (l.columns.length + l.spacing : Nat)) 32767
        cy := if wrapped then min (vp.cy + (l.height + l.lineGap : Nat)) 32767 else vp.cy } := by
  cases wrapped <;> rfl

/-- A cell ends at its last strip: the cursor moves and the code is done with (R82). -/
theorem State.moveOn_lastOfCell {c : Claim} {t : Strip} {q : Request} {font i : Nat} {start : Option (Int × Int)}
    {codes : List Nat} {x y : Int} {wrapped : Bool} {l : Latch} (htag : q.tag = r.tag)
    (hn : ((pre ++ q :: post).map (·.tag)).Nodup) (hplace : r.progress.place = .cell i x y wrapped t)
    (hlatch : s.gen.latch = some l) (hlast : stripAfter s.settings.columns s.settings.stripRows c t = none) :
    State.moveOn { s with queue := { s.queue with requests := pre ++ q :: post } } r (.text font start codes) c t =
      codeDone (s.setViewport r.viewport (cursorAfterCell (s.viewport r.viewport) l wrapped)) pre q post codes i := by
  have hend : State.moveOn { s with queue := { s.queue with requests := pre ++ q :: post } } r (.text font start codes)
      c t = State.nextCode { s with
        gen := { s.gen with waiting := none }
        queue := { s.queue with requests := pre ++ q :: post }
        viewports := s.viewports.set r.viewport (cursorAfterCell (s.viewport r.viewport) l wrapped) } q.tag codes.length
        i := by
    simp only [State.moveOn, hplace, hlatch, hlast, Item.codeCount, htag]
    rfl
  rw [hend, State.nextCode_split codes i rfl hn]
  exact codeDone_withRequests (s.setViewport r.viewport _) _ codes i

/-- Settles O45: with room in the ring the strip is done with (`State.examine_room`), and the cell ends
(`State.moveOn_lastOfCell`). -/
theorem cellEndMovesTheCursor : Obligations.CellEndMovesTheCursor := by
  intro s pre r post font start codes v i x y wrapped t l hw hv hplace hlatch hlast op hroom vp
  have hexamined := examinedAs_of_next hw hv (t := t) (by rw [hplace]; rfl)
  obtain ⟨hs, hn, -, -⟩ := hw
  have hclaim : r.progress.place.claim s.gen.latch v (.text font start codes) = cellClaim v.rect l x y := by
    rw [hplace, hlatch]; rfl
  have hn' : ((pre ++ r.afterStrip op :: post).map (·.tag)).Nodup :=
    tags_split (r := r) (by rwa [hs] at hn) (r.afterStrip_tag op)
  refine Eq.subst (motive := ExaminedAs s t) ?_ hexamined
  refine (State.examine_room hs hn hclaim hroom).trans ?_
  refine (State.moveOn_lastOfCell (r.afterStrip_tag op) hn' hplace (by simpa using hlatch)
    (by simpa using hlast)).trans ?_
  simp only [State.setViewport, State.viewport, stripDone_viewports, cursorAfterCell_eq, vp, op]

/-! ### The start of an item (R47, R58, R78, R85, R86, R88) -/

/-- The event of a generator at an item's start, and the driver's take after it. -/
theorem exec_itemStart (hw : Working s pre r post it) (hwait : s.gen.waiting = none) (hr : s.inReset = false)
    (hplace : r.progress.place = .itemStart) : exec .stripExamination s = .next (s.startItem r it).driverArbiter := by
  have hbind := working_request hw
  obtain ⟨-, -, -, hit⟩ := hw
  have hevent : s.generatorEvent = s.startItem r it := by
    simp [State.generatorEvent, hbind, hwait, hit, hplace]
  rw [exec_stripExamination hr, hevent]

theorem InkRule.leavesAll_iff (rule : InkRule) : rule.leavesAll = true ↔ rule.ink = .leave ∧ rule.ground = .leave := by
  simp [InkRule.leavesAll]

/-- The record of a graphic item's request after the clipping test (R58). -/
def Request.tested (r : Request) (it : Item) (rect : Rect) : Request :=
  { r with clipped := r.clipped || it.isClipped rect }

/-- A graphic item is begun at its first strip, or finished where it has none or nothing to do (R58, R88). -/
theorem State.startGraphic_split (v : ItemValues) (hs : s.queue.requests = pre ++ r :: post)
    (hn : (s.queue.requests.map (·.tag)).Nodup) :
    s.startGraphic r it v =
      match (if v.rule.ink = .leave ∧ v.rule.ground = .leave then none
        else firstStrip s.settings.columns s.settings.stripRows (itemClaim v.rect it)) with
      | some t => { s with queue := { s.queue with
          requests := pre ++ { r.tested it v.rect with progress := ⟨r.progress.item, .strip t⟩ } :: post } }
      | none => itemFinished s pre (r.tested it v.rect) post := by
  have hn' : ((pre ++ r.tested it v.rect :: post).map (·.tag)).Nodup := tags_split (r := r) (by rwa [hs] at hn) rfl
  have hfinish := State.finishItem_split
    (s := { s with queue := { s.queue with requests := pre ++ r.tested it v.rect :: post } }) rfl hn'
  have hbegin := fun t => State.setPlace_split (.strip t)
    (s := { s with queue := { s.queue with requests := pre ++ r.tested it v.rect :: post } }) rfl hn'
  simp only [State.startGraphic, State.changeRequest_split _ hs hn, ← InkRule.leavesAll_iff]
  by_cases hleave : v.rule.leavesAll = true
  · rw [if_pos hleave, if_pos hleave]
    exact hfinish
  · rw [if_neg hleave, if_neg hleave]
    cases hfirst : firstStrip s.settings.columns s.settings.stripRows (itemClaim v.rect it) with
    | none => exact hfinish
    | some t => exact hbegin t

/-- A TEXT item is begun at its first code, its start position in the cursor, or finished where its font is undefined
(R78). -/
theorem State.startText_split (font : Nat) (start : Option (Int × Int)) (hs : s.queue.requests = pre ++ r :: post)
    (hn : (s.queue.requests.map (·.tag)).Nodup) :
    s.startText r font start =
      if (s.store.font font).defined = true then
        { s with
          viewports := match start with
            | some (x, y) => s.viewports.set r.viewport { s.viewport r.viewport with cx := x, cy := y }
            | none => s.viewports
          queue := { s.queue with
            requests := pre ++ { r with progress := ⟨r.progress.item, .glyphStart 0⟩ } :: post } }
      else itemFinished s pre { r with missingGlyph := true } post := by
  unfold State.startText
  by_cases hfont : (s.store.font font).defined = true
  · rw [if_pos hfont, if_pos hfont]
    rcases start with _ | ⟨x, y⟩
    · exact State.setPlace_split _ hs hn
    · exact State.setPlace_split (s := s.setViewport _ _) _ hs hn
  · have hn' : ((pre ++ { r with missingGlyph := true } :: post).map (·.tag)).Nodup :=
      tags_split (r := r) (by rwa [hs] at hn) rfl
    rw [if_neg hfont, if_neg hfont, State.changeRequest_split _ hs hn]
    exact State.finishItem_split (s := { s with queue := { s.queue with
      requests := pre ++ { r with missingGlyph := true } :: post } }) rfl hn'

/-- Settles O47, by the kind of the item: graphic items by `State.startGraphic_split`, TEXT by `State.startText_split`,
and the two that move the cursor by `State.finishItem_split`. -/
theorem itemStartsByItsKind : Obligations.ItemStartsByItsKind := by
  intro s pre r post it hw hwait hr hplace vp rule values cursorAt begun
  have hrule : rule = r.rule.resolve vp.rule := by simp only [rule]; cases r.rule <;> rfl
  clear_value rule
  subst hrule
  rw [exec_itemStart hw hwait hr hplace]
  obtain ⟨hs, hn, -, -⟩ := hw
  refine congrArg (fun t : State => Host.Outcome.next t.driverArbiter) ?_
  have hgraphic := State.startGraphic_split (s := { s with gen := { s.gen with values := some values } }) (it := it)
    values hs hn
  cases it with
  | dot x y | line x0 y0 x1 y1 | box x y w h style | image x y w h data | clear => exact hgraphic
  | text font start codes =>
    have htext := State.startText_split (s := { s with gen := { s.gen with values := some values } }) font start hs hn
    refine htext.trans ?_
    rcases start with _ | ⟨x, y⟩ <;> rfl
  | cursor x y =>
    exact State.finishItem_split (s := { cursorAt x y with gen := { s.gen with values := some values } }) hs hn
  | newline rows =>
    exact State.finishItem_split (s := { cursorAt 0 (min (vp.cy + rows) 32767) with
      gen := { s.gen with values := some values } }) hs hn

end Sys2Proof.Machine
end

