-- ==== Sys2Proof/Proofs/GlyphMessages.lean ====
section
/-!
SUPPORT. The messages that write the glyph store: what each makes of a payload, and the columns that are counted as
freed under one key (R67, R70 to R76).
-/

-- One proof at a time: side by side, the proofs' threads reserve more memory than the check allows.
set_option Elab.async false

namespace Sys2Proof.Machine

variable {s : State} {own : Nat} {seq : Byte}

/-! ### Messages that do not see the link -/

/-- A message that neither reads nor writes the link. -/
def LeavesLink (m : State → State × Reply) : Prop :=
  ∀ (s : State) (l : Link), m { s with link := l } = ({ (m s).1 with link := l }, (m s).2)

theorem LeavesLink.link_eq {m : State → State × Reply} (h : LeavesLink m) (s : State) : (m s).1.link = s.link :=
  congrArg (fun a : State × Reply => a.1.link) (h s s.link)

/-- A frame whose message does not see the link: the message's own state and reply are the frame's. -/
theorem addressedFrame_of_leavesLink (k : MsgKind) {p : List Byte} {t : State} {reply : Reply}
    (h : FreshFrame s own seq) (ha : k.accepts p.length = true) (hr : k ≠ .restart)
    (hk : LeavesLink (ownerCarriesOut k · p)) (hm : ownerCarriesOut k s p = (t, reply)) :
    s.addressedFrame seq k.code p = t.replied own seq k.code reply := by
  have hlink := hk.link_eq s
  have hkeeps := hk s
  simp only [hm] at hlink hkeeps
  exact addressedFrame_owner k h ha hr hlink hkeeps

theorem leavesLink_setFont (p : List Byte) : LeavesLink (setFontMessage · p) := fun s l => by
  dsimp only [setFontMessage]
  split
  · rfl
  · split <;> rfl

theorem leavesLink_dropFont (p : List Byte) : LeavesLink (dropFontMessage · p) := fun s l => by
  dsimp only [dropFontMessage]
  split_ifs <;> rfl

theorem leavesLink_loadGlyph (p : List Byte) : LeavesLink (loadGlyphMessage · p) := fun s l => by
  dsimp only [loadGlyphMessage]
  split_ifs <;> rfl

theorem leavesLink_dropGlyph (p : List Byte) : LeavesLink (dropGlyphMessage · p) := fun s l => by
  dsimp only [dropGlyphMessage]
  split_ifs <;> rfl

/-! ### Fonts (R70 to R72) -/

theorem GlyphStore.holdsGlyph_iff (g : GlyphStore) (font : Nat) :
    g.holdsGlyph font = true ↔ ∃ y ∈ g.glyphs, y.font = font := by
  simp [GlyphStore.holdsGlyph]

/-- A SET FONT that passes the BAD_FIELD checks of R70. -/
theorem setFontMessage_checked {p : List Byte} (h : firstFailing (setFontChecks p) = none) :
    setFontMessage s p =
      if (s.store.font (fieldNat p 0)).defined = true ∧ (∃ y ∈ s.store.glyphs, y.font = fieldNat p 0) ∧
          fieldNat p 1 ≠ (s.store.font (fieldNat p 0)).height then (s, plainReply .inUse)
      else ({ s with store := { s.store with fonts := s.store.fonts.set (fieldNat p 0) (carriedFont p) } },
        okReply []) := by
  simp only [setFontMessage, h, GlyphStore.holdsGlyph_iff]

/-- A SET FONT whose fields lie in their ranges passes the checks of R70. -/
theorem setFontChecks_inRange {id height spacing gap code : Byte} (given : Bool) (hid : id.toNat ≤ 7)
    (hlo : 1 ≤ height.toNat) (hhi : height.toNat ≤ 32) (hspacing : spacing.toNat ≤ 8) (hgap : gap.toNat ≤ 16) :
    firstFailing (setFontChecks [id, height, spacing, gap, boolByte given, code]) = none := by
  have hgiven : (boolByte given).toNat ≤ 1 := boolByte_toNat given ▸ given.toNat_le
  simp [firstFailing_none, setFontChecks, fieldNat, field, hid, hlo, hhi, hspacing, hgap, hgiven]

/-- The record that a SET FONT carries, from its bytes (R71, R188). -/
theorem carriedFont_payload (id height spacing gap code : Byte) (given : Bool) :
    carriedFont [id, height, spacing, gap, boolByte given, code] =
      ⟨true, height.toNat, spacing.toNat, gap.toNat, if given then some code.toNat else none⟩ := by
  cases given <;> rfl

/-- A SET FONT frame: `t` and `reply` are what the message makes of the unit. -/
theorem exec_setFont {p : List Byte} {t : State} {reply : Reply} (hfresh : FreshFrame s own seq) (hlen : p.length = 6)
    (hm : setFontMessage s p = (t, reply)) : exec (.setFont seq p) s = .next (t.replied own seq 0x28 reply) :=
  congrArg Host.Outcome.next (addressedFrame_of_leavesLink .setFont hfresh (by simp [MsgKind.accepts, hlen]) (by decide)
    (leavesLink_setFont p) hm)

/-- A DROP FONT frame: `t` and `reply` are what the message makes of the unit. -/
theorem exec_dropFont {id : Byte} {t : State} {reply : Reply} (hfresh : FreshFrame s own seq)
    (hm : dropFontMessage s [id] = (t, reply)) :
    exec (.dropFont seq [id]) s = .next (t.replied own seq 0x29 reply) :=
  congrArg Host.Outcome.next (addressedFrame_of_leavesLink .dropFont hfresh rfl (by decide) (leavesLink_dropFont _) hm)

/-- Settles O29: SET FONT passes its checks (`setFontChecks_inRange`) and turns on R70's check 6; DROP FONT goes by the
three cases of its definition. -/
theorem fontsAreSetAndDropped : Obligations.FontsAreSetAndDropped := by
  intro s own seq id hfresh
  refine ⟨fun hid => exec_dropFont hfresh (if_pos hid), ?_⟩
  intro hid old
  refine ⟨fun height spacing gap code given hlo hhi hspacing hgap => ?_, ?_⟩
  · have hmessage := setFontMessage_checked (s := s)
      (setFontChecks_inRange (code := code) given hid hlo hhi hspacing hgap)
    rw [carriedFont_payload] at hmessage
    split
    next huse => exact exec_setFont hfresh rfl (hmessage.trans (if_pos huse))
    next hfree => exact exec_setFont hfresh rfl (hmessage.trans (if_neg hfree))
  · have hid' : ¬7 < id.toNat := Nat.not_lt.2 hid
    split
    next hundef => exact exec_dropFont hfresh ((if_neg hid').trans (if_pos hundef))
    next hdefined => exact exec_dropFont hfresh ((if_neg hid').trans (if_neg hdefined))

/-! ### The dots a LOAD GLYPH carries (R73, R188) -/

theorem patternOf_getLsbD (h : Nat) (bytes : List Byte) {j : Nat} (hj : j < 32) :
    (patternOf h bytes).getLsbD j = (decide (j < h) && (bytes.getD (j / 8) 0).getLsbD (j % 8)) := by
  rw [patternOf, BitVec.getLsbD_ofFnLE, dif_pos hj]

/-- A byte of one column, by its place in the data. -/
theorem columnByte_getD (data : List Byte) (k : Nat) {n b : Nat} (hb : b < n) :
    ((data.drop k).take n).getD b 0 = data.getD (k + b) 0 := by
  simp [List.getD_eq_getElem?_getD, hb]

/-- Dot `j` of column `i`: the columns stand one after another, each from its top dot. -/
theorem patternsOf_dot (h : Nat) {width : Nat} (data : List Byte) {i j : Nat} (hi : i < width) (hj : j < 32) :
    ((patternsOf h width data).getD i 0).getLsbD j =
      (decide (j < h) && (data.getD (i * columnBytes h + j / 8) 0).getLsbD (j % 8)) := by
  have hcolumn : (patternsOf h width data).getD i 0 =
      patternOf h ((data.drop (i * columnBytes h)).take (columnBytes h)) := by
    simp [patternsOf, List.getD_eq_getElem?_getD, hi]
  rw [hcolumn, patternOf_getLsbD h _ hj]
  by_cases hjh : j < h
  · rw [columnByte_getD data _ (show j / 8 < columnBytes h by simp only [columnBytes]; omega)]
  · simp [hjh]

/-! ### The glyph under a key (R67, R74 to R76) -/

/-- The columns counted as freed when the glyph under a key goes (R75). -/
def GlyphStore.freedUnder (g : GlyphStore) (font code : Nat) : Nat :=
  ((g.glyph font code).map fun y => y.columns.length).getD 0

section

variable {g : GlyphStore} (hkeys : (g.glyphs.map fun y => (y.font, y.code)).Nodup) (font code : Nat)

include hkeys

/-- With distinct keys, a glyph has the key of the one found under it only when it is that one. -/
theorem GlyphStore.hasKey_iff {y old : Glyph} (hold : g.glyph font code = some old) (hy : y ∈ g.glyphs) :
    (y.font == font && y.code == code) = true ↔ y = old := by
  obtain ⟨hmem, hkey⟩ := GlyphStore.glyph_some hold
  refine ⟨fun h => List.inj_on_of_nodup_map hkeys hy hmem ?_, fun h => h ▸ hkey⟩
  simp only [Bool.and_eq_true, beq_iff_eq] at h hkey
  rw [h.1, h.2, hkey.1, hkey.2]

/-- Under a key stands the glyph found there, or none. -/
theorem GlyphStore.filter_key :
    (g.glyphs.filter fun y => y.font == font && y.code == code) = (g.glyph font code).toList := by
  cases hold : g.glyph font code with
  | none => exact List.filter_eq_nil_iff.2 (List.find?_eq_none.1 hold)
  | some old =>
    rw [List.filter_congr (q := (· == old)) fun y hy => by
      rw [Bool.eq_iff_iff, GlyphStore.hasKey_iff hkeys font code hold hy, beq_iff_eq], List.filter_beq,
      List.count_eq_one_of_mem hkeys.of_map (GlyphStore.glyph_some hold).1]
    rfl

theorem GlyphStore.usedColumns_key :
    usedColumns (g.glyphs.filter fun y => y.font == font && y.code == code) = g.freedUnder font code := by
  rw [GlyphStore.filter_key hkeys, GlyphStore.freedUnder]
  cases g.glyph font code <;> simp [usedColumns]

/-- The store after LOAD GLYPH: the old columns counted as freed (R74, R75). -/
theorem GlyphStore.put_eq (columns : List Pattern) :
    g.put ⟨font, code, columns⟩ =
      { g with
        glyphs := (g.glyphs.filter fun z => !(z.font == font && z.code == code)) ++ [⟨font, code, columns⟩]
        freeColumns := g.freeColumns + g.freedUnder font code - columns.length } := by
  rw [← GlyphStore.usedColumns_key hkeys]
  rfl

/-- The store after DROP GLYPH: the glyph gone, its columns free (R76). -/
theorem GlyphStore.dropGlyph_eq {old : Glyph} (hold : g.glyph font code = some old) :
    g.dropGlyph font code =
      { g with
        glyphs := g.glyphs.filter fun z => z != old
        freeColumns := g.freeColumns + old.columns.length } := by
  have hrest : (g.glyphs.filter fun z => !(z.font == font && z.code == code)) = g.glyphs.filter fun z => z != old :=
    List.filter_congr fun y hy => by
      rw [bne, Bool.eq_iff_iff.2 ((GlyphStore.hasKey_iff hkeys font code hold hy).trans beq_iff_eq.symm)]
  rw [GlyphStore.dropGlyph, GlyphStore.usedColumns_key hkeys, hrest, GlyphStore.freedUnder, hold]
  rfl

end

/-- The room rules of R74 and R75 as one test. -/
theorem GlyphStore.roomFor_eq_false_iff (g : GlyphStore) (font code width : Nat) :
    g.roomFor font code width = false ↔
      (g.glyph font code = none ∧ 320 ≤ g.glyphs.length) ∨ g.freeColumns + g.freedUnder font code < width := by
  unfold GlyphStore.roomFor GlyphStore.freedUnder
  cases g.glyph font code with
  | none =>
    simp only [Bool.and_eq_false_iff, decide_eq_false_iff_not, Nat.not_lt, Nat.not_le, true_and]
    rfl
  | some old => simp

/-! ### LOAD GLYPH and DROP GLYPH (R73 to R76) -/

/-- LOAD GLYPH by its fields (R73 to R75). -/
theorem loadGlyphMessage_eq (s : State) (id code width : Byte) (data : List Byte) :
    loadGlyphMessage s ([id, code, width] ++ data) =
      let font := s.store.font id.toNat
      if 7 < id.toNat then (s, badFieldReply 0)
      else if font.defined = false then (s, plainReply .notFound)
      else if ¬(1 ≤ width.toNat ∧ width.toNat ≤ 32) then (s, badFieldReply 2)
      else if data.length ≠ width.toNat * columnBytes font.height then (s, badFieldReply 3)
      else if s.store.roomFor id.toNat code.toNat width.toNat = false then (s, plainReply .noRoom)
      else ({ s with store := s.store.put ⟨id.toNat, code.toNat, patternsOf font.height width.toNat data⟩ },
        okReply []) := rfl

/-- A LOAD GLYPH frame: `t` and `reply` are what the message makes of the unit. -/
theorem exec_loadGlyph {id code width : Byte} {data : List Byte} {t : State} {reply : Reply}
    (hfresh : FreshFrame s own seq) (hlen : data.length ≤ 197)
    (hm : loadGlyphMessage s ([id, code, width] ++ data) = (t, reply)) :
    exec (.loadGlyph seq ([id, code, width] ++ data)) s = .next (t.replied own seq 0x2A reply) := by
  have haccepts : MsgKind.accepts .loadGlyph ([id, code, width] ++ data).length = true := by
    simp only [MsgKind.accepts, List.length_append, List.length_cons, List.length_nil, Bool.and_eq_true,
      decide_eq_true_eq]
    omega
  exact congrArg Host.Outcome.next
    (addressedFrame_of_leavesLink .loadGlyph hfresh haccepts (by decide) (leavesLink_loadGlyph _) hm)

/-- A DROP GLYPH frame: `t` and `reply` are what the message makes of the unit. -/
theorem exec_dropGlyph {id code : Byte} {t : State} {reply : Reply} (hfresh : FreshFrame s own seq)
    (hm : dropGlyphMessage s [id, code] = (t, reply)) :
    exec (.dropGlyph seq [id, code]) s = .next (t.replied own seq 0x2B reply) :=
  congrArg Host.Outcome.next
    (addressedFrame_of_leavesLink .dropGlyph hfresh rfl (by decide) (leavesLink_dropGlyph _) hm)

theorem length_patternsOf (h width : Nat) (data : List Byte) : (patternsOf h width data).length = width := by
  simp [patternsOf]

/-- A LOAD GLYPH that passes the checks of R73 turns on the room rules (R74, R75). -/
theorem loadGlyphMessage_checked {id code width : Byte} {data : List Byte} (hid : id.toNat ≤ 7)
    (hdefined : (s.store.font id.toNat).defined = true) (hwidth : 1 ≤ width.toNat ∧ width.toNat ≤ 32)
    (hdata : data.length = width.toNat * columnBytes (s.store.font id.toNat).height) :
    loadGlyphMessage s ([id, code, width] ++ data) =
      if s.store.roomFor id.toNat code.toNat width.toNat = false then (s, plainReply .noRoom)
      else
        ({ s with
            store := s.store.put ⟨id.toNat, code.toNat, patternsOf (s.store.font id.toNat).height width.toNat data⟩ },
          okReply []) := by
  rw [loadGlyphMessage_eq]
  dsimp only
  rw [if_neg (Nat.not_lt.2 hid), if_neg (by simp [hdefined]), if_neg (not_not.2 hwidth), if_neg (not_not.2 hdata)]

/-- Settles O30: every check before the room rules passes (`loadGlyphMessage_checked`), the rules are
`GlyphStore.roomFor_eq_false_iff`, and the store is `GlyphStore.put_eq` with the dots of `patternsOf_dot`. -/
theorem loadGlyphMakesOrReplaces : Obligations.LoadGlyphMakesOrReplaces := by
  intro s own seq id code width data hfresh ⟨_, _, _, hkeys, _⟩ hid hdefined hlo hhi h hdata hlen old room
  refine ⟨patternsOf h width.toNat data, length_patternsOf _ _ _, fun i hi j hj => patternsOf_dot h data hi hj, ?_⟩
  have hrules := s.store.roomFor_eq_false_iff id.toNat code.toNat width.toNat
  have hput := GlyphStore.put_eq hkeys id.toNat code.toNat (patternsOf h width.toNat data)
  rw [length_patternsOf] at hput
  have hmessage := loadGlyphMessage_checked (code := code) hid hdefined ⟨hlo, hhi⟩ hdata
  rw [hput] at hmessage
  split
  next hshort => exact exec_loadGlyph hfresh hlen (hmessage.trans (if_pos (hrules.2 hshort)))
  next hroom => exact exec_loadGlyph hfresh hlen (hmessage.trans (if_neg fun hfalse => hroom (hrules.1 hfalse)))

/-- Settles O31: DROP GLYPH by what stands under the key (`GlyphStore.dropGlyph_eq`), the refusals of LOAD GLYPH by the
order of `loadGlyphMessage_eq`. -/
theorem dropGlyphAndLoadGlyphRefusals : Obligations.DropGlyphAndLoadGlyphRefusals := by
  intro s own seq id code hfresh
  have hbelow : id.toNat ≤ 7 → ¬7 < id.toNat := Nat.not_lt.2
  refine ⟨fun ⟨_, _, _, hkeys, _⟩ hid => ?_, fun hid => exec_dropGlyph hfresh (if_pos hid), ?_⟩
  · cases hold : s.store.glyph id.toNat code.toNat with
    | none =>
      have hnone : (s.store.glyph id.toNat code.toNat).isNone = true := by rw [hold]; rfl
      exact exec_dropGlyph hfresh ((if_neg (hbelow hid)).trans (if_pos hnone))
    | some old =>
      have hsome : ¬(s.store.glyph id.toNat code.toNat).isNone = true := by rw [hold]; exact Bool.false_ne_true
      dsimp only
      rw [← GlyphStore.dropGlyph_eq hkeys id.toNat code.toNat hold]
      exact exec_dropGlyph hfresh ((if_neg (hbelow hid)).trans (if_neg hsome))
  · intro width data hlen font run
    have hmessage := loadGlyphMessage_eq s id code width data
    refine ⟨fun hid => ?_, fun hid hundef => ?_, fun hid hdefined hwidth => ?_,
      fun hid hdefined hlo hhi hdata => ?_⟩
    · exact exec_loadGlyph hfresh hlen (hmessage.trans (if_pos hid))
    · exact exec_loadGlyph hfresh hlen (hmessage.trans ((if_neg (hbelow hid)).trans (if_pos hundef)))
    · have hbad : ¬(1 ≤ width.toNat ∧ width.toNat ≤ 32) := by
        rw [byte_eq_zero_iff] at hwidth
        omega
      exact exec_loadGlyph hfresh hlen (hmessage.trans ((if_neg (hbelow hid)).trans
        ((if_neg (ne_false_of_eq_true hdefined)).trans (if_pos hbad))))
    · exact exec_loadGlyph hfresh hlen (hmessage.trans ((if_neg (hbelow hid)).trans
        ((if_neg (ne_false_of_eq_true hdefined)).trans ((if_neg (not_not.2 ⟨hlo, hhi⟩)).trans (if_pos hdata)))))

end Sys2Proof.Machine
end

