-- ==== Sys2Proof/Proofs/GlyphStart.lean ====
section
/-!
SUPPORT. The generator's event at a glyph start: the glyph it chooses, the wrap before the cell, and the cell that is
begun or ended at once (R77, R79 to R82).
-/

-- One proof at a time: side by side, the proofs' threads reserve more memory than the check allows.
set_option Elab.async false

namespace Sys2Proof.Machine

variable {s : State} {pre post : List Request} {r : Request}

/-- The event of a generator at a glyph start, and the driver's take after it. -/
theorem exec_glyphStart {font i : Nat} {start : Option (Int × Int)} {codes : List Nat} {v : ItemValues}
    (hw : Working s pre r post (.text font start codes)) (hv : s.gen.values = some v) (hwait : s.gen.waiting = none)
    (hr : s.inReset = false) (hplace : r.progress.place = .glyphStart i) :
    exec .stripExamination s = .next (s.startGlyph r v font codes i).driverArbiter := by
  have hbind := working_request hw
  obtain ⟨-, -, -, hit⟩ := hw
  have hevent : s.generatorEvent = s.startGlyph r v font codes i := by
    simp [State.generatorEvent, hbind, hwait, hit, hv, hplace]
  rw [exec_stripExamination hr, hevent]

/-- The code's own glyph, otherwise the default code's, looked up once (R79). -/
theorem GlyphStore.choose_eq (g : GlyphStore) (font code : Nat) :
    g.choose font code = (g.glyph font code).or
      (if (g.font font).defined then (g.font font).defaultCode.bind fun d => g.glyph font d else none) := by
  unfold GlyphStore.choose
  cases g.glyph font code <;> rfl

/-- The three conditions of R80. -/
theorem wrapsBefore_eq (v : ItemValues) (vp : Viewport) (width : Nat) :
    wrapsBefore v vp width = (v.wrap && decide (0 < vp.cx ∧ (v.rect.w : Int) < vp.cx + width)) := by
  rw [wrapsBefore, Bool.and_assoc, Bool.decide_and]

/-- What a code that is done with makes of the unit does not depend on the requests that stood in the queue. -/
theorem codeDone_withQueue (s : State) (l : List Request) (codes : List Nat) (i : Nat) :
    codeDone { s with queue := { s.queue with requests := l } } pre r post codes i = codeDone s pre r post codes i :=
  (codeDone_withRequests { s with queue := { s.queue with requests := l } } l codes i).symm.trans
    (codeDone_withRequests s l codes i)

/-- A change of the record leaves the code done with, in the new record (R79). -/
theorem State.changeRequest_nextCode {f : Request → Request} (hf : (f r).tag = r.tag) (codes : List Nat) (i : Nat)
    (hs : s.queue.requests = pre ++ r :: post) (hn : (s.queue.requests.map (·.tag)).Nodup) :
    (s.changeRequest r.tag f).nextCode r.tag codes.length i = codeDone s pre (f r) post codes i := by
  have hn' : ((pre ++ f r :: post).map (·.tag)).Nodup := tags_split (r := r) (by rwa [hs] at hn) hf
  have hnext := State.nextCode_split (s := { s with queue := { s.queue with requests := pre ++ f r :: post } }) codes i
    rfl hn'
  rw [State.changeRequest_split f hs hn, ← hf, hnext, codeDone_withQueue]

/-- The record of a request whose cell is placed at (x, y), after the clipping test (R81). -/
def Request.placed (r : Request) (l : Latch) (rect : Rect) (x y : Int) : Request :=
  { r with clipped := r.clipped || l.isClipped rect x y }

/-- The unit after a cell is placed at (x, y): begun at its first strip, or ended at once where it has none or nothing
to do (R81, R82, R88). -/
def cellPlaced (s : State) (pre : List Request) (r : Request) (post : List Request) (codes : List Nat) (v : ItemValues)
    (i : Nat) (l : Latch) (wraps : Bool) (x y : Int) : State :=
  match (if v.rule.ink = .leave ∧ v.rule.ground = .leave then none
    else firstStrip s.settings.columns s.settings.stripRows (cellClaim v.rect l x y)) with
  | some t =>
    { s with
      queue :=
        { s.queue with
          requests := pre ++ { r.placed l v.rect x y with progress := ⟨r.progress.item, .cell i x y wraps t⟩ } :: post }
      gen := { s.gen with latch := some l } }
  | none => codeDone (s.setViewport r.viewport (cursorAfterCell (s.viewport r.viewport) l wraps)) pre
      (r.placed l v.rect x y) post codes i

/-- The cell ends at once: the code is done with, the cursor moved (R82). -/
theorem State.endCell_placed {v : ItemValues} {x y : Int} (l : Latch) (wraps : Bool) (codes : List Nat) (i : Nat)
    (hs : s.queue.requests = pre ++ r :: post) (hn : (s.queue.requests.map (·.tag)).Nodup) :
    (s.changeRequest r.tag (·.placed l v.rect x y)).endCell r codes.length i l wraps =
      codeDone (s.setViewport r.viewport (cursorAfterCell (s.viewport r.viewport) l wraps)) pre
        (r.placed l v.rect x y) post codes i :=
  State.changeRequest_nextCode (s := s.setViewport _ _) (f := (·.placed l v.rect x y)) rfl codes i hs hn

/-- The cell is begun: its glyph is latched and its place is the record's (R77, R81). -/
theorem State.beginCell_placed {v : ItemValues} {x y : Int} (l : Latch) (p : Place)
    (hs : s.queue.requests = pre ++ r :: post) (hn : (s.queue.requests.map (·.tag)).Nodup) :
    { (s.changeRequest r.tag (·.placed l v.rect x y)).setPlace r.tag p with
      gen := { s.gen with latch := some l } } =
      { s with
        queue :=
          { s.queue with requests := pre ++ { r.placed l v.rect x y with progress := ⟨r.progress.item, p⟩ } :: post }
        gen := { s.gen with latch := some l } } := by
  have hn' : ((pre ++ r.placed l v.rect x y :: post).map (·.tag)).Nodup := tags_split (r := r) (by rwa [hs] at hn) rfl
  have hplace := State.setPlace_split (r := r.placed l v.rect x y) p
    (s := { s with queue := { s.queue with requests := pre ++ r.placed l v.rect x y :: post } }) rfl hn'
  rw [State.changeRequest_split _ hs hn]
  exact congrArg (fun u : State => { u with gen := { s.gen with latch := some l } }) hplace

/-- A glyph start by what it chooses: the code is skipped, or its glyph's cell is placed (R79 to R82). -/
theorem State.startGlyph_split (v : ItemValues) (font : Nat) (codes : List Nat) (i : Nat)
    (hs : s.queue.requests = pre ++ r :: post) (hn : (s.queue.requests.map (·.tag)).Nodup) :
    s.startGlyph r v font codes i =
      match s.store.choose font (codes.getD i 0) with
      | none => codeDone s pre { r with missingGlyph := true } post codes i
      | some g =>
        let f := s.store.font font
        let vp := s.viewport r.viewport
        let wraps := wrapsBefore v vp g.columns.length
        cellPlaced s pre r post codes v i ⟨g.columns, f.height, f.spacing, f.lineGap⟩ wraps
          (if wraps then 0 else vp.cx) (if wraps then vp.cy + (f.height + f.lineGap : Nat) else vp.cy) := by
  unfold State.startGlyph
  cases s.store.choose font (codes.getD i 0) with
  | none => exact State.changeRequest_nextCode (f := fun q => { q with missingGlyph := true }) rfl codes i hs hn
  | some g =>
    simp only [cellPlaced, State.changeRequest_settings, ← InkRule.leavesAll_iff]
    split
    next hnone =>
      rw [hnone]
      exact State.endCell_placed _ _ codes i hs hn
    next t hfirst =>
      rw [hfirst]
      exact State.beginCell_placed _ _ hs hn

/-- Settles O48: the event is the glyph start (`exec_glyphStart`), which goes by the glyph chosen
(`State.startGlyph_split`, `GlyphStore.choose_eq`). -/
theorem glyphStartChoosesWrapsAndLatches : Obligations.GlyphStartChoosesWrapsAndLatches := by
  intro s pre r post font start codes v i hw hv hwait hr hplace record own chosen vp
  rw [exec_glyphStart hw hv hwait hr hplace]
  obtain ⟨hs, hn, -, -⟩ := hw
  refine congrArg (fun t : State => Host.Outcome.next t.driverArbiter) ?_
  have hchosen : s.store.choose font (codes.getD i 0) = chosen := s.store.choose_eq font _
  rw [State.startGlyph_split v font codes i hs hn, hchosen]
  cases chosen with
  | none => rfl
  | some g =>
    simp only [wrapsBefore_eq, cellPlaced, cursorAfterCell_eq]
    rfl

end Sys2Proof.Machine
end

