-- ==== Sys2Proof/Proofs/StripOrder.lean ====
section
/-!
SUPPORT. Strips as the generator forms and examines them: the masks of a strip, the order in which the strips of a claim
are taken, and what one examination comes to (R87, R89 to R97).
-/

-- One proof at a time: side by side, the proofs' threads reserve more memory than the check allows.
set_option Elab.async false

namespace Sys2Proof.Machine

/-! ### Masks by action and image (R92, R93) -/

/-- The set mask takes a dot by the table of R93. -/
theorem wantsSet_iff (a : Action) (force : Bool) (v : DotValue) :
    wantsSet a force v = true ↔ (a = .set ∧ (force = true ∨ v ≠ .on)) ∨ (a = .invert ∧ v = .off) := by
  cases a <;> cases v <;> simp [wantsSet]

/-- The clear mask takes a dot by the table of R93. -/
theorem wantsClear_iff (a : Action) (force : Bool) (v : DotValue) :
    wantsClear a force v = true ↔ (a = .clear ∧ (force = true ∨ v ≠ .off)) ∨ (a = .invert ∧ v = .on) := by
  cases a <;> cases v <;> simp [wantsClear]

theorem recorded_eq_false_iff (dead : List DeadDot) (x y : Nat) :
    recorded dead x y = false ↔ ∀ d ∈ dead, ¬(d.x = x ∧ d.y = y) := by
  simp [recorded]

/-- A dot is wanted for an action other than LEAVE when it is not recorded dead and the rule gives its class that
action (R59, R92). -/
theorem wantedAt_eq_iff (c : Claim) (rule : InkRule) (dead : List DeadDot) (t : Strip) (p : Nat) {a : Action}
    (ha : a ≠ .leave) :
    wantedAt c rule dead t p = a ↔
      (∀ d ∈ dead, ¬(d.x = t.col ∧ d.y = t.rowOf p)) ∧
        ((claimAt c t p = some .ink ∧ rule.ink = a) ∨ (claimAt c t p = some .ground ∧ rule.ground = a)) := by
  rw [← recorded_eq_false_iff]
  unfold wantedAt
  cases recorded dead t.col (t.rowOf p) with
  | true => simp [ha.symm]
  | false =>
    rcases claimAt c t p with _ | _ | _
    · simp [ha.symm]
    · simp [InkRule.actionFor]
    · simp [InkRule.actionFor]

/-- Settles O38: each mask by its table (`wantsSet_iff`, `wantsClear_iff`) at the action wanted of the dot
(`wantedAt_eq_iff`). -/
theorem masksFollowActionAndImage : Obligations.MasksFollowActionAndImage := by
  intro c rule force dead im t op
  refine ⟨rfl, formOp_disjoint c rule force dead im t, ?_⟩
  intro p hp dot wanted
  have hwanted : ∀ a, a ≠ .leave → (wantedAt c rule dead t p = a ↔ wanted a) := fun a ha =>
    wantedAt_eq_iff c rule dead t p ha
  have hdot : (imageGet im t).dot p = dot := (imageDot_rowOf im t hp).symm
  constructor
  · simp only [op, formOp, maskOf_getLsbD, hp, decide_true, Bool.true_and, wantsSet_iff, hdot,
      hwanted .set (by decide), hwanted .invert (by decide)]
  · simp only [op, formOp, maskOf_getLsbD, hp, decide_true, Bool.true_and, wantsClear_iff, hdot,
      hwanted .clear (by decide), hwanted .invert (by decide)]

/-! ### The order of the strips (R89, R90) -/

theorem Strip.before_iff (a b : Strip) :
    a.before b = true ↔ a.col < b.col ∨ (a.col = b.col ∧ a.row < b.row) := by
  simp [Strip.before]

/-- The strips of the panel stand in strip order: by columns, and by strip rows within a column. -/
theorem panelStrips_pairwise (columns stripRows : Nat) :
    (panelStrips columns stripRows).Pairwise fun a b => a.before b = true := by
  refine List.pairwise_flatMap.2 ⟨fun c _ => ?_, ?_⟩
  · refine List.pairwise_map.2 (List.pairwise_lt_range.imp fun hrow => ?_)
    exact (Strip.before_iff _ _).2 (.inr ⟨rfl, hrow⟩)
  · refine List.pairwise_lt_range.imp fun {c d} hcol a ha b hb => ?_
    obtain ⟨k, -, rfl⟩ := List.mem_map.1 ha
    obtain ⟨l, -, rfl⟩ := List.mem_map.1 hb
    exact (Strip.before_iff _ _).2 (.inl hcol)

/-- In a list in strip order a search finds the first strip that satisfies `f`. -/
theorem find?_eq_some_iff_first {l : List Strip} (hl : l.Pairwise fun a b => a.before b = true) (f : Strip → Bool)
    (u : Strip) :
    l.find? f = some u ↔ (u ∈ l ∧ f u = true) ∧ ∀ w ∈ l, f w = true → w = u ∨ u.before w = true := by
  induction l with
  | nil => simp
  | cons a l ih =>
    obtain ⟨hafter, hl⟩ := List.pairwise_cons.1 hl
    cases hfa : f a with
    | false =>
      have hmem : ∀ w, f w = true → (w ∈ a :: l ↔ w ∈ l) := fun w hw => by
        rw [List.mem_cons, or_iff_right]
        rintro rfl
        exact absurd hw (by simp [hfa])
      rw [List.find?_cons_of_neg (by simp [hfa]), ih hl]
      grind
    | true =>
      rw [List.find?_cons_of_pos hfa, Option.some.injEq]
      constructor
      · rintro rfl
        exact ⟨⟨List.mem_cons_self, hfa⟩, fun w hw _ => (List.mem_cons.1 hw).imp_right (hafter w)⟩
      · rintro ⟨⟨hu, -⟩, hfirst⟩
        rcases hfirst a List.mem_cons_self hfa with rfl | hua
        · rfl
        · rcases List.mem_cons.1 hu with rfl | hu
          · rfl
          · have := Strip.before_trans hua (hafter u hu)
            simp [Strip.before_irrefl] at this

theorem stripClaimed_iff (c : Claim) (t : Strip) :
    stripClaimed c t = true ↔ ∃ p < 16, c t.col (16 * t.row + p : Nat) ≠ none := by
  simp [stripClaimed, claimAt, Strip.rowOf, Option.isSome_iff_ne_none]

/-- Settles O43: both searches run over the strips of the panel in strip order (`panelStrips_pairwise`), so that each
finds the first strip it looks for (`find?_eq_some_iff_first`). -/
theorem stripsAreTakenInOrder : Obligations.StripsAreTakenInOrder := by
  intro columns stripRows c claimed lt
  have hclaimed : ∀ u, claimed u ↔ u ∈ panelStrips columns stripRows ∧ stripClaimed c u = true := fun u => by
    simp only [claimed, mem_panelStrips, stripClaimed_iff, Strip.inside, Bool.and_eq_true, decide_eq_true_eq, and_assoc]
  have hlt : ∀ a b, lt a b ↔ a.before b = true := fun a b => (Strip.before_iff a b).symm
  have hfirst := find?_eq_some_iff_first (panelStrips_pairwise columns stripRows)
  simp only [hclaimed, hlt]
  refine ⟨fun u => ?_, ?_, fun t => ⟨fun u => ?_, ?_⟩⟩
  · simp only [firstStrip, hfirst, and_imp]
  · simp only [firstStrip, List.find?_eq_none, not_and]
  · simp only [stripAfter, hfirst, Bool.and_eq_true, and_imp]
    grind
  · simp only [stripAfter, List.find?_eq_none, Bool.and_eq_true, not_and, and_imp]
    exact forall₂_congr fun _ _ => imp_not_comm

/-! ### One examination (R91, R94, R96, R97) -/

variable {s : State} {pre post : List Request} {r : Request} {it : Item}

/-- Room changes nothing of a generator with no waiting strip (R97). -/
theorem State.reexamine_of_not_waiting (h : s.gen.waiting = none) : s.reexamine = s := by
  simp [State.reexamine, h]

/-- A free generator and a stalled one have no event of their own (R91, R97). -/
theorem State.generatorEvent_idle (h : s.gen.current = none ∨ s.gen.waiting ≠ none) : s.generatorEvent = s := by
  rcases h with hfree | hstalled
  · simp [State.generatorEvent, hfree]
  · obtain ⟨t, ht⟩ := Option.ne_none_iff_exists'.1 hstalled
    simp only [State.generatorEvent, ht]
    cases s.gen.current.bind s.request <;> rfl

/-- An operation that is due finds the ring full, and its strip becomes the waiting strip (R97). -/
theorem State.examine_full {v : ItemValues} {t : Strip} {c : Claim}
    (hc : r.progress.place.claim s.gen.latch v it = c)
    (hdue : ¬((formOp c v.rule v.force s.dead s.image t).setMask = 0 ∧
      (formOp c v.rule v.force s.dead s.image t).clearMask = 0)) (hfull : 32 ≤ s.ring.length) :
    s.examine r it v t = { s with gen := { s.gen with waiting := some t } } := by
  subst hc
  have hring : ¬s.ring.length < Config.ringSize := Nat.not_lt.2 hfull
  rw [← StripOp.isEmpty_iff] at hdue
  simp only [State.examine, if_neg hdue, if_neg hring]

@[simp] theorem Request.afterStrip_progress (r : Request) (op : StripOp) : (r.afterStrip op).progress = r.progress := by
  unfold Request.afterStrip; split <;> rfl

/-- Place `p` is at strip `t` of the claim `c`, and `next` gives the places at its other strips: those of a graphic
item, or those of a cell whose glyph is latched (R87). -/
def AtStrip (p : Place) (latch : Option Latch) (v : ItemValues) (it : Item) (t : Strip) (c : Claim)
    (next : Strip → Place) : Prop :=
  (p = .strip t ∧ c = itemClaim v.rect it ∧ next = .strip) ∨
    ∃ i x y wrapped l, p = .cell i x y wrapped t ∧ latch = some l ∧ c = cellClaim v.rect l x y ∧
      next = .cell i x y wrapped

theorem AtStrip.claim {p : Place} {latch : Option Latch} {v : ItemValues} {t : Strip} {c : Claim}
    {next : Strip → Place} (h : AtStrip p latch v it t c next) : p.claim latch v it = c := by
  rcases h with ⟨rfl, rfl, -⟩ | ⟨i, x, y, wrapped, l, rfl, rfl, rfl, -⟩
  · cases latch <;> rfl
  · rfl

theorem AtStrip.next {p : Place} {latch : Option Latch} {v : ItemValues} {t : Strip} {c : Claim}
    {next : Strip → Place} (h : AtStrip p latch v it t c next) : p.next = some t := by
  rcases h with ⟨rfl, -⟩ | ⟨i, x, y, wrapped, l, rfl, -⟩ <;> rfl

/-- With another strip to come the place moves on to it (R94, R96). -/
theorem State.moveOn_nextStrip {q : Request} {v : ItemValues} {t u : Strip} {c : Claim} {next : Strip → Place}
    (hat : AtStrip r.progress.place s.gen.latch v it t c next) (htag : q.tag = r.tag)
    (hprogress : q.progress = r.progress) (hn : ((pre ++ q :: post).map (·.tag)).Nodup)
    (hu : stripAfter s.settings.columns s.settings.stripRows c t = some u) :
    State.moveOn { s with queue := { s.queue with requests := pre ++ q :: post } } r it c t =
      { s with
        gen := { s.gen with waiting := none }
        queue := { s.queue with requests := pre ++ { q with progress := ⟨r.progress.item, next u⟩ } :: post } } := by
  have hset : State.moveOn { s with queue := { s.queue with requests := pre ++ q :: post } } r it c t =
      State.setPlace { s with
        gen := { s.gen with waiting := none }
        queue := { s.queue with requests := pre ++ q :: post } } q.tag (next u) := by
    rcases hat with ⟨hplace, -, rfl⟩ | ⟨i, x, y, wrapped, l, hplace, hlatch, -, rfl⟩
    · simp only [State.moveOn, hplace, hu, htag]
    · simp only [State.moveOn, hplace, hlatch, hu, htag]
  rw [hset, State.setPlace_split _ rfl hn, hprogress]

/-- Settles O44: the strip the place names is examined (`examinedAs_of_next`), and it waits (`State.examine_full`) or is
done with and the place moves on (`State.examine_room`, `State.moveOn_nextStrip`). -/
theorem examinationPassesAppendsOrStalls : Obligations.ExaminationPassesAppendsOrStalls := by
  refine ⟨fun s => ⟨State.reexamine_of_not_waiting, fun hr => ?_, fun hr hidle => ?_⟩, ?_⟩
  · simp [exec, execStripExamination, State.unlessReset, hr]
  · rw [exec_stripExamination hr, State.generatorEvent_idle hidle]
  · intro s pre r post it v t c next hw hv hplace op due q
    have hat : AtStrip r.progress.place s.gen.latch v it t c next := hplace
    have hexamined := examinedAs_of_next hw hv hat.next
    obtain ⟨hs, hn, -, -⟩ := hw
    refine ⟨fun hdue hfull => ?_, fun u hu hroom => ?_⟩
    · rwa [State.examine_full hat.claim hdue hfull] at hexamined
    · have hn' : ((pre ++ q :: post).map (·.tag)).Nodup :=
        tags_split (r := r) (by rwa [hs] at hn) (r.afterStrip_tag op)
      have hmoved := State.moveOn_nextStrip (s := stripDone s r.tag op) (u := u) (by simpa using hat)
        (r.afterStrip_tag op) (r.afterStrip_progress op) hn' (by simpa using hu)
      have hend := (State.examine_room hs hn hat.claim hroom).trans hmoved
      rw [stripDone_gen, stripDone_queue] at hend
      rwa [hend] at hexamined

end Sys2Proof.Machine
end

