-- ==== Sys2Proof/Proofs/DriverArbiter.lean ====
section
/-!
SUPPORT. The driver's arbiter, source by source: the ring head, the sweep slot, or nothing to take (R108 to R110).
-/

-- One proof at a time: side by side, the proofs' threads reserve more memory than the check allows.
set_option Elab.async false

namespace Sys2Proof.Machine

variable {s : State} {o : RingOp} {rest : List RingOp} {w : StripOp}

/-- A driver that is not IDLE, or has no source ready, takes nothing. -/
theorem State.driverArbiter_none (h : s.driver.state ≠ .idle ∨ (s.ring = [] ∧ s.sweep.slot = none)) :
    s.driverArbiter = s := by
  rcases h with hbusy | ⟨hring, hslot⟩
  · exact if_neg hbusy
  · simp only [State.driverArbiter, hring, hslot, ite_self]

/-- With the slot empty the ring head is taken. -/
theorem State.driverArbiter_ringOnly (hidle : s.driver.state = .idle) (hring : s.ring = o :: rest)
    (hslot : s.sweep.slot = none) : s.driverArbiter = s.takeRing o rest s.driver.passOver := by
  simp only [State.driverArbiter, hidle, hring, hslot, if_true]

/-- While the pass-over count is below 4 the ring head passes over the slot. -/
theorem State.driverArbiter_passesOver (hidle : s.driver.state = .idle) (hring : s.ring = o :: rest)
    (hslot : s.sweep.slot = some w) (hcount : s.driver.passOver < 4) :
    s.driverArbiter = s.takeRing o rest (s.driver.passOver + 1) := by
  have hbelow : s.driver.passOver < Config.passOverMax := hcount
  simp only [State.driverArbiter, hidle, hring, hslot, if_true, if_pos hbelow]

/-- The slot is taken when the ring is empty or the slot has been passed over four times. -/
theorem State.driverArbiter_slot (hidle : s.driver.state = .idle) (hslot : s.sweep.slot = some w)
    (h : s.ring = [] ∨ 4 ≤ s.driver.passOver) : s.driverArbiter = s.takeSweep w := by
  cases hring : s.ring with
  | nil => simp only [State.driverArbiter, hidle, hring, hslot, if_true]
  | cons o rest =>
    have hcount : ¬s.driver.passOver < Config.passOverMax :=
      Nat.not_lt.2 (h.resolve_left (by rw [hring]; exact List.cons_ne_nil _ _))
    simp only [State.driverArbiter, hidle, hring, hslot, if_true, if_neg hcount]

/-- The unit with the ring head in the driver's hand, before room is noticed and the phase is tried (R110). -/
def State.ringTaken (s : State) (o : RingOp) (rest : List RingOp) (passOver : Nat) : State :=
  { s with
    ring := rest
    driver := { s.driver with state := .waitCharge, hand := some (handOf (.ring o.tag) o.op), passOver := passOver } }

/-- The take of a ring head makes room only for a stalled generator (R97, R110). -/
theorem State.takeRing_eq (s : State) (o : RingOp) (rest : List RingOp) (passOver : Nat) :
    s.takeRing o rest passOver =
      (if s.gen.waiting = none then s.ringTaken o rest passOver
        else (s.ringTaken o rest passOver).reexamine).tryPhase := by
  split
  next hwait =>
    exact congrArg State.tryPhase (State.reexamine_of_not_waiting (s := s.ringTaken o rest passOver) hwait)
  next => rfl

/-- Settles O49, source by source (`State.driverArbiter_ringOnly`, `State.driverArbiter_passesOver`,
`State.driverArbiter_slot`). -/
theorem driverArbiterPassesOverAtMostFour : Obligations.DriverArbiterPassesOverAtMostFour := by
  intro s took
  have htook : ∀ {slot} (o : RingOp) rest count, s.sweep.slot = slot →
      took rest slot (.ring o.tag) o.op count = s.ringTaken o rest count := by
    rintro _ o rest count rfl
    rfl
  refine ⟨State.driverArbiter_none, fun hidle => ⟨?_, ?_, ?_⟩⟩
  · intro o rest hring hslot taken
    rw [State.driverArbiter_ringOnly hidle hring hslot, State.takeRing_eq, ← htook o rest _ hslot]
  · intro o rest w hring hslot hcount taken
    rw [State.driverArbiter_passesOver hidle hring hslot hcount, State.takeRing_eq, ← htook o rest _ hslot]
  · intro w hslot h
    rw [State.driverArbiter_slot hidle hslot h]
    rfl

end Sys2Proof.Machine
end

