-- ==== Sys2Proof/Proofs/PhaseStarts.lean ====
section
/-!
SUPPORT. RESUME, the recharge step, and the trial of a phase: what blocks it and what its start makes of the unit (R107,
R111, R112, R117 to R119, R123).
-/

-- One proof at a time: side by side, the proofs' threads reserve more memory than the check allows.
set_option Elab.async false

namespace Sys2Proof.Machine

variable {s : State} {h : Hand}

/-! ### RESUME (R38, R108, R123) -/

/-- A HELD driver with no source ready returns to IDLE and takes nothing; the generator arbiter chooses. -/
theorem resumeMessage_held (hheld : s.driver.state = .held) (hring : s.ring = []) (hslot : s.sweep.slot = none) :
    resumeMessage s = ((s.driverState .idle).generatorArbiter, okReply []) := by
  have hnone : ((s.driverState .idle).generatorArbiter).driverArbiter = (s.driverState .idle).generatorArbiter :=
    State.driverArbiter_none (.inr ⟨by simpa using hring, by simpa using hslot⟩)
  simp only [resumeMessage, hheld, if_true, hnone]

/-- Settles O25: with ring and slot empty the driver's arbiter takes nothing (`resumeMessage_held`). -/
theorem resumeEndsTheHold : Obligations.ResumeEndsTheHold := by
  intro s own seq hfresh
  refine ⟨fun hheld hring hslot => congrArg Host.Outcome.next ?_, fun hother => congrArg Host.Outcome.next ?_⟩
  · refine addressedFrame_owner .resume hfresh rfl (by decide) (by simp) fun l => ?_
    exact (resumeMessage_held (s := { s with link := l }) hheld hring hslot).trans
      (congrArg (·, okReply []) (State.generatorArbiter_withLink (s.driverState .idle) l))
  · exact addressedFrame_answer .resume [] _ hfresh rfl (if_neg hother) (by decide)

/-! ### The trial of a phase (R111, R112, R118) -/

/-- A phase that lacks charge, or that a quiet scan blocks, waits (R111, R118). -/
theorem State.tryPhase_blocked (hh : s.driver.hand = some h)
    (hblocked : ¬(h.need ≤ s.charge.level ∧ s.quietPending = false)) : s.tryPhase = s.driverState .waitCharge := by
  simp only [State.tryPhase, hh, if_neg hblocked]

/-- A phase that nothing blocks starts; an overcurrent input already high ends its pulse at once (R112, R119). -/
theorem State.tryPhase_ready (hh : s.driver.hand = some h) (hneed : h.need ≤ s.charge.level)
    (hquiet : s.quietPending = false) :
    s.tryPhase = if s.ocin then (s.pulsing h).enterHeld else s.pulsing h := by
  simp only [State.tryPhase, hh, hneed, hquiet, and_self, if_true, State.startPhase_eq]

/-- Outside reset a pulse with a hand drives the lines of its phase (R107). -/
theorem State.coilLines_driven (hr : s.inReset = false) (hp : s.driver.state = .pulse) (hh : s.driver.hand = some h) :
    s.coilLines = ⟨some h.op.strip, h.phase == .set, h.phase == .clear, h.op.mask h.phase⟩ := by
  simp only [State.coilLines, hr, hp, hh]

/-- In reset the coil lines are released (R187). -/
theorem State.coilLines_reset (hr : s.inReset = true) : s.coilLines = ⟨none, false, false, 0⟩ := by
  simp only [State.coilLines, hr]
  rfl

/-- RECHARGE_STEP outside reset. -/
theorem exec_rechargeStep (hr : s.inReset = false) : exec .rechargeStep s = .next s.recharge := by
  simp [exec, execRechargeStep, State.unlessReset, hr]

/-- Settles O50: a recharge step is `State.retryPhase` on the charged unit, and a trial is `State.tryPhase_blocked` or
`State.tryPhase_ready`, whose pulsing unit is the statement's own while no quiet scan is demanded. -/
theorem rechargeStepsAndPhaseStarts : Obligations.RechargeStepsAndPhaseStarts := by
  intro s charged
  have hcharged : s.recharge = charged.retryPhase := by
    have hlevel : min (s.charge.level + 1) Config.chargeMax =
        if s.charge.level < 64 then s.charge.level + 1 else 64 := by
      simp only [Config.chargeMax]
      split <;> omega
    simp only [State.recharge, hlevel]
    rfl
  refine ⟨fun hr hbusy => ?_, fun hr hwait => ?_, fun hr => ?_, fun hout => ?_, ?_⟩
  · rw [exec_rechargeStep hr, hcharged, State.retryPhase, if_neg hbusy]
  · rw [exec_rechargeStep hr, hcharged, State.retryPhase, if_pos hwait]
  · simp [exec, execRechargeStep, State.unlessReset, hr]
  · exact hout.elim State.coilLines_reset State.coilLines_released
  · intro h hh mask need quiet started
    have hmask : mask = h.op.mask h.phase := by simp only [mask]; cases h.phase <;> rfl
    have hneed : need = h.need := by simp only [need, hmask]; rfl
    have hquiet : quiet = s.quietPending := rfl
    have hpulsing : s.quietPending = false → s.pulsing h = started := fun hcalm => by
      have hmark : h.mark .pulsing = match h.phase with
        | .set => { h with setStatus := .pulsing }
        | .clear => { h with clearStatus := .pulsing } := rfl
      have hseen : s.touch.scanner.seePulse = match s.touch.scanner with
        | .scanning sc => .scanning ⟨sc.period, true⟩
        | other => other := by
        unfold State.quietPending at hcalm
        cases hsc : s.touch.scanner <;> simp_all [Scanner.seePulse]
      simp only [State.pulsing, hmark, hseen, ← hneed]
      rfl
    refine ⟨fun hr => ?_, fun hblocked => ?_, fun hlevel hcalm => ?_⟩
    · rw [State.coilLines_driven (s := started) hr rfl rfl]
      cases hphase : h.phase <;> simp [StripOp.mask]
    · rw [hneed, hquiet] at hblocked
      exact State.tryPhase_blocked hh hblocked
    · rw [hneed] at hlevel
      rw [State.tryPhase_ready hh hlevel hcalm, hpulsing hcalm]
      refine ⟨fun hlow => by simp [hlow], fun hhigh hr => ?_⟩
      simp [exec, execOvercurrent, hhigh, hr, started]

end Sys2Proof.Machine
end

