-- ==== Sys2Proof/Proofs/ScanEnds.lean ====
section
/-!
SUPPORT. The end of a scan as a whole next state: voided, or evaluated beam by beam with the contact's move, and the
next scan (R118, R141 to R145).
-/

-- One proof at a time: side by side, the proofs' threads reserve more memory than the check allows.
set_option Elab.async false

namespace Sys2Proof.Machine

variable {s t u : State} {xb : BitVec 48} {yb : BitVec 24}

/-! ### Beams (R144) -/

/-- A beam after a scan that is not voided: its count, and whether it is in the blocked set (R144). -/
def Beam.after (b : Beam) (limit : Nat) (broken : Bool) : Beam :=
  let n := if broken then min (b.broken + 1) 5000 else 0
  ⟨n, if b.blocked then broken else decide (limit ≤ n)⟩

/-- A beam is reported when it has joined or left the blocked set, with where it is now (R144). -/
theorem beamStep_eq (limit : Nat) (b : Beam) (broken : Bool) :
    beamStep limit b broken =
      (b.after limit broken,
        if b.blocked = (b.after limit broken).blocked then none else some (b.after limit broken).blocked) := by
  unfold beamStep Beam.after
  have hmax : Config.brokenMax = 5000 := rfl
  rw [hmax]
  generalize (if broken = true then min (b.broken + 1) 5000 else 0) = n
  dsimp only
  cases b.blocked with
  | true => cases broken <;> rfl
  | false => by_cases hlimit : limit ≤ n <;> simp [hlimit]

/-- The reports of one axis are offered beam by beam (R144). -/
theorem foldl_beamReports (axis : Axis) (limit number : Nat) (beams : List Beam) (broken : Nat → Bool)
    (q : ReportQueue) :
    (beamReports axis limit number beams broken).foldl ReportQueue.offer q =
      (List.range number).foldl (fun q i =>
        if (beams.getD i .clear).blocked = ((beams.getD i .clear).after limit (broken i)).blocked then q
        else q.offer (.beam axis i ((beams.getD i .clear).after limit (broken i)).blocked)) q := by
  rw [beamReports, List.foldl_filterMap]
  congr 1
  funext q i
  rw [beamStep_eq]
  split_ifs <;> rfl

/-- Reports offered to the unit reach its report queue alone (R157). -/
theorem foldl_offer (l : List Report) (s : State) :
    l.foldl State.offer s = { s with reports := l.foldl ReportQueue.offer s.reports } := by
  induction l generalizing s with
  | nil => rfl
  | cons r l ih => exact ih (s.offer r)

/-! ### What the contact leaves as it is (R136 to R139) -/

/-- Only the queue, the generator, the reports, and the contact with its counter differ. -/
def ContactOnly (s t : State) : Prop :=
  ∃ queue gen reports contact counter,
    t = { s with
      queue := queue
      gen := gen
      reports := reports
      touch := { s.touch with contact := contact, contactCounter := counter } }

theorem ContactOnly.refl (s : State) : ContactOnly s s := ⟨_, _, _, _, _, rfl⟩

theorem ContactOnly.trans (h : ContactOnly s t) (k : ContactOnly t u) : ContactOnly s u := by
  obtain ⟨_, _, _, _, _, rfl⟩ := h
  obtain ⟨_, _, _, _, _, rfl⟩ := k
  exact ⟨_, _, _, _, _, rfl⟩

theorem contactOnly_joinEcho (s : State) (q : Rect) : ContactOnly s (s.joinEcho q) := by
  unfold State.joinEcho State.generatorArbiter
  split
  · exact ⟨_, _, _, _, _, rfl⟩
  · split <;> exact ⟨_, _, _, _, _, rfl⟩

theorem contactOnly_press (s : State) (x y : Nat) : ContactOnly s (s.press x y) := by
  obtain ⟨c, r, echo, -, -, -, -, heq⟩ := s.press_eq x y
  have hmade : ContactOnly s (s.contacted c) := ⟨_, _, _, _, _, rfl⟩
  rw [heq]
  split
  next q _ => exact hmade.trans ((contactOnly_joinEcho _ q).trans ⟨_, _, _, _, _, rfl⟩)
  next => exact hmade.trans ⟨_, _, _, _, _, rfl⟩

theorem contactOnly_release (s : State) (c : Contact) : ContactOnly s (s.release c) := by
  unfold State.release
  dsimp only
  split
  next q _ _ => exact (contactOnly_joinEcho s q).trans ⟨_, _, _, _, _, rfl⟩
  next => exact ⟨_, _, _, _, _, rfl⟩

theorem contactOnly_setContact (s : State) (c : ContactState) : ContactOnly s (s.setContact c) :=
  ⟨_, _, _, _, _, rfl⟩

theorem contactOnly_pressTest (s : State) (x y n : Nat) : ContactOnly s (s.pressTest x y n) := by
  unfold State.pressTest
  dsimp only
  split
  · exact contactOnly_press s x y
  · exact contactOnly_setContact s _

theorem contactOnly_releaseTest (s : State) (c : Contact) (n : Nat) : ContactOnly s (s.releaseTest c n) := by
  unfold State.releaseTest
  dsimp only
  split
  · exact contactOnly_release s c
  · exact contactOnly_setContact s _

theorem contactOnly_moveCheck (s : State) (c : Contact) (x y : Nat) : ContactOnly s (s.moveCheck c x y) := by
  unfold State.moveCheck
  split <;> exact ⟨_, _, _, _, _, rfl⟩

/-- Whatever the outcome of a scan, the contact's move leaves the rest of the unit (R136). -/
theorem contactOnly_contactStep (s : State) (o : ScanOutcome) : ContactOnly s (s.contactStep o) := by
  unfold State.contactStep
  split
  · exact contactOnly_pressTest s _ _ _
  · exact .refl s
  · exact contactOnly_setContact s _
  · split <;> exact contactOnly_pressTest s _ _ _
  · exact .refl s
  · exact contactOnly_releaseTest s _ _
  · exact contactOnly_moveCheck s _ _ _
  · exact contactOnly_setContact s _
  · exact contactOnly_releaseTest s _ _
  · exact contactOnly_moveCheck s _ _ _
  · exact contactOnly_setContact s _

/-! ### The evaluation of a scan, and the next scan (R141) -/

/-- The unit after the beams of a scan are counted and their reports offered (R144). -/
def State.beamed (s : State) (xb : BitVec 48) (yb : BitVec 24) : State :=
  let c := s.settings
  { s with
    touch :=
      { s.touch with
        xBeams := beamsStep c.blockedLimit c.xBeams s.touch.xBeams xb.getLsbD
        yBeams := beamsStep c.blockedLimit c.yBeams s.touch.yBeams yb.getLsbD
        voided := 0 }
    reports := (beamReports .y c.blockedLimit c.yBeams s.touch.yBeams yb.getLsbD).foldl ReportQueue.offer
      ((beamReports .x c.blockedLimit c.xBeams s.touch.xBeams xb.getLsbD).foldl ReportQueue.offer s.reports) }

/-- The evaluation of a scan: beams and reports, then the contact's move by the outcome (R141). -/
theorem State.evaluateScan_eq (s : State) (xb : BitVec 48) (yb : BitVec 24) :
    s.evaluateScan xb yb = (s.beamed xb yb).contactStep
      (outcomeOf s.settings (axisRuns s.settings.xBeams (s.beamed xb yb).touch.xBeams xb.getLsbD)
        (axisRuns s.settings.yBeams (s.beamed xb yb).touch.yBeams yb.getLsbD)) := by
  unfold State.evaluateScan
  dsimp only
  rw [foldl_offer, List.foldl_append]
  rfl

/-- The unit after a scan that is not voided, with the next scan started (R141). -/
def State.scanned (s : State) (xb : BitVec 48) (yb : BitVec 24) : State :=
  (s.evaluateScan xb yb).setScanner (.scanning s.newScan)

/-- A scan that is not voided reaches only the contact's blocks and the scanner. -/
theorem State.scanned_keeps (s : State) (xb : BitVec 48) (yb : BitVec 24) :
    (s.evaluateScan xb yb).newScan = s.newScan ∧ (s.scanned xb yb).touch.voided = 0 ∧
      (s.scanned xb yb).driver = s.driver ∧ (s.scanned xb yb).charge = s.charge ∧
      (s.scanned xb yb).image = s.image ∧ (s.scanned xb yb).ring = s.ring := by
  obtain ⟨_, _, _, _, _, h⟩ := contactOnly_contactStep (s.beamed xb yb)
    (outcomeOf s.settings (axisRuns s.settings.xBeams (s.beamed xb yb).touch.xBeams xb.getLsbD)
      (axisRuns s.settings.yBeams (s.beamed xb yb).touch.yBeams yb.getLsbD))
  simp only [State.scanned, State.evaluateScan_eq, h]
  exact ⟨rfl, rfl, rfl, rfl, rfl, rfl⟩

/-! ### SCAN_END (R118, R141 to R143) -/

/-- SCAN_END outside reset. -/
theorem exec_scanEnd (hr : s.inReset = false) : exec (.scanEnd xb yb) s = .next (s.scanEnds xb yb) := by
  simp [exec, execScanEnd, State.unlessReset, hr]

/-- The end of an ordinary scan that saw no pulse. -/
theorem exec_scanEnd_clean (hr : s.inReset = false) {period : Nat}
    (hsc : s.touch.scanner = .scanning ⟨period, false⟩) :
    exec (.scanEnd xb yb) s = .next (s.scanned xb yb) := by
  rw [exec_scanEnd hr]
  simp only [State.scanEnds, hsc, Bool.false_eq_true, if_false, (s.scanned_keeps xb yb).1]
  rfl

/-- The end of a quiet scan, after which a phase that waits tries its start (R118). -/
theorem exec_scanEnd_quiet (hr : s.inReset = false) {sc : Scan} (hsc : s.touch.scanner = .quiet sc) :
    exec (.scanEnd xb yb) s =
      .next (if s.driver.state = .waitCharge then (s.scanned xb yb).tryPhase else s.scanned xb yb) := by
  obtain ⟨hnew, -, hdriver, -⟩ := s.scanned_keeps xb yb
  rw [exec_scanEnd hr, ← hdriver]
  simp only [State.scanEnds, hsc, hnew]
  rfl

/-- A voided scan is counted; at 8 a quiet scan is demanded (R142, R143). -/
theorem State.voidScan_eq (s : State) :
    s.voidScan =
      { s with
        touch :=
          { s.touch with
            voided := min (s.touch.voided + 1) 8
            scanner :=
              if min (s.touch.voided + 1) 8 < 8 then
                .scanning ⟨s.settings.scanPeriod, decide (s.driver.state = .pulse)⟩
              else if s.driver.state = .pulse then .quietWait
              else .quiet ⟨s.settings.scanPeriod, false⟩ } } := by
  have hfull : min (s.touch.voided + 1) Config.voidedMax = Config.voidedMax ↔ ¬min (s.touch.voided + 1) 8 < 8 := by
    simp only [Config.voidedMax]
    omega
  have hpulse : s.pulseInProgress = true ↔ s.driver.state = .pulse := by simp [State.pulseInProgress]
  unfold State.voidScan
  dsimp only
  by_cases hcount : min (s.touch.voided + 1) 8 < 8
  · rw [if_neg (hfull.not.2 (not_not.2 hcount)), if_pos hcount]
    rfl
  · rw [if_pos (hfull.2 hcount), if_neg hcount]
    by_cases hp : s.driver.state = .pulse
    · rw [if_pos hp]
      exact if_pos (hpulse.2 hp)
    · rw [if_neg hp]
      exact if_neg (hpulse.not.2 hp)

/-- The emitters of a running scan: every x beam, then every y beam (R141). -/
theorem emitters_eq (xn yn : Nat) :
    (List.range xn).map (fun i => (⟨.x, BitVec.ofNat 7 i⟩ : BeamSelect)) ++
        (List.range yn).map (fun i => ⟨.y, BitVec.ofNat 7 i⟩) =
      (List.range (xn + yn)).map fun i =>
        if i < xn then ⟨.x, BitVec.ofNat 7 i⟩ else ⟨.y, BitVec.ofNat 7 (i - xn)⟩ := by
  rw [List.range_add, List.map_append, List.map_map]
  congr 1
  · exact List.map_congr_left fun i hi => (if_pos (List.mem_range.1 hi)).symm
  · exact List.map_congr_left fun i _ => by simp

/-- Settles O56, by the scanner's state: `State.voidScan_eq`, no scan, or a quiet scan's end
(`exec_scanEnd_quiet`). -/
theorem voidedScansDemandAQuietScan : Obligations.VoidedScansDemandAQuietScan := by
  intro s xb yb hr count
  refine ⟨fun period hsc => ?_, fun hidle => ?_, fun sc hsc => ?_, ?_⟩
  · rw [exec_scanEnd hr, State.scanEnds, hsc]
    exact congrArg Host.Outcome.next s.voidScan_eq
  · rw [exec_scanEnd hr]
    rcases hidle with hsc | hsc <;> simp only [State.scanEnds, hsc]
  · obtain ⟨-, hvoided, hdriver, hcharge, himage, hring⟩ := s.scanned_keeps xb yb
    refine ⟨s.scanned xb yb, ?_, rfl, hvoided, hdriver, hcharge, himage, hring⟩
    rw [exec_scanEnd_quiet hr hsc, hdriver]
  · rw [← emitters_eq]
    cases hsc : s.touch.scanner <;> simp only [State.emitterOrder, hr, hsc]

/-- Settles O57: the statement's beams and reports are those of `State.beamed` (`beamStep_eq`, `foldl_beamReports`), and
its next state is `State.scanned`. -/
theorem beamsAreBlockedAndCleared : Obligations.BeamsAreBlockedAndCleared := by
  intro s xb yb hr c stepped report xs ys beamed moved next
  have hxs : beamsStep s.settings.blockedLimit s.settings.xBeams s.touch.xBeams xb.getLsbD = xs := by
    simp only [beamsStep, beamStep_eq]
    rfl
  have hys : beamsStep s.settings.blockedLimit s.settings.yBeams s.touch.yBeams yb.getLsbD = ys := by
    simp only [beamsStep, beamStep_eq]
    rfl
  have hbeamed : s.beamed xb yb = beamed := by
    simp only [State.beamed, hxs, hys, foldl_beamReports]
    rfl
  have hnext : s.scanned xb yb = next := by
    have hpulse : s.pulseInProgress = decide (s.driver.state = .pulse) := rfl
    simp only [State.scanned, State.evaluateScan_eq, hbeamed, State.newScan, hpulse]
    rfl
  refine ⟨fun period hsc => ?_, fun sc hsc => ?_⟩
  · rw [exec_scanEnd_clean hr hsc, hnext]
  · rw [exec_scanEnd_quiet hr hsc, hnext]

end Sys2Proof.Machine
end

