-- ==== Sys2Proof/Proofs/ConfigureAndReset.lean ====
section
/-!
SUPPORT. A CONFIGURE that keeps the panel's shape, with the phase it may free, and a full reset (R118, R128, R151, R180,
R183, R187).
-/

-- One proof at a time: side by side, the proofs' threads reserve more memory than the check allows.
set_option Elab.async false

namespace Sys2Proof.Machine

variable {s : State}

/-! ### The trial of a phase beside the link -/

theorem State.enterHeld_withLink (s : State) (l : Link) :
    State.enterHeld { s with link := l } = { s.enterHeld with link := l } := by
  unfold State.enterHeld
  cases hh : s.driver.hand with
  | none => rfl
  | some h =>
    simp only [State.cutShort_eq, State.pulseOver_eq, State.failRequests, foldl_leave]
    rfl

/-- The trial of a phase does not see the link. -/
theorem State.tryPhase_withLink (s : State) (l : Link) :
    State.tryPhase { s with link := l } = { s.tryPhase with link := l } := by
  cases hh : s.driver.hand with
  | none => simp only [State.tryPhase, hh]
  | some h =>
    by_cases hready : h.need ≤ s.charge.level ∧ s.quietPending = false
    · obtain ⟨hneed, hquiet⟩ := hready
      rw [State.tryPhase_ready hh hneed hquiet, State.tryPhase_ready (s := { s with link := l }) hh hneed hquiet]
      by_cases hocin : s.ocin = true
      · rw [if_pos hocin, if_pos hocin]
        exact State.enterHeld_withLink (s.pulsing h) l
      · rw [if_neg hocin, if_neg hocin]
        rfl
    · rw [State.tryPhase_blocked hh hready, State.tryPhase_blocked (s := { s with link := l }) hh hready]
      rfl

/-! ### A change of settings that keeps the shape (R118, R128, R151, R183) -/

/-- The unit with new settings of the same shape, before a phase that the change frees is tried (R183; log 13). -/
def State.configured (s : State) (new : Settings) : State :=
  { s with
    settings := new
    sweep :=
      { s.sweep with
        timer := if s.sweep.timer = none ∧ new.sweepInterval ≠ 0 then some new.sweepInterval else s.sweep.timer }
    touch := if touchAffected s.settings new then s.touch.fresh (new.touchEnable == 1) new.scanPeriod s.pulseInProgress
      else s.touch
    reports := if touchAffected s.settings new then { s.reports with coalesce := none } else s.reports }

/-- A scanner that starts afresh demands no quiet scan (R145). -/
theorem quietPending_fresh {t : Touch} {enabled : Bool} {period : Nat} {pulse : Bool}
    (h : s.touch = t.fresh enabled period pulse) : s.quietPending = false := by
  cases enabled <;> simp [State.quietPending, h, Touch.fresh]

/-- With the shape kept, the quiet block is lifted just where the scanner starts afresh, and only then is a waiting
phase tried (R118, R151). -/
theorem State.applySettings_sameShape {new : Settings} (hshape : s.settings.shapeDiffers new = false) :
    s.applySettings new =
      if s.quietPending = true ∧ touchAffected s.settings new = true ∧ s.driver.state = .waitCharge then
        (s.configured new).tryPhase
      else s.configured new := by
  have hreshaped : s.reshaped new = { s with settings := new } := by
    simp only [State.reshaped, hshape, Bool.false_eq_true, if_false]
  have hquiet : (s.reshaped new).quietPending = s.quietPending := by rw [hreshaped]; rfl
  have hconfigured : ((s.reshaped new).retouched s.settings new).startSweepTimer = s.configured new := by
    rw [hreshaped, State.startSweepTimer_eq]
    simp only [State.retouched, State.restartTouch_eq, State.configured]
    split <;> rfl
  simp only [State.applySettings_eq, hconfigured, hquiet]
  cases ht : touchAffected s.settings new with
  | true =>
    have htouch : (s.configured new).touch = s.touch.fresh (new.touchEnable == 1) new.scanPeriod s.pulseInProgress := by
      simp only [State.configured, ht, if_true]
    have hlifted : (s.configured new).quietPending = false := quietPending_fresh htouch
    have hretry : (s.configured new).retryPhase =
        if s.driver.state = .waitCharge then (s.configured new).tryPhase else s.configured new := rfl
    simp only [hlifted, hretry, Bool.not_false, Bool.and_true, true_and, ite_and]
  | false =>
    have hkept : (s.configured new).quietPending = s.quietPending := by
      simp only [State.quietPending, State.configured, ht, Bool.false_eq_true, if_false]
    simp only [hkept, Bool.and_not_self, Bool.false_eq_true, if_false, false_and, and_false]

/-- A change of settings that keeps the shape does not see the link. -/
theorem State.applySettings_withLink {new : Settings} (hshape : s.settings.shapeDiffers new = false) (l : Link) :
    State.applySettings { s with link := l } new = { s.applySettings new with link := l } := by
  rw [State.applySettings_sameShape hshape, State.applySettings_sameShape (s := { s with link := l }) hshape]
  by_cases hfreed : s.quietPending = true ∧ touchAffected s.settings new = true ∧ s.driver.state = .waitCharge
  · rw [if_pos hfreed]
    exact (if_pos hfreed).trans (State.tryPhase_withLink (s.configured new) l)
  · rw [if_neg hfreed]
    exact if_neg hfreed

/-- What touches the scanner, with the shape kept (R151). -/
theorem touchAffected_iff {old new : Settings} (hshape : old.shapeDiffers new = false) :
    touchAffected old new = true ↔
      new.touchEnable ≠ old.touchEnable ∨ (new.touchEnable = 1 ∧ old.beamsDiffer new = true) := by
  rw [ne_comm]
  simp [touchAffected, hshape]

/-- A CONFIGURE of values in range that keeps the shape is accepted, whatever work is in flight (R180 to R182). -/
theorem configureMessage_sameShape {pairs : List (Nat × Nat)} (hfit : PairsFit pairs)
    (hrange : ∀ e ∈ pairs, settingInRange e.1 e.2 = true)
    (hbeams : (settingsAfter s.settings pairs).beamsInside = true)
    (hshape : s.settings.shapeDiffers (settingsAfter s.settings pairs) = false) :
    configureMessage s (configurePayload pairs) = (s.applySettings (settingsAfter s.settings pairs), okReply []) := by
  have hnew : s.settings.putAll pairs = settingsAfter s.settings pairs := rfl
  simp only [configureMessage, configPairs_payload hfit.2.2, firstBadPair_of_inRange hrange, hnew, hbeams, hshape,
    Bool.true_eq_false, Bool.false_eq_true, if_false, false_and]

/-- Settles O14: the whole change is `State.applySettings_sameShape`, and the phase it frees does not see the link
(`State.tryPhase_withLink`). -/
theorem configureTakesEffectInOneEvent : Obligations.ConfigureTakesEffectInOneEvent := by
  intro s own seq pairs hfresh hfit hrange new restarts quiet configured hbeams hcolumns hrows
  have hshape : s.settings.shapeDiffers new = false := by
    simp only [Settings.shapeDiffers, hcolumns, hrows, bne_self_eq_false, Bool.or_self]
  have hrestarts : touchAffected s.settings new = true ↔ restarts := touchAffected_iff hshape
  have hquiet : quiet = s.quietPending := rfl
  have hconfigured : s.configured new = configured := by
    have hsweep : (s.configured new).sweep = configured.sweep := by
      simp only [State.configured, configured]
      split <;> rfl
    simp only [State.configured, hrestarts] at hsweep ⊢
    rw [hsweep]
  have hstate : s.applySettings new =
      if quiet = true ∧ restarts ∧ s.driver.state = .waitCharge then configured.tryPhase else configured := by
    rw [State.applySettings_sameShape hshape, hconfigured]
    simp only [hrestarts]
    rfl
  have hlink : (s.applySettings new).link = s.link := by
    rw [hstate]
    split
    · exact (keeps_tryPhase configured).link
    · rfl
  have haccepts : MsgKind.configure.accepts (configurePayload pairs).length = true := by
    obtain ⟨hlo, hhi, -⟩ := hfit
    rw [length_configurePayload]
    simp only [MsgKind.accepts, Bool.and_eq_true, decide_eq_true_eq, beq_iff_eq]
    omega
  rw [← hstate]
  refine congrArg Host.Outcome.next (addressedFrame_owner .configure hfresh haccepts (by decide) hlink fun l => ?_)
  exact (configureMessage_sameShape (s := { s with link := l }) hfit hrange hbeams hshape).trans
    (congrArg (·, okReply []) (State.applySettings_withLink hshape l))

/-! ### A full reset (R107, R125, R141, R145, R152, R164, R165, R167, R179, R187) -/

/-- The bit rate of the two straps, BRS1 first (R165). -/
theorem Link.bitRate_eq (l : Link) :
    l.bitRate = match l.rateStraps.getLsbD 1, l.rateStraps.getLsbD 0 with
      | false, false => 19200
      | false, true => 57600
      | true, false => 115200
      | true, true => 230400 := by
  have htable : ∀ brs : BitVec 2, (match brs.toNat with
      | 0 => 19200
      | 1 => 57600
      | 2 => 115200
      | _ => 230400) = match brs.getLsbD 1, brs.getLsbD 0 with
      | false, false => 19200
      | false, true => 57600
      | true, false => 115200
      | true, true => 230400 := by decide
  exact htable l.rateStraps

/-- After a full reset every report class is subscribed (R164). -/
theorem subscribed_allOnes {q : ReportQueue} (h : q.subscription = BitVec.allOnes 5) (c : ReportClass) :
    q.subscribed c = true := by
  cases c <;> simp [ReportQueue.subscribed, h, ReportClass.code]

/-- With nothing being sent TXD rests high and the line is not driven (R167). -/
theorem txd_idle (h : s.link.tx = .idle) (n : Nat) : s.txdLevel n = true ∧ s.lineDriven n = none := by
  simp [State.txdLevel, State.txdBits, State.txLine, State.lineDriven, State.deHigh, State.isSending, h]

/-- Every dot of an image that lists no strip is UNKNOWN (R2). -/
theorem imageDot_nil (x y : Nat) : imageDot [] x y = .unknown := by
  simp [imageDot, imageGet, StripImage.dot, StripImage.unknown]

/-- Settles O17: the entry is `State.enterReset`, the exit `State.afterFullReset`, read block by block. -/
theorem fullResetLeavesTheResetState : Obligations.FullResetLeavesTheResetState := by
  refine ⟨fun s => ?_, fun s ads brs hr => ?_⟩
  · refine ⟨s.enterReset, rfl, rfl, rfl, rfl, rfl, rfl, fun n => (txd_idle rfl n).2, rfl, fun us => ?_⟩
    simp only [exec, execFullResetEntry, resetEffective, decide_eq_true_eq]
  · have hexit : exec (.fullResetExit ads brs) s = .next (.afterFullReset ads brs s.ocin s.pending) := by
      simp only [exec, execFullResetExit, hr, if_true]
    exact ⟨_, hexit, rfl, rfl, rfl, Link.bitRate_eq _, imageDot_nil, rfl, rfl, rfl, rfl, rfl, rfl, rfl, rfl, rfl, rfl,
      rfl, rfl, rfl, rfl, rfl, rfl, rfl, rfl, rfl, rfl, rfl, rfl, rfl, rfl, rfl, subscribed_allOnes rfl, rfl, rfl,
      txd_idle rfl, rfl, rfl⟩

end Sys2Proof.Machine
end

