-- ==== Sys2Proof/Proofs/SweepExpiry.lean ====
section
/-!
SUPPORT. A sweep expiry as a whole next state: the order of its strips by their index in the panel, which strips it
skips, and the fill of the slot (R127 to R131).
-/

-- One proof at a time: side by side, the proofs' threads reserve more memory than the check allows.
set_option Elab.async false

namespace Sys2Proof.Machine

variable {s : State} {columns stripRows : Nat} {cursor t : Strip}

/-! ### Sweep order by index (R127, R130) -/

/-- The strip with index `j` in sweep order, the strips counted from 0 (R127). -/
def stripAt (stripRows j : Nat) : Strip := ⟨j / stripRows, j % stripRows⟩

/-- Index `c * stripRows + k` is strip row `k` of column `c`. -/
theorem stripAt_mul_add (c : Nat) {k : Nat} (hk : k < stripRows) : stripAt stripRows (c * stripRows + k) = ⟨c, k⟩ := by
  have hpos : 0 < stripRows := Nat.zero_lt_of_lt hk
  rw [stripAt, Nat.mul_comm, Nat.mul_add_div hpos, Nat.mul_add_mod, Nat.div_eq_of_lt hk, Nat.mod_eq_of_lt hk,
    Nat.add_zero]

/-- The strips of the panel are those of index 0 up to their number. -/
theorem panelStrips_eq_map_stripAt (columns stripRows : Nat) :
    panelStrips columns stripRows = (List.range (columns * stripRows)).map (stripAt stripRows) := by
  induction columns with
  | zero => simp [panelStrips]
  | succ c ih =>
    have hlast : (List.range stripRows).map (fun k => stripAt stripRows (c * stripRows + k)) =
        (List.range stripRows).map fun k => ⟨c, k⟩ :=
      List.map_congr_left fun k hk => stripAt_mul_add c (List.mem_range.1 hk)
    have hsplit : panelStrips (c + 1) stripRows =
        panelStrips c stripRows ++ (List.range stripRows).map fun k => ⟨c, k⟩ := by
      simp [panelStrips, List.range_succ, List.flatMap_append]
    rw [hsplit, ih, Nat.succ_mul, List.range_add, List.map_append, List.map_map, ← hlast]
    rfl

/-- Sweep order compares indices. -/
theorem stripAt_before_iff (hrow : cursor.row < stripRows) (j : Nat) :
    (stripAt stripRows j).before cursor = true ↔ j < cursor.col * stripRows + cursor.row := by
  have hpos : 0 < stripRows := Nat.zero_lt_of_lt hrow
  have hmod : j % stripRows < stripRows := Nat.mod_lt j hpos
  have hj : j / stripRows * stripRows + j % stripRows = j := Nat.div_add_mod' j stripRows
  rw [Strip.before_iff, stripAt]
  dsimp only
  rcases Nat.lt_trichotomy (j / stripRows) cursor.col with hlt | heq | hgt
  · have hcol := Nat.mul_le_mul_right stripRows (Nat.succ_le_of_lt hlt)
    rw [Nat.succ_mul] at hcol
    omega
  · rw [heq] at hj ⊢
    omega
  · have hcol := Nat.mul_le_mul_right stripRows (Nat.succ_le_of_lt hgt)
    rw [Nat.succ_mul] at hcol
    omega

/-- The index of a strip of the panel is below their number. -/
theorem index_lt (hcol : cursor.col < columns) (hrow : cursor.row < stripRows) :
    cursor.col * stripRows + cursor.row < columns * stripRows := by
  have h := Nat.mul_le_mul_right stripRows (Nat.succ_le_of_lt hcol)
  rw [Nat.succ_mul] at h
  omega

/-- The indices from `k` on, coming round at `n`, are those from `k` up and then those below `k`. -/
theorem map_range_comingRound {n k : Nat} (hk : k < n) :
    (List.range n).map (fun i => (k + i) % n) = (List.range (n - k)).map (k + ·) ++ List.range k := by
  obtain ⟨m, rfl⟩ : ∃ m, n = m + k := ⟨n - k, by omega⟩
  have hup : (List.range m).map (fun i => (k + i) % (m + k)) = (List.range m).map (k + ·) :=
    List.map_congr_left fun i hi => Nat.mod_eq_of_lt (by have := List.mem_range.1 hi; omega)
  have hround : (List.range k).map (fun i => (k + (m + i)) % (m + k)) = List.range k := by
    refine (List.map_congr_left fun i hi => ?_).trans (List.map_id _)
    have hi := List.mem_range.1 hi
    rw [show k + (m + i) = i + (m + k) by omega, Nat.add_mod_right, Nat.mod_eq_of_lt (by omega), id]
  rw [Nat.add_sub_cancel, List.range_add, List.map_append, List.map_map, hup]
  exact congrArg _ hround

/-- An expiry examines the strips by index from the cursor's, coming round at the end of the panel (R130). -/
theorem sweepOrder_eq_map (hcol : cursor.col < columns) (hrow : cursor.row < stripRows) :
    sweepOrder columns stripRows cursor = (List.range (columns * stripRows)).map fun i =>
      stripAt stripRows ((cursor.col * stripRows + cursor.row + i) % (columns * stripRows)) := by
  have hbefore := stripAt_before_iff hrow
  have hk := index_lt hcol hrow
  generalize cursor.col * stripRows + cursor.row = k at hbefore hk
  generalize hn : columns * stripRows = n at hk
  have hpanel : panelStrips columns stripRows =
      (List.range k).map (stripAt stripRows) ++ ((List.range (n - k)).map (k + ·)).map (stripAt stripRows) := by
    rw [panelStrips_eq_map_stripAt, hn, ← List.map_append, ← List.range_add, Nat.add_sub_cancel' hk.le]
  have hlow : ∀ u ∈ (List.range k).map (stripAt stripRows), u.before cursor = true := by
    simp [hbefore]
  have hafter : ∀ j, (stripAt stripRows (k + j)).before cursor = false := fun j => by
    rw [Bool.eq_false_iff, ne_eq, hbefore]
    omega
  have hhigh : ∀ u ∈ ((List.range (n - k)).map (k + ·)).map (stripAt stripRows), u.before cursor = false := by
    simp [hafter]
  have hmap : (List.range n).map (fun i => stripAt stripRows ((k + i) % n)) =
      ((List.range n).map fun i => (k + i) % n).map (stripAt stripRows) := by
    rw [List.map_map]
    rfl
  rw [hmap, map_range_comingRound hk, List.map_append, sweepOrder, hpanel]
  simp only [List.filter_append]
  rw [List.filter_eq_nil_iff.2 fun u hu => by simp [hlow u hu], List.filter_eq_self.2 fun u hu => by simp [hhigh u hu],
    List.filter_eq_self.2 hlow, List.filter_eq_nil_iff.2 fun u hu => by simp [hhigh u hu]]
  simp

/-! ### The strips an expiry skips (R130) -/

theorem State.namesStrip_iff (s : State) (t : Strip) :
    s.namesStrip t = true ↔ (∃ o ∈ s.ring, o.op.strip = t) ∨ ∃ h, s.driver.hand = some h ∧ h.op.strip = t := by
  cases hh : s.driver.hand <;> simp [State.namesStrip, hh]

/-- The strip holds a known dot that is not recorded dead (R130). -/
def State.HoldsLiveDot (s : State) (t : Strip) : Prop :=
  ∃ p < 16, imageDot s.image t.col (16 * t.row + p) ≠ .unknown ∧ ∀ d ∈ s.dead, ¬(d.x = t.col ∧ d.y = 16 * t.row + p)

/-- What the sweep asks of a strip's known mask. -/
theorem State.holdsLiveDot_iff (s : State) (t : Strip) :
    s.HoldsLiveDot t ↔
      ((List.range 16).any fun p =>
        (imageGet s.image t).known.getLsbD p && !recorded s.dead t.col (t.rowOf p)) = true := by
  simp only [List.any_eq_true, List.mem_range, Bool.and_eq_true, Bool.not_eq_true']
  refine exists_congr fun p => and_congr_right fun hp => ?_
  rw [StripImage.known_iff, ← imageDot_rowOf s.image t hp, recorded_eq_false_iff]
  rfl

/-- A strip is skipped when an operation names it, or when it holds no known dot beside its recorded dead dots. -/
theorem State.sweepSkips_iff (s : State) (t : Strip) :
    s.sweepSkips t = true ↔
      ((∃ o ∈ s.ring, o.op.strip = t) ∨ ∃ h, s.driver.hand = some h ∧ h.op.strip = t) ∨ ¬s.HoldsLiveDot t := by
  rw [State.sweepSkips, Bool.or_eq_true, State.namesStrip_iff, Bool.not_eq_true', State.holdsLiveDot_iff,
    Bool.not_eq_true]

/-! ### What an expiry does (R128 to R131) -/

/-- With the driver HELD or the slot full the sweep does not look for work (R129). -/
theorem State.sweepLooks_blocked (h : s.driver.state = .held ∨ s.sweep.slot ≠ none) : s.sweepLooks = s :=
  if_pos (h.imp_right Option.isSome_iff_ne_none.2)

/-- With neither, the first strip that is not skipped fills the slot, if there is one (R130). -/
theorem State.sweepLooks_open (hheld : s.driver.state ≠ .held) (hslot : s.sweep.slot = none) :
    s.sweepLooks = (((sweepOrder s.settings.columns s.settings.stripRows s.sweep.cursor).find?
      fun t => !s.sweepSkips t).map s.sweepFill).getD s := by
  rw [State.sweepLooks, if_neg (by simp [hheld, hslot])]
  split
  next hnone => rw [hnone]; rfl
  next u hfound => rw [hfound]; rfl

/-- When every strip is skipped nothing is done (R130). -/
theorem State.sweepLooks_none (hheld : s.driver.state ≠ .held) (hslot : s.sweep.slot = none)
    (hall : ∀ t ∈ sweepOrder s.settings.columns s.settings.stripRows s.sweep.cursor, s.sweepSkips t = true) :
    s.sweepLooks = s := by
  rw [State.sweepLooks_open hheld hslot, List.find?_eq_none.2 fun t ht => by simp [hall t ht]]
  rfl

/-- The first strip that is not skipped fills the slot (R130, R131). -/
theorem State.sweepLooks_first {skipped rest : List Strip} (hheld : s.driver.state ≠ .held)
    (hslot : s.sweep.slot = none)
    (horder : sweepOrder s.settings.columns s.settings.stripRows s.sweep.cursor = skipped ++ t :: rest)
    (hskipped : ∀ u ∈ skipped, s.sweepSkips u = true) (ht : s.sweepSkips t = false) :
    s.sweepLooks = s.sweepFill t := by
  have hfind : (skipped ++ t :: rest).find? (fun t => !s.sweepSkips t) = some t :=
    List.find?_eq_some_iff_append.2 ⟨by simp [ht], skipped, rest, rfl, fun u hu => by simp [hskipped u hu]⟩
  rw [State.sweepLooks_open hheld hslot, horder, hfind]
  rfl

/-- A stopped timer has no expiry (R128). -/
theorem State.sweepExpires_stopped (h : s.sweep.timer = none) : s.sweepExpires = s := by
  rw [State.sweepExpires, h]

/-- An expiry of a running timer reads the interval (R128). -/
theorem State.sweepExpires_running (h : s.sweep.timer ≠ none) :
    s.sweepExpires =
      if s.settings.sweepInterval = 0 then { s with sweep := { s.sweep with timer := none } }
      else ({ s with sweep := { s.sweep with timer := some s.settings.sweepInterval } } : State).sweepLooks := by
  obtain ⟨n, hn⟩ := Option.ne_none_iff_exists'.1 h
  rw [State.sweepExpires, hn]

/-- SWEEP_EXPIRY outside reset. -/
theorem exec_sweepExpiry (hr : s.inReset = false) : exec .sweepExpiry s = .next s.sweepExpires := by
  simp [exec, execSweepExpiry, State.unlessReset, hr]

/-- Settles O55: an expiry is `State.sweepExpires_stopped` or `State.sweepExpires_running`; what it then looks at is the
sweep order by index (`sweepOrder_eq_map`), less the skipped strips (`State.sweepSkips_iff`). -/
theorem sweepExpiryFillsTheNextKnownStrip : Obligations.SweepExpiryFillsTheNextKnownStrip := by
  intro s hr timed named known order
  have hskips : ∀ u, timed.sweepSkips u = true ↔ named u ∨ ¬known u := timed.sweepSkips_iff
  rw [exec_sweepExpiry hr]
  refine ⟨fun hstopped => ?_, fun hrunning hzero => ?_, fun hrunning hnonzero => ?_⟩
  · rw [State.sweepExpires_stopped hstopped]
  · rw [State.sweepExpires_running hrunning, if_pos hzero]
  · have hlooks : s.sweepExpires = timed.sweepLooks := by rw [State.sweepExpires_running hrunning, if_neg hnonzero]
    rw [hlooks]
    refine ⟨fun hblocked => congrArg _ (State.sweepLooks_blocked hblocked), fun hheld hslot hcol hrow => ?_⟩
    have horder : sweepOrder timed.settings.columns timed.settings.stripRows timed.sweep.cursor = order :=
      sweepOrder_eq_map hcol hrow
    refine ⟨fun hall => congrArg _ ?_, fun skipped t rest hsplit hskipped hnamed hknown => congrArg _ ?_⟩
    · refine State.sweepLooks_none hheld hslot fun u hu => ?_
      exact (hskips u).2 (hall u (horder ▸ hu))
    · refine State.sweepLooks_first hheld hslot (horder.trans hsplit) (fun u hu => (hskips u).2 (hskipped u hu)) ?_
      rw [Bool.eq_false_iff, ne_eq, hskips]
      exact not_or.2 ⟨hnamed, not_not.2 hknown⟩

end Sys2Proof.Machine
end

