-- ==== Sys2Proof/Proofs/TouchRules.lean ====
section
/-!
SUPPORT. The runs of an axis as maximal sets of consecutive beams, the contact's tables with their distances written
out, and SET ZONE as a whole next state (R136 to R138, R146 to R148).
-/

-- One proof at a time: side by side, the proofs' threads reserve more memory than the check allows.
set_option Elab.async false

namespace Sys2Proof.Machine

variable {s : State} {own : Nat} {seq : Byte}

/-! ### The runs of an axis (R146) -/

/-- The beams `a` to `b` are a run: each of them is hit, and neither the beam before nor the one after is (R146). -/
def IsRun (hit : Nat → Prop) (a b : Nat) : Prop :=
  a ≤ b ∧ (∀ i, a ≤ i → i ≤ b → hit i) ∧ ¬hit (b + 1) ∧ (a = 0 ∨ ¬hit (a - 1))

/-- What `runsFrom` has seen before beam `i`: no run that reaches the beam before it, or one that began at `a`. -/
def OpenRun (hit : Nat → Prop) (i : Nat) : Option Nat → Prop
  | none => i = 0 ∨ ¬hit (i - 1)
  | some a => a < i ∧ (∀ j, a ≤ j → j < i → hit j) ∧ (a = 0 ∨ ¬hit (a - 1))

/-- The run that ends before beam `i`, if one is open there. -/
def endedRun (i : Nat) (begun : Option Nat) : List (Nat × Nat) := (begun.map fun a => (a, i - 1)).toList

theorem runsFrom_nil (i : Nat) (begun : Option Nat) : runsFrom i begun [] = endedRun i begun := by
  cases begun <;> rfl

/-- A beam that is not hit ends the open run. -/
theorem runsFrom_false (i : Nat) (begun : Option Nat) (rest : List Bool) :
    runsFrom i begun (false :: rest) = endedRun i begun ++ runsFrom (i + 1) none rest := by
  cases begun <;> rfl

/-- A beam that is hit continues the open run, or begins one. -/
theorem runsFrom_true (i : Nat) (begun : Option Nat) (rest : List Bool) :
    runsFrom i begun (true :: rest) = runsFrom (i + 1) (some (begun.getD i)) rest := by
  cases begun <;> rfl

section

variable {hit : Nat → Prop} {i a b : Nat} {begun : Option Nat}

theorem OpenRun.zero : OpenRun hit 0 none := Or.inl rfl

theorem OpenRun.succ_of_not_hit (hi : ¬hit i) : OpenRun hit (i + 1) none := Or.inr hi

theorem OpenRun.succ_of_hit (h : OpenRun hit i begun) (hi : hit i) : OpenRun hit (i + 1) (some (begun.getD i)) := by
  cases begun with
  | none =>
    refine ⟨Nat.lt_succ_self i, fun j hlo hhi => ?_, h⟩
    obtain rfl : j = i := Nat.le_antisymm (Nat.le_of_lt_succ hhi) hlo
    exact hi
  | some c =>
    obtain ⟨hlt, hall, hfirst⟩ := h
    refine ⟨Nat.lt_succ_of_lt hlt, fun j hlo hhi => ?_, hfirst⟩
    rcases Nat.lt_succ_iff_lt_or_eq.1 hhi with hj | rfl
    · exact hall j hlo hj
    · exact hi

/-- A run that does not end before a beam that is not hit begins after it. -/
theorem IsRun.lt_of_not_hit (h : IsRun hit a b) (hi : ¬hit i) (hb : i ≤ b) : i < a := by
  obtain ⟨-, hall, -⟩ := h
  exact Nat.lt_of_not_le fun ha => hi (hall i ha hb)

/-- Of two runs with the same last beam, neither begins before the other. -/
theorem IsRun.first_le {c : Nat} (h : IsRun hit a b) (h' : IsRun hit c b) : a ≤ c := by
  obtain ⟨hab, -, -, hfirst⟩ := h
  obtain ⟨-, hall, -⟩ := h'
  refine Nat.le_of_not_lt fun hlt => ?_
  rcases hfirst with rfl | hbefore
  · exact Nat.not_lt_zero c hlt
  · exact hbefore (hall (a - 1) (Nat.le_sub_one_of_lt hlt) ((Nat.sub_le a 1).trans hab))

/-- Where the next beam is not hit, the run that ends is the open one. -/
theorem mem_endedRun (h : OpenRun hit i begun) (hi : ¬hit i) :
    (a, b) ∈ endedRun i begun ↔ IsRun hit a b ∧ b + 1 = i := by
  cases begun with
  | none =>
    refine ⟨fun hmem => by simp [endedRun] at hmem, fun ⟨⟨hab, hall, _⟩, hend⟩ => ?_⟩
    subst hend
    rcases h with hzero | hbefore
    · exact absurd hzero (Nat.succ_ne_zero b)
    · exact absurd (hall b hab le_rfl) hbefore
  | some c =>
    obtain ⟨hlt, hall, hfirst⟩ := h
    obtain ⟨e, rfl⟩ := Nat.exists_eq_succ_of_ne_zero (Nat.ne_of_gt (Nat.zero_lt_of_lt hlt))
    have hrun : IsRun hit c e :=
      ⟨Nat.le_of_lt_succ hlt, fun j hlo hhi => hall j hlo (Nat.lt_succ_of_le hhi), hi, hfirst⟩
    have hmem : (a, b) ∈ endedRun e.succ (some c) ↔ a = c ∧ b = e := by simp [endedRun]
    rw [hmem]
    refine ⟨fun ⟨ha, hb⟩ => by subst ha hb; exact ⟨hrun, rfl⟩, fun ⟨hab, hend⟩ => ?_⟩
    obtain rfl : b = e := Nat.succ.inj hend
    exact ⟨Nat.le_antisymm (hab.first_le hrun) (hrun.first_le hab), rfl⟩

variable [DecidablePred hit]

/-- From beam `i` on, `runsFrom` gives the runs that end at the beam before `i` or later. -/
theorem mem_runsFrom {n : Nat} (h : OpenRun hit i begun) (hbeyond : ∀ j, i + n ≤ j → ¬hit j) :
    (a, b) ∈ runsFrom i begun ((List.range' i n).map fun j => decide (hit j)) ↔ IsRun hit a b ∧ i ≤ b + 1 := by
  induction n generalizing i begun with
  | zero =>
    rw [List.range'_zero, List.map_nil, runsFrom_nil, mem_endedRun h (hbeyond i le_rfl)]
    refine and_congr_right fun ⟨hab, hall, _⟩ => ⟨fun hend => Nat.le_of_eq hend.symm, fun hend => ?_⟩
    refine Nat.le_antisymm (Nat.le_of_not_lt fun hlt => ?_) hend
    exact hbeyond b (Nat.le_of_lt_succ hlt) (hall b hab le_rfl)
  | succ n ih =>
    have hbeyond' : ∀ j, i + 1 + n ≤ j → ¬hit j := fun j hj => hbeyond j (by omega)
    rw [List.range'_succ, List.map_cons]
    by_cases hi : hit i
    · rw [decide_eq_true hi, runsFrom_true, ih (h.succ_of_hit hi) hbeyond']
      refine and_congr_right fun ⟨_, _, hafter, _⟩ => ⟨Nat.le_of_succ_le, fun hend => ?_⟩
      exact Nat.lt_of_le_of_ne hend fun heq => hafter (heq ▸ hi)
    · rw [decide_eq_false hi, runsFrom_false, List.mem_append, mem_endedRun h hi,
        ih (OpenRun.succ_of_not_hit hi) hbeyond', ← and_or_left]
      exact and_congr_right fun _ => by omega

/-- `runsFrom` gives the runs in increasing number. -/
theorem pairwise_runsFrom {n : Nat} (h : OpenRun hit i begun) (hbeyond : ∀ j, i + n ≤ j → ¬hit j) :
    (runsFrom i begun ((List.range' i n).map fun j => decide (hit j))).Pairwise fun r q => r.2 < q.1 := by
  have hended : ∀ k o, (endedRun k o).Pairwise fun r q => r.2 < q.1 := fun k o => by cases o <;> simp [endedRun]
  induction n generalizing i begun with
  | zero =>
    rw [List.range'_zero, List.map_nil, runsFrom_nil]
    exact hended i begun
  | succ n ih =>
    have hbeyond' : ∀ j, i + 1 + n ≤ j → ¬hit j := fun j hj => hbeyond j (by omega)
    rw [List.range'_succ, List.map_cons]
    by_cases hi : hit i
    · rw [decide_eq_true hi, runsFrom_true]
      exact ih (h.succ_of_hit hi) hbeyond'
    · have hnext : OpenRun hit (i + 1) none := .succ_of_not_hit hi
      rw [decide_eq_false hi, runsFrom_false]
      refine List.pairwise_append.2 ⟨hended i begun, ih hnext hbeyond', fun r hr q hq => ?_⟩
      obtain ⟨-, hend⟩ := (mem_endedRun h hi).1 hr
      obtain ⟨hrun, hlast⟩ := (mem_runsFrom hnext hbeyond').1 hq
      have hfirst : i < q.1 := hrun.lt_of_not_hit hi (Nat.le_of_succ_le_succ hlast)
      omega

end

/-- A beam of the axis that was broken and is not blocked (R146). -/
abbrev BeamHit (number : Nat) (beams : List Beam) (broken : Nat → Bool) (i : Nat) : Prop :=
  i < number ∧ broken i = true ∧ (beams.getD i .clear).blocked = false

theorem axisRuns_eq (number : Nat) (beams : List Beam) (broken : Nat → Bool) :
    axisRuns number beams broken =
      runsFrom 0 none ((List.range' 0 number).map fun i => decide (BeamHit number beams broken i)) := by
  unfold axisRuns
  rw [List.range_eq_range']
  refine congrArg _ (List.map_congr_left fun i hi => ?_)
  have hlt : i < number := by simpa using hi
  rw [Bool.eq_iff_iff]
  simp [BeamHit, hlt]

/-- The runs of an axis are the maximal sets of consecutive beams that are hit. -/
theorem mem_axisRuns {number : Nat} {beams : List Beam} {broken : Nat → Bool} {a b : Nat} :
    (a, b) ∈ axisRuns number beams broken ↔ IsRun (BeamHit number beams broken) a b := by
  rw [axisRuns_eq, mem_runsFrom .zero fun j hj ⟨hlt, _⟩ => absurd hlt (by omega)]
  exact and_iff_left (Nat.zero_le _)

/-- More than one run on either axis is MULTIPLE (R146). -/
theorem outcomeOf_multiple {c : Settings} {xs ys : List (Nat × Nat)} (h : 1 < xs.length ∨ 1 < ys.length) :
    outcomeOf c xs ys = .multiple := by
  match xs, ys with
  | [], [] | [_], [] | [], [_] | [_], [_] => simp at h
  | _ :: _ :: _, _ | [], _ :: _ :: _ | [_], _ :: _ :: _ => rfl

/-- Settles O58: the runs are those of `mem_axisRuns`, in the order of `pairwise_runsFrom`; the outcome goes by the
table of `outcomeOf`. -/
theorem scanOutcomesFollowTheRuns : Obligations.ScanOutcomesFollowTheRuns := by
  refine ⟨fun number beams broken => ⟨?_, fun a b => mem_axisRuns⟩,
    fun c xs ys => ⟨outcomeOf_multiple, ?_, ?_, ?_⟩⟩
  · rw [axisRuns_eq]
    exact pairwise_runsFrom .zero fun j hj ⟨hlt, _⟩ => absurd hlt (by omega)
  · rintro rfl rfl
    rfl
  · rintro r (⟨rfl, rfl⟩ | ⟨rfl, rfl⟩) <;> rfl
  · rintro a b a' b' rfl rfl
    rfl

/-! ### The contact (R136 to R138) -/

/-- Two numbers differ by at least `t`. -/
abbrev Apart (t a b : Nat) : Prop := a + t ≤ b ∨ b + t ≤ a

theorem apart_iff (t a b : Nat) : Apart t a b ↔ t ≤ (a - b) + (b - a) := by
  unfold Apart
  omega

/-- Within a threshold is not one more than it apart, on both axes (R136). -/
theorem within_iff (t x y x' y' : Nat) :
    within t x y x' y' = true ↔ ¬Apart (t + 1) x x' ∧ ¬Apart (t + 1) y y' := by
  simp only [within, Bool.and_eq_true, decide_eq_true_eq, apart_iff, Nat.not_le, Nat.lt_succ_iff]

/-- Moved by a threshold is that far apart on one axis (R138). -/
theorem movedBy_iff (t x y x' y' : Nat) : movedBy t x y x' y' = true ↔ Apart t x x' ∨ Apart t y y' := by
  simp only [movedBy, Bool.or_eq_true, decide_eq_true_eq, apart_iff]

/-- Settles O60, by R136's table of contact states and outcomes: the distances are those of `within_iff` and
`movedBy_iff`. -/
theorem contactMovesByTheScanOutcome : Obligations.ContactMovesByTheScanOutcome := by
  intro s o c goes counted far moved pressed released
  have hpress : ∀ x y n, s.pressTest x y n = pressed x y n := fun x y n => rfl
  have hrelease : ∀ d n, s.releaseTest d.counted n = released d n := fun d n => rfl
  have hmove : ∀ d x y, s.moveCheck d.counted x y = moved d x y := fun d x y =>
    if_congr (and_congr_left' (movedBy_iff ..)) rfl rfl
  unfold State.contactStep
  cases s.touch.contact with
  | none =>
    cases o with
    | single x y => exact hpress x y 1
    | clear | part | multiple => rfl
  | arming x0 y0 n =>
    cases o with
    | single x y => exact if_congr (within_iff ..) (hpress x0 y0 (n + 1)) (hpress x y 1)
    | clear | part | multiple => rfl
  | down d =>
    cases o with
    | clear => exact hrelease d 1
    | single x y => exact hmove d x y
    | part | multiple => rfl
  | releasing d n =>
    cases o with
    | clear => exact hrelease d (n + 1)
    | single x y => exact hmove d x y
    | part | multiple => rfl

/-! ### SET ZONE (R147, R148) -/

/-- A SET ZONE that passes the checks of R148. -/
theorem setZoneMessage_checked {p : List Byte} (h : firstFailing (setZoneChecks s.settings p) = none) :
    setZoneMessage s p =
      if fieldNat p 1 = 1 then
        ({ s with
            zones := s.zones.set (fieldNat p 0 - 1)
              ⟨true, ⟨fieldNat p 2, fieldNat p 3, fieldNat p 4, fieldNat p 5⟩,
                (echoModeOf (fieldNat p 6)).getD .none⟩ }, okReply [])
      else if (s.zones.getD (fieldNat p 0 - 1) .undefined).defined = true then
        ({ s with zones := s.zones.set (fieldNat p 0 - 1) .undefined }, okReply [])
      else (s, plainReply .notFound) := by
  unfold setZoneChecks at h
  simp only [setZoneMessage, h, beq_iff_eq]

theorem leavesLink_setZone (p : List Byte) : LeavesLink (setZoneMessage · p) := fun s l => by
  dsimp only
  cases hc : firstFailing (setZoneChecks s.settings p) with
  | some i =>
    rw [setZoneMessage_badField hc]
    exact setZoneMessage_badField (s := { s with link := l }) hc
  | none =>
    rw [setZoneMessage_checked hc, setZoneMessage_checked (s := { s with link := l }) hc]
    dsimp only
    split_ifs <;> rfl

/-- A SET ZONE message in its two rows: `t` and `reply` are what the message makes of the unit. -/
theorem addressedFrame_setZone {p : List Byte} {t : State} {reply : Reply} (hfresh : FreshFrame s own seq)
    (hlen : p.length = 7) (hm : setZoneMessage s p = (t, reply)) :
    s.addressedFrame seq MsgKind.setZone.code p = t.replied own seq 0x40 reply :=
  addressedFrame_of_leavesLink .setZone hfresh (by simp [MsgKind.accepts, hlen]) (by decide) (leavesLink_setZone p) hm

section

variable {id x y w h : Byte}

/-- The code of an echo mode reads back (R188). -/
theorem echoModeOf_code (echo : EchoMode) :
    echoModeOf (match echo with | .none => (0 : Byte) | .press => 1 | .hold => 2).toNat = some echo := by
  cases echo <;> rfl

/-- A DEFINE whose id, rectangle and echo mode suit the panel passes the checks of R148. -/
theorem setZoneChecks_define {c : Settings} {e : Byte} (hlo : 1 ≤ id.toNat) (hhi : id.toNat ≤ 16) (hw : 1 ≤ w.toNat)
    (hx : x.toNat + w.toNat ≤ c.columns) (hh : 1 ≤ h.toNat) (hy : y.toNat + h.toNat ≤ 16 * c.stripRows)
    (he : (echoModeOf e.toNat).isSome = true) : firstFailing (setZoneChecks c [id, 1, x, y, w, h, e]) = none := by
  have hx' : x.toNat < c.columns := by omega
  have hy' : y.toNat < 16 * c.stripRows := by omega
  simp [firstFailing_none, setZoneChecks, fieldNat, field, hlo, hhi, hw, hx, hx', hh, hy, hy', he]

/-- An UNDEFINE of a zone passes the checks of R148, whatever its other fields hold. -/
theorem setZoneChecks_undefine (c : Settings) {e : Byte} (hlo : 1 ≤ id.toNat) (hhi : id.toNat ≤ 16) :
    firstFailing (setZoneChecks c [id, 0, x, y, w, h, e]) = none := by
  simp [firstFailing_none, setZoneChecks, fieldNat, field, hlo, hhi]

end

/-- Settles O34: both rows pass their checks (`setZoneChecks_define`, `setZoneChecks_undefine`), and what is left of the
message is `setZoneMessage_checked`. -/
theorem setZoneDefinesAndUndefines : Obligations.SetZoneDefinesAndUndefines := by
  intro s own seq id x y w h hfresh hlo hhi
  refine ⟨fun echo hw hx hh hy => ?_, fun e => ?_⟩
  · have hecho := Option.isSome_of_eq_some (echoModeOf_code echo)
    have hmessage := setZoneMessage_checked (setZoneChecks_define hlo hhi hw hx hh hy hecho)
    refine congrArg Host.Outcome.next (addressedFrame_setZone hfresh rfl (hmessage.trans ((if_pos rfl).trans ?_)))
    cases echo <;> rfl
  · have hmessage := setZoneMessage_checked (setZoneChecks_undefine (x := x) (y := y) (w := w) (h := h) (e := e)
      s.settings hlo hhi)
    refine congrArg Host.Outcome.next ?_
    split
    next hdef => exact addressedFrame_setZone hfresh rfl (hmessage.trans (if_pos hdef))
    next hundef => exact addressedFrame_setZone hfresh rfl (hmessage.trans (if_neg hundef))

end Sys2Proof.Machine
end

