-- ==== Sys2Proof/Proofs/ReportRules.lean ====
section
/-!
SUPPORT. The report queue by itself: what an acknowledgement removes, what an offer does, the bytes of an entry; then
COLLECT and SUBSCRIBE as whole next states (R155 to R162, R188, R192).
-/

-- One proof at a time: side by side, the proofs' threads reserve more memory than the check allows.
set_option Elab.async false

namespace Sys2Proof.Machine

variable {s : State} {own : Nat} {seq : Byte}

/-! ### Entries by number (R156, R161) -/

section

variable {entries older newer : List Entry} {e : Entry} {n : Nat}

/-- Where no two entries have one number, an entry's number is no other's. -/
theorem number_ne_of_nodup (h : ((older ++ e :: newer).map (·.number)).Nodup) :
    ∀ x ∈ older ++ newer, x.number ≠ e.number := by
  rw [List.map_append, List.map_cons, List.perm_middle.nodup_iff, List.nodup_cons, ← List.map_append] at h
  obtain ⟨hnew, -⟩ := h
  exact fun x hx heq => hnew (heq ▸ List.mem_map_of_mem hx)

/-- The queue without the entry of one number keeps the others in their order (R158). -/
theorem filter_number_ne (h : ((older ++ e :: newer).map (·.number)).Nodup) :
    ((older ++ e :: newer).filter fun x => x.number != e.number) = older ++ newer := by
  have hother : ∀ x ∈ older ++ newer, (x.number != e.number) = true := fun x hx =>
    bne_iff_ne.2 (number_ne_of_nodup h x hx)
  rw [List.filter_append, List.filter_cons_of_neg (by simp), ← List.filter_append, List.filter_eq_self.2 hother]

/-- 0 and a number that no entry has acknowledge nothing (R161). -/
theorem acknowledge_unnamed (h : n = 0 ∨ ∀ x ∈ entries, x.number ≠ n) : acknowledge entries n = entries := by
  refine if_neg fun ⟨hn, hmem⟩ => ?_
  obtain ⟨x, hx, rfl⟩ := List.mem_map.1 (List.contains_iff_mem.1 hmem)
  exact h.elim hn fun hall => hall x hx rfl

/-- The number of an entry acknowledges that entry and every older one (R161). -/
theorem acknowledge_named (h : ((older ++ e :: newer).map (·.number)).Nodup) (hzero : e.number ≠ 0) :
    acknowledge (older ++ e :: newer) e.number = newer := by
  have holder : ∀ x ∈ older, (x.number != e.number) = true := fun x hx =>
    bne_iff_ne.2 (number_ne_of_nodup h x (List.mem_append_left _ hx))
  have hmem : ((older ++ e :: newer).map (·.number)).contains e.number = true := by simp
  rw [acknowledge, if_pos ⟨hzero, hmem⟩, List.dropWhile_append_of_pos holder, List.dropWhile_cons_of_neg (by simp)]
  rfl

end

/-! ### The bytes of an entry (R188, R192) -/

/-- The flags of a COMPLETION report: clipped at bit 0, missing glyph at bit 1, dots struck at bit 2. -/
theorem completionFlags_eq (clipped missing struck : Bool) :
    completionFlags clipped missing struck =
      byte ((if clipped then 1 else 0) + (if missing then 2 else 0) + (if struck then 4 else 0)) := by
  cases clipped <;> cases missing <;> cases struck <;> rfl

theorem LeaveOutcome.failCause_eq (o : LeaveOutcome) : o.failCause = if o = .failed then 1 else 0 := by
  cases o <;> rfl

theorem SenseSource.code_eq (source : SenseSource) : source.code = if source = .request then 0 else 1 := by
  cases source <;> rfl

theorem Axis.code_eq (axis : Axis) : axis.code = if axis = .x then 0 else 1 := by cases axis <;> rfl

theorem Phase.code_eq (phase : Phase) : phase.code = if phase = .set then 0 else 1 := by cases phase <;> rfl

/-! ### What an offer does (R157, R158, R160) -/

section

variable {q : ReportQueue} {r : Report}

/-- A report of a class outside the subscription changes nothing (R160). -/
theorem ReportQueue.offer_unsubscribed (h : q.subscribed r.cls = false) : q.offer r = q := by
  simp [ReportQueue.offer, h]

/-- A subscribed report that replaces an entry joins the queue without it (R158). -/
theorem ReportQueue.offer_replacing {n : Nat} (h : q.subscribed r.cls = true) (hn : q.replaced r = some n) :
    q.offer r = { q with entries := q.entries.filter fun e => e.number != n }.join r := by
  simp [ReportQueue.offer, h, hn]

/-- A subscribed report that replaces nothing joins while there is room, and is lost otherwise (R157). -/
theorem ReportQueue.offer_not_replacing (h : q.subscribed r.cls = true) (hn : q.replaced r = none) :
    q.offer r = if q.entries.length < Config.reportSize then q.join r else { q with lost := true } := by
  simp [ReportQueue.offer, h, hn]

/-- A MOVE replaces the entry that the coalescing reference names (R158). -/
theorem ReportQueue.replaced_named {e : Entry} (hmove : r.isMove = true) (href : q.coalesce = some e.number)
    (he : e ∈ q.entries) : q.replaced r = some e.number := by
  have hmem : q.numbers.contains e.number = true := List.contains_iff_mem.2 (List.mem_map_of_mem he)
  rw [ReportQueue.replaced, if_pos hmove, href, Option.filter_some, if_pos hmem]

/-- Without a coalescing reference, and for a report that is no MOVE, nothing is replaced (R158). -/
theorem ReportQueue.replaced_none (h : r.isMove = false ∨ q.coalesce = none) : q.replaced r = none := by
  rcases h with hmove | href
  · simp [ReportQueue.replaced, hmove]
  · simp [ReportQueue.replaced, href]

/-- The number a report takes beside some of a sound queue's entries is a counter's number that none of these has
(R156). -/
theorem freeNumber_beside (hsound : ReportsSound q) {kept : List Entry} (hkept : kept.length ≤ q.entries.length) :
    freeNumber (kept.map (·.number)) q.counter ∉ kept.map (·.number) ∧
      InCount (freeNumber (kept.map (·.number)) q.counter) := by
  obtain ⟨hlen, -, -, hcounter, -⟩ := hsound
  have hfew : kept.length ≤ 32 := hkept.trans hlen
  exact ⟨freeNumber_fresh hcounter (by rw [List.length_map]; omega), inCount_freeNumber _ hcounter⟩

end

/-- Settles O37, by what the report replaces (`ReportQueue.replaced_named`, `ReportQueue.replaced_none`); its number is
that of `freeNumber_beside`. -/
theorem offeredReportsJoinReplaceOrAreLost : Obligations.OfferedReportsJoinReplaceOrAreLost := by
  intro q r hsound hsub
  refine ⟨fun pre old post hmove href hsplit => ?_, fun hnone hroom => ?_, fun hnone hfull => ?_⟩
  · obtain ⟨hfresh, hcount⟩ := freeNumber_beside hsound (kept := pre ++ post) (by simp [hsplit])
    refine ⟨hfresh, hcount, ?_⟩
    obtain ⟨-, hnodup, -⟩ := hsound
    rw [ReportQueue.numbers, hsplit] at hnodup
    rw [ReportQueue.offer_replacing hsub (ReportQueue.replaced_named hmove href (by simp [hsplit])), hsplit,
      filter_number_ne hnodup, ReportQueue.join, if_pos hmove]
    rfl
  · obtain ⟨hfresh, hcount⟩ := freeNumber_beside hsound le_rfl
    exact ⟨hfresh, hcount,
      (ReportQueue.offer_not_replacing hsub (ReportQueue.replaced_none hnone)).trans (if_pos hroom)⟩
  · exact (ReportQueue.offer_not_replacing hsub (ReportQueue.replaced_none hnone)).trans (if_neg hfull.not_lt)

/-! ### SUBSCRIBE (R160) -/

theorem leavesLink_subscribe (p : List Byte) : LeavesLink (subscribeMessage · p) := fun s l => by
  dsimp only [subscribeMessage]
  split <;> rfl

/-- A SUBSCRIBE frame: `t` and `reply` are what the message makes of the unit. -/
theorem exec_subscribe {mask : Byte} {t : State} {reply : Reply} (hfresh : FreshFrame s own seq)
    (hm : subscribeMessage s [mask] = (t, reply)) :
    exec (.subscribe seq [mask]) s = .next (t.replied own seq 0x49 reply) :=
  congrArg Host.Outcome.next
    (addressedFrame_of_leavesLink .subscribe hfresh rfl (by decide) (leavesLink_subscribe _) hm)

/-- The subscription that a mask gives holds class code c when bit c - 1 of the mask is set (R160, R188). -/
theorem ReportQueue.subscribed_setWidth {q : ReportQueue} {mask : Byte} (h : q.subscription = mask.setWidth 5)
    (c : ReportClass) : q.subscribed c = mask.getLsbD (c.code - 1) := by
  have hcode : c.code - 1 < 5 := by cases c <;> decide
  rw [ReportQueue.subscribed, h, BitVec.getLsbD_setWidth, decide_eq_true hcode, Bool.true_and]

/-- Settles O36, by the two cases of SUBSCRIBE (`exec_subscribe`); an offer outside the subscription is
`ReportQueue.offer_unsubscribed`. -/
theorem subscribeReplacesTheSubscription : Obligations.SubscribeReplacesTheSubscription := by
  intro s own seq mask hfresh
  refine ⟨fun hmask => ?_, fun hmask => exec_subscribe hfresh (if_pos hmask)⟩
  refine ⟨{ s.reports with subscription := mask.setWidth 5 }, exec_subscribe hfresh (if_neg hmask.not_ge), rfl,
    fun r => ⟨?_, ReportQueue.offer_unsubscribed⟩⟩
  rw [ReportQueue.subscribed_setWidth rfl]
  cases r <;> rfl

/-! ### COLLECT (R161, R162) -/

theorem leavesLink_collect (p : List Byte) : LeavesLink (collectMessage · p) := fun _ _ => rfl

/-- A COLLECT of a number, from the entries that its acknowledgement leaves. -/
theorem exec_collect {n : Nat} {left : List Entry} (hfresh : FreshFrame s own seq) (hn : n < 65536)
    (hleft : acknowledge s.reports.entries n = left) :
    exec (.collect seq [byte n, byte (n / 256)]) s =
      .next (State.replied { s with reports := s.reports.collect n } own seq 0x48
        (okReply ([boolByte s.reports.lost, byte left.length, byte (left.take 8).length] ++
          (left.take 8).flatMap Entry.bytes))) := by
  have hfield : field16 [byte n, byte (n / 256)] 0 = n := le16_bytes hn
  refine congrArg Host.Outcome.next
    (addressedFrame_of_leavesLink .collect hfresh rfl (by decide) (leavesLink_collect _) ?_)
  simp only [ownerCarriesOut, collectMessage, hfield, hleft, Config.collectMax]

/-- The queue after a COLLECT, from the entries that the acknowledgement leaves. -/
theorem ReportQueue.collect_eq {q : ReportQueue} {n : Nat} {left : List Entry}
    (hleft : acknowledge q.entries n = left) :
    q.collect n =
      { q with
        entries := (left.take 8).map (fun e => { e with sent := true }) ++ left.drop 8
        lost := false
        coalesce := q.coalesce.filter fun m => decide (∃ e ∈ left.drop 8, e.number = m) } := by
  have hlater : ∀ m : Nat, ((left.drop 8).map (·.number)).contains m = decide (∃ e ∈ left.drop 8, e.number = m) :=
    fun m => by rw [Bool.eq_iff_iff, List.contains_iff_mem, List.mem_map, decide_eq_true_iff]
  simp only [ReportQueue.collect, hleft, Config.collectMax, hlater]

/-- Settles O35: what is left is `acknowledge_unnamed` when nothing is gone and `acknowledge_named` otherwise; the bytes
of an entry go by R192's table of records. -/
theorem collectRemovesThenCarries : Obligations.CollectRemovesThenCarries := by
  intro s own seq n gone left hfresh hn hnodup hsplit hgone yes layout
  have hleft : acknowledge s.reports.entries n = left := by
    rw [ReportQueue.numbers, hsplit] at hnodup
    rw [hsplit]
    rcases gone.eq_nil_or_concat with rfl | ⟨older, e, rfl⟩
    · exact acknowledge_unnamed hgone
    · rw [List.concat_eq_append, List.getLast?_concat] at hgone
      rw [List.concat_eq_append, List.append_assoc] at hnodup ⊢
      obtain ⟨rfl, hzero⟩ := hgone
      exact acknowledge_named hnodup hzero
  have hlayout : ∀ e : Entry, e.bytes = layout e := fun ⟨m, r, sent⟩ => by
    cases r with
    | completion tag o generated items clipped missing struck =>
      simp only [Entry.bytes, Report.record, completionFlags_eq, LeaveOutcome.failCause_eq]
      rfl
    | dot x y source rec =>
      simp only [Entry.bytes, Report.record, SenseSource.code_eq]
      rfl
    | beam axis number blocked =>
      simp only [Entry.bytes, Report.record, Axis.code_eq]
      rfl
    | driver t phase =>
      simp only [Entry.bytes, Report.record, Phase.code_eq]
      rfl
    | press | move | release => rfl
  rw [exec_collect hfresh hn hleft, ReportQueue.collect_eq hleft, show Entry.bytes = layout from funext hlayout]
  rfl

end Sys2Proof.Machine
end

