-- ==== Sys2Proof/Proofs/BusLink.lean ====
section
/-!
SUPPORT. The characters of a frame as one event: what the receiver does with a body byte, escaped or not, and what a
complete body comes to; then frames that are dropped, answered from the cache or refused by the link, and the events that
move receiver and transmitter (R166 to R176, R189, R190).
-/

-- One proof at a time: side by side, the proofs' threads reserve more memory than the check allows.
set_option Elab.async false

namespace Sys2Proof.Machine

variable {s : State} {own : Nat} {seq kind : Byte} {p body bytes : List Byte} {crc : BitVec 16}

/-! ### A listening unit (R167, R187) -/

theorem State.listening_iff : s.listening = true ↔ s.inReset = false ∧ s.isSending = false := by
  simp [State.listening]

theorem execAll_append {cs ds : List Instr} {t : State} (h : execAll cs s = .next t) :
    execAll (cs ++ ds) s = execAll ds t := by
  induction cs generalizing s with
  | nil => cases h; rfl
  | cons c cs ih =>
    simp only [List.cons_append, execAll] at h ⊢
    split at h
    next u hc => exact ih h
    next hc => exact absurd h (hc t)

/-- A character with a good stop bit, in a unit that listens (R171). -/
theorem exec_character (h : s.listening = true) (b : Byte) :
    exec (.characterReceived b true) s = .next (s.receive (some b)) :=
  congrArg Host.Outcome.next (if_pos h)

/-- A START begins a new frame in every receiver state (R171). -/
theorem State.receive_start (s : State) : s.receive (some Config.startByte) = s.newFrame := by
  cases hrx : s.link.rx with
  | hunt | body | escape => simp only [State.receive, hrx, if_true]

/-- In BODY a character that is neither START nor ESC is a body byte (R171). -/
theorem State.receive_body (hrx : s.link.rx = .body bytes crc) {b : Byte} (hstart : b ≠ Config.startByte)
    (hesc : b ≠ Config.escByte) : s.receive (some b) = s.bodyByte bytes crc b := by
  simp only [State.receive, hrx, if_neg hstart, if_neg hesc]

/-- In BODY an ESC enters ESCAPE (R171). -/
theorem State.receive_esc (hrx : s.link.rx = .body bytes crc) :
    s.receive (some Config.escByte) = s.setRx (.escape bytes crc) := by
  have hne : Config.escByte ≠ Config.startByte := by decide
  simp only [State.receive, hrx, if_neg hne, if_true]

/-- A byte exclusive-ored twice with the escape mask is that byte. -/
theorem escMask_twice (b : Byte) : b ^^^ Config.escMask ^^^ Config.escMask = b := by
  rw [BitVec.xor_assoc, BitVec.xor_self, BitVec.xor_zero]

/-- In ESCAPE a character that is not START is taken as the byte it stands for (R169, R171). -/
theorem State.receive_escaped (hrx : s.link.rx = .escape bytes crc) {b : Byte}
    (hstart : b ^^^ Config.escMask ≠ Config.startByte) :
    s.receive (some (b ^^^ Config.escMask)) = s.bodyByte bytes crc b := by
  simp only [State.receive, hrx, if_neg hstart, escMask_twice]

/-- A body byte is handled by the bytes before it alone: every way it can go writes the receiver anew. -/
theorem State.bodyByte_setRx (rx : Receiver) (b : Byte) :
    (s.setRx rx).bodyByte bytes crc b = s.bodyByte bytes crc b := by
  unfold State.bodyByte
  rfl

/-- The one or two characters of a body byte have it taken (R169, R171). -/
theorem execAll_escapeByte (h : s.listening = true) (hrx : s.link.rx = .body bytes crc) (b : Byte) :
    execAll (asCharacters (escapeByte b)) s = .next (s.bodyByte bytes crc b) := by
  unfold escapeByte
  split
  next hb =>
    have hstart : b ^^^ Config.escMask ≠ Config.startByte := by rcases hb with rfl | rfl <;> decide
    have h' : (s.setRx (.escape bytes crc)).listening = true := h
    have hrx' : (s.setRx (.escape bytes crc)).link.rx = .escape bytes crc := rfl
    simp only [asCharacters, List.map_cons, List.map_nil, execAll, exec_character h, State.receive_esc hrx,
      exec_character h', State.receive_escaped hrx' hstart, State.bodyByte_setRx]
  next hb =>
    obtain ⟨hstart, hesc⟩ := not_or.1 hb
    simp only [asCharacters, List.map_cons, List.map_nil, execAll, exec_character h,
      State.receive_body hrx hstart hesc]

/-! ### A whole body (R168, R170) -/

theorem bodyComplete_iff : bodyComplete body = true ↔
    ∃ len, body[4]? = some len ∧ len.toNat ≤ 200 ∧ body.length = 7 + len.toNat := by
  unfold bodyComplete
  split
  next len h =>
    simp only [h, Option.some.injEq, exists_eq_left', Bool.and_eq_true, decide_eq_true_eq, beq_iff_eq]
    exact Iff.rfl
  next h => simp [h]

/-- The CRC register after one more byte. -/
theorem crc16_concat (bytes : List Byte) (b : Byte) : crc16 (bytes ++ [b]) = crcByte (crc16 bytes) b := by
  simp only [crc16, List.foldl_append, List.foldl_cons, List.foldl_nil]

/-- The CRC register takes a byte that comes before the two CRC bytes, and no other (R170). -/
theorem crc16_take_concat (bytes : List Byte) (b : Byte) (n : Nat) :
    crc16 ((bytes ++ [b]).take n) =
      if bytes.length < n then crcByte (crc16 (bytes.take n)) b else crc16 (bytes.take n) := by
  split
  next h => rw [List.take_of_length_le (by simp; omega), List.take_of_length_le h.le, crc16_concat]
  next h => rw [List.take_append_of_le_length (Nat.le_of_not_lt h)]

/-- One byte of a complete body, `rest` being what follows it: the last one completes the body, any other is counted and
entered into the CRC register, which stops before the two CRC bytes (R168, R171). -/
theorem State.bodyByte_of_complete {b : Byte} {rest : List Byte} (hbody : bodyComplete body = true)
    (hsplit : bytes ++ b :: rest = body) :
    s.bodyByte bytes (crc16 (bytes.take (body.length - 2))) b =
      if rest = [] then s.bodyArrives body (crc16 (body.take (body.length - 2)))
      else s.setRx (.body (bytes ++ [b]) (crc16 ((bytes ++ [b]).take (body.length - 2)))) := by
  obtain ⟨len, hlen, hmax, htotal⟩ := bodyComplete_iff.1 hbody
  have hcount : bytes.length + 1 + rest.length = body.length := by rw [← hsplit]; simp; omega
  have hwhole : (bytes ++ [b]) ++ rest = body := by rw [← hsplit]; simp
  have hcrc : 5 + len.toNat = body.length - 2 := by omega
  have hlast : bytes.length + 1 = 7 + len.toNat ↔ rest = [] := by
    rw [← List.length_eq_zero_iff]; omega
  rw [crc16_take_concat bytes b]
  unfold State.bodyByte
  dsimp only
  split
  next hshort =>
    have hfew : bytes.length < 4 := by simpa using hshort
    rw [if_neg (fun h => by rw [← hlast] at h; omega), if_pos (show bytes.length < body.length - 2 by omega)]
  next len' hlen' =>
    have heq : len' = len := by
      rw [← hwhole, List.getElem?_append_left (List.getElem?_eq_some_iff.1 hlen').1, hlen'] at hlen
      exact Option.some.inj hlen
    subst heq
    rw [if_neg (show ¬Config.payloadMax < len'.toNat from Nat.not_lt.2 hmax), hcrc]
    simp only [List.length_append, List.length_singleton, hlast]
    split
    next hnil =>
      have hall : bytes ++ [b] = body := by rw [← hsplit, hnil]
      rw [← crc16_take_concat, hall]
    next => rfl

/-- The characters of what is left of a complete body make it arrive (R168, R171). -/
theorem execAll_restOfBody (hbody : bodyComplete body = true) (rest : List Byte) (hne : rest ≠ [])
    (hsplit : bytes ++ rest = body) (h : s.listening = true)
    (hrx : s.link.rx = .body bytes (crc16 (bytes.take (body.length - 2)))) :
    execAll (asCharacters (rest.flatMap escapeByte)) s =
      .next (s.bodyArrives body (crc16 (body.take (body.length - 2)))) := by
  induction rest generalizing s bytes with
  | nil => exact absurd rfl hne
  | cons b rest ih =>
    have hfirst := execAll_escapeByte h hrx b
    rw [State.bodyByte_of_complete hbody hsplit] at hfirst
    rw [List.flatMap_cons, asCharacters, List.map_append]
    refine (execAll_append hfirst).trans ?_
    split
    next hnil => subst hnil; rfl
    next hmore => exact ih hmore (by rw [← hsplit]; simp) h rfl

/-- A complete body, received character by character in whatever state the receiver is, arrives in the event of its last
character (R168, R169, R171). -/
theorem execAll_lineChars (hbody : bodyComplete body = true) (h : s.listening = true) :
    execAll (asCharacters (lineChars body)) s =
      .next (s.bodyArrives body (crc16 (body.take (body.length - 2)))) := by
  have hne : body ≠ [] := by rintro rfl; cases hbody
  have hstart : execAll (asCharacters [Config.startByte]) s = .next s.newFrame := by
    simp only [asCharacters, List.map_cons, List.map_nil, execAll, exec_character h, State.receive_start]
  rw [lineChars, ← List.singleton_append, asCharacters, List.map_append]
  exact (execAll_append hstart).trans
    (execAll_restOfBody (s := s.newFrame) (bytes := []) hbody body hne rfl h (by rw [List.take_nil]; rfl))

/-! ### The body's layout (R170, R189) -/

theorem bodyComplete_frameBody (dest src seq kind : Byte) (hp : p.length ≤ 200) :
    bodyComplete (frameBody dest src seq kind p) = true := by
  have hlen : (byte p.length).toNat = p.length := by rw [byte_toNat]; omega
  refine bodyComplete_iff.2 ⟨byte p.length, rfl, hlen.trans_le hp, ?_⟩
  simp only [frameBody, frameHead, crcBytes, List.length_append, List.length_cons, List.length_nil, hlen]
  omega

/-- A body with its own CRC arrives as the frame whose fields it carries (R172, R189). -/
theorem State.bodyArrives_frameBody (dest src seq kind : Byte) (p : List Byte) :
    s.bodyArrives (frameBody dest src seq kind p)
        (crc16 ((frameBody dest src seq kind p).take ((frameBody dest src seq kind p).length - 2))) =
      s.frameArrives true dest src seq kind p := by
  have hhead : (frameBody dest src seq kind p).length - 2 = (frameHead dest src seq kind p).length := by
    simp [frameBody, crcBytes]
  have hpayload : (frameBody dest src seq kind p).length - 7 = p.length := by
    simp [frameBody, frameHead, crcBytes]
  have htake : (frameBody dest src seq kind p).take (frameHead dest src seq kind p).length =
      frameHead dest src seq kind p := List.take_left
  have hdrop : (frameBody dest src seq kind p).drop (frameHead dest src seq kind p).length =
      crcBytes (crc16 (frameHead dest src seq kind p)) := List.drop_left
  have hfield : ((frameBody dest src seq kind p).drop 5).take p.length = p := List.take_left
  rw [State.bodyArrives, hhead, hpayload, htake, hdrop, hfield, beq_self_eq_true]
  rfl

/-- The CRC as R170 words it: over the data bits, by the bit shifted out. -/
theorem crc16_eq (bytes : List Byte) :
    crc16 bytes = (bytes.flatMap fun b => [7, 6, 5, 4, 3, 2, 1, 0].map fun i => b.getLsbD i).foldl
      (fun (r : BitVec 16) d => if r.getLsbD 15 = d then r <<< 1 else (r <<< 1) ^^^ 0x1021) 0xFFFF := by
  rw [crc16_bits, show crcBit = _ from funext fun r => funext fun d => crcBit_eq r d]
  rfl

/-- The two CRC bytes are the register's quotient and remainder by 256 (R170). -/
theorem crcBytes_eq (c : BitVec 16) : crcBytes c = [byte (c.toNat / 256), byte c.toNat] := by
  simp only [crcBytes, BitVec.extractLsb', byte, Nat.shiftRight_eq_div_pow]
  rw [Nat.pow_zero, Nat.div_one]

/-! ### Frames as events (R172 to R175) -/

/-- A message row does what its frame does, addressed or broadcast (R172, R173). -/
theorem exec_frameOf {i : Instr} {f : HostFrame} (h : frameOf i = some f) :
    exec i s = .next (if f.broadcast then s.broadcastFrame f.seq f.kind f.payload
      else s.addressedFrame f.seq f.kind f.payload) := by
  cases i <;> cases h <;> rfl

theorem exec_addressed {i : Instr} {f : HostFrame} (h : frameOf i = some f) (ha : f.broadcast = false) :
    exec i s = .next (s.addressedFrame f.seq f.kind f.payload) := by
  rw [exec_frameOf h, if_neg (by simp [ha])]

/-- An addressed frame in a unit that listens passes the frame checks (R172). -/
theorem addressedFrame_arrives (h : s.listening = true) (ho : s.link.ownAddress = some own) (hp : p.length ≤ 200) :
    s.addressedFrame seq kind p = s.frameArrives true (byte own) 0 seq kind p := by
  simp only [State.addressedFrame, h, ho, if_neg (Nat.not_lt.2 hp : ¬Config.payloadMax < p.length), reduceCtorEq,
    if_false]

/-- A broadcast frame in a unit that listens passes the frame checks (R172, R173). -/
theorem broadcastFrame_arrives (h : s.listening = true) (hp : p.length ≤ 200) :
    s.broadcastFrame seq kind p = s.frameArrives true Config.broadcastAddress 0 seq kind p := by
  simp only [State.broadcastFrame, h, if_neg (Nat.not_lt.2 hp : ¬Config.payloadMax < p.length), reduceCtorEq, if_false]

/-- An addressed frame in a unit that listens goes to the reply cache (R174). -/
theorem addressedFrame_taken (h : s.listening = true) (ho : s.link.ownAddress = some own) (hp : p.length ≤ 200) :
    s.addressedFrame seq kind p = (s.setRx .hunt).takeAddressed own seq kind p := by
  obtain ⟨hown, hother⟩ := Link.ownAddress_byte ho
  have ho' : (s.setRx .hunt).link.ownAddress = some own := ho
  rw [addressedFrame_arrives h ho hp]
  simp only [State.frameArrives, reduceCtorEq, ne_eq, not_true_eq_false, if_false, if_neg hother, ho', hown, if_true]

/-- A frame that the link does not hear (R167, R187). -/
theorem addressedFrame_unheard (h : s.listening = false) : s.addressedFrame seq kind p = s := if_pos h

/-- Settles O7: the characters make the body arrive, the body carries the frame's fields, and the row's command is that
frame's arrival. -/
theorem wireFramesRunTheirCommand : Obligations.WireFramesRunTheirCommand := by
  unfold Obligations.WireFramesRunTheirCommand
  intro crc whole line
  have hcrc : ∀ bs, crc bs = crc16 bs := fun bs => (crc16_eq bs).symm
  have hwhole : ∀ head, whole head = head ++ crcBytes (crc16 head) := fun head => by
    rw [crcBytes_eq, ← hcrc]
  refine ⟨fun i f s own hf hp hr hs ho => ?_, fun s own seq kind reply => ?_⟩
  · have h : s.listening = true := State.listening_iff.2 ⟨hr, hs⟩
    have hline : ∀ dest : Byte,
        execAll (asCharacters (line (whole ([dest, 0, f.seq, f.kind, byte f.payload.length] ++ f.payload)))) s =
          .next (s.frameArrives true dest 0 f.seq f.kind f.payload) := fun dest => by
      rw [hwhole, ← State.bodyArrives_frameBody]
      exact execAll_lineChars (bodyComplete_frameBody dest 0 f.seq f.kind hp) h
    rw [hline, exec_frameOf hf]
    cases hb : f.broadcast with
    | true => exact congrArg Host.Outcome.next (broadcastFrame_arrives h hp).symm
    | false => exact congrArg Host.Outcome.next (addressedFrame_arrives h (ho hb) hp).symm
  · intro body
    have hbody : body = replyBody own seq kind reply := hwhole _
    rw [hbody]
    rfl

/-! ### Frames that change nothing (R172, R173, R176) -/

/-- A broadcast that is not acted on (R173). -/
theorem State.takeBroadcast_ignored (hrestart : msgKindOf kind = some .restart → ¬p.isEmpty)
    (hcancel : msgKindOf kind = some .cancel → ¬(p.length = 2 ∧ field16 p 0 = 0)) : s.takeBroadcast kind p = s := by
  unfold State.takeBroadcast
  split
  next hk => exact if_neg (hrestart hk)
  next hk => exact if_neg (hcancel hk)
  next => rfl

/-- An addressed frame during TURNAROUND is dropped (R176). -/
theorem State.takeAddressed_turnaround (h : s.inTurnaround = true) : s.takeAddressed own seq kind p = s := if_pos h

/-- A body that the frame checks drop leaves the receiver in HUNT and nothing else changed (R172, R173, R176). -/
theorem State.bodyArrives_dropped (h : s.dropsFrame body = true) :
    s.bodyArrives body (crc16 (body.take (body.length - 2))) = s.setRx .hunt := by
  simp only [State.dropsFrame, Bool.or_eq_true, bne_iff_ne] at h
  unfold State.bodyArrives State.frameArrives
  dsimp only
  split
  · rfl
  next hcrc =>
    split
    · rfl
    next hsrc =>
      have hcrc' : body.drop (body.length - 2) = crcBytes (crc16 (body.take (body.length - 2))) := by
        simpa using hcrc
      have hdest := h.resolve_left fun hbad => hbad.elim (· hcrc') hsrc
      split
      next hb =>
        rw [if_pos hb, Bool.not_eq_true'] at hdest
        refine State.takeBroadcast_ignored (fun hk => ?_) fun hk => ?_
        · rw [hk] at hdest
          exact ne_true_of_eq_false hdest
        · rw [hk] at hdest
          exact of_decide_eq_false hdest
      next hb =>
        rw [if_neg hb] at hdest
        split
        next own ho =>
          split
          next hown =>
            have ho' : s.link.ownAddress = some own := ho
            have hturn : s.inTurnaround = true := by simpa [ho', hown] using hdest
            exact State.takeAddressed_turnaround (s := s.setRx .hunt) hturn
          next => rfl
        next => rfl

/-- Settles O8: the characters make the body arrive, and the checks that FRAME_DROPPED makes are those of its arrival. -/
theorem wireDroppedFramesChangeNothing : Obligations.WireDroppedFramesChangeNothing := by
  intro body s hbody hr hs hdrop
  have h : s.listening = true := State.listening_iff.2 ⟨hr, hs⟩
  refine ⟨?_, congrArg Host.Outcome.next (if_pos (by rw [h, hdrop]; rfl))⟩
  rw [execAll_lineChars hbody h, State.bodyArrives_dropped hdrop]
  rfl

/-! ### Frames that are not carried out (R167, R174, R176, R187) -/

/-- With the cached sequence the saved reply is sent again (R174). -/
theorem State.takeAddressed_cached {saved : List Byte} (ht : s.inTurnaround = false)
    (hc : s.link.cache = some (seq, saved)) : s.takeAddressed own seq kind p = s.answer saved false := by
  simp only [State.takeAddressed, ht, hc, reduceCtorEq, if_false, if_true]

/-- Settles O9: a heard frame goes to the cache or is dropped in TURNAROUND, and the others are not heard. -/
theorem framesThatAreNotCarriedOut : Obligations.FramesThatAreNotCarriedOut := by
  intro i f s own hf ha hp ho
  rw [exec_addressed hf ha]
  refine ⟨fun saved hr htx hc => ?_, fun reply r hr htx => ?_, fun h => ?_⟩
  · have h : s.listening = true := State.listening_iff.2 ⟨hr, by simp [State.isSending, htx]⟩
    have ht : (s.setRx .hunt).inTurnaround = false := by simp [State.inTurnaround, htx]
    rw [addressedFrame_taken h ho hp, State.takeAddressed_cached ht hc]
    rfl
  · have h : s.listening = true := State.listening_iff.2 ⟨hr, by simp [State.isSending, htx]⟩
    have ht : (s.setRx .hunt).inTurnaround = true := by simp [State.inTurnaround, htx]
    rw [addressedFrame_taken h ho hp, State.takeAddressed_turnaround ht]
    rfl
  · have h : s.listening = false := by
      rcases h with hr | ⟨reply, r, htx⟩
      · exact State.listening_reset hr
      · simp [State.listening, State.isSending, htx]
    rw [addressedFrame_unheard h]

/-! ### Kinds and lengths (R175, R190) -/

/-- The codes of the table are the kinds' codes (R190). -/
theorem messageCodes_eq : messageCodes = MsgKind.all.map MsgKind.code := rfl

theorem msgKindOf_eq_none (h : kind ∉ messageCodes) : msgKindOf kind = none := by
  rw [msgKindOf, List.find?_eq_none]
  rintro k hk hcode
  exact h (messageCodes_eq ▸ List.mem_map.2 ⟨k, hk, eq_of_beq hcode⟩)

/-- The length table of R190, read by kind and by code, is one table. -/
theorem lengthAccepted_code (k : MsgKind) (n : Nat) : lengthAccepted k.code n = k.accepts n := by
  rw [Bool.eq_iff_iff]
  cases k <;> simp [lengthAccepted, MsgKind.code, MsgKind.accepts, and_assoc]

/-- A fresh frame that the link itself refuses: the code of the result is answered and nothing else changes (R175). -/
theorem addressedFrame_refused {r : Result} (h : FreshFrame s own seq) (hp : p.length ≤ 200)
    (hc : carryOut kind (s.setRx .hunt) p = (s.setRx .hunt, plainReply r)) (hr : leavesRestart kind p = false) :
    s.addressedFrame seq kind p = s.replied own seq kind [r.code] := by
  rw [addressedFrame_carried kind p _ _ h hp hc rfl, hr]
  rfl

/-- Settles O10: the kind is looked up, then its length, and neither refusal reaches an owner. -/
theorem unknownKindAndBadLength : Obligations.UnknownKindAndBadLength := by
  intro s own i f hf ha hp hfresh
  rw [exec_addressed hf ha]
  refine ⟨fun hkind => ?_, fun hkind hlen => ?_⟩
  · have hnone := msgKindOf_eq_none hkind
    exact congrArg Host.Outcome.next (addressedFrame_refused (r := .unknownKind) hfresh hp
      (by simp only [carryOut, hnone]) (by simp [leavesRestart, hnone]))
  · obtain ⟨k, -, hcode⟩ := List.mem_map.1 (messageCodes_eq ▸ hkind)
    rw [← hcode, lengthAccepted_code] at hlen
    rw [← hcode]
    have hrestart : leavesRestart k.code f.payload = false := by
      rw [leavesRestart_kind]
      cases k with
      | restart => simpa [MsgKind.accepts, List.isEmpty_iff] using hlen
      | _ => rfl
    exact congrArg Host.Outcome.next (addressedFrame_refused (r := .badLength) hfresh hp
      (by simp [carryOut, msgKindOf_code, hlen]) hrestart)

/-! ### Receiver and transmitter (R166, R167, R171) -/

/-- In HUNT any character but START is ignored (R171). -/
theorem State.receive_hunt (hrx : s.link.rx = .hunt) {b : Byte} (hb : b ≠ Config.startByte) :
    s.receive (some b) = s := by
  simp only [State.receive, hrx, if_neg hb]

/-- Putting the receiver in the state it is in changes nothing. -/
theorem State.setRx_self {rx : Receiver} (hrx : s.link.rx = rx) : s.setRx rx = s := by
  subst hrx
  rfl

/-- A framing error leaves the receiver in HUNT (R171). -/
theorem State.receive_framingError (s : State) : s.receive none = s.setRx .hunt := by
  cases hrx : s.link.rx with
  | hunt =>
    rw [State.setRx_self hrx]
    simp only [State.receive, hrx]
  | body | escape => simp only [State.receive, hrx]

/-- A payload length above 200 drops the frame (R168). -/
theorem State.bodyByte_overlong (hfour : bytes.length = 4) {b : Byte} (hb : 200 < b.toNat) :
    s.bodyByte bytes crc b = s.setRx .hunt := by
  have hlen : (bytes ++ [b])[4]? = some b := by simp [← hfour]
  unfold State.bodyByte
  simp only [hlen]
  exact if_pos hb

/-- While nothing is sent TXD rests high and the line is not driven (R167; in TURNAROUND log 22). -/
theorem txd_notSending (h : s.isSending = false) (n : Nat) : s.txdLevel n = true ∧ s.lineDriven n = none := by
  have hline : s.txLine = [] := by
    unfold State.isSending at h
    unfold State.txLine
    cases htx : s.link.tx <;> simp_all
  simp [State.txdLevel, State.txdBits, State.lineDriven, State.deHigh, hline, h]

/-- A unit that does not listen takes neither a character nor a gap (R167, R187). -/
theorem exec_line_unheard (h : s.listening = false) :
    exec .receiverGapTimeout s = .next s ∧ ∀ b stop, exec (.characterReceived b stop) s = .next s :=
  have hno : ¬s.listening = true := by simp [h]
  ⟨congrArg Host.Outcome.next (if_neg hno), fun _ _ => congrArg Host.Outcome.next (if_neg hno)⟩

theorem exec_replyStart {reply : List Byte} {r : Bool} (hr : s.inReset = false)
    (htx : s.link.tx = .turnaround reply r) :
    exec .replyStart s = .next { s with link := { s.link with rx := .hunt, tx := .sending reply r } } := by
  simp only [exec, execReplyStart, State.unlessReset, hr, reduceCtorEq, if_false, State.replyStarts, htx]

theorem exec_replyEnd {reply : List Byte} (hr : s.inReset = false) (htx : s.link.tx = .sending reply false) :
    exec .replyEnd s = .next { s with link := { s.link with rx := .hunt, tx := .idle } } := by
  simp only [exec, execReplyEnd, State.unlessReset, hr, reduceCtorEq, if_false, State.replyEnds, htx]

/-- Settles O11: the receiver's table by `State.receive`'s lemmas, state by state, then the two events of the
transmitter. -/
theorem lineEventsMoveReceiverAndTransmitter : Obligations.LineEventsMoveReceiverAndTransmitter := by
  intro s
  refine ⟨fun hr hs => ?_, fun h => ?_, fun reply r hr => ⟨fun htx => ?_, fun htx => ?_⟩⟩
  · have h : s.listening = true := State.listening_iff.2 ⟨hr, hs⟩
    refine ⟨?start, fun hrx b hb => ?ignored, fun bytes crc hrx => ?esc, fun bytes crc hrx b hb hstart hesc => ?escaped,
      fun bytes crc hfour b hb => ⟨fun hrx hstart hesc => ?long, fun hrx hstart => ?longEscaped⟩, fun b => ?error,
      congrArg Host.Outcome.next (if_pos h), txd_notSending hs⟩
    case start => exact (exec_character h _).trans (congrArg _ (State.receive_start s))
    case ignored => exact (exec_character h b).trans (congrArg _ (State.receive_hunt hrx hb))
    case esc => exact (exec_character h _).trans (congrArg _ (State.receive_esc hrx))
    case escaped =>
      have hstands : b ^^^ Config.escMask ≠ Config.startByte := fun he =>
        hb (by rw [← escMask_twice b, he]; decide)
      have h' : (s.setRx (.body bytes crc)).listening = true := h
      have hplain : exec (.characterReceived b true) (s.setRx (.body bytes crc)) = .next (s.bodyByte bytes crc b) := by
        rw [exec_character h', State.receive_body rfl hstart hesc, State.bodyByte_setRx]
      exact ((exec_character h _).trans (congrArg _ (State.receive_escaped hrx hstands))).trans hplain.symm
    case long =>
      rw [exec_character h, State.receive_body hrx hstart hesc, State.bodyByte_overlong hfour hb]
      rfl
    case longEscaped =>
      exact (exec_character h _).trans
        (congrArg _ ((State.receive_escaped hrx hstart).trans (State.bodyByte_overlong hfour hb)))
    case error =>
      exact congrArg Host.Outcome.next ((if_pos h).trans (State.receive_framingError s))
  · refine exec_line_unheard ?_
    rcases h with hr | hs
    · exact State.listening_reset hr
    · simp [State.listening, hs]
  · refine ⟨_, exec_replyStart hr htx, rfl, ?_, ?_, ?_⟩
    · simp [State.deHigh, State.isSending, htx]
    · simp [State.deHigh, State.isSending, hr]
    · intro line
      have hline : State.txLine { s with link := { s.link with rx := .hunt, tx := .sending reply r } } = line := by
        simp only [State.txLine, hr, reduceCtorEq, if_false]
        rfl
      refine ⟨hline, ?_, fun n => ?_⟩
      · rw [State.txdBits, hline]
        rfl
      · simp [State.lineDriven, State.deHigh, State.isSending, hr, State.txdLevel]
  · exact ⟨_, exec_replyEnd hr htx, rfl, by simp [State.deHigh, State.isSending], txd_idle rfl⟩

end Sys2Proof.Machine
end

