-- ==== Sys2Proof/Proofs/SettingsAndIdentity.lean ====
section
/-!
SUPPORT. The unit after a full reset is sound, QUERY's snapshot, and the checks of CONFIGURE in their order (R179 to R182,
R185, R187, R190).
-/

-- One proof at a time: side by side, the proofs' threads reserve more memory than the check allows.
set_option Elab.async false

namespace Sys2Proof.Machine

variable {s : State} {pairs : List (Nat × Nat)}

/-! ### The unit after a full reset (R187) -/

theorem blocksSound_reset :
    StoreSound State.reset.store ∧ ReportsSound State.reset.reports ∧ ImageSound State.reset.image ∧
      LinkSound State.reset.link ∧ PanelSound State.reset := by
  decide

theorem unitSound_afterFullReset (ads : BitVec 5) (brs : BitVec 2) (ocin : Bool) (cs : List Instr) :
    UnitSound (.afterFullReset ads brs ocin cs) := by
  obtain ⟨hstore, hreports, himage, hlink, hpanel⟩ := blocksSound_reset
  have hblocks := blocksSound_afterFullReset ads brs ocin cs State.reset
  have himage := hblocks.image himage
  have hpanel := hblocks.panel hpanel
  exact ⟨⟨hblocks.store hstore, hblocks.reports hreports, himage, hblocks.link hlink, hpanel⟩,
    fun _ => (steady_iff himage hpanel.1).1 (steady_afterFullReset ads brs ocin cs)⟩

/-- Settles O4: the blocks are those of `State.reset`, and the unit is steady with nothing in flight. -/
theorem fullResetStateIsSound : Obligations.FullResetStateIsSound :=
  ⟨unitSound_afterFullReset _ _ _ _, unitSound_afterFullReset⟩

/-! ### QUERY (R185, R190) -/

/-- The snapshot of a unit with an own address, byte by byte (R190). -/
theorem State.snapshot_eq {own : Nat} (h : s.link.ownAddress = some own) :
    s.snapshot =
      [0x40, 0x02, 0x03, byte own, byte s.link.rateStraps.toNat, byte s.settings.columns, byte s.settings.stripRows,
        s.driver.state.code, byte s.charge.level, byte (s.pool .host).length, byte (s.pool .echo).length,
        byte s.ring.length, byte s.reports.entries.length, boolByte s.reports.lost, byte s.dead.length,
        byte s.store.freeColumns, byte (s.store.freeColumns / 256), byte s.store.glyphs.length,
        byte (s.store.glyphs.length / 256), s.touch.contact.code] := by
  obtain ⟨-, -, rfl⟩ := Link.ownAddress_range h
  rfl

/-- Settles O12: QUERY only answers, and its answer is the snapshot (`State.snapshot_eq`). -/
theorem queryAnswersWithSnapshot : Obligations.QueryAnswersWithSnapshot := by
  intro s own seq hfresh
  obtain ⟨hreset, hidle, hown, hcache⟩ := hfresh
  have hanswer : queryMessage (s.setRx .hunt) = (s.setRx .hunt, okReply s.snapshot) := rfl
  rw [State.snapshot_eq hown] at hanswer
  exact congrArg Host.Outcome.next
    (addressedFrame_answer .query [] _ ⟨hreset, hidle, hown, hcache⟩ rfl hanswer (by decide))

/-! ### The checks of CONFIGURE (R179 to R182) -/

theorem accepts_configurePayload (h : PairsFit pairs) :
    MsgKind.configure.accepts (configurePayload pairs).length = true := by
  obtain ⟨hlo, hhi, -⟩ := h
  rw [length_configurePayload]
  simp only [MsgKind.accepts, Bool.and_eq_true, decide_eq_true_eq, beq_iff_eq]
  omega

/-- The first pair out of its range is the one answered (R180). -/
theorem firstBadPair_split {pre post : List (Nat × Nat)} {bad : Nat × Nat}
    (hpre : ∀ e ∈ pre, settingInRange e.1 e.2 = true) (hbad : settingInRange bad.1 bad.2 = false) (i : Nat) :
    firstBadPair i (pre ++ bad :: post) = some (i + pre.length) := by
  induction pre generalizing i with
  | nil => simp [firstBadPair, hbad]
  | cons e pre ih =>
    obtain ⟨he, hpre⟩ := List.forall_mem_cons.1 hpre
    simp only [List.cons_append, firstBadPair, he, if_true, ih hpre, List.length_cons]
    congr 1
    omega

/-- A bad pair is refused before anything else is looked at (R180). -/
theorem configureMessage_badPair (hfit : PairsFit pairs) {i : Nat} (h : firstBadPair 0 pairs = some i) :
    configureMessage s (configurePayload pairs) = (s, badFieldReply i) := by
  obtain ⟨-, -, hfit⟩ := hfit
  simp only [configureMessage, configPairs_payload hfit, h]

/-- With every pair in range, a beam centre outside the panel is refused (R181). -/
theorem configureMessage_beamsOutside (hfit : PairsFit pairs) (hrange : ∀ e ∈ pairs, settingInRange e.1 e.2 = true)
    (hbeams : (settingsAfter s.settings pairs).beamsInside = false) :
    configureMessage s (configurePayload pairs) = (s, badFieldReply 0xFF) := by
  obtain ⟨-, -, hfit⟩ := hfit
  simp only [configureMessage, configPairs_payload hfit, firstBadPair_of_inRange hrange]
  exact if_pos hbeams

/-- With pairs and beams good, a geometry change is refused while work is in flight (R182). -/
theorem configureMessage_busy (hfit : PairsFit pairs) (hrange : ∀ e ∈ pairs, settingInRange e.1 e.2 = true)
    (hbeams : (settingsAfter s.settings pairs).beamsInside = true)
    (hshape : s.settings.shapeDiffers (settingsAfter s.settings pairs) = true) (hwork : s.workEmpty = false) :
    configureMessage s (configurePayload pairs) = (s, plainReply .busy) := by
  obtain ⟨-, -, hfit⟩ := hfit
  simp only [configureMessage, configPairs_payload hfit, firstBadPair_of_inRange hrange]
  have hinside : ¬(s.settings.putAll pairs).beamsInside = false := ne_false_of_eq_true hbeams
  exact (if_neg hinside).trans (if_pos ⟨hshape, hwork⟩)

/-- A CONFIGURE that fails a check changes nothing but the link. -/
theorem exec_configure_refused {own : Nat} {seq : Byte} {reply : Reply} (hfresh : FreshFrame s own seq)
    (hfit : PairsFit pairs)
    (h : configureMessage (s.setRx .hunt) (configurePayload pairs) = (s.setRx .hunt, reply)) :
    exec (.configure seq (configurePayload pairs)) s = .next (s.replied own seq 0x02 reply) :=
  congrArg Host.Outcome.next
    (addressedFrame_answer .configure _ _ hfresh (accepts_configurePayload hfit) h (by decide))

/-- Settles O13: the rows are read off the table, and the three checks refuse in their order
(`configureMessage_badPair`, `configureMessage_beamsOutside`, `configureMessage_busy`). -/
theorem configureChecksInOrder : Obligations.ConfigureChecksInOrder := by
  unfold Obligations.ConfigureChecksInOrder
  intro row
  have hrange : ∀ {id field range}, row id = some (field, range) → ∀ v, settingInRange id v = true ↔ range v := by
    intro id field range hrow v
    simp only [row] at hrow
    split at hrow <;> cases hrow <;>
      simp only [settingInRange, Bool.and_eq_true, Bool.or_eq_true, decide_eq_true_eq, beq_iff_eq, and_assoc]
  have hfield : ∀ {id field range}, row id = some (field, range) →
      ∀ (c : Settings) v, field c = c.value id ∧ (c.put id v).value id = v := by
    intro id field range hrow c v
    simp only [row] at hrow
    split at hrow <;> cases hrow <;> exact ⟨rfl, rfl⟩
  have hnone : ∀ {id}, row id = none → ∀ (c : Settings) v, settingInRange id v = false ∧ c.put id v = c := by
    refine fun hrow c v => ⟨?_, ?_⟩ <;> revert hrow
    · unfold settingInRange
      split
      case h_20 => exact fun _ => rfl
      all_goals exact nofun
    · unfold Settings.put
      split
      case h_20 => exact fun _ => rfl
      all_goals exact nofun
  refine ⟨fun id v => ?_, fun c id v => ⟨fun hrow => (hnone hrow c v).2, fun id' field range hrow => ?_⟩, ?_⟩
  · cases hrow : row id with
    | none => simp [(hnone hrow .default v).1]
    | some e =>
      rw [hrange hrow v]
      exact ⟨fun h => ⟨_, _, rfl, h⟩, by rintro ⟨_, _, ⟨⟩, h⟩; exact h⟩
  · rw [(hfield hrow _ v).1, (hfield hrow c v).1]
    split
    next he => exact he ▸ (hfield (he ▸ hrow) c v).2
    next he => exact Settings.put_value_other c v (Ne.symm he)
  · intro s own seq pairs hfresh hfit new
    refine ⟨fun pre bad post hsplit hpre hbad => exec_configure_refused hfresh hfit (configureMessage_badPair hfit ?_),
      fun hin => ⟨fun hout => exec_configure_refused hfresh hfit (configureMessage_beamsOutside hfit hin ?_),
        fun hbeams hshape hwork => exec_configure_refused hfresh hfit (configureMessage_busy hfit hin hbeams ?_ ?_)⟩⟩
    · rw [hsplit, firstBadPair_split hpre hbad, Nat.zero_add]
    · show new.beamsInside = false
      simpa only [Settings.beamsInside, Bool.and_eq_false_iff, decide_eq_false_iff_not, ← not_and_or] using hout
    · show s.settings.shapeDiffers new = true
      simpa only [Settings.shapeDiffers, Bool.or_eq_true, bne_iff_ne] using hshape.imp Ne.symm Ne.symm
    · rw [← Bool.not_eq_true, State.workEmpty_iff]
      rintro ⟨hq, hr, hh⟩
      exact hwork.elim (· hq) (·.elim (· hr) (· hh))

end Sys2Proof.Machine
end

