-- ==== Sys2Proof/Proofs/EngineTables.lean ====
section
/-!
SUPPORT. Five tables that stand inside the blocks the engine works on, and what the engine's operations leave of them:
only dots found dead, counted contacts, requests that join and the sweep write there (R9, R21, R127, R139, R160). One
lemma per operation, in the order of the definitions.
-/

-- One proof at a time: side by side, the proofs' threads reserve more memory than the check allows.
set_option Elab.async false

namespace Sys2Proof.Machine

/-- The dead-dot table, the subscription, the contact counter, the tag counter and the sweep cursor. -/
structure EngineTables where
  dead : List DeadDot
  subscription : BitVec 5
  contactCounter : Nat
  tagCounter : Nat
  cursor : Strip

def State.engineTables (s : State) : EngineTables :=
  ⟨s.dead, s.reports.subscription, s.touch.contactCounter, s.queue.tagCounter, s.sweep.cursor⟩

/-- An operation that an engine repeats over a list keeps what each of its steps keeps. -/
theorem foldl_keeps {α β : Type} {f : State → α → State} {g : State → β} (h : ∀ s a, g (f s a) = g s)
    (l : List α) (s : State) : g (l.foldl f s) = g s := by
  induction l generalizing s with
  | nil => rfl
  | cons a l ih => exact (ih _).trans (h s a)

/-! ### Reports and requests -/

theorem ReportQueue.offer_subscription (q : ReportQueue) (r : Report) : (q.offer r).subscription = q.subscription := by
  unfold ReportQueue.offer
  split
  · rfl
  · split
    · rfl
    · split <;> rfl

theorem State.offer_engineTables (s : State) (r : Report) : (s.offer r).engineTables = s.engineTables := by
  simp only [State.engineTables, State.offer_reports, ReportQueue.offer_subscription]
  rfl

theorem State.leave_engineTables (s : State) (r : Request) (o : LeaveOutcome) :
    (s.leave r o).engineTables = s.engineTables := by
  unfold State.leave
  dsimp only
  split
  · exact State.offer_engineTables _ _
  · rfl

theorem State.settleOne_engineTables (s : State) (tag : Nat) : (s.settleOne tag).engineTables = s.engineTables := by
  unfold State.settleOne
  split
  · rfl
  · dsimp only
    split
    · exact State.leave_engineTables _ _ _
    · rfl

theorem State.generatorArbiter_engineTables (s : State) : s.generatorArbiter.engineTables = s.engineTables := by
  unfold State.generatorArbiter
  split
  · rfl
  · split <;> rfl

/-! ### The generator -/

theorem State.endGeneration_engineTables (s : State) (r : Request) :
    (s.endGeneration r).engineTables = s.engineTables := by
  unfold State.endGeneration
  refine (State.generatorArbiter_engineTables _).trans ?_
  split
  · exact State.leave_engineTables _ _ _
  · rfl

theorem State.finishItem_engineTables (s : State) (tag : Nat) : (s.finishItem tag).engineTables = s.engineTables := by
  unfold State.finishItem
  dsimp only
  split
  · rfl
  · split
    · rfl
    · exact State.endGeneration_engineTables _ _

theorem State.nextCode_engineTables (s : State) (tag codes i : Nat) :
    (s.nextCode tag codes i).engineTables = s.engineTables := by
  unfold State.nextCode
  split
  · rfl
  · exact State.finishItem_engineTables _ _

theorem State.endCell_engineTables (s : State) (r : Request) (codes i : Nat) (l : Latch) (wrapped : Bool) :
    (s.endCell r codes i l wrapped).engineTables = s.engineTables :=
  State.nextCode_engineTables _ _ _ _

theorem State.moveOn_engineTables (s : State) (r : Request) (it : Item) (c : Claim) (t : Strip) :
    (s.moveOn r it c t).engineTables = s.engineTables := by
  unfold State.moveOn
  dsimp only
  split
  · rfl
  · exact State.endCell_engineTables _ _ _ _ _ _
  · exact State.nextCode_engineTables _ _ _ _
  · rfl
  · exact State.finishItem_engineTables _ _

theorem State.append_engineTables (s : State) (tag : Nat) (op : StripOp) :
    (s.append tag op).engineTables = s.engineTables := by
  rcases s.append_cases tag op with ⟨-, e⟩ | e <;> rw [e] <;> rfl

theorem State.examine_engineTables (s : State) (r : Request) (it : Item) (v : ItemValues) (t : Strip) :
    (s.examine r it v t).engineTables = s.engineTables := by
  unfold State.examine
  dsimp only
  split
  · exact State.moveOn_engineTables _ _ _ _ _
  · split
    · exact (State.moveOn_engineTables _ _ _ _ _).trans (State.append_engineTables _ _ _)
    · rfl

theorem State.reexamine_engineTables (s : State) : s.reexamine.engineTables = s.engineTables := by
  unfold State.reexamine
  split
  · exact State.examine_engineTables _ _ _ _ _
  · rfl

theorem State.startGraphic_engineTables (s : State) (r : Request) (it : Item) (v : ItemValues) :
    (s.startGraphic r it v).engineTables = s.engineTables := by
  unfold State.startGraphic
  dsimp only
  split
  · exact State.finishItem_engineTables _ _
  · split
    · exact State.finishItem_engineTables _ _
    · rfl

theorem State.startText_engineTables (s : State) (r : Request) (font : Nat) (start : Option (Int × Int)) :
    (s.startText r font start).engineTables = s.engineTables := by
  unfold State.startText
  split
  · cases start <;> rfl
  · exact State.finishItem_engineTables _ _

theorem State.startItem_engineTables (s : State) (r : Request) (it : Item) :
    (s.startItem r it).engineTables = s.engineTables := by
  rw [State.startItem_eq]
  cases it with
  | cursor | newline => exact State.finishItem_engineTables _ _
  | text => exact State.startText_engineTables _ _ _ _
  | dot | line | box | image | clear => exact State.startGraphic_engineTables _ _ _ _

theorem State.startGlyph_engineTables (s : State) (r : Request) (v : ItemValues) (font : Nat) (codes : List Nat)
    (i : Nat) : (s.startGlyph r v font codes i).engineTables = s.engineTables := by
  unfold State.startGlyph
  split
  · exact State.nextCode_engineTables _ _ _ _
  · dsimp only
    split
    · exact State.endCell_engineTables _ _ _ _ _ _
    · rfl

theorem State.generatorEvent_engineTables (s : State) : s.generatorEvent.engineTables = s.engineTables := by
  unfold State.generatorEvent
  split
  · split
    · exact State.startItem_engineTables _ _ _
    · exact State.startGlyph_engineTables _ _ _ _ _ _
    · exact State.examine_engineTables _ _ _ _ _
    · exact State.examine_engineTables _ _ _ _ _
    · rfl
  · rfl

/-! ### The pulse driver -/

theorem State.cutShort_engineTables (s : State) : s.cutShort.engineTables = s.engineTables := by
  unfold State.cutShort
  split <;> rfl

theorem State.failRequests_engineTables (s : State) : s.failRequests.engineTables = s.engineTables :=
  foldl_keeps (fun _ _ => State.leave_engineTables _ _ _) _ s

theorem State.pulseOver_engineTables (s : State) : s.pulseOver.engineTables = s.engineTables := by
  unfold State.pulseOver
  split <;> rfl

theorem State.enterHeld_engineTables (s : State) : s.enterHeld.engineTables = s.engineTables := by
  unfold State.enterHeld
  split
  · rfl
  · calc _ = _ := State.pulseOver_engineTables _
      _ = _ := State.offer_engineTables _ _
      _ = (s.cutShort.flush.driverState .held).engineTables := State.failRequests_engineTables _
      _ = s.engineTables := s.cutShort_engineTables

theorem State.notePulse_engineTables (s : State) : s.notePulse.engineTables = s.engineTables := by
  unfold State.notePulse
  split <;> rfl

theorem State.startPhase_engineTables (s : State) (h : Hand) : (s.startPhase h).engineTables = s.engineTables := by
  unfold State.startPhase
  dsimp only
  split
  · exact (State.enterHeld_engineTables _).trans (State.notePulse_engineTables _)
  · exact State.notePulse_engineTables _

theorem State.tryPhase_engineTables (s : State) : s.tryPhase.engineTables = s.engineTables := by
  unfold State.tryPhase
  split
  · rfl
  · split
    · exact State.startPhase_engineTables _ _
    · rfl

theorem State.retryPhase_engineTables (s : State) : s.retryPhase.engineTables = s.engineTables := by
  unfold State.retryPhase
  split
  · exact State.tryPhase_engineTables _
  · rfl

theorem State.takeRing_engineTables (s : State) (o : RingOp) (rest : List RingOp) (passOver : Nat) :
    (s.takeRing o rest passOver).engineTables = s.engineTables :=
  (State.tryPhase_engineTables _).trans (State.reexamine_engineTables _)

theorem State.takeSweep_engineTables (s : State) (op : StripOp) : (s.takeSweep op).engineTables = s.engineTables :=
  State.tryPhase_engineTables _

theorem State.driverArbiter_engineTables (s : State) : s.driverArbiter.engineTables = s.engineTables := by
  unfold State.driverArbiter
  split
  · split
    · rfl
    · exact State.takeRing_engineTables _ _ _ _
    · exact State.takeSweep_engineTables _ _
    · split
      · exact State.takeRing_engineTables _ _ _ _
      · exact State.takeSweep_engineTables _ _
  · rfl

theorem State.strike_engineTables (s : State) (t : Strip) (p : Nat) : (s.strike t p).engineTables = s.engineTables := by
  have hsettled : ∀ (gone : List RingOp) (u : State),
      (gone.foldl (fun u o => u.settleOne o.tag) u).engineTables = u.engineTables :=
    foldl_keeps fun _ _ => State.settleOne_engineTables _ _
  unfold State.strike
  dsimp only
  split
  · exact hsettled _ _
  · exact (State.reexamine_engineTables _).trans (hsettled _ _)

theorem State.completeOp_engineTables (s : State) (h : Hand) : (s.completeOp h).engineTables = s.engineTables := by
  unfold State.completeOp
  refine (State.driverArbiter_engineTables _).trans ?_
  split
  · exact State.settleOne_engineTables _ _
  · rfl

theorem State.gapEnds_engineTables (s : State) : s.gapEnds.engineTables = s.engineTables := by
  unfold State.gapEnds
  split
  · rfl
  · split
    · exact State.tryPhase_engineTables _
    · exact State.completeOp_engineTables _ _

theorem State.recharge_engineTables (s : State) : s.recharge.engineTables = s.engineTables :=
  State.retryPhase_engineTables _

/-! ### Dots found dead (R9, R10) -/

/-- The tables with the dead-dot table left out of account. -/
def EngineTables.butDead (e : EngineTables) : EngineTables := { e with dead := [] }

theorem State.foundDead_butDead (s : State) (t : Strip) (source : SenseSource) (p : Nat) :
    (s.foundDead t source p).engineTables.butDead = s.engineTables.butDead := by
  unfold State.foundDead
  dsimp only
  split
  · rw [State.strike_engineTables, State.offer_engineTables]
    rfl
  · rw [State.offer_engineTables]
    rfl

theorem State.pulseEnds_butDead (s : State) (sense : Mask) :
    (s.pulseEnds sense).engineTables.butDead = s.engineTables.butDead := by
  unfold State.pulseEnds
  split
  · rfl
  next h _ =>
    have hsensed : ∀ u : State, (u.pulseOver.senseResult h sense).engineTables.butDead = u.engineTables.butDead :=
      fun u => (foldl_keeps (g := fun u => u.engineTables.butDead)
        (fun _ _ => State.foundDead_butDead _ _ _ _) _ _).trans (congrArg EngineTables.butDead u.pulseOver_engineTables)
    dsimp only
    split
    · exact (congrArg EngineTables.butDead (State.gapEnds_engineTables _)).trans (hsensed _)
    · exact hsensed _

/-! ### The sweep (R127) -/

/-- The tables with the sweep cursor left out of account. -/
def EngineTables.butCursor (e : EngineTables) : EngineTables := { e with cursor := ⟨0, 0⟩ }

theorem State.sweepLooks_butCursor (s : State) : s.sweepLooks.engineTables.butCursor = s.engineTables.butCursor := by
  unfold State.sweepLooks
  split
  · rfl
  · split
    · rfl
    · rw [State.sweepFill, State.driverArbiter_engineTables]
      rfl

theorem State.sweepExpires_butCursor (s : State) :
    s.sweepExpires.engineTables.butCursor = s.engineTables.butCursor := by
  unfold State.sweepExpires
  split
  · rfl
  · split
    · rfl
    · exact State.sweepLooks_butCursor _

/-! ### The scanner and the contact (R21, R139) -/

/-- The tables with the contact counter and the tag counter left out of account. -/
def EngineTables.butCounters (e : EngineTables) : EngineTables := { e with contactCounter := 0, tagCounter := 0 }

theorem State.joinEcho_butCounters (s : State) (r : Rect) :
    (s.joinEcho r).engineTables.butCounters = s.engineTables.butCounters := by
  rw [State.joinEcho, State.generatorArbiter_engineTables]
  rfl

theorem State.press_butCounters (s : State) (x y : Nat) :
    (s.press x y).engineTables.butCounters = s.engineTables.butCounters := by
  unfold State.press
  dsimp only
  rw [State.offer_engineTables]
  split
  · exact State.joinEcho_butCounters _ _
  · rfl

theorem State.pressTest_butCounters (s : State) (x y count : Nat) :
    (s.pressTest x y count).engineTables.butCounters = s.engineTables.butCounters := by
  unfold State.pressTest
  dsimp only
  split
  · exact State.press_butCounters _ _ _
  · rfl

theorem State.release_butCounters (s : State) (c : Contact) :
    (s.release c).engineTables.butCounters = s.engineTables.butCounters := by
  have hended : ∀ (u : State) (r : Report),
      (((u.offer r).clearCoalesce).setContact .none).engineTables = u.engineTables :=
    State.offer_engineTables
  unfold State.release
  dsimp only
  rw [hended]
  split
  · exact State.joinEcho_butCounters _ _
  · rfl

theorem State.releaseTest_butCounters (s : State) (c : Contact) (count : Nat) :
    (s.releaseTest c count).engineTables.butCounters = s.engineTables.butCounters := by
  unfold State.releaseTest
  dsimp only
  split
  · exact State.release_butCounters _ _
  · rfl

theorem State.moveCheck_butCounters (s : State) (c : Contact) (x y : Nat) :
    (s.moveCheck c x y).engineTables.butCounters = s.engineTables.butCounters := by
  unfold State.moveCheck
  split
  · exact congrArg EngineTables.butCounters (State.offer_engineTables _ _)
  · rfl

theorem State.contactStep_butCounters (s : State) (o : ScanOutcome) :
    (s.contactStep o).engineTables.butCounters = s.engineTables.butCounters := by
  unfold State.contactStep
  split
  · exact State.pressTest_butCounters _ _ _ _
  · rfl
  · rfl
  · split
    · exact State.pressTest_butCounters _ _ _ _
    · exact State.pressTest_butCounters _ _ _ _
  · rfl
  · exact State.releaseTest_butCounters _ _ _
  · exact State.moveCheck_butCounters _ _ _ _
  · rfl
  · exact State.releaseTest_butCounters _ _ _
  · exact State.moveCheck_butCounters _ _ _ _
  · rfl

theorem State.evaluateScan_butCounters (s : State) (xBroken : BitVec 48) (yBroken : BitVec 24) :
    (s.evaluateScan xBroken yBroken).engineTables.butCounters = s.engineTables.butCounters := by
  unfold State.evaluateScan
  exact (State.contactStep_butCounters _ _).trans
    (congrArg EngineTables.butCounters (foldl_keeps (fun _ _ => State.offer_engineTables _ _) _ _))

theorem State.voidScan_engineTables (s : State) : s.voidScan.engineTables = s.engineTables := by
  unfold State.voidScan
  dsimp only
  split
  · split <;> rfl
  · rfl

theorem State.scanEnds_butCounters (s : State) (xBroken : BitVec 48) (yBroken : BitVec 24) :
    (s.scanEnds xBroken yBroken).engineTables.butCounters = s.engineTables.butCounters := by
  unfold State.scanEnds
  split
  · rfl
  · rfl
  · split
    · exact congrArg EngineTables.butCounters (State.voidScan_engineTables _)
    · exact State.evaluateScan_butCounters _ _ _
  · exact (congrArg EngineTables.butCounters (State.retryPhase_engineTables _)).trans
      (State.evaluateScan_butCounters _ _ _)

/-! ### The messages of the request queue, and RESUME -/

theorem State.cancelOne_engineTables (s : State) (r : Request) : (s.cancelOne r).engineTables = s.engineTables := by
  unfold State.cancelOne
  split
  · exact State.leave_engineTables _ _ _
  · split
    · exact State.leave_engineTables _ _ _
    · rfl
  · rfl

theorem cancelAllForm_engineTables (s : State) : (cancelAllForm s).1.engineTables = s.engineTables :=
  (State.generatorArbiter_engineTables _).trans (foldl_keeps State.cancelOne_engineTables _ s)

theorem cancelMessage_engineTables (s : State) (p : List Byte) :
    (cancelMessage s p).1.engineTables = s.engineTables := by
  unfold cancelMessage
  split
  · exact cancelAllForm_engineTables s
  · unfold cancelTag
    split
    · rfl
    · split
      · rfl
      · exact (State.generatorArbiter_engineTables _).trans (State.cancelOne_engineTables _ _)

theorem resumeMessage_engineTables (s : State) : (resumeMessage s).1.engineTables = s.engineTables := by
  unfold resumeMessage
  split
  · exact (State.driverArbiter_engineTables _).trans (State.generatorArbiter_engineTables _)
  · rfl

/-- The tables with the tag counter left out of account. -/
def EngineTables.butTags (e : EngineTables) : EngineTables := { e with tagCounter := 0 }

/-- DRAW moves the tag counter alone, when its request joins (R21). -/
theorem drawMessage_butTags (s : State) (p : List Byte) :
    (drawMessage s p).1.engineTables.butTags = s.engineTables.butTags := by
  unfold drawMessage
  split
  · rfl
  · split
    · rfl
    · split
      · rfl
      · dsimp only
        rw [State.generatorArbiter_engineTables]
        rfl

end Sys2Proof.Machine
end

