-- ==== Sys2Proof/Proofs/Tables.lean ====
section
/-!
SUPPORT. The tables that software owns, and which of them each command writes (R9, R21, R69, R127, R139, R147, R160,
R165, R179, R187).
-/

-- One proof at a time: side by side, the proofs' threads reserve more memory than the check allows.
set_option Elab.async false

namespace Sys2Proof.Machine

variable {s t : State}

/-! ### The tables -/

/-- The waiting commands, the tables that software owns, the overcurrent input and whether the unit is in reset. -/
@[ext]
structure Tables where
  pending : List Instr
  settings : Settings
  addressStraps : BitVec 5
  rateStraps : BitVec 2
  store : GlyphStore
  zones : List Zone
  dead : List DeadDot
  subscription : BitVec 5
  contactCounter : Nat
  tagCounter : Nat
  cursor : Strip
  ocin : Bool
  inReset : Bool

def State.tables (s : State) : Tables where
  pending := s.pending
  settings := s.settings
  addressStraps := s.link.addressStraps
  rateStraps := s.link.rateStraps
  store := s.store
  zones := s.zones
  dead := s.dead
  subscription := s.reports.subscription
  contactCounter := s.touch.contactCounter
  tagCounter := s.queue.tagCounter
  cursor := s.sweep.cursor
  ocin := s.ocin
  inReset := s.inReset

/-- The tables with those of the engine's blocks taken from `e`. -/
def Tables.withEngine (a : Tables) (e : EngineTables) : Tables :=
  { a with
    dead := e.dead
    subscription := e.subscription
    contactCounter := e.contactCounter
    tagCounter := e.tagCounter
    cursor := e.cursor }

/-- What the engine keeps leaves only the tables of its own blocks to look at. -/
theorem Keeps.tables (h : Keeps s t) : t.tables = s.tables.withEngine t.engineTables := by
  simp only [State.tables, Tables.withEngine, State.engineTables, h.pending, h.settings, h.link, h.store, h.zones,
    h.ocin, h.inReset]

theorem Keeps.tables_eq (h : Keeps s t) (he : t.engineTables = s.engineTables) : t.tables = s.tables :=
  h.tables.trans (congrArg s.tables.withEngine he)

theorem Keeps.tables_butDead (h : Keeps s t) (he : t.engineTables.butDead = s.engineTables.butDead) :
    t.tables = { s.tables with dead := t.dead } :=
  h.tables.trans (congrArg (fun e => s.tables.withEngine { e with dead := t.dead }) he)

theorem Keeps.tables_butCursor (h : Keeps s t) (he : t.engineTables.butCursor = s.engineTables.butCursor) :
    t.tables = { s.tables with cursor := t.sweep.cursor } :=
  h.tables.trans (congrArg (fun e => s.tables.withEngine { e with cursor := t.sweep.cursor }) he)

theorem Keeps.tables_butCounters (h : Keeps s t) (he : t.engineTables.butCounters = s.engineTables.butCounters) :
    t.tables = { s.tables with contactCounter := t.touch.contactCounter, tagCounter := t.queue.tagCounter } :=
  h.tables.trans (congrArg (fun e => s.tables.withEngine
    { e with contactCounter := t.touch.contactCounter, tagCounter := t.queue.tagCounter }) he)

theorem Keeps.tables_butTags (h : Keeps s t) (he : t.engineTables.butTags = s.engineTables.butTags) :
    t.tables = { s.tables with tagCounter := t.queue.tagCounter } :=
  h.tables.trans (congrArg (fun e => s.tables.withEngine { e with tagCounter := t.queue.tagCounter }) he)

/-! ### What each message writes (R21, R69, R147, R160, R179) -/

/-- The tables `a` with those that a message of the kind writes taken from `b`. -/
def Tables.message (a : Tables) (k : MsgKind) (b : Tables) : Tables :=
  match k with
  | .configure => { a with settings := b.settings, zones := b.zones, dead := b.dead, cursor := b.cursor }
  | .draw => { a with tagCounter := b.tagCounter }
  | .setFont | .dropFont | .loadGlyph | .dropGlyph => { a with store := b.store }
  | .forgetDeadDot => { a with dead := b.dead }
  | .setZone => { a with zones := b.zones }
  | .subscribe => { a with subscription := b.subscription }
  | .query | .restart | .cancel | .resume | .setViewport | .getViewport | .readImage | .listDeadDots | .collect => a

/-- A message of the kind, and nothing else, may have happened to the tables. -/
abbrev MsgKind.Writes (k : MsgKind) (s t : State) : Prop := t.tables = s.tables.message k t.tables

theorem MsgKind.writes_of_eq (k : MsgKind) (h : t.tables = s.tables) : k.Writes s t := by
  rw [MsgKind.Writes, h]
  cases k <;> rfl

theorem MsgKind.writes_congr {k : MsgKind} {u v : State} (h : k.Writes s t) (hs : u.tables = s.tables)
    (ht : v.tables = t.tables) : k.Writes u v := by
  rw [MsgKind.Writes, hs, ht]
  exact h

theorem reshaped_writes (s : State) (new : Settings) : MsgKind.configure.Writes s (s.reshaped new) := by
  unfold State.reshaped
  split <;> rfl

/-- After the settings and the shape, a change of settings writes no table. -/
theorem applySettings_tables (s : State) (new : Settings) : (s.applySettings new).tables = (s.reshaped new).tables := by
  have htouched : ((s.reshaped new).retouched s.settings new).tables = (s.reshaped new).tables := by
    unfold State.retouched
    split <;> rfl
  have htimed : ((s.reshaped new).retouched s.settings new).startSweepTimer.tables = (s.reshaped new).tables := by
    rw [State.startSweepTimer_eq]
    exact htouched
  rw [State.applySettings_eq]
  dsimp only
  split
  · exact ((keeps_retryPhase _).tables_eq (State.retryPhase_engineTables _)).trans htimed
  · exact htimed

theorem configureMessage_writes (s : State) (p : List Byte) : MsgKind.configure.Writes s (configureMessage s p).1 := by
  rcases configureMessage_cases s p with h | ⟨new, h, -, -⟩
  · rw [h]
    rfl
  · rw [h]
    exact MsgKind.writes_congr (reshaped_writes s new) rfl (applySettings_tables s new)

theorem setFontMessage_writes (s : State) (p : List Byte) : MsgKind.setFont.Writes s (setFontMessage s p).1 := by
  unfold setFontMessage
  split
  · rfl
  · dsimp only
    split_ifs <;> rfl

theorem dropFontMessage_writes (s : State) (p : List Byte) : MsgKind.dropFont.Writes s (dropFontMessage s p).1 := by
  unfold dropFontMessage
  dsimp only
  split_ifs <;> rfl

theorem loadGlyphMessage_writes (s : State) (p : List Byte) :
    MsgKind.loadGlyph.Writes s (loadGlyphMessage s p).1 := by
  unfold loadGlyphMessage
  dsimp only
  split_ifs <;> rfl

theorem dropGlyphMessage_writes (s : State) (p : List Byte) :
    MsgKind.dropGlyph.Writes s (dropGlyphMessage s p).1 := by
  unfold dropGlyphMessage
  dsimp only
  split_ifs <;> rfl

theorem forgetDeadDotMessage_writes (s : State) (p : List Byte) :
    MsgKind.forgetDeadDot.Writes s (forgetDeadDotMessage s p).1 := by
  unfold forgetDeadDotMessage
  dsimp only
  split_ifs <;> rfl

theorem setZoneMessage_writes (s : State) (p : List Byte) : MsgKind.setZone.Writes s (setZoneMessage s p).1 := by
  unfold setZoneMessage
  dsimp only
  split
  · rfl
  · split_ifs <;> rfl

theorem setViewportMessage_writes (s : State) (p : List Byte) :
    MsgKind.setViewport.Writes s (setViewportMessage s p).1 := by
  unfold setViewportMessage undefineViewport
  split
  · rfl
  · split_ifs <;> rfl

theorem subscribeMessage_writes (s : State) (p : List Byte) :
    MsgKind.subscribe.Writes s (subscribeMessage s p).1 := by
  unfold subscribeMessage
  dsimp only
  split_ifs <;> rfl

/-- Every message writes its own tables alone (R175). -/
theorem ownerCarriesOut_writes (k : MsgKind) (s : State) (p : List Byte) : k.Writes s (ownerCarriesOut k s p).1 := by
  cases k with
  | query | restart | listDeadDots | collect => rfl
  | configure => exact configureMessage_writes s p
  | draw => exact (keeps_drawMessage s p).tables_butTags (drawMessage_butTags s p)
  | cancel => exact (keeps_cancelMessage s p).tables_eq (cancelMessage_engineTables s p)
  | resume => exact (keeps_resumeMessage s).tables_eq (resumeMessage_engineTables s)
  | setViewport => exact setViewportMessage_writes s p
  | getViewport => exact congrArg State.tables (getViewportMessage_state s p)
  | setFont => exact setFontMessage_writes s p
  | dropFont => exact dropFontMessage_writes s p
  | loadGlyph => exact loadGlyphMessage_writes s p
  | dropGlyph => exact dropGlyphMessage_writes s p
  | readImage => exact congrArg State.tables (readImageMessage_state s p)
  | forgetDeadDot => exact forgetDeadDotMessage_writes s p
  | setZone => exact setZoneMessage_writes s p
  | subscribe => exact subscribeMessage_writes s p

/-! ### Frames (R172 to R178) -/

theorem restart_tables (s : State) (cache : Option (Byte × List Byte)) : (s.restart cache).tables = s.tables := by
  rw [State.restart_eq]
  rfl

theorem cancelAllForm_tables (s : State) : (cancelAllForm s).1.tables = s.tables :=
  (keeps_cancelAllForm s).tables_eq (cancelAllForm_engineTables s)

/-- A broadcast writes no table (R173). -/
theorem takeBroadcast_tables (s : State) (kind : Byte) (p : List Byte) :
    (s.takeBroadcast kind p).tables = s.tables := by
  unfold State.takeBroadcast
  split
  · split
    · exact restart_tables s none
    · rfl
  · split
    · exact cancelAllForm_tables s
    · rfl
  · rfl

/-- A frame of a kind that is carried out: what its message writes, and nothing for a kind that is no message's. -/
theorem carryOut_writes {kind : Byte} {k : MsgKind} (hk : ∀ k', msgKindOf kind = some k' → k' = k) (s : State)
    (p : List Byte) : k.Writes s (carryOut kind s p).1 := by
  unfold carryOut
  split
  · exact k.writes_of_eq rfl
  next k' hkind =>
    obtain rfl := hk k' hkind
    split
    · exact ownerCarriesOut_writes _ s p
    · exact k'.writes_of_eq rfl

theorem takeAddressed_writes {kind : Byte} {k : MsgKind} (hk : ∀ k', msgKindOf kind = some k' → k' = k) (s : State)
    (own : Nat) (seq : Byte) (p : List Byte) : k.Writes s (s.takeAddressed own seq kind p) := by
  have hexecute : k.Writes s (s.execute own seq kind p) := carryOut_writes hk s p
  unfold State.takeAddressed
  split
  · exact k.writes_of_eq rfl
  · split
    · split
      · exact k.writes_of_eq rfl
      · exact hexecute
    · exact hexecute

/-- A complete frame of a kind, addressed to the unit or not (R172). -/
theorem frameArrives_writes {kind : Byte} {k : MsgKind} (hk : ∀ k', msgKindOf kind = some k' → k' = k) (s : State)
    (good : Bool) (dest src seq : Byte) (p : List Byte) : k.Writes s (s.frameArrives good dest src seq kind p) := by
  unfold State.frameArrives
  dsimp only
  split
  · exact k.writes_of_eq rfl
  · split
    · exact k.writes_of_eq rfl
    · split
      · exact k.writes_of_eq (takeBroadcast_tables _ _ _)
      · split
        · split
          · exact takeAddressed_writes hk (s.setRx .hunt) _ _ _
          · exact k.writes_of_eq rfl
        · exact k.writes_of_eq rfl

theorem addressedFrame_writes {kind : Byte} {k : MsgKind} (hk : ∀ k', msgKindOf kind = some k' → k' = k) (s : State)
    (seq : Byte) (p : List Byte) : k.Writes s (s.addressedFrame seq kind p) := by
  unfold State.addressedFrame
  split
  · exact k.writes_of_eq rfl
  · split
    · split
      · exact k.writes_of_eq rfl
      · exact frameArrives_writes hk s _ _ _ _ _
    · exact k.writes_of_eq rfl

/-- The command of a message row writes its kind's tables. -/
theorem messageFrame_writes (k : MsgKind) (s : State) (seq : Byte) (p : List Byte) :
    k.Writes s (s.addressedFrame seq k.code p) :=
  addressedFrame_writes (fun _ h => (Option.some.inj ((msgKindOf_code k).symm.trans h)).symm) s seq p

theorem broadcastFrame_tables (s : State) (seq kind : Byte) (p : List Byte) :
    (s.broadcastFrame seq kind p).tables = s.tables := by
  unfold State.broadcastFrame
  split
  · rfl
  · split
    · rfl
    · exact takeBroadcast_tables (s.setRx .hunt) kind p

/-! ### Characters (R168 to R171) -/

/-- The tables `a` with those that one message or another writes taken from `b`. -/
def Tables.anyMessage (a b : Tables) : Tables :=
  { a with
    settings := b.settings
    store := b.store
    zones := b.zones
    dead := b.dead
    subscription := b.subscription
    tagCounter := b.tagCounter
    cursor := b.cursor }

theorem MsgKind.Writes.any {k : MsgKind} (h : k.Writes s t) : t.tables = s.tables.anyMessage t.tables := by
  have hover : s.tables.anyMessage t.tables = (s.tables.message k t.tables).anyMessage t.tables := by cases k <;> rfl
  rw [hover, ← h]
  rfl

theorem frameArrives_anyMessage (s : State) (good : Bool) (dest src seq kind : Byte) (p : List Byte) :
    (s.frameArrives good dest src seq kind p).tables =
      s.tables.anyMessage (s.frameArrives good dest src seq kind p).tables := by
  cases hkind : msgKindOf kind with
  | none => exact (frameArrives_writes (k := .query) (by simp [hkind]) s good dest src seq p).any
  | some k => exact (frameArrives_writes (k := k) (by simp [hkind]) s good dest src seq p).any

theorem bodyByte_anyMessage (s : State) (bytes : List Byte) (crc : BitVec 16) (b : Byte) :
    (s.bodyByte bytes crc b).tables = s.tables.anyMessage (s.bodyByte bytes crc b).tables := by
  unfold State.bodyByte
  dsimp only
  split
  · rfl
  · split
    · rfl
    · split
      · exact frameArrives_anyMessage s _ _ _ _ _ _
      · rfl

/-- A character can complete a frame of any kind (R171). -/
theorem receive_anyMessage (s : State) (c : Option Byte) :
    (s.receive c).tables = s.tables.anyMessage (s.receive c).tables := by
  unfold State.receive
  split
  · split <;> rfl
  · rfl
  · rfl
  · rfl
  · split
    · rfl
    · split
      · rfl
      · exact bodyByte_anyMessage s _ _ _
  · split
    · rfl
    · exact bodyByte_anyMessage s _ _ _

theorem replyEnds_tables (s : State) : s.replyEnds.tables = s.tables := by
  unfold State.replyEnds
  split
  · dsimp only
    split
    · exact restart_tables _ _
    · rfl
  · rfl

theorem replyStarts_tables (s : State) : s.replyStarts.tables = s.tables := by
  unfold State.replyStarts
  split <;> rfl

/-! ### What each command writes -/

/-- The tables `a` with those that the command writes taken from `b`. -/
def Tables.command (a : Tables) (i : Instr) (b : Tables) : Tables :=
  match i with
  | .configure .. => a.message .configure b
  | .draw .. => a.message .draw b
  | .setFont .. | .dropFont .. | .loadGlyph .. | .dropGlyph .. => { a with store := b.store }
  | .forgetDeadDot .. | .pulseEnd _ => { a with dead := b.dead }
  | .setZoneDefine .. | .setZoneUndefine .. => { a with zones := b.zones }
  | .subscribe .. => { a with subscription := b.subscription }
  | .sweepExpiry => { a with cursor := b.cursor }
  | .scanEnd .. => { a with contactCounter := b.contactCounter, tagCounter := b.tagCounter }
  | .characterReceived .. => a.anyMessage b
  | .overcurrent _ => { a with ocin := b.ocin }
  | .fullResetEntry _ => { a with inReset := b.inReset }
  | .fullResetExit .. => { b with pending := a.pending, ocin := a.ocin }
  | _ => a

/-- The command writes its own tables alone. -/
abbrev CommandWrites (i : Instr) (s t : State) : Prop := t.tables = s.tables.command i t.tables

theorem commandWrites_of_eq (i : Instr) (h : t.tables = s.tables) : CommandWrites i s t := by
  rw [CommandWrites, h]
  cases i <;> rfl

theorem CommandWrites.unlessReset {i : Instr} {f : State → State} (h : CommandWrites i s (f s)) :
    CommandWrites i s (s.unlessReset f) := by
  unfold State.unlessReset
  split
  · exact commandWrites_of_eq i rfl
  · exact h

theorem overcurrent_writes (s : State) (level : Bool) :
    CommandWrites (.overcurrent level) s
      (if s.inReset = false ∧ s.driver.state = .pulse then ({ s with ocin := level } : State).enterHeld
        else { s with ocin := level }) := by
  split
  · have hheld := (keeps_enterHeld { s with ocin := level }).tables_eq (State.enterHeld_engineTables _)
    rw [CommandWrites, hheld]
    rfl
  · rfl

/-- Every command a row can carry gives a next state, and writes its own tables alone. -/
theorem exec_writes {i : Instr} (hw : i.WellFormed) (s : State) : ∃ t, exec i s = .next t ∧ CommandWrites i s t := by
  cases i with
  | query | configure | restart | draw | cancel | cancelAll | resume | setViewportDefine | setViewportUndefine
  | getViewport | setFont | dropFont | loadGlyph | dropGlyph | readImage | listDeadDots | forgetDeadDot | setZoneDefine
  | setZoneUndefine | collect | subscribe => exact ⟨_, rfl, messageFrame_writes _ s _ _⟩
  | unknownKind seq kind p =>
    obtain ⟨-, hother⟩ := Bool.and_eq_true_iff.1 hw
    have hkind : msgKindOf kind = none := msgKindOf_eq_none (by simpa using hother)
    exact ⟨_, rfl, addressedFrame_writes (k := .query) (by simp [hkind]) s seq p⟩
  | broadcastRestart | broadcastCancel => exact ⟨_, rfl, broadcastFrame_tables s _ _ _⟩
  | receiverGapTimeout =>
    refine ⟨_, rfl, commandWrites_of_eq _ ?_⟩
    split <;> rfl
  | replyStart => exact ⟨_, rfl, CommandWrites.unlessReset (replyStarts_tables s)⟩
  | replyEnd => exact ⟨_, rfl, CommandWrites.unlessReset (replyEnds_tables s)⟩
  | fullResetEntry cause =>
    refine ⟨_, rfl, ?_⟩
    split <;> rfl
  | fullResetExit ads brs =>
    refine ⟨_, rfl, ?_⟩
    split <;> rfl
  | overcurrent level => exact ⟨_, rfl, overcurrent_writes s level⟩
  | rechargeStep =>
    exact ⟨_, rfl, CommandWrites.unlessReset ((keeps_recharge s).tables_eq (State.recharge_engineTables s))⟩
  | pulseEnd sense =>
    refine ⟨_, rfl, CommandWrites.unlessReset ?_⟩
    split
    · exact (keeps_pulseEnds s sense).tables_butDead (State.pulseEnds_butDead s sense)
    · rfl
  | gapEnd =>
    refine ⟨_, rfl, CommandWrites.unlessReset ?_⟩
    split
    · exact (keeps_gapEnds s).tables_eq (State.gapEnds_engineTables s)
    · rfl
  | stripExamination =>
    have hkeeps := (drawKeeps_generatorEvent s).toKeeps.trans (keeps_driverArbiter _)
    exact ⟨_, rfl, CommandWrites.unlessReset (hkeeps.tables_eq
      ((State.driverArbiter_engineTables _).trans (State.generatorEvent_engineTables s)))⟩
  | sweepExpiry =>
    exact ⟨_, rfl, CommandWrites.unlessReset ((keeps_sweepExpires s).tables_butCursor (State.sweepExpires_butCursor s))⟩
  | scanEnd xb yb =>
    exact ⟨_, rfl,
      CommandWrites.unlessReset ((keeps_scanEnds s xb yb).tables_butCounters (State.scanEnds_butCounters s xb yb))⟩
  | characterReceived data stop =>
    refine ⟨_, rfl, ?_⟩
    split
    · exact receive_anyMessage s _
    · rfl
  | frameDropped body =>
    refine ⟨_, rfl, commandWrites_of_eq _ ?_⟩
    split <;> rfl

/-- Settles O2: the statement reads off, command by command, which tables stand by `Tables.command`. -/
theorem tablesChangeOnlyByTheirCommands : Obligations.TablesChangeOnlyByTheirCommands := by
  intro i s hw
  obtain ⟨t, hexec, hwrites⟩ := exec_writes hw s
  refine ⟨t, hexec, ?_⟩
  obtain ⟨hpending, hsettings, haddress, hrate, hstore, hzones, hdead, hsubscription, hcontact, htag, hcursor, hocin,
    hreset⟩ := Tables.ext_iff.1 hwrites
  -- each conjunct is now one of these equations, or `True` for a table that the command writes
  cases i <;> trivial

end Sys2Proof.Machine
end

