-- ==== Sys2Proof/Proofs/FrontOfTheQueue.lean ====
section
/-!
SUPPORT. What a step is, by the queue of commands that wait (log 3): its front, or nothing to do.
-/

namespace Sys2Proof.Machine

variable {s : State} {c : Instr} {rest : List Instr}

theorem step_of_pending_cons (h : s.pending = c :: rest) : step s = exec c { s with pending := rest } := by
  unfold step
  rw [h]

theorem step_of_pending_nil (h : s.pending = []) : step s = .next s := by
  unfold step
  rw [h]

/-- Settles O1, by the two shapes of the queue: `step_of_pending_cons` overwrites the queue that stands, and
`step_of_pending_nil` is the idle step. -/
theorem stepRunsFrontCommand : Obligations.StepRunsFrontCommand := by
  refine ⟨fun c rest s => ?_, fun s hidle => step_of_pending_nil hidle⟩
  have hfront : ({ s with pending := c :: rest } : State).pending = c :: rest := rfl
  exact step_of_pending_cons hfront

end Sys2Proof.Machine
end
